-- ==== Sys2Proof/Word.lean ====
section
/-! DEFINITION. The block's two word types (00_scope.md R8): a byte of a stream and a 32-bit register. -/

namespace Sys2Proof

/-- A symbol, a code as serialized, or any other stream byte (00_scope.md R7, SYMBOL_BITS and CODE_BITS). -/
abbrev Byte := BitVec 8

/-- A register value (10_state.md R22: "Every register is 32 bits wide"). -/
abbrev Word := BitVec 32

end Sys2Proof
end

