-- ==== Sys2Proof/Config.lean ====
section
/-! DEFINITION. What the platform or the implementation fixes (the OPEN parameters of 00_scope.md R7) and the free
values, which the spec leaves unspecified. The opaque constants have no body: nothing can be proved about their values
beyond their types (notes/assumptions 7 and 8). -/

namespace Sys2Proof.Config

/-- How far IBUF_SIZE lies above its least value; the type is the spec's range 65279..2^32 - 2, moved to 0. -/
opaque ibufExtra : Fin 4294902016

/-- IBUF_SIZE, OPEN, "65279 <= IBUF_SIZE <= 2^32 - 2" (20_memory.md R66). -/
def ibufSize : Nat := ibufExtra.val + 65279

/-- REG_BASE of instance `inst`, OPEN: the platform address of its register offset 0 (20_memory.md R60;
60_exceptions.md R305 "each at its own REG_BASE"). -/
opaque regBase (inst : Nat) : Nat

/-- The blocks of the platform beyond the first. -/
opaque extraInstances : Nat

/-- N_INSTANCES, OPEN, at least 1 (60_exceptions.md R305). -/
def nInstances : Nat := extraInstances + 1

/-- The name of one draw of free values: the instance that draws and how many draws it made before, so that neither two
draws nor two instances share a value (notes/assumptions/7). -/
structure Draw where
  inst : Nat
  count : Nat
  deriving DecidableEq, Repr

/-- What a register read whose value is unspecified returns (44_control.md R264; 93_implementation_defined.md I4). -/
opaque freeWord : Draw → Word

/-- ALPHA bytes that are unspecified: the draw, then the index (60_exceptions.md R293 "U"; R311). -/
opaque freeAlpha : Draw → Nat → Byte

/-- ALPHA_N where it is unspecified: any of 0..255 (93_implementation_defined.md I6). -/
opaque freeAlphaN : Draw → Byte

/-- DICT_NEXT - 1 where DICT_NEXT is unspecified: DICT_NEXT is any of 1..256 (93_implementation_defined.md I6). -/
opaque freeNext : Draw → Fin 256

/-- DICT slots after a reset event: none, or the first byte and the rest of a sequence (70_reset_and_hazards.md R311). -/
opaque freeSlot : Draw → Nat → Option (Byte × List Byte)

/-- W_CODE and PREV_CODE after a reset event (70_reset_and_hazards.md R311 "codes unspecified"). -/
opaque freeCode : Draw → Nat → Byte

/-- CS_CUR, POL_CUR and N_CUR after a reset event (70_reset_and_hazards.md R311). -/
opaque freeContext : Draw → BitVec 16 × Bool × Byte

/-- Byte `pos` of endless input `id` (70_reset_and_hazards.md R321; notes/assumptions/3). -/
opaque endlessByte (id pos : Nat) : Byte

/-- CHUNK_SIZE's largest legal value, 65535 - 256 (43_chunk_streamer.md R224). -/
abbrev maxChunkSize : Nat := 65279

/-- FBUF_SIZE (20_memory.md R67). -/
abbrev fbufSize : Nat := 65535

/-- MAX_ALPHABET (40_alphabet_scanner.md R121). -/
abbrev maxAlphabet : Nat := 255

/-- MAX_CODE, the largest assignable code (41_lzw_codec.md R142). -/
abbrev maxCode : Nat := 255

end Sys2Proof.Config
end

