-- ==== Sys2Proof/Syntax.lean ====
section
/-! DEFINITION. The command set: one constructor per row of spec/opcode_table.json (00_scope.md R3). A command word
has no operand field (30_encoding.md R90), so no constructor carries data. -/

namespace Sys2Proof

/-- The eight commands, in opcode order (30_encoding.md R91). -/
inductive Instr where
  /-- CLR (44_control.md R268) -/
  | clr
  /-- SCAN (40_alphabet_scanner.md R123) -/
  | scan
  /-- LZW_ENC (41_lzw_codec.md R159) -/
  | lzwEnc
  /-- LZW_DEC (41_lzw_codec.md R160) -/
  | lzwDec
  /-- FRM_ENC (42_frame_codec.md R194) -/
  | frmEnc
  /-- FRM_DEC (42_frame_codec.md R195) -/
  | frmDec
  /-- STR_ENC (43_chunk_streamer.md R223) -/
  | strEnc
  /-- STR_DEC (43_chunk_streamer.md R230) -/
  | strDec
  deriving DecidableEq, Repr

end Sys2Proof
end

