-- ==== Sys2Proof/WellFormed.lean ====
section
/-! DEFINITION. The checks on what the host hands the block: a command word (30_encoding.md R90, R92) and a register
access (20_memory.md R61). An `Instr` has no operand, so every `Instr` is well formed and needs no check. -/

namespace Sys2Proof

/-- A legal command word: RSVD = bits [31:4] are 0 and OP = bits [3:0] is one of 0..7 (30_encoding.md R90, R91). -/
def wordWf (v : Word) : Bool :=
  v.extractLsb' 4 28 == 0 && (v.extractLsb' 0 4).toNat < 8

/-- A register access is at an offset that is a multiple of 4 (20_memory.md R61). -/
def alignWf (off : Nat) : Bool := off % 4 == 0

/-- A register access is inside the 512-byte register space (20_memory.md R60). -/
def spaceWf (off : Nat) : Bool := off < 512

end Sys2Proof
end

