-- ==== Sys2Proof/Decode.lean ====
section
/-! DEFINITION. Decoding a command word (30_encoding.md R92), total on all words and on all byte lists, and the encoder
written from the opcode table (R91). -/

namespace Sys2Proof

/-- Why a word or a byte list is no command. The first two are ILLEGAL_COMMAND (30_encoding.md R92). -/
inductive IllegalWord where
  /-- RSVD != 0 -/
  | reservedBits
  /-- OP is one of 8..15 -/
  | reservedOp
  /-- not exactly four bytes: every command is one 32-bit word (R103) -/
  | notOneWord
  deriving DecidableEq, Repr

/-- The opcode table by OP (30_encoding.md R91): 8..15 are reserved. -/
def instrOfOp (op : BitVec 4) : Option Instr :=
  if op = 0 then some .clr
  else if op = 1 then some .scan
  else if op = 2 then some .lzwEnc
  else if op = 3 then some .lzwDec
  else if op = 4 then some .frmEnc
  else if op = 5 then some .frmDec
  else if op = 6 then some .strEnc
  else if op = 7 then some .strDec
  else none

/-- OP = v[3:0] (30_encoding.md R90). -/
def opField (v : Word) : BitVec 4 := v.extractLsb' 0 4

/-- RSVD = v[31:4] (30_encoding.md R90). -/
def rsvdField (v : Word) : BitVec 28 := v.extractLsb' 4 28

/-- Decode(v) (30_encoding.md R92). -/
def decode (v : Word) : Except IllegalWord Instr :=
  if rsvdField v ≠ 0 then .error .reservedBits
  else match instrOfOp (opField v) with
    | some i => .ok i
    | none => .error .reservedOp

/-- A 32-bit value from its bus bytes, least significant byte at the lowest address (20_memory.md R63). -/
def wordOfBytes (b0 b1 b2 b3 : Byte) : Word := b3 ++ b2 ++ b1 ++ b0

/-- Byte `j` of a word, byte 0 the least significant (20_memory.md R63). -/
def byteOfWord (w : Word) (j : Nat) : Byte := w.extractLsb' (8 * j) 8

/-- The bus bytes of a word, lowest address first. -/
def bytesOfWord (w : Word) : List Byte :=
  [byteOfWord w 0, byteOfWord w 1, byteOfWord w 2, byteOfWord w 3]

/-- Decoding any byte list: a command is exactly one 32-bit word (30_encoding.md R103). -/
def decodeBytes : List Byte → Except IllegalWord Instr
  | [b0, b1, b2, b3] => decode (wordOfBytes b0 b1 b2 b3)
  | _ => .error .notOneWord

/-- The OP of a command (30_encoding.md R91). -/
def opOf : Instr → BitVec 4
  | .clr => 0
  | .scan => 1
  | .lzwEnc => 2
  | .lzwDec => 3
  | .frmEnc => 4
  | .frmDec => 5
  | .strEnc => 6
  | .strDec => 7

/-- The command word of a command: RSVD = 0, OP in bits [3:0] (30_encoding.md R90, R91). -/
def encode (i : Instr) : Word := (0 : BitVec 28) ++ opOf i

/-- The instruction the decoder reads from an opcode-table word: its bytes as the bus stores them, low byte first. -/
def decodeTableWord (nbits w : Nat) : Option Instr :=
  if nbits ≤ 32 then
    match decodeBytes (bytesOfWord (BitVec.ofNat 32 (w % 2 ^ nbits))) with
    | .ok i => some i
    | .error _ => none
  else none

end Sys2Proof
end

