-- ==== Sys2Proof/Machine/State.lean ====
section
/-! DEFINITION. The block's state (10_state.md R21 to R43), the environment data the step reads (R44), the reasons a
step can stop, and the state after reset (70_reset_and_hazards.md R311). All of it is plain data. -/

namespace Sys2Proof.Machine

/-- STATUS.STATE (10_state.md R24). -/
inductive Stat where
  | idle | busy | done | error
  deriving DecidableEq, Repr

/-- STATUS.ERR: the codes of 60_exceptions.md R281. Codes 9..15 are never produced, so they have no constructor. -/
inductive Err where
  | noError | alphabetOverflow | dictionaryOverflow | malformedFrame | truncatedEnvelope | shortWrite
  | illegalCommand | badConfig | unitTooLong
  deriving DecidableEq, Repr

/-- CFG.OVF_POLICY (10_state.md R25). -/
inductive Policy where
  | freeze | error
  deriving DecidableEq, Repr

/-- PH, the sequencer phase (10_state.md R40). -/
inductive Phase where
  | idle | load | scan | enc | dec | chunkRead | envWrite | awaitHeader | awaitBody | finish
  deriving DecidableEq, Repr

/-- The host-visible registers that hold a value (10_state.md R24 to R32). CMD holds none (R23), IBUF_CAP is a constant
(R31), and reserved fields read 0 (R33). -/
structure Regs where
  /-- STATUS.STATE, bits [1:0] -/
  stat : Stat
  /-- STATUS.ERR, bits [7:4] -/
  err : Err
  /-- STATUS.LAST_OP, bits [11:8] -/
  lastOp : BitVec 4
  /-- CFG.CHUNK_SIZE, bits [15:0] -/
  chunkSize : BitVec 16
  /-- CFG.OVF_POLICY, bit [16] -/
  ovfPolicy : Policy
  /-- ALPHA_N.N, bits [7:0] -/
  alphaN : Byte
  /-- ALPHA[0..255] -/
  alpha : Vector Byte 256
  inCount : Word
  outCount : Word
  chunks : Word
  /-- DICT_NEXT.NEXT, bits [8:0] -/
  dictNext : BitVec 9
  deriving DecidableEq, Repr

/-- The LZW state machine's registers (10_state.md R34 to R37). -/
structure Lzw where
  /-- DICT, 256 slots indexed by code -/
  dict : Vector (Option (List Byte)) 256
  /-- NEXT, the next unused code, 1..256 -/
  next : BitVec 9
  wValid : Bool
  wCode : Byte
  prevValid : Bool
  prevCode : Byte
  deriving DecidableEq, Repr

/-- The engine's internal state (10_state.md R38 to R43). IBUF, FBUF and HDR are held as their valid prefixes, so that
IFILL, FFILL and HFILL are their lengths (notes/assumptions/9). -/
structure Engine where
  ph : Phase
  opCur : BitVec 4
  csCur : BitVec 16
  polCur : Policy
  nCur : Byte
  eosSeen : Bool
  /-- STR_ENC has made its CHUNK_SIZE check (43_chunk_streamer.md R224; notes/assumptions/14); the model's own -/
  cfgChecked : Bool
  ibuf : List Byte
  ipos : Nat
  fbuf : List Byte
  fneed : BitVec 16
  hdr : List Byte
  /-- OUTQ, oldest first -/
  outq : List Byte
  /-- the outcome of the end point while FINISH flushes OUTQ (44_control.md R266; notes/assumptions/11) -/
  outcome : Err
  lzw : Lzw
  deriving DecidableEq, Repr

/-- What a source does once its listed bytes are used up (notes/assumptions/3). -/
inductive SourceTail where
  /-- EOS (20_memory.md R68) -/
  | ends
  /-- no answer, ever (93_implementation_defined.md I12) -/
  | silent
  /-- an answer outside the contract (60_exceptions.md R308(b)) -/
  | breach
  /-- byte `pos` of endless input `id` comes next, then the one after it, for ever (70_reset_and_hazards.md R321) -/
  | endless (id pos : Nat)
  deriving DecidableEq, Repr

/-- What a sink does once its room is used up (notes/assumptions/3). -/
inductive SinkTail where
  /-- a short answer (20_memory.md R70) -/
  | ends
  /-- no answer, ever (93_implementation_defined.md I12) -/
  | silent
  /-- an answer outside the contract (60_exceptions.md R308(c)) -/
  | breach
  deriving DecidableEq, Repr

/-- A byte source: the bytes still to come, how it will split them into answers, and what follows them
(20_memory.md R68). Plan entry `k` asks for an answer of `k` bytes, moved into the contract's 1..n; after the plan it
answers as many as it can. -/
structure Source where
  stream : List Byte
  plan : List Nat
  tail : SourceTail
  deriving DecidableEq, Repr

/-- A byte sink: the bytes it holds, how many more it accepts (`none`: no limit), the sizes of the `SinkWrite` calls the
engine will make to it, and what follows (20_memory.md R70, R72's draw A). `calls` is WRITE_SPLIT (R71;
notes/assumptions/10): entry `k` asks for a call of `k` bytes, moved into 1..|OUTQ|; after the list a call offers all of
OUTQ. -/
structure Sink where
  held : List Byte
  room : Option Nat
  calls : List Nat
  tail : SinkTail
  deriving DecidableEq, Repr

/-- Where a register access goes: an offset in the register space, or a platform address (20_memory.md R60). -/
inductive Target where
  | offset (o : Nat)
  | address (a : Nat)
  deriving DecidableEq, Repr

/-- One line of a host program (30_encoding.md R104, R105), or one environment action that falls between accesses. -/
inductive HostOp where
  /-- `WR`: a 32-bit register write -/
  | write (t : Target) (v : Word)
  /-- `RD`: a 32-bit register read -/
  | read (t : Target)
  /-- an access of another width, in bytes (60_exceptions.md R308(a)) -/
  | narrow (t : Target) (bytes : Nat)
  /-- `WAIT`: read STATUS until it is not BUSY (30_encoding.md R105) -/
  | wait
  /-- `SRC`: the next command's input stream -/
  | src (stream : List Byte) (plan : List Nat) (tail : SourceTail)
  /-- `SINK`: how much the next command's sink accepts, and in which calls it will be offered -/
  | sink (room : Option Nat) (calls : List Nat) (tail : SinkTail)
  /-- the running command's source has more bytes to answer with (60_exceptions.md R307) -/
  | feed (more : List Byte) (tail : SourceTail)
  /-- the running command's sink accepts this many more bytes (`none`: no limit) -/
  | drain (more : Option Nat) (tail : SinkTail)
  /-- the scheduler's draw for the next acceptance (70_reset_and_hazards.md R320, R322) -/
  | quota (q : Option Nat)
  /-- the engine takes up to `n` steps before the next line (44_control.md R265) -/
  | engine (n : Nat)
  /-- a reset event (70_reset_and_hazards.md R310) -/
  | reset
  deriving DecidableEq, Repr

/-- The environment data the step reads and writes (10_state.md R44; notes/assumptions/3). -/
structure Env where
  /-- the host program still to be taken, next line first -/
  host : List HostOp
  /-- the running (or last) command's source and sink -/
  src : Source
  sink : Sink
  /-- the source and sink attached for the next command (60_exceptions.md R307) -/
  nextSrc : Source
  nextSink : Sink
  /-- what the sinks before the running (or last) command's hold, oldest first (44_control.md R269) -/
  past : List (List Byte)
  /-- how many engine steps follow the next acceptance before the host moves again; `none`: all of them -/
  quota : Option Nat
  /-- what register reads returned: offset and value, oldest first -/
  reads : List (Nat × Word)
  deriving DecidableEq, Repr

/-- The machine's whole state. -/
structure State where
  regs : Regs
  eng : Engine
  env : Env
  /-- which instance of the platform this block is (60_exceptions.md R305; notes/assumptions/20); the model's own, written
  by no step -/
  inst : Nat
  /-- the number of free values drawn so far (notes/assumptions/7); the model's own -/
  draws : Nat
  deriving DecidableEq, Repr

/-- Engine states that no run reaches and to which the spec gives no step (notes/assumptions/18). Safe. -/
inductive Fault where
  /-- PH has a value the running command's rule never sets; raised by the command steps. Safe. -/
  | badPhase
  /-- Code(s) or DICT[d] is asked of an absent entry (41_lzw_codec.md R141); raised by the LZW steps. Safe. -/
  | absentEntry
  /-- head(s) is asked of an empty sequence (00_scope.md R9); raised by the decoder. Safe. -/
  | headOfEmpty
  deriving DecidableEq, Repr

/-- What is outside the block's contract, so that the model refuses it (60_exceptions.md R308). All are safe. -/
inductive Refusal where
  /-- an instruction without a meaning; no arm of `exec` uses it. Safe. -/
  | notModelled (mnemonic : String)
  /-- a register access that is not 32 bits wide (R308(a)); raised by the step. Safe. -/
  | narrowAccess
  /-- a register access at an offset that is not a multiple of 4 (R308(a)); raised by the step. Safe. -/
  | misalignedAccess
  /-- a register access outside the 512-byte space (93_implementation_defined.md I9); raised by the step. Safe. -/
  | outsideRegisterSpace
  /-- a `SrcRead` answer outside the contract (R308(b)); raised by the engine's reads. Safe. -/
  | sourceContract
  /-- a `SinkWrite` answer outside the contract (R308(c)); raised by the engine's writes. Safe. -/
  | sinkContract
  deriving DecidableEq, Repr

/-- No stream attached: it is empty and ends with EOS (notes/assumptions/17). -/
def Source.none : Source := { stream := [], plan := [], tail := .ends }

/-- A sink that holds nothing and never answers short (30_encoding.md R104 "default: infinity"). -/
def Sink.unlimited : Sink := { held := [], room := Option.none, calls := [], tail := .ends }

/-- The registers after reset (70_reset_and_hazards.md R311); ALPHA's zeros are notes/assumptions/4. -/
def Regs.reset : Regs where
  stat := .idle
  err := .noError
  lastOp := 0
  chunkSize := 0x7FFF
  ovfPolicy := .freeze
  alphaN := 0
  alpha := Vector.replicate 256 0
  inCount := 0
  outCount := 0
  chunks := 0
  dictNext := 1

/-- The LZW registers after reset (70_reset_and_hazards.md R311); the unspecified ones are notes/assumptions/5. -/
def Lzw.reset : Lzw where
  dict := Vector.replicate 256 none
  next := 1
  wValid := false
  wCode := 0
  prevValid := false
  prevCode := 0

/-- The engine after reset (70_reset_and_hazards.md R311); the unspecified parts are notes/assumptions/5. -/
def Engine.reset : Engine where
  ph := .idle
  opCur := 0
  csCur := 0
  polCur := .freeze
  nCur := 0
  eosSeen := false
  cfgChecked := false
  ibuf := []
  ipos := 0
  fbuf := []
  fneed := 0
  hdr := []
  outq := []
  outcome := .noError
  lzw := Lzw.reset

/-- No host program, no streams attached, nothing read (notes/assumptions/2 and 3). -/
def Env.reset : Env where
  host := []
  src := Source.none
  sink := Sink.unlimited
  nextSrc := Source.none
  nextSink := Sink.unlimited
  past := []
  quota := none
  reads := []

/-- The machine right after reset (70_reset_and_hazards.md R310, R311). -/
def State.reset : State where
  regs := Regs.reset
  eng := Engine.reset
  env := Env.reset
  inst := 0
  draws := 0

/-- The next draw of free values. -/
def State.draw (s : State) : Config.Draw := { inst := s.inst, count := s.draws }

/-- STATUS.STATE = BUSY. -/
abbrev State.busy (s : State) : Prop := s.regs.stat = .busy

end Sys2Proof.Machine
end

