-- ==== Sys2Proof/Machine/Flags.lean ====
section
/-! DEFINITION. The block's only flags, STATUS.STATE and STATUS.ERR (10_state.md R46): their codes and how each event
sets them. -/

namespace Sys2Proof.Machine

/-- The code of STATUS.STATE (10_state.md R24). -/
def statCode : Stat → BitVec 2
  | .idle => 0
  | .busy => 1
  | .done => 2
  | .error => 3

/-- The code of STATUS.ERR (60_exceptions.md R281). -/
def errCode : Err → BitVec 4
  | .noError => 0
  | .alphabetOverflow => 1
  | .dictionaryOverflow => 2
  | .malformedFrame => 3
  | .truncatedEnvelope => 4
  | .shortWrite => 5
  | .illegalCommand => 6
  | .badConfig => 7
  | .unitTooLong => 8

/-- The code of CFG.OVF_POLICY (10_state.md R25). -/
def policyCode : Policy → BitVec 1
  | .freeze => 0
  | .error => 1

/-- The policy a bit selects (10_state.md R25). -/
def policyOfBit (b : BitVec 1) : Policy := if b = 0 then .freeze else .error

/-- STATUS, zext_32(LAST_OP << 8 | ERR << 4 | STATE) (30_encoding.md R101). -/
def statusWord (r : Regs) : Word :=
  (r.lastOp ++ errCode r.err ++ (0 : BitVec 2) ++ statCode r.stat).setWidth 32

/-- The flags of a completion: DONE with ERR = 0, or ERROR with the error's code (44_control.md R266). -/
def setOutcome (e : Err) (r : Regs) : Regs :=
  { r with err := e, stat := if e = .noError then .done else .error }

/-- What every acceptance does first: counters 0, ERR 0, LAST_OP = v[3:0] (44_control.md R261). -/
def clearForCommand (op : BitVec 4) (r : Regs) : Regs :=
  { r with inCount := 0, outCount := 0, chunks := 0, err := .noError, lastOp := op }

end Sys2Proof.Machine
end

