-- ==== Sys2Proof/Machine/Operands.lean ====
section
/-! DEFINITION. Where operands come from and how fields are assembled: the register map (10_state.md R22), CFG, the
ALPHA window (R32), the big-endian envelope fields (30_encoding.md R99) and the frame's parts (R95). -/

namespace Sys2Proof.Machine

/-- The registers by name (10_state.md R22). -/
inductive RegName where
  | cmd | status | cfg | alphaN | inCount | outCount | chunks | dictNext | ibufCap | reserved
  /-- word `k` of the ALPHA window, at 0x100 + 4k -/
  | alphaWord (k : Nat)
  deriving DecidableEq, Repr

/-- The register at an aligned offset of the register space (10_state.md R22, R33). -/
def regAt (off : Nat) : RegName :=
  if off = 0x000 then .cmd
  else if off = 0x004 then .status
  else if off = 0x008 then .cfg
  else if off = 0x00C then .alphaN
  else if off = 0x010 then .inCount
  else if off = 0x014 then .outCount
  else if off = 0x018 then .chunks
  else if off = 0x01C then .dictNext
  else if off = 0x020 then .ibufCap
  else if off < 0x100 then .reserved
  else .alphaWord ((off - 0x100) / 4)

/-- The offset an access to the block at REG_BASE `base` names: itself, or its platform address less REG_BASE
(20_memory.md R60). An address below REG_BASE has none. -/
def offsetOf (base : Nat) : Target → Option Nat
  | .offset o => some o
  | .address a => if base ≤ a then some (a - base) else none

/-- An access the block at REG_BASE `base` takes: inside the space and aligned (20_memory.md R60, R61), or why the model
refuses it. -/
def resolve (base : Nat) (t : Target) : Except Refusal Nat :=
  match offsetOf base t with
  | none => .error .outsideRegisterSpace
  | some off =>
    if spaceWf off = false then .error .outsideRegisterSpace
    else if alignWf off = false then .error .misalignedAccess
    else .ok off

/-- CFG as read: reserved bits [31:17] are 0 (10_state.md R25). -/
def cfgWord (r : Regs) : Word := (policyCode r.ovfPolicy ++ r.chunkSize).setWidth 32

/-- A write to CFG stores CHUNK_SIZE and OVF_POLICY and ignores bits [31:17] (10_state.md R25). -/
def setCfg (v : Word) (r : Regs) : Regs :=
  { r with chunkSize := v.extractLsb' 0 16, ovfPolicy := policyOfBit (v.extractLsb' 16 1) }

/-- A write to ALPHA_N stores bits [7:0] (10_state.md R26). -/
def setAlphaN (v : Word) (r : Regs) : Regs := { r with alphaN := v.extractLsb' 0 8 }

/-- ALPHA[i] of the window; indices past 255 do not occur. -/
def alphaByte (r : Regs) (i : Nat) : Byte := (r.alpha[i]?).getD 0

/-- Word `k` of the ALPHA window: ALPHA[4k] in bits [7:0] up to ALPHA[4k+3] in bits [31:24] (10_state.md R32). -/
def alphaWord (r : Regs) (k : Nat) : Word :=
  wordOfBytes (alphaByte r (4 * k)) (alphaByte r (4 * k + 1)) (alphaByte r (4 * k + 2)) (alphaByte r (4 * k + 3))

/-- ALPHA with word `k` of the window replaced by `v`: all four bytes (10_state.md R32). -/
def writeWord (k : Nat) (v : Word) (alpha : Vector Byte 256) : Vector Byte 256 :=
  Vector.ofFn fun i : Fin 256 => if i.val / 4 = k then byteOfWord v (i.val % 4) else alpha[i.val]

/-- A host write to word `k` of the window (10_state.md R32). -/
def setAlphaWord (k : Nat) (v : Word) (r : Regs) : Regs := { r with alpha := writeWord k v r.alpha }

/-- ALPHA with its first bytes replaced by `alpha`; the rest unchanged (10_state.md R32). -/
def writePrefix (alpha : List Byte) (v : Vector Byte 256) : Vector Byte 256 :=
  Vector.ofFn fun i : Fin 256 => (alpha[i.val]?).getD v[i.val]

/-- ALPHA_N <- N; ALPHA[0..N-1] <- alpha (40_alphabet_scanner.md R123). -/
def setAlphabet (alpha : List Byte) (r : Regs) : Regs :=
  { r with alphaN := BitVec.ofNat 8 alpha.length, alpha := writePrefix alpha r.alpha }

/-- LZW_DEC's alphabet operand: ALPHA[0..N-1] (30_encoding.md R93; 41_lzw_codec.md R160). -/
def alphabetOperand (n : Byte) (r : Regs) : List Byte := r.alpha.toList.take n.toNat

/-- A 16-bit length, most significant byte first: [L[15:8], L[7:0]] (30_encoding.md R99). -/
def be16 (n : Nat) : List Byte :=
  [(BitVec.ofNat 16 n).extractLsb' 8 8, (BitVec.ofNat 16 n).extractLsb' 0 8]

/-- 256 * hi + lo, as the 16-bit FRAME_LEN (30_encoding.md R99). -/
def fromBe16 (hi lo : Byte) : BitVec 16 := hi ++ lo

/-- The code bytes of a frame in a buffer, after its header part `[N] ++ alpha` (42_frame_codec.md R191). -/
def frameCodes (n : Byte) (buf : List Byte) : List Byte := buf.drop (1 + n.toNat)

/-- FRAME_LEN of a collected header: HDR[2] and HDR[3] (43_chunk_streamer.md R226). -/
def frameLen (hdr : List Byte) : BitVec 16 := fromBe16 ((hdr[2]?).getD 0) ((hdr[3]?).getD 0)

/-- Env(L, fr) (30_encoding.md R99). -/
def envelope (origLen : Nat) (fr : List Byte) : List Byte := be16 origLen ++ be16 fr.length ++ fr

/-- The frame header part `[N] ++ alpha` (30_encoding.md R95); nothing when N = 0 (R96). -/
def frameHeader (alpha : List Byte) : List Byte :=
  if alpha = [] then [] else BitVec.ofNat 8 alpha.length :: alpha

/-- Byte `i` of a buffer that is known to hold it. -/
def byteAt (buf : List Byte) (i : Nat) : Byte := (buf[i]?).getD 0

end Sys2Proof.Machine
end

