-- ==== Sys2Proof/Machine/Ops.lean ====
section
/-! DEFINITION. The operations every command shares: the stream primitives (20_memory.md R66 to R72), acceptance,
raising an error and completing (44_control.md R261, R266; 60_exceptions.md R280, R293), and running the engine. -/

namespace Sys2Proof.Machine

/-- The result of one engine step: a new state, a wait for the environment's answer (44_control.md R265), or a stop. -/
inductive Turn where
  | went (s : State)
  | waits
  | fault (f : Fault)
  | refused (r : Refusal)
  deriving DecidableEq, Repr

/-! ### The byte source and the byte sink -/

/-- A source's answer to `SrcRead(n)` (20_memory.md R68). -/
inductive SrcAnswer where
  | data (r : List Byte) (rest : Source)
  | eos
  | silent
  | breach
  deriving DecidableEq, Repr

/-- How many bytes the source answers with: the plan's next wish, moved into 1..min(n, bytes left). -/
def answerSize (n : Nat) (src : Source) : Nat :=
  match src.plan with
  | [] => min n src.stream.length
  | k :: _ => max 1 (min k (min n src.stream.length))

/-- The source with at least `n` bytes listed, and at least one, where its input is endless
(70_reset_and_hazards.md R321). -/
def Source.listed (n : Nat) (src : Source) : Source :=
  match src.tail with
  | .ends | .silent | .breach => src
  | .endless id pos =>
    let m := max 1 n - src.stream.length
    { src with
      stream := src.stream ++ (List.range m).map fun j => Config.endlessByte id (pos + j)
      tail := .endless id (pos + m) }

/-- `SrcRead(n)` for n >= 1 from the listed bytes (20_memory.md R68): the next ones in order, or what the stream's end
gives. Endless input always has bytes listed here. -/
def answer (n : Nat) (src : Source) : SrcAnswer :=
  if src.stream = [] then
    match src.tail with
    | .ends => .eos
    | .silent | .endless _ _ => .silent
    | .breach => .breach
  else
    .data (src.stream.take (answerSize n src))
      { src with stream := src.stream.drop (answerSize n src), plan := src.plan.tail }

/-- `SrcRead(n)` for n >= 1 (20_memory.md R68). -/
def srcRead (n : Nat) (src : Source) : SrcAnswer := answer n (src.listed n)

/-- A sink's answer to `SinkWrite(s)` (20_memory.md R70). -/
inductive SinkAnswer where
  | accepted (a : Nat) (rest : Sink)
  | silent
  | breach
  deriving DecidableEq, Repr

/-- The sink after it has taken `bs`. -/
def Sink.take (bs : List Byte) (k : Sink) : Sink :=
  { k with held := k.held ++ bs, room := k.room.map (· - bs.length) }

/-- Whether a sink takes `n` more bytes whole. -/
def Sink.fits (n : Nat) (k : Sink) : Bool :=
  match k.room with
  | none => true
  | some r => n ≤ r

/-- How many of `n` pending bytes the engine's next `SinkWrite` offers (20_memory.md R71 WRITE_SPLIT). -/
def Sink.callSize (n : Nat) (k : Sink) : Nat :=
  match k.calls with
  | [] => n
  | c :: _ => max 1 (min c n)

/-- The sink once the next call is made: its size is used up. -/
def Sink.called (k : Sink) : Sink := { k with calls := k.calls.tail }

/-- `SinkWrite(bs)`, |bs| >= 1 (20_memory.md R70): the whole of it while there is room, then what the sink's end
gives; a short answer takes the leading bytes there is room for. -/
def sinkWrite (bs : List Byte) (k : Sink) : SinkAnswer :=
  if k.fits bs.length then .accepted bs.length (k.take bs)
  else
    match k.tail with
    | .ends => .accepted (k.room.getD 0) (k.take (bs.take (k.room.getD 0)))
    | .silent => .silent
    | .breach => .breach

/-! ### Small updates of the state -/

/-- `phase <- p` (00_scope.md R10). -/
def State.toPhase (p : Phase) (s : State) : State := { s with eng.ph := p }

/-- `Emit(bs)` (00_scope.md R10): appended to OUTQ. -/
def State.emit (bs : List Byte) (s : State) : State := { s with eng.outq := s.eng.outq ++ bs }

/-- IN_COUNT <- (IN_COUNT + n) mod 2^32 (10_state.md R27). -/
def State.countIn (n : Nat) (s : State) : State := { s with regs.inCount := s.regs.inCount + BitVec.ofNat 32 n }

/-- OUT_COUNT <- (OUT_COUNT + n) mod 2^32 (10_state.md R28). -/
def State.countOut (n : Nat) (s : State) : State := { s with regs.outCount := s.regs.outCount + BitVec.ofNat 32 n }

/-- CHUNKS <- (CHUNKS + 1) mod 2^32 (10_state.md R29). -/
def State.countChunk (s : State) : State := { s with regs.chunks := s.regs.chunks + 1 }

/-- EOS_SEEN <- 1 (10_state.md R42). -/
def State.sawEos (s : State) : State := { s with eng.eosSeen := true }

/-- DICT_NEXT <- NEXT (10_state.md R30). -/
def State.latchNext (s : State) : State := { s with regs.dictNext := s.eng.lzw.next }

/-- The running command's source becomes `src`. -/
def State.withSrc (src : Source) (s : State) : State := { s with env.src := src }

/-- The running command's sink becomes `k`. -/
def State.withSink (k : Sink) (s : State) : State := { s with env.sink := k }

/-- The LZW registers become `r`. -/
def State.withLzw (r : Lzw) (s : State) : State := { s with eng.lzw := r }

/-- Append to IBUF; IFILL counts it (10_state.md R38). -/
def State.fillIbuf (bs : List Byte) (s : State) : State := { s with eng.ibuf := s.eng.ibuf ++ bs }

/-- Append to FBUF; FFILL counts it (10_state.md R39). -/
def State.fillFbuf (bs : List Byte) (s : State) : State := { s with eng.fbuf := s.eng.fbuf ++ bs }

/-- Append to HDR; HFILL counts it (10_state.md R41). -/
def State.fillHdr (bs : List Byte) (s : State) : State := { s with eng.hdr := s.eng.hdr ++ bs }

/-- IPOS <- n (10_state.md R38). -/
def State.seek (n : Nat) (s : State) : State := { s with eng.ipos := n }

/-- N_CUR <- n, the unit's alphabet size (10_state.md R42). -/
def State.withN (n : Nat) (s : State) : State := { s with eng.nCur := BitVec.ofNat 8 n }

/-- ALPHA_N and ALPHA[0..N-1] take the unit's alphabet (10_state.md R26, R32). -/
def State.publishAlphabet (alpha : List Byte) (s : State) : State := { s with regs := setAlphabet alpha s.regs }

/-! ### The end of a command -/

/-- The end point of a command's rule: FINISH with the outcome; OUTQ is flushed before completion
(44_control.md R266). -/
def State.endWith (e : Err) (s : State) : State := { s with eng.ph := .finish, eng.outcome := e }

/-- `raise e` (60_exceptions.md R280): no later step of the rule runs, and the command completes with outcome `e`. -/
def raise (e : Err) (s : State) : State := s.endWith e

/-- `phase <- FINISH; complete DONE`. -/
def finishDone (s : State) : State := s.endWith .noError

/-- Whether the running command is one of the two streamers. -/
def isStreamer (op : BitVec 4) : Bool := op = opOf .strEnc || op = opOf .strDec

/-- The "U" entries of 60_exceptions.md R293 for ALPHA_N and ALPHA: after ALPHABET_OVERFLOW, and after a streamer
unless BAD_CONFIG. -/
def alphabetUnspecified (op : BitVec 4) (e : Err) : Bool :=
  e = .alphabetOverflow || (isStreamer op && e ≠ .badConfig)

/-- The "U" entries of 60_exceptions.md R293 for DICT_NEXT: after a streamer unless BAD_CONFIG, after SHORT_WRITE, and
after ALPHABET_OVERFLOW except in SCAN. -/
def nextUnspecified (op : BitVec 4) (e : Err) : Bool :=
  (isStreamer op && e ≠ .badConfig) || e = .shortWrite || (e = .alphabetOverflow && op ≠ opOf .scan)

/-- The 256 bytes of ALPHA as the free draw `d`. -/
def freeAlphabet (d : Config.Draw) : Vector Byte 256 := Vector.ofFn fun i : Fin 256 => Config.freeAlpha d i.val

/-- ALPHA_N and ALPHA as the free draw `d`. -/
def drawAlphabet (d : Config.Draw) (r : Regs) : Regs :=
  { r with alphaN := Config.freeAlphaN d, alpha := freeAlphabet d }

/-- DICT_NEXT as the free draw `d`, in 1..256. -/
def drawNext (d : Config.Draw) (r : Regs) : Regs :=
  { r with dictNext := BitVec.ofNat 9 ((Config.freeNext d).val + 1) }

/-- The result registers of a completion that 60_exceptions.md R293 leaves unspecified; the specified ones were
written by the command's rule. -/
def drawResults (op : BitVec 4) (e : Err) (d : Config.Draw) (r : Regs) : Regs :=
  let r1 := if alphabetUnspecified op e then drawAlphabet d r else r
  if nextUnspecified op e then drawNext d r1 else r1

/-- Complete(outcome), the one atomic register update (44_control.md R266). -/
def complete (e : Err) (s : State) : State :=
  { s with
    regs := setOutcome e (drawResults s.eng.opCur e s.draw s.regs)
    eng.ph := .idle
    eng.outq := []
    draws := s.draws + 1 }

/-- FINISH with OUTQ flushed: complete with the latched outcome. -/
def finishStep (s : State) : Turn := .went (complete s.eng.outcome s)

/-- The bytes of OUTQ that the next `SinkWrite` offers (20_memory.md R71 WRITE_SPLIT). -/
def State.offered (s : State) : List Byte := s.eng.outq.take (s.env.sink.callSize s.eng.outq.length)

/-- The end point at a short answer: SHORT_WRITE is raised and nothing more is offered (60_exceptions.md R286;
20_memory.md R71(c)). DESIGN CHOICE (notes/assumptions/24): OUTQ is emptied here, not at completion. -/
def State.cutShort (s : State) : State := raise .shortWrite { s with eng.outq := [] }

/-- One `SinkWrite` of the next piece of OUTQ, with the counting of its answer (20_memory.md R70, R71; 44_control.md R265).
The completion that a short answer leads to is a step of its own. -/
def flushStep (s : State) : Turn :=
  match sinkWrite s.offered s.env.sink.called with
  | .accepted a k =>
    let t := (s.withSink k).countOut a
    if a = s.offered.length then .went { t with eng.outq := s.eng.outq.drop a }
    else .went t.cutShort
  | .silent => .waits
  | .breach => .refused .sinkContract

/-- All pending output is offered before anything else happens, so before any read and before completion
(20_memory.md R71(a), (b); the moments are DESIGN CHOICE, notes/assumptions/10). -/
def flushFirst (f : State → Turn) (s : State) : Turn :=
  if s.eng.outq = [] then f s else flushStep s

/-- A step that reads up to `n` bytes: what it does at EOS and with the bytes is the phase's rule. The delivered bytes
are counted (10_state.md R27). -/
def readStep (n : Nat) (onEos : State → State) (onData : List Byte → State → State) (s : State) : Turn :=
  match srcRead n s.env.src with
  | .data r rest => .went (onData r ((s.withSrc rest).countIn r.length))
  | .eos => .went (onEos s.sawEos)
  | .silent => .waits
  | .breach => .refused .sourceContract

/-- LOAD (20_memory.md R66): fill IBUF until EOS, then do `after`. -/
def loadStep (after : State → Turn) (s : State) : Turn :=
  if s.eng.eosSeen then after s
  else
    readStep (Config.ibufSize + 1 - s.eng.ibuf.length) id
      (fun r t =>
        if t.eng.ibuf.length + r.length > Config.ibufSize then raise .unitTooLong t else t.fillIbuf r)
      s

/-! ### Acceptance and running -/

/-- Accept(v) for a legal word other than CLR (44_control.md R261). The command takes the attached streams
(60_exceptions.md R307). -/
def accept (op : BitVec 4) (first : Phase) (s : State) : State :=
  { s with
    regs := { clearForCommand op s.regs with stat := .busy }
    eng := { s.eng with
      ph := first, opCur := op, csCur := s.regs.chunkSize, polCur := s.regs.ovfPolicy, nCur := s.regs.alphaN
      eosSeen := false, cfgChecked := false, ibuf := [], ipos := 0, fbuf := [], fneed := 0, hdr := [], outq := []
      outcome := .noError }
    env := { s.env with
      src := s.env.nextSrc, sink := s.env.nextSink, nextSrc := Source.none, nextSink := Sink.unlimited
      past := s.env.past ++ [s.env.sink.held], quota := none } }

/-- Acceptance of an illegal word: ERROR with ILLEGAL_COMMAND at once, no engine activity, no stream touched
(44_control.md R261; 60_exceptions.md R287). -/
def acceptIllegal (v : Word) (s : State) : State :=
  { s with regs := { clearForCommand (opField v) s.regs with err := .illegalCommand, stat := .error } }

/-- Up to `n` engine steps of rule `f` while BUSY, ending early where the engine waits (44_control.md R265). -/
def runTurns (f : State → Turn) : Nat → State → Host.Outcome State Fault Refusal
  | 0, s => .next s
  | n + 1, s =>
    if s.regs.stat = .busy then
      match f s with
      | .went t => runTurns f n t
      | .waits => .next s
      | .fault e => .fault e
      | .refused r => .refused r
    else .next s

/-- The reads that LOAD may make of endless input (20_memory.md R66); of finite input the listed bytes bound them. -/
def endlessBudget (t : SourceTail) : Nat :=
  match t with
  | .ends | .silent | .breach => 0
  | .endless _ _ => Config.ibufSize + 1

/-- Enough engine steps for a command on finite input to reach its end point or a wait (70_reset_and_hazards.md R321);
on endless input, for LOAD to end. -/
def stepBudget (s : State) : Nat :=
  16 * (s.env.src.stream.length + endlessBudget s.env.src.tail + s.eng.ibuf.length + s.eng.fbuf.length +
    s.eng.hdr.length) + s.env.sink.calls.length + 64

/-- A CMD write of a command with opcode `op`, first phase `first` and engine rule `f`: ignored while BUSY
(44_control.md R262); otherwise accepted, and then the engine runs as far as the scheduler's quota lets it
(70_reset_and_hazards.md R322; notes/assumptions/1). -/
def issue (op : BitVec 4) (first : Phase) (f : State → Turn) (s : State) : Host.Outcome State Fault Refusal :=
  if s.regs.stat = .busy then .next s
  else runTurns f (s.env.quota.getD (stepBudget (accept op first s))) (accept op first s)

end Sys2Proof.Machine
end

