-- ==== Sys2Proof/Machine/Scanner.lean ====
section
/-! DEFINITION. The alphabet scanner and the SCAN command (40_alphabet_scanner.md). -/

namespace Sys2Proof.Machine

/-- One byte of the scan (40_alphabet_scanner.md R120): `none` where ALPHABET_OVERFLOW is raised (R121). -/
def scanByte (alpha : List Byte) (b : Byte) : Option (List Byte) :=
  if b ∈ alpha then some alpha
  else if alpha.length = Config.maxAlphabet then none
  else some (alpha ++ [b])

/-- The scan from an alphabet already found. -/
def scanFrom : List Byte → List Byte → Option (List Byte)
  | alpha, [] => some alpha
  | alpha, b :: bs =>
    match scanByte alpha b with
    | some alpha' => scanFrom alpha' bs
    | none => none

/-- Scan(data) (40_alphabet_scanner.md R120): the alphabet, whose length is N, or `none` for ALPHABET_OVERFLOW. -/
def scan (data : List Byte) : Option (List Byte) := scanFrom [] data

/-- The SCAN phase of the commands that encode: scan the buffered unit, then `onAlphabet` (one engine step,
44_control.md R265). N_CUR takes the alphabet's size; DESIGN CHOICE (notes/assumptions/21): ALPHABET_OVERFLOW does not
write it. -/
def scanPhase (onAlphabet : List Byte → State → State) (s : State) : Turn :=
  match scan s.eng.ibuf with
  | some alpha => .went (onAlphabet alpha (s.withN alpha.length))
  | none => .went (raise .alphabetOverflow s)

/-- One engine step of SCAN (40_alphabet_scanner.md R123). -/
def scanCmdStep : State → Turn := flushFirst fun s =>
  match s.eng.ph with
  | .load => loadStep (fun t => .went (t.toPhase .scan)) s
  | .scan => scanPhase (fun alpha t => finishDone (t.publishAlphabet alpha)) s
  | .finish => finishStep s
  | _ => .fault .badPhase

/-- SCAN (40_alphabet_scanner.md R123). -/
def execScan (s : State) : Host.Outcome State Fault Refusal := issue (opOf .scan) .load scanCmdStep s

end Sys2Proof.Machine
end

