-- ==== Sys2Proof/Machine/Lzw.lean ====
section
/-! DEFINITION. The LZW dictionary state machine, its encode and decode steps, and the commands LZW_ENC and LZW_DEC
(41_lzw_codec.md). -/

namespace Sys2Proof.Machine

/-! ### Dictionary operations (41_lzw_codec.md R140 to R143) -/

/-- The seeded slots: symbol alpha[i] at code i + 1, every other slot none (41_lzw_codec.md R140). -/
def seedSlots (alpha : List Byte) : Vector (Option (List Byte)) 256 :=
  Vector.ofFn fun k : Fin 256 => if k.val = 0 then none else (alpha[k.val - 1]?).map fun b => [b]

/-- Seed(alpha) (41_lzw_codec.md R140), with W empty as R144 sets it for an encode run and PREV as R150 does for a decode
run. DESIGN CHOICE (notes/assumptions/5): both directions clear both, with codes 0; R144 says nothing of PREV, R150
nothing of W. -/
def Lzw.seed (alpha : List Byte) : Lzw where
  dict := seedSlots alpha
  next := BitVec.ofNat 9 (alpha.length + 1)
  wValid := false
  wCode := 0
  prevValid := false
  prevCode := 0

/-- DICT[d] (41_lzw_codec.md R141). -/
def Lzw.slot (d : Byte) (r : Lzw) : Option (List Byte) := (r.dict[d.toNat]?).getD none

/-- The first index from `k` on whose slot holds `s`. -/
def findSlot : List (Option (List Byte)) → Nat → List Byte → Option Nat
  | [], _, _ => none
  | o :: os, k, s => if o = some s then some k else findSlot os (k + 1) s

/-- Code(s), where `s in DICT` (41_lzw_codec.md R141); `none` where s is absent. -/
def Lzw.code (s : List Byte) (r : Lzw) : Option Byte := (findSlot r.dict.toList 0 s).map (BitVec.ofNat 8)

/-- DICT[NEXT] <- s; NEXT <- NEXT + 1 (41_lzw_codec.md R142). -/
def Lzw.insert (s : List Byte) (r : Lzw) : Lzw :=
  { r with dict := r.dict.setIfInBounds r.next.toNat (some s), next := r.next + 1 }

/-- An insertion would be the overflow: NEXT > MAX_CODE (41_lzw_codec.md R142). -/
def Lzw.full (r : Lzw) : Bool := r.next.toNat > Config.maxCode

/-- EncInsert(s) (41_lzw_codec.md R142): `none` where DICTIONARY_OVERFLOW is raised. -/
def encInsert (pol : Policy) (s : List Byte) (r : Lzw) : Option Lzw :=
  if r.full then
    match pol with
    | .error => none
    | .freeze => some r
  else some (r.insert s)

/-- DecInsert(s) (41_lzw_codec.md R143). -/
def decInsert (s : List Byte) (r : Lzw) : Lzw := if r.full then r else r.insert s

/-- W as a byte sequence (10_state.md R36). -/
def Lzw.w (r : Lzw) : List Byte := if r.wValid then (r.slot r.wCode).getD [] else []

/-- PREV as a byte sequence (10_state.md R37). -/
def Lzw.prev (r : Lzw) : List Byte := if r.prevValid then (r.slot r.prevCode).getD [] else []

/-- What one LZW step does: new registers and the bytes it emits, an error raised after those bytes, or a stop in a
state no run reaches. -/
inductive LzwResult where
  | ok (r : Lzw) (out : List Byte)
  | raised (e : Err) (r : Lzw) (out : List Byte)
  | fault (f : Fault)
  deriving DecidableEq, Repr

/-! ### The encode state machine (41_lzw_codec.md R144 to R146) -/

/-- A miss of EncStep: emit Code(W), insert W ++ [c], restart W from [c], in that order (41_lzw_codec.md R145). -/
def encMiss (pol : Policy) (c : Byte) (r : Lzw) : LzwResult :=
  if r.wValid = false then .fault .absentEntry
  else
    match encInsert pol (r.w ++ [c]) r with
    | none => .raised .dictionaryOverflow r [r.wCode]
    | some r' =>
      match r'.code [c] with
      | some k => .ok { r' with wCode := k } [r.wCode]
      | none => .fault .absentEntry

/-- EncStep(c) (41_lzw_codec.md R145). -/
def encStep (pol : Policy) (c : Byte) (r : Lzw) : LzwResult :=
  match r.code (r.w ++ [c]) with
  | some k => .ok { r with wValid := true, wCode := k } []
  | none => encMiss pol c r

/-- EncEnd(): the code of W, if W holds one (41_lzw_codec.md R146). -/
def encEnd (r : Lzw) : List Byte := if r.wValid then [r.wCode] else []

/-! ### The decode state machine (41_lzw_codec.md R150 to R153) -/

/-- DecFirst(d) (41_lzw_codec.md R152): a seeded code, or MALFORMED_FRAME. -/
def decFirst (n : Byte) (d : Byte) (r : Lzw) : LzwResult :=
  if 1 ≤ d.toNat ∧ d.toNat ≤ n.toNat then
    match r.slot d with
    | some cur => .ok { r with prevValid := true, prevCode := d } cur
    | none => .fault .absentEntry
  else .raised .malformedFrame r []

/-- Emit(cur); DecInsert(PREV ++ [head(cur)]); PREV <- cur (41_lzw_codec.md R153). -/
def decTake (d : Byte) (cur : List Byte) (r : Lzw) : LzwResult :=
  match cur with
  | [] => .fault .headOfEmpty
  | c :: _ => .ok { decInsert (r.prev ++ [c]) r with prevCode := d } cur

/-- DecStep(d) (41_lzw_codec.md R153): a present code, the self-referential case, or MALFORMED_FRAME. -/
def decStep (d : Byte) (r : Lzw) : LzwResult :=
  match r.slot d with
  | some cur => decTake d cur r
  | none =>
    if d.toNat = r.next.toNat then
      match r.prev with
      | [] => .fault .headOfEmpty
      | p :: ps => decTake d ((p :: ps) ++ [p]) r
    else .raised .malformedFrame r []

/-- One code of a run: the first one by DecFirst, later ones by DecStep (41_lzw_codec.md R158). -/
def decCode (n : Byte) (d : Byte) (r : Lzw) : LzwResult :=
  if r.prevValid then decStep d r else decFirst n d r

/-! ### The phases ENC and DEC as engine steps (41_lzw_codec.md R158) -/

/-- Enter ENC for alphabet `alpha` (41_lzw_codec.md R144). -/
def enterEnc (alpha : List Byte) (s : State) : State :=
  ((s.withLzw (Lzw.seed alpha)).seek 0).toPhase .enc

/-- One step of ENC. The alphabet-only case emits no code (41_lzw_codec.md R147); otherwise one EncStep for each byte,
then EncEnd. `emit` says where codes go, `leave` what follows ENC, `overflow` what DICTIONARY_OVERFLOW does. The step that
raises leaves IPOS at the failing byte (DESIGN CHOICE, notes/assumptions/23). -/
def encPhase (emit : List Byte → State → State) (leave overflow : State → State) (s : State) : Turn :=
  if s.eng.nCur.toNat = s.eng.ibuf.length then .went (leave s)
  else
    match s.eng.ibuf[s.eng.ipos]? with
    | some c =>
      match encStep s.eng.polCur c s.eng.lzw with
      | .ok r out => .went (emit out ((s.withLzw r).seek (s.eng.ipos + 1)))
      | .raised _ r out => .went (overflow (emit out (s.withLzw r)))
      | .fault f => .fault f
    | none => .went (leave (emit (encEnd s.eng.lzw) s))

/-- Enter DEC for alphabet `alpha`, with IPOS 0; an empty code sequence emits the alphabet (41_lzw_codec.md R150, R151).
What IPOS indexes in a frame's buffer is DESIGN CHOICE (notes/assumptions/23). -/
def enterDec (alpha : List Byte) (noCodes : Bool) (s : State) : State :=
  let t := (((s.withN alpha.length).withLzw (Lzw.seed alpha)).seek 0).toPhase .dec
  if noCodes then t.emit alpha else t

/-- One step of DEC over the code sequence `codes`: one code, or `leave` after the last. `malformed` says what a bad code
does. DESIGN CHOICE (notes/assumptions/23): IPOS counts the codes decoded, in IBUF's sequence or FBUF's; each DecFirst or
DecStep that goes on adds 1, and one that raises leaves IPOS at the bad code. -/
def decPhase (codes : List Byte) (leave malformed : State → State) (s : State) : Turn :=
  match codes[s.eng.ipos]? with
  | some d =>
    match decCode s.eng.nCur d s.eng.lzw with
    | .ok r out => .went (((s.withLzw r).seek (s.eng.ipos + 1)).emit out)
    | .raised _ r out => .went (malformed ((s.withLzw r).emit out))
    | .fault f => .fault f
  | none => .went (leave s)

/-! ### The commands -/

/-- The end of an encode or decode run that publishes NEXT: DICT_NEXT <- NEXT, then DONE. -/
def endRun (s : State) : State := finishDone s.latchNext

/-- One engine step of LZW_ENC (41_lzw_codec.md R159). -/
def lzwEncStep : State → Turn := flushFirst fun s =>
  match s.eng.ph with
  | .load => loadStep (fun t => .went (t.toPhase .scan)) s
  | .scan => scanPhase (fun alpha t => enterEnc alpha (t.publishAlphabet alpha)) s
  | .enc => encPhase State.emit endRun (fun t => raise .dictionaryOverflow t.latchNext) s
  | .finish => finishStep s
  | _ => .fault .badPhase

/-- LZW_ENC (41_lzw_codec.md R159). -/
def execLzwEnc (s : State) : Host.Outcome State Fault Refusal := issue (opOf .lzwEnc) .load lzwEncStep s

/-- LZW_DEC's entry into DEC: the alphabet operand of ALPHA_N and ALPHA, the codes of IBUF (41_lzw_codec.md R160). -/
def enterLzwDec (s : State) : State :=
  enterDec (alphabetOperand s.eng.nCur s.regs) (s.eng.ibuf = []) s

/-- One engine step of LZW_DEC (41_lzw_codec.md R160). -/
def lzwDecStep : State → Turn := flushFirst fun s =>
  match s.eng.ph with
  | .load => loadStep (fun t => .went (enterLzwDec t)) s
  | .dec => decPhase s.eng.ibuf endRun (fun t => raise .malformedFrame t.latchNext) s
  | .finish => finishStep s
  | _ => .fault .badPhase

/-- LZW_DEC (41_lzw_codec.md R160). -/
def execLzwDec (s : State) : Host.Outcome State Fault Refusal := issue (opOf .lzwDec) .load lzwDecStep s

end Sys2Proof.Machine
end

