-- ==== Sys2Proof/Machine/Frame.lean ====
section
/-! DEFINITION. The frame codec's commands FRM_ENC and FRM_DEC (42_frame_codec.md), and the frame's parse, which
STR_DEC shares. -/

namespace Sys2Proof.Machine

/-- The three shapes of a frame (42_frame_codec.md R191 to R193). -/
inductive FrameShape where
  /-- the empty frame, or byte 0 = 0 with whatever follows (R193) -/
  | empty
  /-- N >= 1 and fewer than 1 + N bytes (R192) -/
  | short
  /-- the alphabet and the codes -/
  | parts (alpha codes : List Byte)
  deriving DecidableEq, Repr

/-- FrameDecode's parse (42_frame_codec.md R191). -/
def parseFrame : List Byte → FrameShape
  | [] => .empty
  | n :: rest =>
    if n = 0 then .empty
    else if rest.length < n.toNat then .short
    else .parts (rest.take n.toNat) (rest.drop n.toNat)

/-- One engine step of FRM_ENC (42_frame_codec.md R194): LZW_ENC with the header part `[N] ++ alpha` before the codes. -/
def frmEncStep : State → Turn := flushFirst fun s =>
  match s.eng.ph with
  | .load => loadStep (fun t => .went (t.toPhase .scan)) s
  | .scan =>
    scanPhase (fun alpha t => (enterEnc alpha (t.publishAlphabet alpha)).emit (frameHeader alpha)) s
  | .enc => encPhase State.emit endRun (fun t => raise .dictionaryOverflow t.latchNext) s
  | .finish => finishStep s
  | _ => .fault .badPhase

/-- FRM_ENC (42_frame_codec.md R194). -/
def execFrmEnc (s : State) : Host.Outcome State Fault Refusal := issue (opOf .frmEnc) .load frmEncStep s

/-- FRM_DEC's entry into DEC (42_frame_codec.md R195). The empty result sets ALPHA_N <- 0 and DICT_NEXT <- 1; a short
frame changes none of the three result registers. DESIGN CHOICE (notes/assumptions/21): neither writes N_CUR. -/
def enterFrmDec (s : State) : State :=
  match parseFrame s.eng.ibuf with
  | .empty => finishDone { s with regs := { s.regs with alphaN := 0, dictNext := 1 } }
  | .short => raise .malformedFrame s
  | .parts alpha codes => enterDec alpha (codes = []) (s.publishAlphabet alpha)

/-- One engine step of FRM_DEC (42_frame_codec.md R195). -/
def frmDecStep : State → Turn := flushFirst fun s =>
  match s.eng.ph with
  | .load => loadStep (fun t => .went (enterFrmDec t)) s
  | .dec => decPhase (frameCodes s.eng.nCur s.eng.ibuf) endRun (fun t => raise .malformedFrame t.latchNext) s
  | .finish => finishStep s
  | _ => .fault .badPhase

/-- FRM_DEC (42_frame_codec.md R195). -/
def execFrmDec (s : State) : Host.Outcome State Fault Refusal := issue (opOf .frmDec) .load frmDecStep s

end Sys2Proof.Machine
end

