-- ==== Sys2Proof/Machine/Streamer.lean ====
section
/-! DEFINITION. The chunk streamer's commands STR_ENC and STR_DEC (43_chunk_streamer.md). -/

namespace Sys2Proof.Machine

/-- CS_CUR is outside 1..65279 (43_chunk_streamer.md R224). -/
def badChunkSize (cs : BitVec 16) : Bool := cs.toNat = 0 || Config.maxChunkSize < cs.toNat

/-- STR_ENC's first engine step, the chunk-size check alone (43_chunk_streamer.md R224; 44_control.md R265). That it has
been made is the model's own flag (notes/assumptions/14). -/
def checkConfig (s : State) : State :=
  if badChunkSize s.eng.csCur then raise .badConfig s else { s with eng.cfgChecked := true }

/-- One step of CHUNK_READ (43_chunk_streamer.md R222): STR_ENC's first step is the check; after it, a read of up to
CS_CUR - IFILL bytes, or the end of the chunk. -/
def chunkReadStep (s : State) : Turn :=
  if s.eng.cfgChecked = false then .went (checkConfig s)
  else if s.eng.ibuf.length < s.eng.csCur.toNat ∧ s.eng.eosSeen = false then
    readStep (s.eng.csCur.toNat - s.eng.ibuf.length) id State.fillIbuf s
  else if s.eng.ibuf = [] then .went (finishDone s)
  else .went (s.toPhase .scan)

/-- FBUF <- the frame header of the chunk; the codes follow in ENC (43_chunk_streamer.md R222). -/
def startFrame (alpha : List Byte) (s : State) : State := { s with eng.fbuf := frameHeader alpha }

/-- ENV_WRITE (43_chunk_streamer.md R222): emit the envelope, which empties FBUF; once it has been offered, count it
and go on with the next chunk, or finish after EOS (notes/assumptions/15). -/
def envWriteStep (s : State) : Turn :=
  if s.eng.fbuf ≠ [] then
    .went ({ s with eng.fbuf := [] }.emit (envelope s.eng.ibuf.length s.eng.fbuf))
  else if s.eng.eosSeen then .went (finishDone s.countChunk)
  else .went ({ s.countChunk with eng.ibuf := [] }.toPhase .chunkRead)

/-- One engine step of STR_ENC (43_chunk_streamer.md R222, R223). The frame is built in FBUF before any byte of its
envelope is emitted. -/
def strEncStep : State → Turn := flushFirst fun s =>
  match s.eng.ph with
  | .chunkRead => chunkReadStep s
  | .scan => scanPhase (fun alpha t => startFrame alpha (enterEnc alpha t)) s
  | .enc => encPhase State.fillFbuf (State.toPhase .envWrite) (raise .dictionaryOverflow) s
  | .envWrite => envWriteStep s
  | .finish => finishStep s
  | _ => .fault .badPhase

/-- STR_ENC (43_chunk_streamer.md R223). -/
def execStrEnc (s : State) : Host.Outcome State Fault Refusal := issue (opOf .strEnc) .chunkRead strEncStep s

/-- HFILL <- 0; phase <- AWAIT_HEADER (43_chunk_streamer.md R226). -/
def awaitHeader (s : State) : State := { s with eng.hdr := [] }.toPhase .awaitHeader

/-- With the header complete: FNEED <- FRAME_LEN, FFILL <- 0, AWAIT_BODY (43_chunk_streamer.md R226). -/
def headerDone (s : State) : State :=
  if s.eng.hdr.length = 4 then { s with eng.fneed := frameLen s.eng.hdr, eng.fbuf := [] }.toPhase .awaitBody else s

/-- HeaderStep() (43_chunk_streamer.md R226). EOS with HFILL = 0 is the clean end; with 1..3 header bytes it raises
TRUNCATED_ENVELOPE (R228). -/
def headerStep (s : State) : Turn :=
  readStep (4 - s.eng.hdr.length)
    (fun t => if t.eng.hdr = [] then finishDone t else raise .truncatedEnvelope t)
    (fun r t => headerDone (t.fillHdr r))
    s

/-- An envelope is decoded: count it and await the next header (43_chunk_streamer.md R228). -/
def envelopeDone (s : State) : State := awaitHeader s.countChunk

/-- The entry into DEC with the body complete (43_chunk_streamer.md R228; 42_frame_codec.md R191). DESIGN CHOICE
(notes/assumptions/21): an empty or a short frame does not write N_CUR. -/
def enterBody (s : State) : State :=
  match parseFrame s.eng.fbuf with
  | .empty => envelopeDone s
  | .short => raise .malformedFrame s
  | .parts alpha codes => enterDec alpha (codes = []) s

/-- BodyStep() (43_chunk_streamer.md R227), or the entry into DEC once FFILL = FNEED. -/
def bodyStep (s : State) : Turn :=
  if s.eng.fbuf.length < s.eng.fneed.toNat then
    readStep (s.eng.fneed.toNat - s.eng.fbuf.length) (raise .truncatedEnvelope) State.fillFbuf s
  else .went (enterBody s)

/-- One engine step of STR_DEC (43_chunk_streamer.md R225 to R230). ORIG_LEN is read and ignored (R229). -/
def strDecStep : State → Turn := flushFirst fun s =>
  match s.eng.ph with
  | .awaitHeader => headerStep s
  | .awaitBody => bodyStep s
  | .dec => decPhase (frameCodes s.eng.nCur s.eng.fbuf) envelopeDone (raise .malformedFrame) s
  | .finish => finishStep s
  | _ => .fault .badPhase

/-- STR_DEC (43_chunk_streamer.md R230). -/
def execStrDec (s : State) : Host.Outcome State Fault Refusal := issue (opOf .strDec) .awaitHeader strDecStep s

end Sys2Proof.Machine
end

