-- ==== Sys2Proof/Machine/Control.lean ====
section
/-! DEFINITION. Command control (44_control.md): CLR, an illegal command word, which engine rule the running command
has, and the engine's turn. -/

namespace Sys2Proof.Machine

/-- CLR, inside the acceptance step: counters, ERR and LAST_OP 0, STATE IDLE; CFG, ALPHA_N, ALPHA and DICT_NEXT
untouched; ignored while BUSY (44_control.md R268, R262). -/
def execClr (s : State) : Host.Outcome State Fault Refusal :=
  if s.regs.stat = .busy then .next s
  else .next { s with regs := { clearForCommand (opOf .clr) s.regs with stat := .idle } }

/-- A CMD write of an illegal word: ignored while BUSY, else ILLEGAL_COMMAND (44_control.md R261, R262). -/
def illegalCommand (v : Word) (s : State) : State :=
  if s.regs.stat = .busy then s else acceptIllegal v s

/-- One engine step of the running command, by OP_CUR (44_control.md R265). CLR has no engine activity. -/
def engineStep (s : State) : Turn :=
  match instrOfOp s.eng.opCur with
  | some .scan => scanCmdStep s
  | some .lzwEnc => lzwEncStep s
  | some .lzwDec => lzwDecStep s
  | some .frmEnc => frmEncStep s
  | some .frmDec => frmDecStep s
  | some .strEnc => strEncStep s
  | some .strDec => strDecStep s
  | some .clr => .fault .badPhase
  | none => .fault .badPhase

/-- The engine takes up to `n` steps, none unless BUSY (60_exceptions.md R300). -/
def engineTurns (n : Nat) (s : State) : Host.Outcome State Fault Refusal := runTurns engineStep n s

/-- The engine runs to the command's end point or to a wait for the environment. -/
def engineRun (s : State) : Host.Outcome State Fault Refusal := engineTurns (stepBudget s) s

end Sys2Proof.Machine
end

