-- ==== Sys2Proof/Machine/HostPort.lean ====
section
/-! DEFINITION. The host's side: register reads and writes (44_control.md R262 to R264; 60_exceptions.md R306), the
reset event (70_reset_and_hazards.md R310 to R312) and the lines of a host program other than a CMD write
(30_encoding.md R104, R105). -/

namespace Sys2Proof.Machine

/-- Whether a read of the ALPHA registers is unspecified: BUSY with any command but LZW_DEC (44_control.md R264). -/
def alphabetHidden (s : State) : Bool := s.regs.stat = .busy && s.eng.opCur ≠ opOf .lzwDec

/-- Whether a read of the counters and DICT_NEXT is unspecified: BUSY (44_control.md R264). -/
def countersHidden (s : State) : Bool := s.regs.stat = .busy

/-- Whether a read of a register is unspecified in this state (44_control.md R264). -/
def readHidden (r : RegName) (s : State) : Bool :=
  match r with
  | .inCount | .outCount | .chunks | .dictNext => countersHidden s
  | .alphaN | .alphaWord _ => alphabetHidden s
  | .cmd | .status | .cfg | .ibufCap | .reserved => false

/-- The stored value a register reads as (10_state.md R22 to R33). -/
def storedValue (r : RegName) (g : Regs) : Word :=
  match r with
  | .cmd => 0
  | .status => statusWord g
  | .cfg => cfgWord g
  | .alphaN => g.alphaN.setWidth 32
  | .inCount => g.inCount
  | .outCount => g.outCount
  | .chunks => g.chunks
  | .dictNext => g.dictNext.setWidth 32
  | .ibufCap => BitVec.ofNat 32 Config.ibufSize
  | .reserved => 0
  | .alphaWord k => alphaWord g k

/-- The free value `d` a hidden register reads as; its reserved bits still read 0 (10_state.md R33). -/
def hiddenValue (r : RegName) (d : Config.Draw) : Word :=
  match r with
  | .alphaN => (Config.freeWord d) &&& 0xFF
  | .dictNext => (Config.freeWord d) &&& 0x1FF
  | .inCount | .outCount | .chunks | .alphaWord _ => Config.freeWord d
  | .cmd | .status | .cfg | .ibufCap | .reserved => 0

/-- What a read returns (44_control.md R264). -/
def readValue (r : RegName) (s : State) : Word :=
  if readHidden r s then hiddenValue r s.draw else storedValue r s.regs

/-- `RD`: no side effect on the block (20_memory.md R62); the value is recorded for the host, and a hidden read uses up
a free value. -/
def hostRead (off : Nat) (s : State) : State :=
  let r := regAt off
  { s with
    env.reads := s.env.reads ++ [(off, readValue r s)]
    draws := if readHidden r s then s.draws + 1 else s.draws }

/-- `WR` to a register other than CMD: CFG, ALPHA_N and ALPHA are stored unless BUSY; everything else is ignored
(44_control.md R263; 20_memory.md R62). -/
def hostWrite (off : Nat) (v : Word) (s : State) : State :=
  if s.regs.stat = .busy then s
  else
    match regAt off with
    | .cfg => { s with regs := setCfg v s.regs }
    | .alphaN => { s with regs := setAlphaN v s.regs }
    | .alphaWord k => { s with regs := setAlphaWord k v s.regs }
    | .cmd | .status | .inCount | .outCount | .chunks | .dictNext | .ibufCap | .reserved => s

/-- The registers after the reset event: those of `Regs.reset`, ALPHA drawn (70_reset_and_hazards.md R311). -/
def resetRegs (d : Config.Draw) : Regs :=
  { Regs.reset with alpha := freeAlphabet d }

/-- A dictionary slot after the reset event: slot 0 none, the others free (70_reset_and_hazards.md R311). -/
def resetSlot (d : Config.Draw) (k : Nat) : Option (List Byte) :=
  if k = 0 then none else (Config.freeSlot d k).map fun p => p.1 :: p.2.take 254

/-- The whole dictionary after the reset event. -/
def resetSlots (d : Config.Draw) : Vector (Option (List Byte)) 256 := Vector.ofFn fun k : Fin 256 => resetSlot d k.val

/-- The LZW registers after the reset event. -/
def resetLzw (d : Config.Draw) : Lzw :=
  { Lzw.reset with
    dict := resetSlots d
    wCode := Config.freeCode d 0
    prevCode := Config.freeCode d 1 }

/-- The engine after the reset event: the running command is abandoned (70_reset_and_hazards.md R312). -/
def resetEngine (d : Config.Draw) : Engine :=
  { Engine.reset with
    csCur := (Config.freeContext d).1
    polCur := if (Config.freeContext d).2.1 then .error else .freeze
    nCur := (Config.freeContext d).2.2
    lzw := resetLzw d }

/-- The reset event (70_reset_and_hazards.md R310): every state element takes its reset value, the unspecified ones a
free value; source, sink and host program are untouched. -/
def hostReset (s : State) : State :=
  { s with regs := resetRegs s.draw, eng := resetEngine s.draw, draws := s.draws + 1 }

/-- `SRC`: the next command's input stream (30_encoding.md R104). -/
def attachSource (stream : List Byte) (plan : List Nat) (tail : SourceTail) (s : State) : State :=
  { s with env.nextSrc := { stream := stream, plan := plan, tail := tail } }

/-- `SINK`: the next command's sink (30_encoding.md R104). -/
def attachSink (room : Option Nat) (calls : List Nat) (tail : SinkTail) (s : State) : State :=
  { s with env.nextSink := { held := [], room := room, calls := calls, tail := tail } }

/-- More bytes for the running command's source to answer with. -/
def feedSource (more : List Byte) (tail : SourceTail) (s : State) : State :=
  { s with env.src := { s.env.src with stream := s.env.src.stream ++ more, tail := tail } }

/-- More room in the running command's sink. -/
def drainSink (more : Option Nat) (tail : SinkTail) (s : State) : State :=
  { s with env.sink := { s.env.sink with
      room := match s.env.sink.room, more with
        | some r, some m => some (r + m)
        | _, _ => none
      tail := tail } }

/-- The scheduler's draw for the next acceptance. -/
def setQuota (q : Option Nat) (s : State) : State := { s with env.quota := q }

/-- Take the first line off the host program. -/
def popHost (rest : List HostOp) (s : State) : State := { s with env.host := rest }

/-- `WAIT`: one poll of STATUS; while BUSY the engine then has its turn and the line stays (30_encoding.md R105). -/
def waitPoll (rest : List HostOp) (s : State) : Host.Outcome State Fault Refusal :=
  let t := hostRead 0x004 s
  if s.regs.stat = .busy then engineRun t else .next (popHost rest t)

/-- An access to the block of instance `inst` at a resolved offset, or its refusal (60_exceptions.md R305, R308(a)). -/
def atOffset (inst : Nat) (t : Target) (k : Nat → Host.Outcome State Fault Refusal) :
    Host.Outcome State Fault Refusal :=
  match resolve (Config.regBase inst) t with
  | .ok off => k off
  | .error r => .refused r

end Sys2Proof.Machine
end

