-- ==== Sys2Proof/Machine/Sequencer.lean ====
section
/-! DEFINITION. What each line of a host program does (30_encoding.md R104, R105); a CMD write issues a command
(10_state.md R23). -/

namespace Sys2Proof.Machine

/-- A CMD write (10_state.md R23): a legal word runs its command, an illegal one raises ILLEGAL_COMMAND. -/
def commandWrite (v : Word) (s : State) : Host.Outcome State Fault Refusal :=
  match decode v with
  | .ok i => exec i s
  | .error _ => .next (illegalCommand v s)

/-- A register write at an offset: to CMD, or to another register. -/
def writeAt (off : Nat) (v : Word) (s : State) : Host.Outcome State Fault Refusal :=
  if regAt off = .cmd then commandWrite v s else .next (hostWrite off v s)

/-- One line of the host program, already taken off it (`WAIT` takes itself off). -/
def hostStep (op : HostOp) (rest : List HostOp) (s : State) : Host.Outcome State Fault Refusal :=
  let t := popHost rest s
  match op with
  | .write g v => atOffset s.inst g fun off => writeAt off v t
  | .read g => atOffset s.inst g fun off => .next (hostRead off t)
  | .narrow _ _ => .refused .narrowAccess
  | .wait => waitPoll rest s
  | .src stream plan tail => .next (attachSource stream plan tail t)
  | .sink room calls tail => .next (attachSink room calls tail t)
  | .feed more tail => .next (feedSource more tail t)
  | .drain more tail => .next (drainSink more tail t)
  | .quota q => .next (setQuota q t)
  | .engine n => engineTurns n t
  | .reset => .next (hostReset t)

end Sys2Proof.Machine
end

