-- ==== Sys2Proof/Machine/Step.lean ====
section
/-! DEFINITION. One step of the machine: the host program's next line, or, when it has none left, the engine's turn. A
CMD write is the block's analogue of fetching an instruction (00_scope.md R3). -/

namespace Sys2Proof.Machine

/-- One step: the host's next line; with none left, the engine's turn, which does nothing unless BUSY
(60_exceptions.md R300). -/
def step (s : State) : Host.Outcome State Fault Refusal :=
  match s.env.host with
  | [] => engineRun s
  | op :: rest => hostStep op rest s

/-- The state whose next step is the CMD write of the table word `w` (notes/assumptions/2): the block has no program
memory, so the word goes to the front of the host program. -/
def State.withFetchWord (s : State) (nbits w : Nat) : State :=
  { s with env.host := .write (.offset 0x000) (BitVec.ofNat 32 (w % 2 ^ nbits)) :: s.env.host }

end Sys2Proof.Machine
end

