-- ==== Sys2Proof/Machine/BigStep.lean ====
section
/-! DEFINITION. The spec's big-step functions, pure in their arguments (00_scope.md R11): LzwEncode, LzwDecode,
FrameEncode, FrameDecode and the two streamers over whole streams. The engine runs the small steps; that the two agree
(41_lzw_codec.md R158) is stated, not assumed. -/

namespace Sys2Proof.Machine

/-- The same run with `out` emitted before it. -/
def LzwResult.after (out : List Byte) : LzwResult → LzwResult
  | .ok r o => .ok r (out ++ o)
  | .raised e r o => .raised e r (out ++ o)
  | .fault f => .fault f

/-- One LZW step function `g` for each byte in order, up to the first error (41_lzw_codec.md R158). -/
def walk (g : Byte → Lzw → LzwResult) : List Byte → Lzw → LzwResult
  | [], r => .ok r []
  | c :: cs, r =>
    match g c r with
    | .ok r' out => (walk g cs r').after out
    | .raised e r' out => .raised e r' out
    | .fault f => .fault f

/-- EncEnd after the encoder's steps (41_lzw_codec.md R146). -/
def LzwResult.ended : LzwResult → LzwResult
  | .ok r out => .ok r (out ++ encEnd r)
  | .raised e r out => .raised e r out
  | .fault f => .fault f

/-- EncStep for each byte in order, then EncEnd (41_lzw_codec.md R148). -/
def encRun (pol : Policy) (data : List Byte) (r : Lzw) : LzwResult := (walk (encStep pol) data r).ended

/-- LzwEncode's coding part for a unit whose alphabet is `alpha` (41_lzw_codec.md R147, R148). -/
def encodeUnit (pol : Policy) (alpha data : List Byte) : LzwResult :=
  if alpha.length = data.length then .ok (Lzw.seed alpha) [] else encRun pol data (Lzw.seed alpha)

/-- DecFirst, then DecStep for each later code in order (41_lzw_codec.md R154). -/
def decRun (n : Byte) (codes : List Byte) (r : Lzw) : LzwResult := walk (decCode n) codes r

/-- LzwDecode(alpha, codes) (41_lzw_codec.md R154). -/
def lzwDecode (alpha codes : List Byte) : LzwResult :=
  if codes = [] then .ok (Lzw.seed alpha) alpha
  else decRun (BitVec.ofNat 8 alpha.length) codes (Lzw.seed alpha)

/-- How a frame function ends: its bytes, or an error after the bytes emitted before it, or a stop that no run
reaches. -/
inductive Coded where
  | bytes (out : List Byte)
  | raised (e : Err) (out : List Byte)
  | fault (f : Fault)
  deriving DecidableEq, Repr

/-- The bytes of an LZW run after the bytes `pre`. -/
def LzwResult.coded (pre : List Byte) : LzwResult → Coded
  | .ok _ out => .bytes (pre ++ out)
  | .raised e _ out => .raised e (pre ++ out)
  | .fault f => .fault f

/-- FrameEncode(data, pol) (42_frame_codec.md R190). -/
def frameEncode (pol : Policy) (data : List Byte) : Coded :=
  match scan data with
  | none => .raised .alphabetOverflow []
  | some alpha => (encodeUnit pol alpha data).coded (frameHeader alpha)

/-- FrameDecode(fr) (42_frame_codec.md R191). -/
def frameDecode (fr : List Byte) : Coded :=
  match parseFrame fr with
  | .empty => .bytes []
  | .short => .raised .malformedFrame []
  | .parts alpha codes => (lzwDecode alpha codes).coded []

/-- What a streamer does with a whole input when the sink takes everything: its output, its end, the envelopes it
completed and the input bytes it was given. -/
structure StreamRun where
  out : List Byte
  err : Err
  chunks : Nat
  consumed : Nat
  deriving DecidableEq, Repr

/-- The same run after one more completed envelope. -/
def StreamRun.after (out : List Byte) (used : Nat) (t : StreamRun) : StreamRun :=
  { out := out ++ t.out, err := t.err, chunks := t.chunks + 1, consumed := used + t.consumed }

/-- The chunks of an input, `cs` bytes each but the last (43_chunk_streamer.md R220); `fuel` bounds their number. -/
def chunksFuel (cs : Nat) : Nat → List Byte → List (List Byte)
  | 0, _ => []
  | _ + 1, [] => []
  | fuel + 1, b :: bs => (b :: bs).take cs :: chunksFuel cs fuel ((b :: bs).drop cs)

/-- The chunks of an input (43_chunk_streamer.md R220). -/
def chunksOf (cs : Nat) (data : List Byte) : List (List Byte) := chunksFuel cs data.length data

/-- The envelopes of the chunks in order, up to the first chunk whose frame raises (43_chunk_streamer.md R221, R222). -/
def encodeChunks (pol : Policy) : List (List Byte) → StreamRun
  | [] => { out := [], err := .noError, chunks := 0, consumed := 0 }
  | c :: cs =>
    match frameEncode pol c with
    | .bytes fr => (encodeChunks pol cs).after (envelope c.length fr) c.length
    | .raised e _ => { out := [], err := e, chunks := 0, consumed := c.length }
    | .fault _ => { out := [], err := .noError, chunks := 0, consumed := c.length }

/-- STR_ENC of a whole stream with a legal chunk size (43_chunk_streamer.md R222). -/
def strEncode (pol : Policy) (cs : Nat) (data : List Byte) : StreamRun := encodeChunks pol (chunksOf cs data)

/-- The ORIG_LEN fields of a container, found by its headers alone (43_chunk_streamer.md R231(b), (d)); `fuel` bounds the
number of envelopes. -/
def origLensFuel : Nat → List Byte → List Nat
  | fuel + 1, h0 :: h1 :: h2 :: h3 :: rest =>
    (fromBe16 h0 h1).toNat :: origLensFuel fuel (rest.drop (fromBe16 h2 h3).toNat)
  | _, _ => []

/-- The ORIG_LEN fields of a container, first envelope first (43_chunk_streamer.md R231(b)). -/
def origLens (container : List Byte) : List Nat := origLensFuel container.length container

/-- STR_DEC of a whole container (43_chunk_streamer.md R226 to R228); `fuel` bounds the number of envelopes. -/
def strDecodeFuel : Nat → List Byte → StreamRun
  | 0, _ => { out := [], err := .noError, chunks := 0, consumed := 0 }
  | _ + 1, [] => { out := [], err := .noError, chunks := 0, consumed := 0 }
  | fuel + 1, _ :: _ :: h2 :: h3 :: rest =>
    let len := (fromBe16 h2 h3).toNat
    if rest.length < len then { out := [], err := .truncatedEnvelope, chunks := 0, consumed := 4 + rest.length }
    else
      match frameDecode (rest.take len) with
      | .bytes out => (strDecodeFuel fuel (rest.drop len)).after out (4 + len)
      | .raised e out => { out := out, err := e, chunks := 0, consumed := 4 + len }
      | .fault _ => { out := [], err := .noError, chunks := 0, consumed := 4 + len }
  | _ + 1, bs => { out := [], err := .truncatedEnvelope, chunks := 0, consumed := bs.length }

/-- STR_DEC of a whole container (43_chunk_streamer.md R230). -/
def strDecode (container : List Byte) : StreamRun := strDecodeFuel (container.length + 1) container

end Sys2Proof.Machine
end

