-- ==== Sys2Proof/Machine/Platform.lean ====
section
/-! DEFINITION. Several instances of the block on one platform (60_exceptions.md R305): each with its own state and
streams, none shared. Which instance moves is the caller's choice; no order holds between instances. -/

namespace Sys2Proof.Machine

/-- The instances of a platform, by number. -/
abbrev Platform := List State

/-- The platform after reset: N_INSTANCES blocks, each its own instance, so at its own REG_BASE and with its own free
values (60_exceptions.md R305). -/
def platformReset : Platform :=
  (List.range Config.nInstances).map fun k => { State.reset with inst := k }

/-- One step of instance `k`; a stop of that instance stops the run (60_exceptions.md R308). -/
def platformStep (k : Nat) (p : Platform) : Host.Outcome Platform Fault Refusal :=
  match p[k]? with
  | none => .next p
  | some s =>
    match step s with
    | .next t => .next (p.set k t)
    | .fault f => .fault f
    | .refused r => .refused r

end Sys2Proof.Machine
end

