-- ==== Sys2Proof/Safety.lean ====
section
/-! DEFINITION. The terms claims are stated in: what a command is given and what it leaves (20_memory.md R72;
44_control.md R269), the dictionary invariants (10_state.md R47) and the machine's invariant. -/

namespace Sys2Proof.Machine

/-! ### What a command is given -/

/-- The streams attached for the next command: its input is `data`, then EOS; its sink answers short once its room is
used up (20_memory.md R68, R70). No engine step is held back from the command (70_reset_and_hazards.md R321). -/
structure State.ready (s : State) (data : List Byte) : Prop where
  notBusy : s.regs.stat ≠ .busy
  stream : s.env.nextSrc.stream = data
  srcEnds : s.env.nextSrc.tail = .ends
  sinkEnds : s.env.nextSink.tail = .ends
  unpaced : s.env.quota = none

/-! ### What a command leaves -/

/-- The bytes a sink with draw `room` has accepted of the output `out` (20_memory.md R72: O, or O[0:A]). -/
def acceptedOf (room : Option Nat) (out : List Byte) : List Byte :=
  match room with
  | none => out
  | some a => out.take a

/-- `A >= |O|` for the sink's draw A (20_memory.md R72). -/
def takesAll (room : Option Nat) (out : List Byte) : Prop :=
  match room with
  | none => True
  | some a => out.length ≤ a

/-- A count as its 32-bit counter shows it (10_state.md R27 to R29). -/
def count32 (n : Nat) : Word := BitVec.ofNat 32 n

/-- What a finished command leaves of the environment: the host program and the reads as they were, the attached
streams used up, and `got` more bytes in its sink (60_exceptions.md R307; 20_memory.md R72). -/
structure leftEnv (s t : State) (got : List Byte) : Prop where
  host : t.env.host = s.env.host
  reads : t.env.reads = s.env.reads
  nextSrc : t.env.nextSrc = Source.none
  nextSink : t.env.nextSink = Sink.unlimited
  past : t.env.past = s.env.past ++ [s.env.sink.held]
  quota : t.env.quota = none
  held : t.env.sink.held = s.env.nextSink.held ++ got

/-- The engine at rest: no phase, nothing pending (44_control.md R266). -/
def State.atRest (t : State) : Prop := t.eng.ph = .idle ∧ t.eng.outq = []

/-- A run has ended: the host's last line is taken and no command runs (44_control.md R269). -/
def State.ended (s : State) : Prop := s.env.host = [] ∧ s.regs.stat ≠ .busy

/-- Every element that has a reset value has it (70_reset_and_hazards.md R311). The prefixes' lengths are IFILL, FFILL and
HFILL. -/
structure State.atReset (s : State) : Prop where
  status : statusWord s.regs = 0x00000000
  cfg : cfgWord s.regs = 0x00007FFF
  alphaN : s.regs.alphaN = 0
  counters : s.regs.inCount = 0 ∧ s.regs.outCount = 0 ∧ s.regs.chunks = 0
  dictNext : s.regs.dictNext = 1
  next : s.eng.lzw.next = 1
  ibufCap : (readValue .ibufCap s).toNat = Config.ibufSize
  slotZero : s.eng.lzw.slot 0 = none
  valid : s.eng.lzw.wValid = false ∧ s.eng.lzw.prevValid = false
  cursors : s.eng.ibuf.length = 0 ∧ s.eng.ipos = 0 ∧ s.eng.fbuf.length = 0 ∧ s.eng.fneed = 0 ∧ s.eng.hdr.length = 0
  phase : s.eng.ph = .idle
  context : s.eng.opCur = 0 ∧ s.eng.eosSeen = false
  outq : s.eng.outq = []

/-- A command that has streams runs: any but CLR. -/
def State.streams (s : State) : Prop := ∃ i, i ≠ .clr ∧ instrOfOp s.eng.opCur = some i

/-- The running command's next step, with no output pending, is a `SrcRead` (20_memory.md R69). -/
def State.reading (s : State) : Prop :=
  (s.eng.ph = .load ∧ s.eng.eosSeen = false ∧
    ∃ i ∈ [Instr.scan, .lzwEnc, .lzwDec, .frmEnc, .frmDec], s.eng.opCur = opOf i) ∨
  (s.eng.ph = .chunkRead ∧ s.eng.eosSeen = false ∧ s.eng.opCur = opOf .strEnc ∧
    s.eng.cfgChecked = true ∧ s.eng.ibuf.length < s.eng.csCur.toNat) ∨
  (s.eng.ph = .awaitHeader ∧ s.eng.opCur = opOf .strDec) ∨
  (s.eng.ph = .awaitBody ∧ s.eng.opCur = opOf .strDec ∧ s.eng.fbuf.length < s.eng.fneed.toNat)

/-! ### The dictionary invariants -/

/-- 10_state.md R47(a) to (c) for alphabet `alpha`, with R34's `none` slots and R35's range of NEXT. -/
structure DictInv (alpha : List Byte) (r : Lzw) : Prop where
  size : alpha.length ≤ 255
  nextLo : alpha.length + 1 ≤ r.next.toNat
  nextHi : r.next.toNat ≤ 256
  /-- slot 0 and the slots from NEXT on hold none; the others hold an entry -/
  present : ∀ k : Nat, (h : k < 256) → ((r.dict[k] ≠ none) ↔ (1 ≤ k ∧ k < r.next.toNat))
  /-- R47(b) -/
  seeded : ∀ k : Nat, (h : k < 256) → 1 ≤ k → k ≤ alpha.length → r.dict[k] = (alpha[k - 1]?).map fun b => [b]
  /-- R47(c) -/
  learned : ∀ k : Nat, (h : k < 256) → alpha.length < k → k < r.next.toNat →
    ∃ p : Nat, ∃ hp : p < k, ∃ q : List Byte, ∃ b : Byte, r.dict[p] = some q ∧ r.dict[k] = some (q ++ [b])

/-- 10_state.md R47(d), which holds in the encoder: no entry stands in two slots. -/
def DictInjective (r : Lzw) : Prop :=
  ∀ j k : Nat, (hj : j < 256) → (hk : k < 256) → r.dict[j] ≠ none → r.dict[j] = r.dict[k] → j = k

/-! ### The machine's invariant -/

/-- 10_state.md R24 ("STATE = ERROR holds exactly when ERR != 0") and R30 (DICT_NEXT is 1..256). -/
structure Regs.Inv (g : Regs) : Prop where
  errIff : g.stat = .error ↔ g.err ≠ .noError
  dictNextLo : 1 ≤ g.dictNext.toNat
  dictNextHi : g.dictNext.toNat ≤ 256

/-- The phases of each command's rule (10_state.md R40). -/
def phasesOf : Instr → List Phase
  | .clr => []
  | .scan => [.load, .scan, .finish]
  | .lzwEnc => [.load, .scan, .enc, .finish]
  | .lzwDec => [.load, .dec, .finish]
  | .frmEnc => [.load, .scan, .enc, .finish]
  | .frmDec => [.load, .dec, .finish]
  | .strEnc => [.chunkRead, .scan, .enc, .envWrite, .finish]
  | .strDec => [.awaitHeader, .awaitBody, .dec, .finish]

/-- In ENC (41_lzw_codec.md R144 to R146): the dictionary is the unit's, W is in it, and W is empty only before the
first byte. -/
structure EncInv (e : Engine) : Prop where
  alphabet : ∃ alpha, scan e.ibuf = some alpha ∧ e.nCur = BitVec.ofNat 8 alpha.length ∧ DictInv alpha e.lzw
  injective : DictInjective e.lzw
  pos : e.ipos ≤ e.ibuf.length
  wPresent : e.lzw.wValid = true → e.lzw.slot e.lzw.wCode ≠ none
  wEmpty : e.lzw.wValid = false → e.ipos = 0

/-- In DEC (41_lzw_codec.md R150 to R153): the dictionary is an alphabet's, and PREV is in it. -/
structure DecInv (e : Engine) : Prop where
  alphabet : ∃ alpha, e.nCur = BitVec.ofNat 8 alpha.length ∧ DictInv alpha e.lzw
  prevPresent : e.lzw.prevValid = true → e.lzw.slot e.lzw.prevCode ≠ none

/-- What STR_ENC keeps while it runs (43_chunk_streamer.md R222, R224; 20_memory.md R67): no chunk before the check, past
it a legal chunk size, a chunk within it, and a frame that still fits FBUF once the rest of the chunk is coded. -/
structure StrEncInv (e : Engine) : Prop where
  chunkFits : e.ibuf.length ≤ e.csCur.toNat
  checked : e.ph ∈ [Phase.scan, Phase.enc, Phase.envWrite] → e.cfgChecked = true
  legal : e.cfgChecked = true → 1 ≤ e.csCur.toNat ∧ e.csCur.toNat ≤ Config.maxChunkSize
  nonempty : e.ph ∈ [Phase.scan, Phase.enc, Phase.envWrite] → e.ibuf ≠ []
  frameFits : e.ph = .enc →
    e.fbuf ≠ [] ∧ e.fbuf.length + (if e.lzw.wValid then 1 else 0) ≤ 1 + e.nCur.toNat + e.ipos

/-- What STR_DEC keeps while it runs (43_chunk_streamer.md R226, R227). -/
structure StrDecInv (e : Engine) : Prop where
  header : e.ph = .awaitHeader → e.hdr.length < 4
  body : e.ph = .awaitBody → e.fbuf.length ≤ e.fneed.toNat

/-- What holds of the engine while a command runs. -/
structure RunInv (e : Engine) : Prop where
  phase : ∃ i, instrOfOp e.opCur = some i ∧ e.ph ∈ phasesOf i
  enc : e.ph = .enc → EncInv e
  dec : e.ph = .dec → DecInv e
  strEnc : e.opCur = opOf .strEnc → StrEncInv e
  strDec : e.opCur = opOf .strDec → StrDecInv e

/-- The machine's invariant: the registers' (10_state.md R24, R30), the buffers' sizes (20_memory.md R66, R67;
10_state.md R35, R41), PH = IDLE exactly when not BUSY (R40), OUTQ empty when PH = IDLE (R43), and the running
command's. -/
structure State.Inv (s : State) : Prop where
  regs : s.regs.Inv
  ibufFits : s.eng.ibuf.length ≤ Config.ibufSize
  fbufFits : s.eng.fbuf.length ≤ Config.fbufSize
  hdrFits : s.eng.hdr.length ≤ 4
  nextLo : 1 ≤ s.eng.lzw.next.toNat
  nextHi : s.eng.lzw.next.toNat ≤ 256
  slotZero : s.eng.lzw.slot 0 = none
  busyIff : s.regs.stat = .busy ↔ s.eng.ph ≠ .idle
  idleFlushed : s.eng.ph = .idle → s.eng.outq = []
  running : s.regs.stat = .busy → RunInv s.eng

end Sys2Proof.Machine
end

