-- ==== Sys2Proof/Certificates/Slice0/Obligations.lean ====
section
/-! DEFINITION. The statements for the provers. Each docstring names the rule of spec/ it formalises, or says that it is
derived or rests on a choice of the model. -/

open Sys2Proof Sys2Proof.Machine

/-! ### Command words (30_encoding.md) -/

/-- R91: the opcode table, word by word; OP 8 to 15 are reserved. -/
def Obligations.OpcodeTableDecodes : Prop :=
  decode 0x00000000 = .ok .clr ∧ decode 0x00000001 = .ok .scan ∧ decode 0x00000002 = .ok .lzwEnc ∧
  decode 0x00000003 = .ok .lzwDec ∧ decode 0x00000004 = .ok .frmEnc ∧ decode 0x00000005 = .ok .frmDec ∧
  decode 0x00000006 = .ok .strEnc ∧ decode 0x00000007 = .ok .strDec ∧
  ∀ v : Word, 8 ≤ v.toNat → v.toNat ≤ 15 → decode v = .error .reservedOp

/-- Decoding an encoded command gives it back (derived from R91, R92). -/
def Obligations.DecodeEncodeAgree : Prop := ∀ i : Instr, decode (encode i) = .ok i

/-- R92: exactly the words 0 to 7 are legal, each the encoding of what it decodes to; every other word, written while not
BUSY, raises ILLEGAL_COMMAND and touches no stream and no register but STATUS and the counters. -/
def Obligations.ExactlyEightWordsAreLegal : Prop :=
  ∀ v : Word,
    (v.toNat ≤ 7 → wordWf v = true ∧ ∃ i, decode v = .ok i ∧ v = encode i ∧ opOf i = v.extractLsb' 0 4) ∧
    (7 < v.toNat → wordWf v = false ∧ (∃ e, decode v = .error e) ∧
      ∀ s : State, s.regs.stat ≠ .busy → ∃ t, writeAt 0x000 v s = .next t ∧ t.regs.stat = .error ∧
        t.regs.err = .illegalCommand ∧ t.eng = s.eng ∧ t.env = s.env ∧
        t.regs = { s.regs with
          stat := t.regs.stat, err := t.regs.err, lastOp := t.regs.lastOp, inCount := t.regs.inCount
          outCount := t.regs.outCount, chunks := t.regs.chunks })

/-! ### Register accesses (10_state.md, 20_memory.md, 44_control.md) -/

/-- R287: a word with RSVD != 0 or OP in 8..15 written while not BUSY ends at once in ERROR with ILLEGAL_COMMAND and
LAST_OP = v[3:0]; the counters are 0 and nothing else of the machine changes. -/
def Obligations.IllegalWordEndsInError : Prop :=
  ∀ (s : State) (v : Word), s.regs.stat ≠ .busy → (v.extractLsb' 4 28 ≠ 0 ∨ 8 ≤ (v.extractLsb' 0 4).toNat) →
    writeAt 0x000 v s = .next { s with regs := { s.regs with
      stat := .error, err := .illegalCommand, lastOp := v.extractLsb' 0 4, inCount := 0, outCount := 0, chunks := 0 } }

/-- R262, R263: while BUSY a host write to any register, CMD among them, changes nothing; a write to a read-only register
or a reserved offset never does. -/
def Obligations.WritesWithoutEffect : Prop :=
  ∀ (s : State) (off : Nat) (v : Word),
    (s.regs.stat = .busy ∨ off = 0x004 ∨ (0x010 ≤ off ∧ off < 0x100)) → writeAt off v s = .next s

/-- While not BUSY, a write to CFG stores CHUNK_SIZE and OVF_POLICY and reads back with bits [31:17] zero; a write to
ALPHA_N stores bits [7:0] and reads back with bits [31:8] zero; neither changes anything else (derived from R25, R26). -/
def Obligations.CfgAndAlphaNReadBackAsWritten : Prop :=
  ∀ (s : State) (v : Word), s.regs.stat ≠ .busy →
    (∃ (cs : BitVec 16) (pol : Policy),
      writeAt 0x008 v s = .next { s with regs := { s.regs with chunkSize := cs, ovfPolicy := pol } } ∧
      storedValue .cfg { s.regs with chunkSize := cs, ovfPolicy := pol } = v &&& 0x0001FFFF ∧
      cs = v.extractLsb' 0 16 ∧ (pol = .error ↔ v.getLsbD 16 = true)) ∧
    ∃ n : Byte, writeAt 0x00C v s = .next { s with regs := { s.regs with alphaN := n } } ∧
      storedValue .alphaN { s.regs with alphaN := n } = v &&& 0x000000FF

/-- R32: while not BUSY, a write to word k of the ALPHA window stores all four bytes, ALPHA[4k+j] in bits [8j+7:8j]; the
word reads back as written, every other word of the window as before, and nothing else changes. -/
def Obligations.AlphaWindowReadsBackAsWritten : Prop :=
  ∀ (s : State) (v : Word) (k : Nat), s.regs.stat ≠ .busy → k < 64 → ∃ a : Vector Byte 256,
    writeAt (0x100 + 4 * k) v s = .next { s with regs := { s.regs with alpha := a } } ∧
    storedValue (.alphaWord k) { s.regs with alpha := a } = v ∧
    (∀ j : Nat, (hj : j < 4) → ∀ h : 4 * k + j < 256, a[4 * k + j] = v.extractLsb' (8 * j) 8) ∧
    ∀ j, j ≠ k → storedValue (.alphaWord j) { s.regs with alpha := a } = storedValue (.alphaWord j) s.regs

/-- R264: a register read has no side effect on the block. Unless BUSY, each register returns its stored value: CMD 0,
STATUS, CFG, ALPHA_N, the counters, DICT_NEXT, IBUF_CAP = IBUF_SIZE, reserved offsets 0, and the ALPHA words. While BUSY,
STATUS, CFG and IBUF_CAP do, and so do ALPHA_N and ALPHA while LZW_DEC runs. -/
def Obligations.RegisterReads : Prop :=
  ∀ s : State,
    (∀ off, (hostRead off s).regs = s.regs ∧ (hostRead off s).eng = s.eng ∧
      (hostRead off s).env = { s.env with reads := s.env.reads ++ [(off, readValue (regAt off) s)] }) ∧
    readValue (regAt 0x000) s = 0 ∧ readValue (regAt 0x004) s = statusWord s.regs ∧
    readValue (regAt 0x008) s = cfgWord s.regs ∧ (readValue (regAt 0x020) s).toNat = Config.ibufSize ∧
    (∀ off, 0x024 ≤ off → off < 0x100 → readValue (regAt off) s = 0) ∧
    (s.regs.stat ≠ .busy →
      readValue (regAt 0x010) s = s.regs.inCount ∧ readValue (regAt 0x014) s = s.regs.outCount ∧
      readValue (regAt 0x018) s = s.regs.chunks ∧ readValue (regAt 0x01C) s = s.regs.dictNext.setWidth 32) ∧
    ((s.regs.stat ≠ .busy ∨ s.eng.opCur = opOf .lzwDec) →
      readValue (regAt 0x00C) s = s.regs.alphaN.setWidth 32 ∧
      ∀ k, k < 64 → readValue (regAt (0x100 + 4 * k)) s = alphaWord s.regs k)

/-- R24's value column, R281's code table, and where STATUS holds its fields; the reserved bits are 0. -/
def Obligations.StatusFieldPositions : Prop :=
  (statCode .idle = 0 ∧ statCode .busy = 1 ∧ statCode .done = 2 ∧ statCode .error = 3) ∧
  (errCode .noError = 0 ∧ errCode .alphabetOverflow = 1 ∧ errCode .dictionaryOverflow = 2 ∧
    errCode .malformedFrame = 3 ∧ errCode .truncatedEnvelope = 4 ∧ errCode .shortWrite = 5 ∧
    errCode .illegalCommand = 6 ∧ errCode .badConfig = 7 ∧ errCode .unitTooLong = 8) ∧
  ∀ g : Regs, (statusWord g).extractLsb' 0 2 = statCode g.stat ∧ (statusWord g).extractLsb' 2 2 = 0 ∧
    (statusWord g).extractLsb' 4 4 = errCode g.err ∧ (statusWord g).extractLsb' 8 4 = g.lastOp ∧
    (statusWord g).extractLsb' 12 20 = 0

/-- R308(a), R61: a register access that is not 32 bits wide, is misaligned, or misses the register space is refused. -/
def Obligations.BadAccessesAreRefused : Prop :=
  ∀ (s : State) (rest : List HostOp) (off : Nat) (v : Word),
    (∀ g n, s.env.host = .narrow g n :: rest → step s = .refused .narrowAccess) ∧
    (off < 512 → off % 4 ≠ 0 →
      (s.env.host = .write (.offset off) v :: rest → step s = .refused .misalignedAccess) ∧
      (s.env.host = .read (.offset off) :: rest → step s = .refused .misalignedAccess)) ∧
    (512 ≤ off →
      (s.env.host = .write (.offset off) v :: rest → step s = .refused .outsideRegisterSpace) ∧
      (s.env.host = .read (.offset off) :: rest → step s = .refused .outsideRegisterSpace))

/-- R60, R305: a host line of an instance at that instance's REG_BASE + off does what the line at offset off does, and
an address below REG_BASE names no register of the block. -/
def Obligations.AddressIsBasePlusOffset : Prop :=
  ∀ (s : State) (rest : List HostOp) (off : Nat) (v : Word),
    hostStep (.write (.address (Config.regBase s.inst + off)) v) rest s = hostStep (.write (.offset off) v) rest s ∧
    hostStep (.read (.address (Config.regBase s.inst + off))) rest s = hostStep (.read (.offset off)) rest s ∧
    ∀ base a : Nat, a < base → resolve base (.address a) = .error .outsideRegisterSpace

/-! ### The step, and reset -/

/-- A CMD write of a word that decodes to a command runs that command, with the line taken off the host program
(derived from 10_state.md R23; the host program is the model's, log 2). -/
def Obligations.StepRunsTheDecodedCommand : Prop :=
  ∀ (s : State) (g : Target) (v : Word) (i : Instr) (rest : List HostOp),
    s.env.host = .write g v :: rest → resolve (Config.regBase s.inst) g = .ok 0x000 → decode v = .ok i →
      step s = exec i { s with env.host := rest }

/-- R300: with no host line left and STATE = IDLE, DONE or ERROR, the engine takes no step. -/
def Obligations.EngineRestsUnlessBusy : Prop :=
  ∀ (s : State) (n : Nat), s.regs.stat ≠ .busy → engineTurns n s = .next s ∧ (s.env.host = [] → step s = .next s)

/-- R311: the state after reset has the reset values the spec gives. -/
def Obligations.ResetValues : Prop := State.reset.atReset

/-- R310, R312: a reset event at any moment, between engine steps or while the engine waits, gives every element its
reset value, abandoning the running command; the source, the sink and the rest of the host program are untouched. -/
def Obligations.ResetEventFromAnyState : Prop :=
  ∀ (s : State) (rest : List HostOp), s.env.host = .reset :: rest → ∃ t, step s = .next t ∧
    t.atReset ∧ t.env = { s.env with host := rest }

/-! ### CLR and SCAN -/

/-- R268: CLR, word 0x00000000, while not BUSY: counters, ERR and LAST_OP 0, STATE IDLE; CFG, ALPHA_N, ALPHA, DICT_NEXT
and the streams untouched. While BUSY it is ignored. The word 0x00000010 is not CLR. -/
def Obligations.ClearReturnsToIdle : Prop :=
  encode .clr = 0x00000000 ∧ decode 0x00000010 = .error .reservedBits ∧
  ∀ s : State, (s.regs.stat = .busy → exec .clr s = .next s) ∧
    (s.regs.stat ≠ .busy → exec .clr s = .next { s with regs := { s.regs with
      stat := .idle, err := .noError, lastOp := 0, inCount := 0, outCount := 0, chunks := 0 } })

/-- R123: SCAN of a unit with at most 255 distinct bytes: ALPHA_N = N, ALPHA[0..N-1] the alphabet, the rest of ALPHA,
DICT_NEXT and CFG unchanged, nothing written to the sink. -/
def Obligations.ScanPublishesTheAlphabet : Prop :=
  ∀ (s : State) (data alpha : List Byte), s.ready data → data.length ≤ Config.ibufSize → scan data = some alpha →
    ∃ t, exec .scan s = .next t ∧ leftEnv s t [] ∧ t.atRest ∧
      t.regs = { s.regs with
        stat := .done, err := .noError, lastOp := 1, inCount := count32 data.length, outCount := 0, chunks := 0
        alphaN := BitVec.ofNat 8 alpha.length
        alpha := Vector.ofFn fun i : Fin 256 => (alpha[i.val]?).getD s.regs.alpha[i.val] }

/-- R122: what a scan that returns says about its alphabet, (a) to (f). -/
def Obligations.ScanProperties : Prop :=
  ∀ data alpha : List Byte, scan data = some alpha →
    alpha.length ≤ min 255 data.length ∧ (alpha.length = 0 ↔ data = []) ∧
    (alpha.length = data.length ↔ data.Nodup) ∧ alpha.Nodup ∧ (data ≠ [] → alpha.head? = data.head?) ∧
    (∀ b, b ∈ data ↔ b ∈ alpha) ∧
    ∀ b c, b ∈ data → c ∈ data → (data.idxOf b < data.idxOf c ↔ alpha.idxOf b < alpha.idxOf c)

/-- R121: the scan raises ALPHABET_OVERFLOW exactly when the unit contains every byte value, at the first occurrence of
the 256th. -/
def Obligations.ScanOverflowsExactlyOnAllBytes : Prop :=
  ∀ data : List Byte, (scan data = none ↔ ∀ b : Byte, b ∈ data) ∧
    (scan data = none ↔ ∃ (pre post alpha : List Byte) (b : Byte),
      data = pre ++ b :: post ∧ scan pre = some alpha ∧ alpha.length = 255 ∧ b ∉ pre)

/-- R282, R293: ALPHABET_OVERFLOW in SCAN, LZW_ENC and FRM_ENC: nothing reaches the sink, IN_COUNT is the unit's length,
CFG is unchanged, and SCAN leaves DICT_NEXT (the other results are unspecified). -/
def Obligations.AlphabetOverflowEndsTheUnit : Prop :=
  ∀ (s : State) (data : List Byte) (i : Instr), s.ready data → data.length ≤ Config.ibufSize → scan data = none →
    (i = .scan ∨ i = .lzwEnc ∨ i = .frmEnc) →
    ∃ t, exec i s = .next t ∧ leftEnv s t [] ∧ t.atRest ∧
      (i = .scan → t.regs.dictNext = s.regs.dictNext) ∧
      t.regs = { s.regs with
        stat := .error, err := .alphabetOverflow, lastOp := opOf i, inCount := count32 data.length, outCount := 0
        chunks := 0, alphaN := t.regs.alphaN, alpha := t.regs.alpha, dictNext := t.regs.dictNext }

/-- R289: a unit of more than IBUF_SIZE bytes, in each of the five unit commands: UNIT_TOO_LONG with
IN_COUNT = IBUF_SIZE + 1, nothing emitted, ALPHA_N, ALPHA and DICT_NEXT unchanged. -/
def Obligations.UnitTooLongEndsTheUnit : Prop :=
  ∀ (s : State) (data : List Byte) (i : Instr), s.ready data → Config.ibufSize < data.length →
    (i = .scan ∨ i = .lzwEnc ∨ i = .lzwDec ∨ i = .frmEnc ∨ i = .frmDec) →
    ∃ t, exec i s = .next t ∧ leftEnv s t [] ∧ t.atRest ∧
      t.regs = { s.regs with
        stat := .error, err := .unitTooLong, lastOp := opOf i, inCount := count32 (Config.ibufSize + 1), outCount := 0
        chunks := 0 } ∧
      t.env.src.stream = data.drop (Config.ibufSize + 1)

/-! ### LZW_ENC and FRM_ENC -/

/-- R159: LZW_ENC that ends DONE: the sink gets the codes, ALPHA_N and ALPHA the unit's alphabet, DICT_NEXT the run's
NEXT; CHUNKS is 0 and CFG unchanged. -/
def Obligations.LzwEncResult : Prop :=
  ∀ (s : State) (data alpha codes : List Byte) (r : Lzw), s.ready data → data.length ≤ Config.ibufSize →
    scan data = some alpha → encodeUnit s.regs.ovfPolicy alpha data = .ok r codes →
    takesAll s.env.nextSink.room codes →
    ∃ t, exec .lzwEnc s = .next t ∧ leftEnv s t codes ∧ t.atRest ∧
      t.regs = { setAlphabet alpha s.regs with
        stat := .done, err := .noError, lastOp := 2, inCount := count32 data.length
        outCount := count32 codes.length, chunks := 0, dictNext := r.next }

/-- R194: FRM_ENC that ends DONE: the sink gets exactly FrameEncode(data, policy). -/
def Obligations.FrmEncResult : Prop :=
  ∀ (s : State) (data alpha codes : List Byte) (r : Lzw), s.ready data → data.length ≤ Config.ibufSize →
    scan data = some alpha → encodeUnit s.regs.ovfPolicy alpha data = .ok r codes →
    takesAll s.env.nextSink.room (frameHeader alpha ++ codes) →
    ∃ t, exec .frmEnc s = .next t ∧ leftEnv s t (frameHeader alpha ++ codes) ∧ t.atRest ∧
      frameEncode s.regs.ovfPolicy data = .bytes (frameHeader alpha ++ codes) ∧
      t.regs = { setAlphabet alpha s.regs with
        stat := .done, err := .noError, lastOp := 4, inCount := count32 data.length
        outCount := count32 (frameHeader alpha ++ codes).length, chunks := 0, dictNext := r.next }

/-- R283, R293: DICTIONARY_OVERFLOW in LZW_ENC and FRM_ENC: the codes emitted up to and including the failing miss's
reach the sink (after the header part in FRM_ENC), DICT_NEXT = 256, ALPHA_N and ALPHA hold the unit's alphabet. -/
def Obligations.DictionaryOverflowEndsTheUnit : Prop :=
  ∀ (s : State) (data alpha codes : List Byte) (r : Lzw) (e : Err), s.ready data →
    data.length ≤ Config.ibufSize → scan data = some alpha →
    encodeUnit s.regs.ovfPolicy alpha data = .raised e r codes →
    (takesAll s.env.nextSink.room codes →
      ∃ t, exec .lzwEnc s = .next t ∧ leftEnv s t codes ∧ t.atRest ∧
        t.regs = { setAlphabet alpha s.regs with
          stat := .error, err := .dictionaryOverflow, lastOp := 2, inCount := count32 data.length
          outCount := count32 codes.length, chunks := 0, dictNext := 256 }) ∧
    (takesAll s.env.nextSink.room (frameHeader alpha ++ codes) →
      ∃ t, exec .frmEnc s = .next t ∧ leftEnv s t (frameHeader alpha ++ codes) ∧ t.atRest ∧
        t.regs = { setAlphabet alpha s.regs with
          stat := .error, err := .dictionaryOverflow, lastOp := 4, inCount := count32 data.length
          outCount := count32 (frameHeader alpha ++ codes).length, chunks := 0, dictNext := 256 })

/-- R72, R286 for LZW_ENC and FRM_ENC: when the sink's A is less than |O|, whatever the run would have ended with, the
sink holds O[0:A], OUT_COUNT = A, the command ends with SHORT_WRITE, and ALPHA_N and ALPHA hold the unit's alphabet. -/
def Obligations.EncodersShortWrite : Prop :=
  ∀ (s : State) (data alpha codes : List Byte) (r : Lzw) (a : Nat), s.ready data →
    data.length ≤ Config.ibufSize → scan data = some alpha →
    (encodeUnit s.regs.ovfPolicy alpha data = .ok r codes ∨
      ∃ e, encodeUnit s.regs.ovfPolicy alpha data = .raised e r codes) →
    s.env.nextSink.room = some a →
    (a < codes.length →
      ∃ t, exec .lzwEnc s = .next t ∧ leftEnv s t (codes.take a) ∧ t.atRest ∧
        t.regs = { setAlphabet alpha s.regs with
          stat := .error, err := .shortWrite, lastOp := 2, inCount := count32 data.length, outCount := count32 a
          chunks := 0, dictNext := t.regs.dictNext }) ∧
    (a < (frameHeader alpha ++ codes).length →
      ∃ t, exec .frmEnc s = .next t ∧ leftEnv s t ((frameHeader alpha ++ codes).take a) ∧ t.atRest ∧
        t.regs = { setAlphabet alpha s.regs with
          stat := .error, err := .shortWrite, lastOp := 4, inCount := count32 data.length, outCount := count32 a
          chunks := 0, dictNext := t.regs.dictNext })

/-- R142: under FREEZE the encoder never raises, and its only error is DICTIONARY_OVERFLOW, under ERROR, with the
dictionary full. Every unit with an alphabet has a run. -/
def Obligations.EncoderRaisesOnlyUnderErrorPolicy : Prop :=
  ∀ (pol : Policy) (data alpha : List Byte), scan data = some alpha →
    (∃ r codes, encodeUnit pol alpha data = .ok r codes) ∨
    (pol = .error ∧ ∃ r codes, encodeUnit pol alpha data = .raised .dictionaryOverflow r codes ∧ r.next = 256)

/-- R161: K = 0 if N = L, otherwise 1 <= K <= L; a decoder emits at most 255 bytes for each code, or the N alphabet bytes
for an empty code sequence. The i-th code is in 1..min(255, N + i) (derived from R98(c), (d)). -/
def Obligations.CodeCountAndRange : Prop :=
  (∀ (pol : Policy) (data alpha codes : List Byte) (r : Lzw), scan data = some alpha →
    encodeUnit pol alpha data = .ok r codes →
    (alpha.length = data.length → codes = []) ∧
    (alpha.length ≠ data.length → 1 ≤ codes.length ∧ codes.length ≤ data.length) ∧
    ∀ (i : Nat) (h : i < codes.length), 1 ≤ codes[i].toNat ∧ codes[i].toNat ≤ min 255 (alpha.length + i)) ∧
  ∀ (alpha codes out : List Byte) (r : Lzw), alpha.length ≤ 255 → lzwDecode alpha codes = .ok r out →
    out.length ≤ if codes = [] then alpha.length else 255 * codes.length

/-- R196: the frame of a unit of L bytes is empty for L = 0, has 1 + L bytes if every byte is distinct, and at most
1 + N + L <= 256 + L otherwise; so the frame of a legal chunk fits FBUF. -/
def Obligations.FrameLengthBound : Prop :=
  ∀ (pol : Policy) (data alpha fr : List Byte), scan data = some alpha → frameEncode pol data = .bytes fr →
    (data = [] → fr = []) ∧ (data ≠ [] → data.Nodup → fr.length = 1 + data.length) ∧
    fr.length ≤ 1 + alpha.length + data.length ∧ fr.length ≤ 256 + data.length ∧
    (data.length ≤ Config.maxChunkSize → fr.length ≤ Config.fbufSize)

/-! ### LZW_DEC and FRM_DEC -/

/-- R160: LZW_DEC that ends DONE: the sink gets LzwDecode of the alphabet operand ALPHA[0..ALPHA_N-1] and the codes,
DICT_NEXT the run's NEXT; ALPHA_N, ALPHA and CFG unchanged. -/
def Obligations.LzwDecResult : Prop :=
  ∀ (s : State) (codes out : List Byte) (r : Lzw), s.ready codes → codes.length ≤ Config.ibufSize →
    lzwDecode (s.regs.alpha.toList.take s.regs.alphaN.toNat) codes = .ok r out → takesAll s.env.nextSink.room out →
    ∃ t, exec .lzwDec s = .next t ∧ leftEnv s t out ∧ t.atRest ∧
      t.regs = { s.regs with
        stat := .done, err := .noError, lastOp := 3, inCount := count32 codes.length, outCount := count32 out.length
        chunks := 0, dictNext := r.next }

/-- R160, R284: LZW_DEC at a bad code: MALFORMED_FRAME, the bytes of earlier codes reach the sink, DICT_NEXT is the
run's NEXT; ALPHA_N, ALPHA and CFG unchanged. -/
def Obligations.LzwDecMalformed : Prop :=
  ∀ (s : State) (codes out : List Byte) (r : Lzw) (e : Err), s.ready codes → codes.length ≤ Config.ibufSize →
    lzwDecode (s.regs.alpha.toList.take s.regs.alphaN.toNat) codes = .raised e r out →
    takesAll s.env.nextSink.room out →
    ∃ t, exec .lzwDec s = .next t ∧ leftEnv s t out ∧ t.atRest ∧
      t.regs = { s.regs with
        stat := .error, err := .malformedFrame, lastOp := 3, inCount := count32 codes.length
        outCount := count32 out.length, chunks := 0, dictNext := r.next }

/-- R195: FRM_DEC of a frame `[N] ++ alpha ++ codes` that ends DONE: the sink gets LzwDecode(alpha, codes), ALPHA_N and
ALPHA the frame's alphabet, DICT_NEXT the run's NEXT. -/
def Obligations.FrmDecResult : Prop :=
  ∀ (s : State) (n : Byte) (alpha codes out : List Byte) (r : Lzw), s.ready (n :: (alpha ++ codes)) →
    (n :: (alpha ++ codes)).length ≤ Config.ibufSize → n ≠ 0 → alpha.length = n.toNat →
    lzwDecode alpha codes = .ok r out → takesAll s.env.nextSink.room out →
    ∃ t, exec .frmDec s = .next t ∧ leftEnv s t out ∧ t.atRest ∧
      t.regs = { setAlphabet alpha s.regs with
        stat := .done, err := .noError, lastOp := 5, inCount := count32 (1 + alpha.length + codes.length)
        outCount := count32 out.length, chunks := 0, alphaN := n, dictNext := r.next }

/-- R195, R284: FRM_DEC at a bad code: MALFORMED_FRAME, the bytes decoded before it reach the sink, ALPHA_N and ALPHA
hold the frame's alphabet, DICT_NEXT is the run's NEXT. -/
def Obligations.FrmDecMalformedCode : Prop :=
  ∀ (s : State) (n : Byte) (alpha codes out : List Byte) (r : Lzw) (e : Err), s.ready (n :: (alpha ++ codes)) →
    (n :: (alpha ++ codes)).length ≤ Config.ibufSize → n ≠ 0 → alpha.length = n.toNat →
    lzwDecode alpha codes = .raised e r out → takesAll s.env.nextSink.room out →
    ∃ t, exec .frmDec s = .next t ∧ leftEnv s t out ∧ t.atRest ∧
      t.regs = { setAlphabet alpha s.regs with
        stat := .error, err := .malformedFrame, lastOp := 5, inCount := count32 (1 + alpha.length + codes.length)
        outCount := count32 out.length, chunks := 0, alphaN := n, dictNext := r.next }

/-- R193: a frame whose byte 0 is 0 decodes to the empty sequence whatever follows, as the empty frame does, and no
encoder writes one. FRM_DEC of either: no output, DONE, ALPHA_N = 0, DICT_NEXT = 1, ALPHA unchanged. -/
def Obligations.FrmDecEmptyFrame : Prop :=
  (∀ rest : List Byte, frameDecode (0 :: rest) = .bytes []) ∧ frameDecode [] = .bytes [] ∧
  (∀ (pol : Policy) (data rest : List Byte), frameEncode pol data ≠ .bytes (0 :: rest)) ∧
  ∀ (s : State) (fr : List Byte), s.ready fr → fr.length ≤ Config.ibufSize → (fr = [] ∨ fr.head? = some 0) →
    ∃ t, exec .frmDec s = .next t ∧ leftEnv s t [] ∧ t.atRest ∧
      t.regs = { s.regs with
        stat := .done, err := .noError, lastOp := 5, inCount := count32 fr.length, outCount := 0, chunks := 0
        alphaN := 0, dictNext := 1 }

/-- R192: a frame with N >= 1 and fewer than 1 + N bytes raises MALFORMED_FRAME and nothing of it is decoded. FRM_DEC of
one: no output, ALPHA_N, ALPHA and DICT_NEXT unchanged. -/
def Obligations.FrmDecShortFrame : Prop :=
  ∀ (n : Byte) (rest : List Byte), n ≠ 0 → rest.length < n.toNat →
    frameDecode (n :: rest) = .raised .malformedFrame [] ∧
    ∀ s : State, s.ready (n :: rest) → (n :: rest).length ≤ Config.ibufSize →
      ∃ t, exec .frmDec s = .next t ∧ leftEnv s t [] ∧ t.atRest ∧
        t.regs = { s.regs with
          stat := .error, err := .malformedFrame, lastOp := 5, inCount := count32 (1 + rest.length), outCount := 0
          chunks := 0 }

/-- R72, R286 for LZW_DEC and FRM_DEC: when the sink's A is less than |O|, whatever the run would have ended with, the
sink holds O[0:A], OUT_COUNT = A and the command ends with SHORT_WRITE; LZW_DEC leaves ALPHA_N and ALPHA, FRM_DEC leaves
the frame's alphabet there. -/
def Obligations.DecodersShortWrite : Prop :=
  ∀ (s : State) (codes out : List Byte) (r : Lzw) (a : Nat), s.env.nextSink.room = some a → a < out.length →
    (s.ready codes → codes.length ≤ Config.ibufSize →
      (lzwDecode (s.regs.alpha.toList.take s.regs.alphaN.toNat) codes = .ok r out ∨
        ∃ e, lzwDecode (s.regs.alpha.toList.take s.regs.alphaN.toNat) codes = .raised e r out) →
      ∃ t, exec .lzwDec s = .next t ∧ leftEnv s t (out.take a) ∧ t.atRest ∧
        t.regs = { s.regs with
          stat := .error, err := .shortWrite, lastOp := 3, inCount := count32 codes.length, outCount := count32 a
          chunks := 0, dictNext := t.regs.dictNext }) ∧
    (∀ (n : Byte) (alpha : List Byte), s.ready (n :: (alpha ++ codes)) →
      (n :: (alpha ++ codes)).length ≤ Config.ibufSize → n ≠ 0 → alpha.length = n.toNat →
      (lzwDecode alpha codes = .ok r out ∨ ∃ e, lzwDecode alpha codes = .raised e r out) →
      ∃ t, exec .frmDec s = .next t ∧ leftEnv s t (out.take a) ∧ t.atRest ∧
        t.regs = { setAlphabet alpha s.regs with
          stat := .error, err := .shortWrite, lastOp := 5, inCount := count32 (1 + alpha.length + codes.length)
          outCount := count32 a, chunks := 0, alphaN := n, dictNext := t.regs.dictNext })

/-- R143, R152, R153: for every alphabet of at most 255 bytes and every code sequence the decoder ends, and its only
error is MALFORMED_FRAME; it never raises DICTIONARY_OVERFLOW. Code 0 anywhere raises it. -/
def Obligations.DecoderRaisesOnlyMalformedFrame : Prop :=
  ∀ alpha codes : List Byte, alpha.length ≤ 255 →
    ((∃ r out, lzwDecode alpha codes = .ok r out) ∨
      ∃ r out, lzwDecode alpha codes = .raised .malformedFrame r out) ∧
    ((0 : Byte) ∈ codes → ∃ r out, lzwDecode alpha codes = .raised .malformedFrame r out)

/-! ### STR_ENC and STR_DEC -/

/-- R288: STR_ENC with CHUNK_SIZE 0 or above 65279 raises BAD_CONFIG in its first engine step; it touches no stream, the
counters are 0, and ALPHA_N, ALPHA and DICT_NEXT are unchanged. -/
def Obligations.StrEncBadConfig : Prop :=
  ∀ (s : State) (data : List Byte), s.ready data →
    (s.regs.chunkSize.toNat = 0 ∨ 65279 < s.regs.chunkSize.toNat) →
    (∃ p, exec .strEnc { s with env.quota := some 0 } = .next p ∧ engineStep p = .went (raise .badConfig p)) ∧
    ∃ t, exec .strEnc s = .next t ∧ leftEnv s t [] ∧ t.atRest ∧ t.env.src = s.env.nextSrc ∧
      t.regs = { s.regs with
        stat := .error, err := .badConfig, lastOp := 6, inCount := 0, outCount := 0, chunks := 0 }

/-- R223, R232: STR_ENC of a whole stream whose sink takes everything: DONE or the first data error, with the envelopes
of the chunks before it in the sink, IN_COUNT the bytes read, CHUNKS the envelopes; ALPHA_N, ALPHA and DICT_NEXT are
unspecified. -/
def Obligations.StrEncResult : Prop :=
  ∀ (s : State) (data : List Byte) (run : StreamRun), s.ready data →
    1 ≤ s.regs.chunkSize.toNat → s.regs.chunkSize.toNat ≤ 65279 →
    strEncode s.regs.ovfPolicy s.regs.chunkSize.toNat data = run → takesAll s.env.nextSink.room run.out →
    ∃ t, exec .strEnc s = .next t ∧ leftEnv s t run.out ∧ t.atRest ∧
      t.regs = { s.regs with
        stat := if run.err = .noError then .done else .error, err := run.err, lastOp := 6
        inCount := count32 run.consumed, outCount := count32 run.out.length, chunks := count32 run.chunks
        alphaN := t.regs.alphaN, alpha := t.regs.alpha, dictNext := t.regs.dictNext }

/-- R232, R72: STR_ENC whose sink answers short inside the envelope of chunk c: the sink holds O[0:A], IN_COUNT counts
the chunks up to and including c, and CHUNKS the envelopes wholly in the sink. -/
def Obligations.StrEncShortWrite : Prop :=
  ∀ (s : State) (data c fr : List Byte) (pre post : List (List Byte)) (a : Nat), s.ready data →
    1 ≤ s.regs.chunkSize.toNat → s.regs.chunkSize.toNat ≤ 65279 →
    chunksOf s.regs.chunkSize.toNat data = pre ++ c :: post →
    (encodeChunks s.regs.ovfPolicy pre).err = .noError → frameEncode s.regs.ovfPolicy c = .bytes fr →
    s.env.nextSink.room = some a → (encodeChunks s.regs.ovfPolicy pre).out.length ≤ a →
    a < ((encodeChunks s.regs.ovfPolicy pre).out ++ envelope c.length fr).length →
    ∃ t, exec .strEnc s = .next t ∧
      leftEnv s t (((encodeChunks s.regs.ovfPolicy pre).out ++ envelope c.length fr).take a) ∧ t.atRest ∧
      t.regs = { s.regs with
        stat := .error, err := .shortWrite, lastOp := 6
        inCount := count32 ((encodeChunks s.regs.ovfPolicy pre).consumed + c.length), outCount := count32 a
        chunks := count32 pre.length
        alphaN := t.regs.alphaN, alpha := t.regs.alpha, dictNext := t.regs.dictNext }

/-- R230, R232: STR_DEC of a whole container whose sink takes everything: DONE or the first data error
(TRUNCATED_ENVELOPE or MALFORMED_FRAME), with everything decoded before it in the sink, IN_COUNT the bytes read and
CHUNKS the envelopes decoded; ALPHA_N, ALPHA and DICT_NEXT are unspecified. -/
def Obligations.StrDecResult : Prop :=
  ∀ (s : State) (container : List Byte) (run : StreamRun), s.ready container → strDecode container = run →
    takesAll s.env.nextSink.room run.out →
    ∃ t, exec .strDec s = .next t ∧ leftEnv s t run.out ∧ t.atRest ∧
      t.regs = { s.regs with
        stat := if run.err = .noError then .done else .error, err := run.err, lastOp := 7
        inCount := count32 run.consumed, outCount := count32 run.out.length, chunks := count32 run.chunks
        alphaN := t.regs.alphaN, alpha := t.regs.alpha, dictNext := t.regs.dictNext }

/-- R232, R72: STR_DEC whose sink answers short inside the output of an envelope: the sink holds O[0:A], IN_COUNT counts
the container up to that envelope's end, and CHUNKS the envelopes before it. -/
def Obligations.StrDecShortWrite : Prop :=
  ∀ (s : State) (front body post out : List Byte) (h0 h1 : Byte) (a : Nat), body.length ≤ 65535 →
    s.ready (front ++ [h0, h1] ++ be16 body.length ++ body ++ post) →
    (strDecode front).err = .noError →
    (frameDecode body = .bytes out ∨ ∃ e, frameDecode body = .raised e out) →
    s.env.nextSink.room = some a → (strDecode front).out.length ≤ a →
    a < ((strDecode front).out ++ out).length →
    ∃ t, exec .strDec s = .next t ∧ leftEnv s t (((strDecode front).out ++ out).take a) ∧ t.atRest ∧
      t.regs = { s.regs with
        stat := .error, err := .shortWrite, lastOp := 7
        inCount := count32 (front.length + 4 + body.length), outCount := count32 a
        chunks := count32 (strDecode front).chunks
        alphaN := t.regs.alphaN, alpha := t.regs.alpha, dictNext := t.regs.dictNext }

/-- R220: an input of T bytes is cut into ceil(T / CS) chunks, chunk j its bytes from j * CS up to the next multiple of
CS or the end; the chunks join to the input, none is empty, and each but the last has exactly CS bytes. The empty input
has no chunk, and its container is empty. -/
def Obligations.ChunksCutTheInput : Prop :=
  ∀ (cs : Nat) (data : List Byte), 1 ≤ cs →
    (chunksOf cs data).length = (data.length + cs - 1) / cs ∧
    (∀ j, j < (chunksOf cs data).length → (chunksOf cs data)[j]? = some ((data.drop (j * cs)).take cs)) ∧
    (chunksOf cs data).flatten = data ∧ (∀ c ∈ chunksOf cs data, c ≠ [] ∧ c.length ≤ cs) ∧
    (∀ c ∈ (chunksOf cs data).dropLast, c.length = cs) ∧
    chunksOf cs [] = [] ∧
    ∀ pol, strEncode pol cs [] = { out := [], err := .noError, chunks := 0, consumed := 0 }

/-- R99: an envelope is its two 16-bit lengths, most significant byte first, and the frame; reading the fields back gives
the lengths. -/
def Obligations.EnvelopeLayout : Prop :=
  ∀ (len : Nat) (fr : List Byte), len ≤ 65535 → fr.length ≤ 65535 →
    ∃ e0 e1 e2 e3 : Byte, envelope len fr = [e0, e1, e2, e3] ++ fr ∧
      256 * e0.toNat + e1.toNat = len ∧ 256 * e2.toNat + e3.toNat = fr.length ∧
      (frameLen [e0, e1, e2, e3]).toNat = fr.length ∧ (envelope len fr).length = 4 + fr.length

/-! ### Laws of the codec -/

/-- R156: the round-trip law. Under FREEZE LzwEncode returns for every unit with an alphabet; under either policy,
whenever it returns, LzwDecode of its alphabet and codes returns the unit and the same NEXT. At the end of both runs the
dictionaries are equal too (derived from R155). -/
def Obligations.LzwRoundTrip : Prop :=
  ∀ data alpha : List Byte, scan data = some alpha →
    (∃ r codes, encodeUnit .freeze alpha data = .ok r codes) ∧
    ∀ (pol : Policy) (codes : List Byte) (r : Lzw), encodeUnit pol alpha data = .ok r codes →
      ∃ r', lzwDecode alpha codes = .ok r' data ∧ r'.next = r.next ∧ r'.dict = r.dict

/-- R197: the frame round-trip law; under FREEZE FrameEncode returns for every unit without ALPHABET_OVERFLOW. The empty
unit has the empty frame; a unit of distinct bytes has the frame `[N] ++ data`. -/
def Obligations.FrameRoundTrip : Prop :=
  (∀ (pol : Policy) (data fr : List Byte), frameEncode pol data = .bytes fr → frameDecode fr = .bytes data) ∧
  (∀ data : List Byte, scan data ≠ none → ∃ fr, frameEncode .freeze data = .bytes fr) ∧
  (∀ pol : Policy, frameEncode pol [] = .bytes []) ∧
  ∀ (pol : Policy) (data : List Byte), data ≠ [] → data.Nodup → data.length ≤ 255 →
    frameEncode pol data = .bytes (BitVec.ofNat 8 data.length :: data)

/-- R231(a), (b): for every input and every legal chunk size, whenever STR_ENC would end DONE, the ORIG_LEN fields of its
container add up to the input's length, and STR_DEC of it gives the input back and ends DONE with the same number of
envelopes; under FREEZE with no chunk of all 256 byte values STR_ENC ends DONE. -/
def Obligations.ContainerRoundTrip : Prop :=
  ∀ (pol : Policy) (cs : Nat) (data : List Byte), 1 ≤ cs → cs ≤ 65279 →
    ((strEncode pol cs data).err = .noError →
      (strEncode pol cs data).consumed = data.length ∧ (origLens (strEncode pol cs data).out).sum = data.length ∧
      strDecode (strEncode pol cs data).out =
        { out := data, err := .noError, chunks := (strEncode pol cs data).chunks
          consumed := (strEncode pol cs data).out.length }) ∧
    (pol = .freeze → (∀ c ∈ chunksOf cs data, scan c ≠ none) → (strEncode pol cs data).err = .noError)

/-- R305: cutting an input at a multiple of the chunk size and encoding the parts apart gives the container of the whole,
where both end without an error. -/
def Obligations.ChunksEncodeIndependently : Prop :=
  ∀ (pol : Policy) (cs k : Nat) (d1 d2 : List Byte), 1 ≤ cs → d1.length = k * cs →
    (strEncode pol cs d1).err = .noError →
    strEncode pol cs (d1 ++ d2) =
      { out := (strEncode pol cs d1).out ++ (strEncode pol cs d2).out
        err := (strEncode pol cs d2).err
        chunks := (strEncode pol cs d1).chunks + (strEncode pol cs d2).chunks
        consumed := d1.length + (strEncode pol cs d2).consumed }

/-! ### The whole machine -/

/-- The invariant of Safety.lean holds right after reset. -/
def Obligations.ResetMeetsInvariant : Prop := State.reset.Inv

/-- Every step keeps the invariant (10_state.md R24, R30, R34, R35, R40, R43, R47; 20_memory.md R66, R67), whatever the
host program, the streams and the scheduling. -/
def Obligations.StepKeepsInvariant : Prop := ∀ s t : State, s.Inv → step s = .next t → t.Inv

/-- From a state that meets the invariant no step faults: the faults are engine states no run reaches (derived; the
faults are the model's, log 18). -/
def Obligations.InvariantStatesNeverFault : Prop := ∀ (s : State) (f : Fault), s.Inv → step s ≠ .fault f

/-- R321: every command whose streams keep their contract reaches its end point, for every finite input of every length
and every CFG, ALPHA_N, ALPHA and sink. On endless input STR_ENC and STR_DEC never see EOS: after any number `n` of
engine steps they are BUSY, or an error other than TRUNCATED_ENVELOPE has ended them. That one step of `exec` runs all
the engine steps a finite input needs is the model's step budget (log 1); endless input as data is log 3. -/
def Obligations.EveryCommandReachesItsEnd : Prop :=
  (∀ (i : Instr) (s : State) (data : List Byte), s.ready data →
    ∃ t, exec i s = .next t ∧ t.regs.stat ≠ .busy ∧ t.regs.lastOp = opOf i ∧
      (i ≠ .clr → t.atRest ∧ (t.regs.stat = .done ↔ t.regs.err = .noError) ∧ t.regs.stat ≠ .idle)) ∧
  ∀ (i : Instr) (s : State) (n id pos : Nat), i = .strEnc ∨ i = .strDec → s.regs.stat ≠ .busy →
    s.env.nextSrc.tail = .endless id pos → s.env.nextSink.tail = .ends →
    ∃ t, exec i { s with env.quota := some n } = .next t ∧ t.eng.eosSeen = false ∧
      (t.regs.stat = .busy ∨ (t.regs.stat = .error ∧ t.regs.err ≠ .truncatedEnvelope))

/-- R293 ("CFG is never written by a command") and the rest of the frame, in every state and for every end, wait or
pause: CFG, the host program and the reads are unchanged; LZW_DEC leaves ALPHA_N and ALPHA; SCAN and CLR leave
DICT_NEXT; the commands other than the streamers leave CHUNKS 0 once accepted. -/
def Obligations.CommandFrame : Prop :=
  ∀ (i : Instr) (s t : State), exec i s = .next t →
    t.regs.chunkSize = s.regs.chunkSize ∧ t.regs.ovfPolicy = s.regs.ovfPolicy ∧
    t.env.host = s.env.host ∧ t.env.reads = s.env.reads ∧
    (i = .lzwDec ∨ i = .clr → t.regs.alphaN = s.regs.alphaN ∧ t.regs.alpha = s.regs.alpha) ∧
    (i = .scan ∨ i = .clr → t.regs.dictNext = s.regs.dictNext) ∧
    (s.regs.stat ≠ .busy → i ≠ .strEnc → i ≠ .strDec → t.regs.chunks = 0)

/-- R260: an engine step of a BUSY command leaves it BUSY, or ends it in DONE with ERR = 0 or in ERROR with ERR != 0;
LAST_OP stays. -/
def Obligations.BusyEndsInDoneOrError : Prop :=
  ∀ s t : State, s.regs.stat = .busy → engineStep s = .went t →
    t.regs.lastOp = s.regs.lastOp ∧
    (t.regs.stat = .busy ∨ (t.regs.stat = .done ∧ t.regs.err = .noError) ∨
      (t.regs.stat = .error ∧ t.regs.err ≠ .noError))

/-- R267: outside BUSY no host line but a CMD write or a reset changes STATUS, the counters or DICT_NEXT, and only a write
to CFG, ALPHA_N or ALPHA changes one of those. -/
def Obligations.ResultsPersist : Prop :=
  ∀ (s t : State), s.regs.stat ≠ .busy → step s = .next t →
    (∀ g v rest, s.env.host = .write g v :: rest → resolve (Config.regBase s.inst) g ≠ .ok 0x000) →
    (∀ rest, s.env.host ≠ .reset :: rest) →
    t.regs = { s.regs with
      chunkSize := t.regs.chunkSize, ovfPolicy := t.regs.ovfPolicy, alphaN := t.regs.alphaN, alpha := t.regs.alpha } ∧
    ((∀ g v rest, s.env.host = .write g v :: rest →
        ∃ off, resolve (Config.regBase s.inst) g = .ok off ∧ (off = 0x004 ∨ (0x010 ≤ off ∧ off < 0x100))) →
      t.regs = s.regs)

/-- R71: while output is pending, an engine step offers the next bytes of it, at least one, each byte once and in order;
it reads nothing and leaves the command BUSY. After a short answer nothing more is pending, and the next step is the
completion with SHORT_WRITE. That pending output is offered before anything else, and in calls of the sizes the sink's
data list, is the model's choice (log 10), and so is that OUTQ is emptied at the short answer (log 24). -/
def Obligations.OutputIsOfferedFirst : Prop :=
  ∀ s t : State, engineStep s = .went t → s.regs.stat = .busy → s.eng.outq ≠ [] →
    t.env.src = s.env.src ∧ t.eng.eosSeen = s.eng.eosSeen ∧
    s.offered <+: s.eng.outq ∧ s.offered ≠ [] ∧
    ∃ a, a ≤ s.offered.length ∧ t.env.sink.held = s.env.sink.held ++ s.offered.take a ∧
      t.regs = { s.regs with outCount := s.regs.outCount + count32 a } ∧
      ((a = s.offered.length ∧ t.eng.ph = s.eng.ph ∧ s.offered ++ t.eng.outq = s.eng.outq) ∨
        (a < s.offered.length ∧ t.eng.outq = [] ∧ ∃ u, engineStep t = .went u ∧ u.regs.stat = .error ∧
          u.regs.err = .shortWrite ∧ u.regs.outCount = t.regs.outCount ∧ u.env = t.env))

/-- R81, R315: what a command does depends only on its input stream, the sink's draw A and the CFG, ALPHA_N and ALPHA it
reads at acceptance: not on how the source splits the stream, nor on how the output is cut into calls, nor on what earlier
commands left in the engine. That the registers R293 leaves unspecified are equal too, for equal draws, rests on the form
of the model's free values (log 7); DICT_NEXT where it is left unchanged is what it was. -/
def Obligations.ResultsDependOnOperandsOnly : Prop :=
  ∀ (i : Instr) (s s' : State) (data : List Byte), i ≠ .clr → s.ready data → s'.ready data →
    s'.env.nextSink.room = s.env.nextSink.room → s'.regs.chunkSize = s.regs.chunkSize →
    s'.regs.ovfPolicy = s.regs.ovfPolicy → s'.regs.alphaN = s.regs.alphaN → s'.regs.alpha = s.regs.alpha →
    s'.draw = s.draw →
    ∃ t t' out, exec i s = .next t ∧ exec i s' = .next t' ∧
      t.env.sink.held = s.env.nextSink.held ++ out ∧ t'.env.sink.held = s'.env.nextSink.held ++ out ∧
      t'.env.src.stream = t.env.src.stream ∧ t'.regs = { t.regs with dictNext := t'.regs.dictNext } ∧
      (t'.regs.dictNext = t.regs.dictNext ∨ (t'.regs.dictNext = s'.regs.dictNext ∧ t.regs.dictNext = s.regs.dictNext))

/-- R72: let `out` be what the command emits into a sink that never answers short. With the sink's draw A = `a` at least
|out| the command ends as it does there; with less, the sink holds out[0:A], OUT_COUNT = A, the command ends with
SHORT_WRITE, and IN_COUNT is what it was when out[A] had just been emitted (the run `p`, paused by the model's quota, log
1). That the registers R293 leaves unspecified are equal too rests on the form of the model's free values (log 7). -/
def Obligations.SinkDrawDecidesTheEnd : Prop :=
  ∀ (i : Instr) (s : State) (data : List Byte) (a : Nat), i ≠ .clr → s.ready data → s.env.nextSink.room = none →
    ∃ t u out, exec i s = .next t ∧ exec i { s with env.nextSink.room := some a } = .next u ∧
      t.env.sink.held = s.env.nextSink.held ++ out ∧ t.regs.outCount = count32 out.length ∧
      (out.length ≤ a → u.regs = t.regs ∧ u.env.sink.held = t.env.sink.held) ∧
      (a < out.length →
        u.regs.stat = .error ∧ u.regs.err = .shortWrite ∧ u.regs.outCount = count32 a ∧
        u.env.sink.held = s.env.nextSink.held ++ out.take a ∧
        ∃ n p, exec i { s with env.quota := some n } = .next p ∧
          p.env.sink.held.length ≤ s.env.nextSink.held.length + a ∧
          s.env.nextSink.held.length + a < (p.env.sink.held ++ p.eng.outq).length ∧
          u.regs.inCount = p.regs.inCount)

/-- Pausing a command after any number of engine steps and letting it run on later gives the end it has without the pause
(derived from R322; the pause is the model's quota, log 1). -/
def Obligations.PausingDoesNotMatter : Prop :=
  ∀ (i : Instr) (s p : State) (data : List Byte) (n : Nat), i ≠ .clr → s.ready data →
    exec i { s with env.quota := some n } = .next p → engineRun p = exec i s

/-- A stream that never answers keeps the command BUSY where it is; an answer outside the contract is refused (derived
from R297, R308(b), (c) and I10 to I12; the silent and the breaching stream are the model's, logs 3, 12 and 13). -/
def Obligations.StalledAndBreachingStreams : Prop :=
  ∀ s : State, s.regs.stat = .busy →
    (engineStep s = .waits → engineRun s = .next s) ∧
    (s.reading → s.eng.outq = [] → s.env.src.stream = [] →
      (s.env.src.tail = .silent → engineStep s = .waits) ∧
      (s.env.src.tail = .breach → engineRun s = .refused .sourceContract)) ∧
    (s.streams → s.eng.outq ≠ [] → s.env.sink.fits s.offered.length = false →
      (s.env.sink.tail = .silent → engineStep s = .waits) ∧
      (s.env.sink.tail = .breach → engineRun s = .refused .sinkContract))

/-- R305: a step of one instance leaves every other instance as it was, and acts on its own as alone, at its own REG_BASE
(AddressIsBasePlusOffset), which no step changes. After reset the platform holds N_INSTANCES blocks, at least one, each
the reset block under its own number (the numbering is the model's, log 20). -/
def Obligations.InstancesShareNothing : Prop :=
  1 ≤ platformReset.length ∧ platformReset.length = Config.nInstances ∧
  (∀ k, k < Config.nInstances → platformReset[k]? = some { State.reset with inst := k }) ∧
  ∀ (p q : Platform) (k : Nat), platformStep k p = .next q →
    q.length = p.length ∧ (∀ j, j ≠ k → q[j]? = p[j]?) ∧
    ∀ s, p[k]? = some s → ∃ t, step s = .next t ∧ q[k]? = some t ∧ t.inst = s.inst
end

