-- ==== Sys2Proof/Laws/State.lean ====
section
/-! SUPPORT. What each named update of the state does to each part of it: one lemma per part per update, true by rfl,
so that no later proof unfolds a record update. -/

namespace Sys2Proof.Machine

variable (s : State)

@[simp] theorem toPhase_regs (p : Phase) : (s.toPhase p).regs = s.regs := rfl
@[simp] theorem toPhase_eng (p : Phase) : (s.toPhase p).eng = { s.eng with ph := p } := rfl
@[simp] theorem toPhase_env (p : Phase) : (s.toPhase p).env = s.env := rfl
@[simp] theorem toPhase_draws (p : Phase) : (s.toPhase p).draws = s.draws := rfl
@[simp] theorem toPhase_inst (p : Phase) : (s.toPhase p).inst = s.inst := rfl
@[simp] theorem toPhase_draw (p : Phase) : (s.toPhase p).draw = s.draw := rfl

@[simp] theorem emit_regs (bs : List Byte) : (s.emit bs).regs = s.regs := rfl
@[simp] theorem emit_eng (bs : List Byte) : (s.emit bs).eng = { s.eng with outq := s.eng.outq ++ bs } := rfl
@[simp] theorem emit_env (bs : List Byte) : (s.emit bs).env = s.env := rfl
@[simp] theorem emit_draws (bs : List Byte) : (s.emit bs).draws = s.draws := rfl
@[simp] theorem emit_inst (bs : List Byte) : (s.emit bs).inst = s.inst := rfl
@[simp] theorem emit_draw (bs : List Byte) : (s.emit bs).draw = s.draw := rfl

@[simp] theorem countIn_regs (n : Nat) : (s.countIn n).regs = { s.regs with inCount := s.regs.inCount + BitVec.ofNat 32 n } := rfl
@[simp] theorem countIn_eng (n : Nat) : (s.countIn n).eng = s.eng := rfl
@[simp] theorem countIn_env (n : Nat) : (s.countIn n).env = s.env := rfl
@[simp] theorem countIn_draws (n : Nat) : (s.countIn n).draws = s.draws := rfl
@[simp] theorem countIn_inst (n : Nat) : (s.countIn n).inst = s.inst := rfl
@[simp] theorem countIn_draw (n : Nat) : (s.countIn n).draw = s.draw := rfl

@[simp] theorem countOut_regs (n : Nat) : (s.countOut n).regs = { s.regs with outCount := s.regs.outCount + BitVec.ofNat 32 n } := rfl
@[simp] theorem countOut_eng (n : Nat) : (s.countOut n).eng = s.eng := rfl
@[simp] theorem countOut_env (n : Nat) : (s.countOut n).env = s.env := rfl
@[simp] theorem countOut_draws (n : Nat) : (s.countOut n).draws = s.draws := rfl
@[simp] theorem countOut_inst (n : Nat) : (s.countOut n).inst = s.inst := rfl
@[simp] theorem countOut_draw (n : Nat) : (s.countOut n).draw = s.draw := rfl

@[simp] theorem countChunk_regs : (s.countChunk).regs = { s.regs with chunks := s.regs.chunks + 1 } := rfl
@[simp] theorem countChunk_eng : (s.countChunk).eng = s.eng := rfl
@[simp] theorem countChunk_env : (s.countChunk).env = s.env := rfl
@[simp] theorem countChunk_draws : (s.countChunk).draws = s.draws := rfl
@[simp] theorem countChunk_inst : (s.countChunk).inst = s.inst := rfl
@[simp] theorem countChunk_draw : (s.countChunk).draw = s.draw := rfl

@[simp] theorem sawEos_regs : (s.sawEos).regs = s.regs := rfl
@[simp] theorem sawEos_eng : (s.sawEos).eng = { s.eng with eosSeen := true } := rfl
@[simp] theorem sawEos_env : (s.sawEos).env = s.env := rfl
@[simp] theorem sawEos_draws : (s.sawEos).draws = s.draws := rfl
@[simp] theorem sawEos_inst : (s.sawEos).inst = s.inst := rfl
@[simp] theorem sawEos_draw : (s.sawEos).draw = s.draw := rfl

@[simp] theorem latchNext_regs : (s.latchNext).regs = { s.regs with dictNext := s.eng.lzw.next } := rfl
@[simp] theorem latchNext_eng : (s.latchNext).eng = s.eng := rfl
@[simp] theorem latchNext_env : (s.latchNext).env = s.env := rfl
@[simp] theorem latchNext_draws : (s.latchNext).draws = s.draws := rfl
@[simp] theorem latchNext_inst : (s.latchNext).inst = s.inst := rfl
@[simp] theorem latchNext_draw : (s.latchNext).draw = s.draw := rfl

@[simp] theorem withSrc_regs (src : Source) : (s.withSrc src).regs = s.regs := rfl
@[simp] theorem withSrc_eng (src : Source) : (s.withSrc src).eng = s.eng := rfl
@[simp] theorem withSrc_env (src : Source) : (s.withSrc src).env = { s.env with src := src } := rfl
@[simp] theorem withSrc_draws (src : Source) : (s.withSrc src).draws = s.draws := rfl
@[simp] theorem withSrc_inst (src : Source) : (s.withSrc src).inst = s.inst := rfl
@[simp] theorem withSrc_draw (src : Source) : (s.withSrc src).draw = s.draw := rfl

@[simp] theorem withSink_regs (k : Sink) : (s.withSink k).regs = s.regs := rfl
@[simp] theorem withSink_eng (k : Sink) : (s.withSink k).eng = s.eng := rfl
@[simp] theorem withSink_env (k : Sink) : (s.withSink k).env = { s.env with sink := k } := rfl
@[simp] theorem withSink_draws (k : Sink) : (s.withSink k).draws = s.draws := rfl
@[simp] theorem withSink_inst (k : Sink) : (s.withSink k).inst = s.inst := rfl
@[simp] theorem withSink_draw (k : Sink) : (s.withSink k).draw = s.draw := rfl

@[simp] theorem withLzw_regs (r : Lzw) : (s.withLzw r).regs = s.regs := rfl
@[simp] theorem withLzw_eng (r : Lzw) : (s.withLzw r).eng = { s.eng with lzw := r } := rfl
@[simp] theorem withLzw_env (r : Lzw) : (s.withLzw r).env = s.env := rfl
@[simp] theorem withLzw_draws (r : Lzw) : (s.withLzw r).draws = s.draws := rfl
@[simp] theorem withLzw_inst (r : Lzw) : (s.withLzw r).inst = s.inst := rfl
@[simp] theorem withLzw_draw (r : Lzw) : (s.withLzw r).draw = s.draw := rfl

@[simp] theorem fillIbuf_regs (bs : List Byte) : (s.fillIbuf bs).regs = s.regs := rfl
@[simp] theorem fillIbuf_eng (bs : List Byte) : (s.fillIbuf bs).eng = { s.eng with ibuf := s.eng.ibuf ++ bs } := rfl
@[simp] theorem fillIbuf_env (bs : List Byte) : (s.fillIbuf bs).env = s.env := rfl
@[simp] theorem fillIbuf_draws (bs : List Byte) : (s.fillIbuf bs).draws = s.draws := rfl
@[simp] theorem fillIbuf_inst (bs : List Byte) : (s.fillIbuf bs).inst = s.inst := rfl
@[simp] theorem fillIbuf_draw (bs : List Byte) : (s.fillIbuf bs).draw = s.draw := rfl

@[simp] theorem fillFbuf_regs (bs : List Byte) : (s.fillFbuf bs).regs = s.regs := rfl
@[simp] theorem fillFbuf_eng (bs : List Byte) : (s.fillFbuf bs).eng = { s.eng with fbuf := s.eng.fbuf ++ bs } := rfl
@[simp] theorem fillFbuf_env (bs : List Byte) : (s.fillFbuf bs).env = s.env := rfl
@[simp] theorem fillFbuf_draws (bs : List Byte) : (s.fillFbuf bs).draws = s.draws := rfl
@[simp] theorem fillFbuf_inst (bs : List Byte) : (s.fillFbuf bs).inst = s.inst := rfl
@[simp] theorem fillFbuf_draw (bs : List Byte) : (s.fillFbuf bs).draw = s.draw := rfl

@[simp] theorem fillHdr_regs (bs : List Byte) : (s.fillHdr bs).regs = s.regs := rfl
@[simp] theorem fillHdr_eng (bs : List Byte) : (s.fillHdr bs).eng = { s.eng with hdr := s.eng.hdr ++ bs } := rfl
@[simp] theorem fillHdr_env (bs : List Byte) : (s.fillHdr bs).env = s.env := rfl
@[simp] theorem fillHdr_draws (bs : List Byte) : (s.fillHdr bs).draws = s.draws := rfl
@[simp] theorem fillHdr_inst (bs : List Byte) : (s.fillHdr bs).inst = s.inst := rfl
@[simp] theorem fillHdr_draw (bs : List Byte) : (s.fillHdr bs).draw = s.draw := rfl

@[simp] theorem seek_regs (n : Nat) : (s.seek n).regs = s.regs := rfl
@[simp] theorem seek_eng (n : Nat) : (s.seek n).eng = { s.eng with ipos := n } := rfl
@[simp] theorem seek_env (n : Nat) : (s.seek n).env = s.env := rfl
@[simp] theorem seek_draws (n : Nat) : (s.seek n).draws = s.draws := rfl
@[simp] theorem seek_inst (n : Nat) : (s.seek n).inst = s.inst := rfl
@[simp] theorem seek_draw (n : Nat) : (s.seek n).draw = s.draw := rfl

@[simp] theorem withN_regs (n : Nat) : (s.withN n).regs = s.regs := rfl
@[simp] theorem withN_eng (n : Nat) : (s.withN n).eng = { s.eng with nCur := BitVec.ofNat 8 n } := rfl
@[simp] theorem withN_env (n : Nat) : (s.withN n).env = s.env := rfl
@[simp] theorem withN_draws (n : Nat) : (s.withN n).draws = s.draws := rfl
@[simp] theorem withN_inst (n : Nat) : (s.withN n).inst = s.inst := rfl
@[simp] theorem withN_draw (n : Nat) : (s.withN n).draw = s.draw := rfl

@[simp] theorem publishAlphabet_regs (alpha : List Byte) : (s.publishAlphabet alpha).regs = setAlphabet alpha s.regs := rfl
@[simp] theorem publishAlphabet_eng (alpha : List Byte) : (s.publishAlphabet alpha).eng = s.eng := rfl
@[simp] theorem publishAlphabet_env (alpha : List Byte) : (s.publishAlphabet alpha).env = s.env := rfl
@[simp] theorem publishAlphabet_draws (alpha : List Byte) : (s.publishAlphabet alpha).draws = s.draws := rfl
@[simp] theorem publishAlphabet_inst (alpha : List Byte) : (s.publishAlphabet alpha).inst = s.inst := rfl
@[simp] theorem publishAlphabet_draw (alpha : List Byte) : (s.publishAlphabet alpha).draw = s.draw := rfl

@[simp] theorem endWith_regs (e : Err) : (s.endWith e).regs = s.regs := rfl
@[simp] theorem endWith_eng (e : Err) : (s.endWith e).eng = { s.eng with ph := .finish, outcome := e } := rfl
@[simp] theorem endWith_env (e : Err) : (s.endWith e).env = s.env := rfl
@[simp] theorem endWith_draws (e : Err) : (s.endWith e).draws = s.draws := rfl
@[simp] theorem endWith_inst (e : Err) : (s.endWith e).inst = s.inst := rfl
@[simp] theorem endWith_draw (e : Err) : (s.endWith e).draw = s.draw := rfl

@[simp] theorem raise_eq (e : Err) : raise e s = s.endWith e := rfl
@[simp] theorem finishDone_eq : finishDone s = s.endWith .noError := rfl
@[simp] theorem cutShort_regs : s.cutShort.regs = s.regs := rfl
@[simp] theorem cutShort_eng : s.cutShort.eng = { s.eng with ph := .finish, outcome := .shortWrite, outq := [] } := rfl
@[simp] theorem cutShort_env : s.cutShort.env = s.env := rfl
@[simp] theorem cutShort_draws : s.cutShort.draws = s.draws := rfl
@[simp] theorem cutShort_inst : s.cutShort.inst = s.inst := rfl
@[simp] theorem cutShort_draw : s.cutShort.draw = s.draw := rfl
theorem endRun_eq : endRun s = s.latchNext.endWith .noError := rfl

/-! ### The registers' updates: the fields a command's own results leave alone -/

variable (g : Regs)

@[simp] theorem setOutcome_err (e : Err) : (setOutcome e g).err = e := rfl
@[simp] theorem setOutcome_stat (e : Err) : (setOutcome e g).stat = if e = .noError then .done else .error := rfl
@[simp] theorem setOutcome_dictNext (e : Err) : (setOutcome e g).dictNext = g.dictNext := rfl
@[simp] theorem setOutcome_alpha (e : Err) : (setOutcome e g).alpha = g.alpha := rfl
@[simp] theorem setOutcome_alphaN (e : Err) : (setOutcome e g).alphaN = g.alphaN := rfl
@[simp] theorem setOutcome_lastOp (e : Err) : (setOutcome e g).lastOp = g.lastOp := rfl
@[simp] theorem setOutcome_chunkSize (e : Err) : (setOutcome e g).chunkSize = g.chunkSize := rfl
@[simp] theorem setOutcome_ovfPolicy (e : Err) : (setOutcome e g).ovfPolicy = g.ovfPolicy := rfl
@[simp] theorem setOutcome_inCount (e : Err) : (setOutcome e g).inCount = g.inCount := rfl
@[simp] theorem setOutcome_outCount (e : Err) : (setOutcome e g).outCount = g.outCount := rfl
@[simp] theorem setOutcome_chunks (e : Err) : (setOutcome e g).chunks = g.chunks := rfl
@[simp] theorem setAlphabet_stat (alpha : List Byte) : (setAlphabet alpha g).stat = g.stat := rfl
@[simp] theorem setAlphabet_err (alpha : List Byte) : (setAlphabet alpha g).err = g.err := rfl
@[simp] theorem setAlphabet_dictNext (alpha : List Byte) : (setAlphabet alpha g).dictNext = g.dictNext := rfl
@[simp] theorem setAlphabet_lastOp (alpha : List Byte) : (setAlphabet alpha g).lastOp = g.lastOp := rfl
@[simp] theorem setAlphabet_chunkSize (alpha : List Byte) : (setAlphabet alpha g).chunkSize = g.chunkSize := rfl
@[simp] theorem setAlphabet_ovfPolicy (alpha : List Byte) : (setAlphabet alpha g).ovfPolicy = g.ovfPolicy := rfl
@[simp] theorem setAlphabet_inCount (alpha : List Byte) : (setAlphabet alpha g).inCount = g.inCount := rfl
@[simp] theorem setAlphabet_outCount (alpha : List Byte) : (setAlphabet alpha g).outCount = g.outCount := rfl
@[simp] theorem setAlphabet_chunks (alpha : List Byte) : (setAlphabet alpha g).chunks = g.chunks := rfl
@[simp] theorem setAlphabet_alphaN (alpha : List Byte) : (setAlphabet alpha g).alphaN = BitVec.ofNat 8 alpha.length := rfl
@[simp] theorem setAlphabet_alpha (alpha : List Byte) : (setAlphabet alpha g).alpha = writePrefix alpha g.alpha := rfl
@[simp] theorem clearForCommand_dictNext (op : BitVec 4) : (clearForCommand op g).dictNext = g.dictNext := rfl
@[simp] theorem clearForCommand_alpha (op : BitVec 4) : (clearForCommand op g).alpha = g.alpha := rfl
@[simp] theorem clearForCommand_alphaN (op : BitVec 4) : (clearForCommand op g).alphaN = g.alphaN := rfl
@[simp] theorem clearForCommand_err (op : BitVec 4) : (clearForCommand op g).err = .noError := rfl
@[simp] theorem clearForCommand_stat (op : BitVec 4) : (clearForCommand op g).stat = g.stat := rfl
@[simp] theorem clearForCommand_chunkSize (op : BitVec 4) : (clearForCommand op g).chunkSize = g.chunkSize := rfl
@[simp] theorem clearForCommand_ovfPolicy (op : BitVec 4) : (clearForCommand op g).ovfPolicy = g.ovfPolicy := rfl
@[simp] theorem clearForCommand_inCount (op : BitVec 4) : (clearForCommand op g).inCount = 0 := rfl
@[simp] theorem clearForCommand_outCount (op : BitVec 4) : (clearForCommand op g).outCount = 0 := rfl
@[simp] theorem clearForCommand_chunks (op : BitVec 4) : (clearForCommand op g).chunks = 0 := rfl
@[simp] theorem clearForCommand_lastOp (op : BitVec 4) : (clearForCommand op g).lastOp = op := rfl
@[simp] theorem drawAlphabet_dictNext (d : Config.Draw) : (drawAlphabet d g).dictNext = g.dictNext := rfl
@[simp] theorem drawNext_alpha (d : Config.Draw) : (drawNext d g).alpha = g.alpha := rfl

/-- What a completion's free values leave alone (60_exceptions.md R293 "CFG is never written by a command"). -/
theorem drawResults_frame (op : BitVec 4) (e : Err) (d : Config.Draw) :
    drawResults op e d g = { g with
      alphaN := (drawResults op e d g).alphaN, alpha := (drawResults op e d g).alpha
      dictNext := (drawResults op e d g).dictNext } := by
  unfold drawResults; dsimp only; split <;> split <;> rfl
@[simp] theorem drawResults_stat (op : BitVec 4) (e : Err) (d : Config.Draw) : (drawResults op e d g).stat = g.stat := by
  rw [drawResults_frame]
@[simp] theorem drawResults_err (op : BitVec 4) (e : Err) (d : Config.Draw) : (drawResults op e d g).err = g.err := by
  rw [drawResults_frame]
@[simp] theorem drawResults_lastOp (op : BitVec 4) (e : Err) (d : Config.Draw) : (drawResults op e d g).lastOp = g.lastOp := by
  rw [drawResults_frame]
@[simp] theorem drawResults_chunkSize (op : BitVec 4) (e : Err) (d : Config.Draw) : (drawResults op e d g).chunkSize = g.chunkSize := by
  rw [drawResults_frame]
@[simp] theorem drawResults_ovfPolicy (op : BitVec 4) (e : Err) (d : Config.Draw) : (drawResults op e d g).ovfPolicy = g.ovfPolicy := by
  rw [drawResults_frame]
@[simp] theorem drawResults_inCount (op : BitVec 4) (e : Err) (d : Config.Draw) : (drawResults op e d g).inCount = g.inCount := by
  rw [drawResults_frame]
@[simp] theorem drawResults_outCount (op : BitVec 4) (e : Err) (d : Config.Draw) : (drawResults op e d g).outCount = g.outCount := by
  rw [drawResults_frame]
@[simp] theorem drawResults_chunks (op : BitVec 4) (e : Err) (d : Config.Draw) : (drawResults op e d g).chunks = g.chunks := by
  rw [drawResults_frame]

/-! ### The register writes -/

variable (v : Word)

@[simp] theorem setCfg_stat : (setCfg v g).stat = g.stat := rfl
@[simp] theorem setCfg_err : (setCfg v g).err = g.err := rfl
@[simp] theorem setCfg_lastOp : (setCfg v g).lastOp = g.lastOp := rfl
@[simp] theorem setCfg_alphaN : (setCfg v g).alphaN = g.alphaN := rfl
@[simp] theorem setCfg_alpha : (setCfg v g).alpha = g.alpha := rfl
@[simp] theorem setCfg_inCount : (setCfg v g).inCount = g.inCount := rfl
@[simp] theorem setCfg_outCount : (setCfg v g).outCount = g.outCount := rfl
@[simp] theorem setCfg_chunks : (setCfg v g).chunks = g.chunks := rfl
@[simp] theorem setCfg_dictNext : (setCfg v g).dictNext = g.dictNext := rfl
@[simp] theorem setAlphaN_stat : (setAlphaN v g).stat = g.stat := rfl
@[simp] theorem setAlphaN_err : (setAlphaN v g).err = g.err := rfl
@[simp] theorem setAlphaN_lastOp : (setAlphaN v g).lastOp = g.lastOp := rfl
@[simp] theorem setAlphaN_chunkSize : (setAlphaN v g).chunkSize = g.chunkSize := rfl
@[simp] theorem setAlphaN_ovfPolicy : (setAlphaN v g).ovfPolicy = g.ovfPolicy := rfl
@[simp] theorem setAlphaN_alpha : (setAlphaN v g).alpha = g.alpha := rfl
@[simp] theorem setAlphaN_inCount : (setAlphaN v g).inCount = g.inCount := rfl
@[simp] theorem setAlphaN_outCount : (setAlphaN v g).outCount = g.outCount := rfl
@[simp] theorem setAlphaN_chunks : (setAlphaN v g).chunks = g.chunks := rfl
@[simp] theorem setAlphaN_dictNext : (setAlphaN v g).dictNext = g.dictNext := rfl
@[simp] theorem setAlphaWord_stat (k : Nat) : (setAlphaWord k v g).stat = g.stat := by unfold setAlphaWord; rfl
@[simp] theorem setAlphaWord_err (k : Nat) : (setAlphaWord k v g).err = g.err := by unfold setAlphaWord; rfl
@[simp] theorem setAlphaWord_lastOp (k : Nat) : (setAlphaWord k v g).lastOp = g.lastOp := by unfold setAlphaWord; rfl
@[simp] theorem setAlphaWord_chunkSize (k : Nat) : (setAlphaWord k v g).chunkSize = g.chunkSize := by unfold setAlphaWord; rfl
@[simp] theorem setAlphaWord_ovfPolicy (k : Nat) : (setAlphaWord k v g).ovfPolicy = g.ovfPolicy := by unfold setAlphaWord; rfl
@[simp] theorem setAlphaWord_alphaN (k : Nat) : (setAlphaWord k v g).alphaN = g.alphaN := by unfold setAlphaWord; rfl
@[simp] theorem setAlphaWord_inCount (k : Nat) : (setAlphaWord k v g).inCount = g.inCount := by unfold setAlphaWord; rfl
@[simp] theorem setAlphaWord_outCount (k : Nat) : (setAlphaWord k v g).outCount = g.outCount := by unfold setAlphaWord; rfl
@[simp] theorem setAlphaWord_chunks (k : Nat) : (setAlphaWord k v g).chunks = g.chunks := by unfold setAlphaWord; rfl
@[simp] theorem setAlphaWord_dictNext (k : Nat) : (setAlphaWord k v g).dictNext = g.dictNext := by unfold setAlphaWord; rfl

/-! ### Completion and acceptance -/

@[simp] theorem complete_regs (e : Err) :
    (complete e s).regs = setOutcome e (drawResults s.eng.opCur e s.draw s.regs) := rfl
@[simp] theorem complete_eng (e : Err) : (complete e s).eng = { s.eng with ph := .idle, outq := [] } := rfl
@[simp] theorem complete_env (e : Err) : (complete e s).env = s.env := rfl
@[simp] theorem complete_draws (e : Err) : (complete e s).draws = s.draws + 1 := rfl
@[simp] theorem complete_inst (e : Err) : (complete e s).inst = s.inst := rfl

@[simp] theorem accept_regs (op : BitVec 4) (p : Phase) :
    (accept op p s).regs = { clearForCommand op s.regs with stat := .busy } := rfl
@[simp] theorem accept_draws (op : BitVec 4) (p : Phase) : (accept op p s).draws = s.draws := rfl
@[simp] theorem accept_inst (op : BitVec 4) (p : Phase) : (accept op p s).inst = s.inst := rfl
@[simp] theorem accept_draw (op : BitVec 4) (p : Phase) : (accept op p s).draw = s.draw := rfl
@[simp] theorem accept_env (op : BitVec 4) (p : Phase) :
    (accept op p s).env = { s.env with
      src := s.env.nextSrc, sink := s.env.nextSink, nextSrc := Source.none, nextSink := Sink.unlimited
      past := s.env.past ++ [s.env.sink.held], quota := none } := rfl
@[simp] theorem accept_eng (op : BitVec 4) (p : Phase) :
    (accept op p s).eng = { s.eng with
      ph := p, opCur := op, csCur := s.regs.chunkSize, polCur := s.regs.ovfPolicy, nCur := s.regs.alphaN
      eosSeen := false, cfgChecked := false, ibuf := [], ipos := 0, fbuf := [], fneed := 0, hdr := [], outq := []
      outcome := .noError } := rfl

end Sys2Proof.Machine
end

