-- ==== Sys2Proof/Laws/HostPort.lean ====
section
/-! SUPPORT. The register port: which register an offset is, what a register write and a CMD write do, and that nothing
is accepted while BUSY (44_control.md R262, R263). -/

namespace Sys2Proof.Machine

@[simp] theorem regAt_cmd : regAt 0x000 = .cmd := rfl
@[simp] theorem regAt_status : regAt 0x004 = .status := rfl
@[simp] theorem regAt_cfg : regAt 0x008 = .cfg := rfl
@[simp] theorem regAt_alphaN : regAt 0x00C = .alphaN := rfl
@[simp] theorem regAt_inCount : regAt 0x010 = .inCount := rfl
@[simp] theorem regAt_outCount : regAt 0x014 = .outCount := rfl
@[simp] theorem regAt_chunks : regAt 0x018 = .chunks := rfl
@[simp] theorem regAt_dictNext : regAt 0x01C = .dictNext := rfl
@[simp] theorem regAt_ibufCap : regAt 0x020 = .ibufCap := rfl

theorem regAt_reserved {off : Nat} (h1 : 0x024 ≤ off) (h2 : off < 0x100) : regAt off = .reserved := by
  unfold regAt; split_ifs <;> first | rfl | omega

theorem regAt_alphaWord {k : Nat} (hk : k < 64) : regAt (0x100 + 4 * k) = .alphaWord k := by
  unfold regAt; split_ifs <;> first | omega | (congr 1; omega)

theorem regAt_eq_cmd_iff {off : Nat} : regAt off = .cmd ↔ off = 0 := by
  constructor
  · intro h; unfold regAt at h; split_ifs at h; assumption
  · rintro rfl; rfl

/-- IBUF_SIZE's bounds (20_memory.md R66). -/
theorem ibufSize_bounds : 65279 ≤ Config.ibufSize ∧ Config.ibufSize ≤ 4294967294 := by
  have h := Config.ibufExtra.isLt
  unfold Config.ibufSize
  omega

/-- IBUF_CAP shows IBUF_SIZE whole (10_state.md R31). -/
theorem ibufCap_toNat (s : State) : (readValue .ibufCap s).toNat = Config.ibufSize := by
  show (BitVec.ofNat 32 Config.ibufSize).toNat = _
  rw [BitVec.toNat_ofNat]
  exact Nat.mod_eq_of_lt (by have := ibufSize_bounds.2; omega)

variable {s : State} {off : Nat} {v : Word}

theorem writeAt_cmd (v : Word) (s : State) : writeAt 0x000 v s = commandWrite v s := if_pos rfl

theorem writeAt_other (h : off ≠ 0) : writeAt off v s = .next (hostWrite off v s) :=
  if_neg (mt regAt_eq_cmd_iff.mp h)

theorem hostWrite_busy (h : s.regs.stat = .busy) : hostWrite off v s = s := if_pos h

theorem hostWrite_idle (h : s.regs.stat ≠ .busy) :
    hostWrite off v s =
      match regAt off with
      | .cfg => { s with regs := setCfg v s.regs }
      | .alphaN => { s with regs := setAlphaN v s.regs }
      | .alphaWord k => { s with regs := setAlphaWord k v s.regs }
      | .cmd | .status | .inCount | .outCount | .chunks | .dictNext | .ibufCap | .reserved => s := if_neg h

/-- A write to a read-only register or a reserved offset (20_memory.md R62). -/
theorem hostWrite_readOnly (h : off = 0x004 ∨ (0x010 ≤ off ∧ off < 0x100)) : hostWrite off v s = s := by
  by_cases hb : s.regs.stat = .busy
  · exact hostWrite_busy hb
  · rw [hostWrite_idle hb]
    rcases h with rfl | ⟨h1, h2⟩
    · rfl
    · unfold regAt; split_ifs <;> first | rfl | omega

/-- No command is accepted while BUSY (44_control.md R262). -/
theorem exec_busy (i : Instr) (h : s.regs.stat = .busy) : exec i s = .next s := by
  cases i <;> exact if_pos h

/-- How `exec` issues each command. -/
theorem exec_eq_issue (i : Instr) (hi : i ≠ .clr) (s : State) :
    ∃ p f, p ∈ [Phase.load, .chunkRead, .awaitHeader] ∧ exec i s = issue (opOf i) p f s ∧
      ∀ t : State, t.eng.opCur = opOf i → engineStep t = f t := by
  cases i
  · exact absurd rfl hi
  all_goals
    refine ⟨_, _, ?_, rfl, fun t ht => ?_⟩
    · simp
    · simp only [engineStep, ht]; rfl

end Sys2Proof.Machine
end

