-- ==== Sys2Proof/Laws/Run.lean ====
section
/-! SUPPORT. Runs of the engine: a relation `Steps f k s t` ("k engine steps of rule f lead from s to t"), and how
`runTurns` and `issue` follow it. -/

namespace Sys2Proof.Machine

/-- `k` engine steps of rule `f` lead from `s` to `t`; the command is BUSY before each of them. -/
inductive Steps (f : State → Turn) : Nat → State → State → Prop where
  | refl (s : State) : Steps f 0 s s
  | cons {k : Nat} {s t u : State} : s.regs.stat = .busy → f s = .went t → Steps f k t u → Steps f (k + 1) s u

variable {f : State → Turn} {s t u : State} {j k n : Nat}

theorem Steps.one (hb : s.regs.stat = .busy) (h : f s = .went t) : Steps f 1 s t :=
  .cons hb h (.refl t)

theorem Steps.trans (h : Steps f j s t) (h' : Steps f k t u) : Steps f (j + k) s u := by
  induction h with
  | refl => simpa using h'
  | cons hb hf _ ih => exact Nat.add_right_comm _ 1 k ▸ .cons hb hf (ih h')

theorem runTurns_succ_busy (hb : s.regs.stat = .busy) (hf : f s = .went t) :
    runTurns f (n + 1) s = runTurns f n t := by
  simp [runTurns, hb, hf]

theorem runTurns_not_busy (hb : s.regs.stat ≠ .busy) : runTurns f n s = .next s := by
  cases n <;> simp [runTurns, hb]

/-- A run of more steps than a path has goes through the path. -/
theorem runTurns_of_steps (h : Steps f k s t) : runTurns f (k + n) s = runTurns f n t := by
  induction h with
  | refl => simp
  | cons hb hf _ ih => rw [Nat.add_right_comm, runTurns_succ_busy hb hf, ih]

/-- A path to the end of a command is the whole run, given enough steps. -/
theorem runTurns_to_end (h : Steps f k s t) (hk : k ≤ n) (ht : t.regs.stat ≠ .busy) : runTurns f n s = .next t := by
  obtain ⟨m, rfl⟩ := Nat.exists_eq_add_of_le hk
  rw [runTurns_of_steps h, runTurns_not_busy ht]

/-- A run is cut anywhere: `m` steps, then `n` more from where they end. -/
theorem runTurns_add (m n : Nat) (s : State) :
    runTurns f (m + n) s =
      match runTurns f m s with
      | .next t => runTurns f n t
      | .fault e => .fault e
      | .refused r => .refused r := by
  induction m generalizing s with
  | zero => simp [runTurns]
  | succ m ih =>
    rw [Nat.add_right_comm]
    by_cases hb : s.regs.stat = .busy
    · cases hf : f s with
      | went t => simp only [runTurns, hb, hf, if_true, ih]
      | waits => 
        have : runTurns f n s = .next s := by cases n <;> simp [runTurns, hb, hf]
        simp [runTurns, hb, hf, this]
      | fault e => simp [runTurns, hb, hf]
      | refused r => simp [runTurns, hb, hf]
    · simp [runTurns, hb, runTurns_not_busy hb]

/-- Two rules that agree along a run run alike. `P` is what holds along it. -/
theorem runTurns_congr {g : State → Turn} (P : State → Prop) (hP : ∀ s, P s → s.regs.stat = .busy → f s = g s)
    (hstep : ∀ s t, P s → s.regs.stat = .busy → f s = .went t → P t) (hs : P s) :
    runTurns f n s = runTurns g n s := by
  induction n generalizing s with
  | zero => rfl
  | succ n ih =>
    by_cases hb : s.regs.stat = .busy
    · simp only [runTurns, hb, if_true, ← hP s hs hb]
      cases hf : f s with
      | went t => exact ih (hstep s t hs hb hf)
      | _ => rfl
    · simp [runTurns, hb]

/-- A command that is accepted and reaches its end within the step budget is one step to that end. -/
theorem issue_of_steps {op : BitVec 4} {p : Phase} (hb : s.regs.stat ≠ .busy) (hq : s.env.quota = none)
    (h : Steps f k (accept op p s) t) 
    (hk : k ≤ 16 * s.env.nextSrc.stream.length + s.env.nextSink.calls.length + 64) (ht : t.regs.stat ≠ .busy) : issue op p f s = .next t := by
  have hbud : k ≤ stepBudget (accept op p s) := by
    simp only [stepBudget, accept_env, accept_eng]
    omega
  simp only [issue, hb, if_false, hq, Option.getD_none]
  exact runTurns_to_end h hbud ht

end Sys2Proof.Machine
end

