-- ==== Sys2Proof/Laws/Ops.lean ====
section
/-! SUPPORT. One lemma for each shared operation of Machine/Ops.lean that says everything it can do: the stream
primitives, the flush, a reading step and LOAD. -/

namespace Sys2Proof.Machine

/-! ### The source -/

theorem answerSize_pos {n : Nat} {src : Source} (hn : 1 ≤ n) (hs : src.stream ≠ []) : 1 ≤ answerSize n src := by
  have : 1 ≤ src.stream.length := List.length_pos_iff.mpr hs
  unfold answerSize; split <;> omega

theorem answerSize_le {n : Nat} {src : Source} (hn : 1 ≤ n) (hs : src.stream ≠ []) :
    answerSize n src ≤ n ∧ answerSize n src ≤ src.stream.length := by
  have : 1 ≤ src.stream.length := List.length_pos_iff.mpr hs
  unfold answerSize; split <;> omega

/-- Finite input is listed as it stands. -/
theorem listed_finite {n : Nat} {src : Source} (ht : ∀ id pos, src.tail ≠ .endless id pos) : src.listed n = src := by
  unfold Source.listed
  split
  · rfl
  · rfl
  · rfl
  · exact absurd ‹_› (ht _ _)

@[simp] theorem listed_ends {n : Nat} {src : Source} (ht : src.tail = .ends) : src.listed n = src :=
  listed_finite fun _ _ h => by simp [ht] at h

/-- Endless input never runs out: after listing, enough bytes for a read stand there, the ones listed before first, and
endless input follows them. -/
theorem listed_endless {n id pos : Nat} {src : Source} (ht : src.tail = .endless id pos) :
    src.stream <+: (src.listed n).stream ∧ max 1 n ≤ (src.listed n).stream.length ∧
      (src.listed n).plan = src.plan ∧ ∃ pos', (src.listed n).tail = .endless id pos' := by
  simp only [Source.listed, ht]
  refine ⟨List.prefix_append _ _, ?_, trivial, _, rfl⟩
  rw [List.length_append, List.length_map, List.length_range]
  omega

/-- The answer to `SrcRead(n)` in the contract (20_memory.md R68). -/
theorem answer_data {n : Nat} {src : Source} (hn : 1 ≤ n) (hs : src.stream ≠ []) :
    ∃ r rest, answer n src = .data r rest ∧ r ++ rest.stream = src.stream ∧ 1 ≤ r.length ∧ r.length ≤ n ∧
      rest.tail = src.tail := by
  refine ⟨_, _, if_neg hs, List.take_append_drop _ _, ?_, ?_, rfl⟩
  · have := answerSize_pos hn hs; have := (answerSize_le hn hs).2; simp; omega
  · have := (answerSize_le hn hs).1; simp; omega

/-- The answer to `SrcRead(n)` while a finite input has bytes left. -/
theorem srcRead_data {n : Nat} {src : Source} (hn : 1 ≤ n) (hs : src.stream ≠ []) (ht : src.tail = .ends) :
    ∃ r rest, srcRead n src = .data r rest ∧ r ++ rest.stream = src.stream ∧ 1 ≤ r.length ∧ r.length ≤ n ∧
      rest.tail = .ends := by
  simpa [srcRead, ht] using answer_data hn hs

/-- The answer of endless input to `SrcRead(n)`: bytes, and endless input after them. -/
theorem srcRead_endless {n id pos : Nat} {src : Source} (hn : 1 ≤ n) (ht : src.tail = .endless id pos) :
    ∃ r rest pos', srcRead n src = .data r rest ∧ r ++ rest.stream = (src.listed n).stream ∧ 1 ≤ r.length ∧
      r.length ≤ n ∧ rest.tail = .endless id pos' := by
  obtain ⟨-, hlen, -, pos', htail⟩ := listed_endless (n := n) ht
  obtain ⟨r, rest, h, h1, h2, h3, h4⟩ := answer_data hn (List.length_pos_iff.mp (Nat.lt_of_lt_of_le (by omega) hlen))
  exact ⟨r, rest, pos', h, h1, h2, h3, h4.trans htail⟩

theorem srcRead_eos {n : Nat} {src : Source} (hs : src.stream = []) (ht : src.tail = .ends) :
    srcRead n src = .eos := by
  simp [srcRead, answer, hs, ht]

/-- EOS is the answer of finite input alone, once its bytes are used up. -/
theorem srcRead_eos_inv {n : Nat} {src : Source} (h : srcRead n src = .eos) :
    src.stream = [] ∧ src.tail = .ends := by
  unfold srcRead answer at h
  split at h
  · rename_i hs
    split at h
    · rename_i ht
      cases hst : src.tail with
      | ends => exact ⟨by rwa [listed_ends hst] at hs, rfl⟩
      | endless id pos => obtain ⟨_, hx⟩ := (listed_endless (n := n) hst).2.2.2; simp [hx] at ht
      | _ => rw [listed_finite (by simp [hst]), hst] at ht; cases ht
    · cases h
    · cases h
    · cases h
  · cases h

/-- Everything `SrcRead` can answer with bytes. -/
theorem srcRead_data_inv {n : Nat} {src rest : Source} {r : List Byte} (h : srcRead n src = .data r rest) :
    r ++ rest.stream = (src.listed n).stream ∧ rest.tail = (src.listed n).tail ∧ (1 ≤ n → 1 ≤ r.length) ∧
      r.length ≤ max 1 n := by
  unfold srcRead answer at h
  split at h
  · split at h <;> cases h
  · rename_i hs
    have hp : 1 ≤ (src.listed n).stream.length := List.length_pos_iff.mpr hs
    cases h
    refine ⟨List.take_append_drop _ _, rfl, ?_, ?_⟩ <;> simp only [List.length_take] <;> unfold answerSize <;> split <;> omega

/-! ### The sink -/

theorem sinkWrite_fits {bs : List Byte} {k : Sink} (h : k.fits bs.length = true) :
    sinkWrite bs k = .accepted bs.length (k.take bs) := by
  simp [sinkWrite, h]

theorem sinkWrite_short {bs : List Byte} {k : Sink} (h : k.fits bs.length = false) (ht : k.tail = .ends) :
    sinkWrite bs k = .accepted (k.room.getD 0) (k.take (bs.take (k.room.getD 0))) := by
  simp [sinkWrite, h, ht]

/-- A sink that does not take `n` bytes has room for fewer. -/
theorem room_lt_of_not_fits {n : Nat} {k : Sink} (h : k.fits n = false) : ∃ r, k.room = some r ∧ r < n := by
  unfold Sink.fits at h
  split at h
  · cases h
  · exact ⟨_, ‹_›, by simpa using h⟩

/-- Everything `SinkWrite` can accept (20_memory.md R70). -/
theorem sinkWrite_accepted {bs : List Byte} {k k' : Sink} {a : Nat} (h : sinkWrite bs k = .accepted a k') :
    a ≤ bs.length ∧ k' = k.take (bs.take a) ∧ (a = bs.length ↔ k.fits bs.length = true) := by
  unfold sinkWrite at h
  split at h
  · rename_i hf; cases h; simp [hf]
  · rename_i hf
    obtain ⟨r, hr, hlt⟩ := room_lt_of_not_fits (by simpa using hf)
    split at h
    · cases h
      simp only [hr, Option.getD_some, hf]
      exact ⟨by omega, trivial, by simp; omega⟩
    · cases h
    · cases h

@[simp] theorem take_nil (k : Sink) : k.take [] = k := by
  cases k; rename_i h r c t; cases r <;> simp [Sink.take]

theorem take_take (k : Sink) (a b : List Byte) : (k.take a).take b = k.take (a ++ b) := by
  cases k; rename_i h r c t; cases r <;> simp [Sink.take, Nat.sub_sub]

theorem fits_take {k : Sink} {a : List Byte} {n : Nat} (h : k.fits a.length = true) :
    (k.take a).fits n = k.fits (a.length + n) := by
  cases k; rename_i hd r c t
  cases r with
  | none => simp [Sink.fits, Sink.take]
  | some r =>
    simp only [Sink.fits, Sink.take, Option.map_some, decide_eq_true_eq] at *
    exact decide_eq_decide.mpr (by omega)

theorem fits_mono {k : Sink} {m n : Nat} (h : k.fits n = true) (hmn : m ≤ n) : k.fits m = true := by
  cases k; rename_i hd r c t
  cases r with
  | none => rfl
  | some r => simp only [Sink.fits, decide_eq_true_eq] at *; omega

@[simp] theorem fits_zero (k : Sink) : k.fits 0 = true := by
  cases k; rename_i hd r c t; cases r <;> simp [Sink.fits]

@[simp] theorem take_tail (k : Sink) (a : List Byte) : (k.take a).tail = k.tail := rfl
@[simp] theorem take_held (k : Sink) (a : List Byte) : (k.take a).held = k.held ++ a := rfl
@[simp] theorem take_calls (k : Sink) (a : List Byte) : (k.take a).calls = k.calls := rfl
@[simp] theorem called_tail (k : Sink) : k.called.tail = k.tail := rfl
@[simp] theorem called_held (k : Sink) : k.called.held = k.held := rfl
@[simp] theorem called_room (k : Sink) : k.called.room = k.room := rfl
@[simp] theorem called_calls (k : Sink) : k.called.calls = k.calls.tail := rfl
@[simp] theorem called_fits (k : Sink) (n : Nat) : k.called.fits n = k.fits n := rfl

/-- A call offers at least one byte and no more than is pending. -/
theorem callSize_bounds {n : Nat} (hn : 1 ≤ n) (k : Sink) : 1 ≤ k.callSize n ∧ k.callSize n ≤ n := by
  unfold Sink.callSize
  split <;> omega

/-- With no sizes listed, a call offers all that is pending. -/
theorem callSize_all {k : Sink} (h : k.calls = []) (n : Nat) : k.callSize n = n := by
  simp [Sink.callSize, h]

/-! ### The flush -/

/-- With OUTQ empty a step is its rule's. -/
theorem flushFirst_empty {f : State → Turn} {s : State} (h : s.eng.outq = []) : flushFirst f s = f s := by
  simp [flushFirst, h]

theorem flushFirst_pending {f : State → Turn} {s : State} (h : s.eng.outq ≠ []) : flushFirst f s = flushStep s := by
  simp [flushFirst, h]

/-- What is offered is a first part of what is pending, at least one byte of it. -/
theorem offered_spec {s : State} (h : s.eng.outq ≠ []) :
    s.offered <+: s.eng.outq ∧ s.offered.length = s.env.sink.callSize s.eng.outq.length ∧ 1 ≤ s.offered.length := by
  have hb := callSize_bounds (List.length_pos_iff.mpr h) s.env.sink
  have hl : s.offered.length = s.env.sink.callSize s.eng.outq.length := by simp [State.offered, hb.2]
  exact ⟨List.take_prefix _ _, hl, by omega⟩

/-- What is offered, and what stays pending after it. -/
theorem offered_append (s : State) : s.offered ++ s.eng.outq.drop s.offered.length = s.eng.outq := by
  obtain ⟨rest, h⟩ : s.offered <+: s.eng.outq := List.take_prefix _ _
  rw [← h]; simp

/-- The offered piece is taken whole. -/
theorem flushStep_whole {s : State} (h : s.env.sink.fits s.offered.length = true) :
    flushStep s = .went { s with
      regs.outCount := s.regs.outCount + BitVec.ofNat 32 s.offered.length
      env.sink := s.env.sink.called.take s.offered
      eng.outq := s.eng.outq.drop s.offered.length } := by
  simp [flushStep, sinkWrite_fits (k := s.env.sink.called) (bs := s.offered) (by simpa using h), State.withSink,
    State.countOut]

/-- The offered piece is taken short: SHORT_WRITE is raised, and completes in the next step. -/
theorem flushStep_short {s : State} {r : Nat} (hr : s.env.sink.room = some r) (hlt : r < s.offered.length)
    (ht : s.env.sink.tail = .ends) :
    flushStep s = .went { s with
      regs.outCount := s.regs.outCount + BitVec.ofNat 32 r
      env.sink := s.env.sink.called.take (s.offered.take r) }.cutShort := by
  have hf : s.env.sink.called.fits s.offered.length = false := by simp [Sink.fits, hr]; omega
  have hne : r ≠ s.offered.length := by omega
  simp [flushStep, sinkWrite_short hf (by simpa using ht), hr, hne, State.withSink, State.countOut]

/-- Everything a flush can do. -/
theorem flushStep_went {s t : State} (h : flushStep s = .went t) :
    ∃ a, a ≤ s.offered.length ∧
      (let u : State := { s with
          regs.outCount := s.regs.outCount + BitVec.ofNat 32 a
          env.sink := s.env.sink.called.take (s.offered.take a) }
       (a = s.offered.length ∧ t = { u with eng.outq := s.eng.outq.drop a }) ∨
       (a < s.offered.length ∧ t = u.cutShort)) := by
  unfold flushStep at h
  split at h
  · rename_i a k hw
    obtain ⟨hle, rfl, -⟩ := sinkWrite_accepted hw
    refine ⟨a, hle, ?_⟩
    dsimp only at h
    split at h
    · cases h; exact .inl ⟨‹_›, rfl⟩
    · cases h; exact .inr ⟨by omega, rfl⟩
  · cases h
  · cases h

/-! ### A reading step -/

theorem readStep_data {n : Nat} {onEos : State → State} {onData : List Byte → State → State} {s : State}
    {r : List Byte} {rest : Source} (h : srcRead n s.env.src = .data r rest) :
    readStep n onEos onData s = .went (onData r ((s.withSrc rest).countIn r.length)) := by
  simp [readStep, h]

theorem readStep_eos {n : Nat} {onEos : State → State} {onData : List Byte → State → State} {s : State}
    (hs : s.env.src.stream = []) (ht : s.env.src.tail = .ends) :
    readStep n onEos onData s = .went (onEos s.sawEos) := by
  simp [readStep, srcRead_eos hs ht]

/-- Everything a reading step can do. -/
theorem readStep_went {n : Nat} {onEos : State → State} {onData : List Byte → State → State} {s t : State}
    (h : readStep n onEos onData s = .went t) :
    (t = onEos s.sawEos ∧ s.env.src.stream = [] ∧ s.env.src.tail = .ends) ∨
    ∃ r rest, t = onData r ((s.withSrc rest).countIn r.length) ∧ r ++ rest.stream = (s.env.src.listed n).stream ∧
      rest.tail = (s.env.src.listed n).tail ∧ (1 ≤ n → 1 ≤ r.length) ∧ r.length ≤ max 1 n := by
  unfold readStep at h
  split at h
  · rename_i r rest hr
    cases h
    obtain ⟨h1, h2, h3, h4⟩ := srcRead_data_inv hr
    exact .inr ⟨r, rest, rfl, h1, h2, h3, h4⟩
  · rename_i hr
    cases h
    exact .inl ⟨rfl, srcRead_eos_inv hr⟩
  · cases h
  · cases h

/-! ### LOAD (20_memory.md R66) -/

/-- LOAD of a unit that fits IBUF: all of it is buffered and counted, however the source splits it. -/
theorem load_steps {f after : State → Turn}
    (hf : ∀ s, s.eng.ph = .load → s.eng.outq = [] → f s = loadStep after s) (s : State)
    (hb : s.regs.stat = .busy) (hp : s.eng.ph = .load) (ho : s.eng.outq = []) (he : s.eng.eosSeen = false)
    (ht : s.env.src.tail = .ends) (hlen : s.eng.ibuf.length + s.env.src.stream.length ≤ Config.ibufSize) :
    ∃ k src, k ≤ s.env.src.stream.length + 1 ∧ src.stream = [] ∧
      Steps f k s { s with
        regs.inCount := s.regs.inCount + BitVec.ofNat 32 s.env.src.stream.length
        env.src := src
        eng.ibuf := s.eng.ibuf ++ s.env.src.stream
        eng.eosSeen := true } := by
  generalize hm : s.env.src.stream.length = m
  induction m using Nat.strong_induction_on generalizing s with
  | _ m ih =>
    by_cases hs : s.env.src.stream = []
    · refine ⟨1, s.env.src, by omega, hs, .one hb ?_⟩
      rw [hf s hp ho, loadStep, if_neg (by simp [he]), readStep_eos hs ht]
      have : m = 0 := by rw [← hm, hs]; rfl
      subst this
      simp [State.sawEos, hs]
    · obtain ⟨r, rest, hr, happ, h1, h2, htl⟩ :=
        srcRead_data (n := Config.ibufSize + 1 - s.eng.ibuf.length) (by omega) hs ht
      have hsum : r.length + rest.stream.length = m := by
        rw [← hm, ← happ]; simp
      let s' : State := ((s.withSrc rest).countIn r.length).fillIbuf r
      have hstep : f s = .went s' := by
        rw [hf s hp ho, loadStep, if_neg (by simp [he]), readStep_data hr, if_neg]
        simp only [countIn_eng, withSrc_eng]; omega
      obtain ⟨k, src, hk, hsrc, hst⟩ := ih rest.stream.length (by omega) s' hb hp ho he
        (by simpa [s'] using htl) (by simp [s']; omega) rfl
      refine ⟨k + 1, src, by omega, hsrc, .cons hb hstep ?_⟩
      convert hst using 1
      simp only [s', State.withSrc, State.countIn, State.fillIbuf, ← happ, ← hm]
      simp [BitVec.add_assoc, BitVec.ofNat_add]

/-- LOAD of a unit that does not fit IBUF: UNIT_TOO_LONG once IBUF_SIZE + 1 bytes were delivered. -/
theorem load_too_long {f after : State → Turn}
    (hf : ∀ s, s.eng.ph = .load → s.eng.outq = [] → f s = loadStep after s) (s : State)
    (hb : s.regs.stat = .busy) (hp : s.eng.ph = .load) (ho : s.eng.outq = []) (he : s.eng.eosSeen = false)
    (ht : s.env.src.tail = .ends) (hi : s.eng.ibuf.length ≤ Config.ibufSize)
    (hlen : Config.ibufSize < s.eng.ibuf.length + s.env.src.stream.length) :
    ∃ k src buf, k ≤ s.env.src.stream.length + 1 ∧
      src.stream = s.env.src.stream.drop (Config.ibufSize + 1 - s.eng.ibuf.length) ∧
      Steps f k s (raise .unitTooLong { s with
        regs.inCount := s.regs.inCount + BitVec.ofNat 32 (Config.ibufSize + 1 - s.eng.ibuf.length)
        env.src := src
        eng.ibuf := buf }) := by
  generalize hm : s.env.src.stream.length = m
  induction m using Nat.strong_induction_on generalizing s with
  | _ m ih =>
    have hs : s.env.src.stream ≠ [] := by
      intro h; rw [h] at hlen; simp at hlen; omega
    obtain ⟨r, rest, hr, happ, h1, h2, htl⟩ :=
      srcRead_data (n := Config.ibufSize + 1 - s.eng.ibuf.length) (by omega) hs ht
    have hsum : r.length + rest.stream.length = m := by
      rw [← hm, ← happ]; simp
    by_cases hover : s.eng.ibuf.length + r.length > Config.ibufSize
    · have hrl : r.length = Config.ibufSize + 1 - s.eng.ibuf.length := by omega
      refine ⟨1, rest, s.eng.ibuf, by omega, by rw [← happ, ← hrl]; simp, .one hb ?_⟩
      rw [hf s hp ho, loadStep, if_neg (by simp [he]), readStep_data hr, if_pos (by simpa using hover)]
      simp [State.withSrc, State.countIn, hrl]
    · let s' : State := ((s.withSrc rest).countIn r.length).fillIbuf r
      have hstep : f s = .went s' := by
        rw [hf s hp ho, loadStep, if_neg (by simp [he]), readStep_data hr, if_neg (by simpa using hover)]
      obtain ⟨k, src, buf, hk, hsrc, hst⟩ := ih rest.stream.length (by omega) s' hb hp ho he
        (by simpa [s'] using htl) (by simp [s']; omega) (by simp [s']; omega) rfl
      refine ⟨k + 1, src, buf, by omega, ?_, .cons hb hstep ?_⟩
      · have hsp : Config.ibufSize + 1 - s.eng.ibuf.length
            = r.length + (Config.ibufSize + 1 - (s.eng.ibuf.length + r.length)) := by omega
        rw [hsrc, ← happ]
        simp only [s', fillIbuf_env, countIn_env, withSrc_env, fillIbuf_eng, countIn_eng, withSrc_eng,
          List.length_append]
        rw [hsp, ← List.drop_drop]; simp
      · convert hst using 2
        have hsp : Config.ibufSize + 1 - s.eng.ibuf.length
            = r.length + (Config.ibufSize + 1 - (s.eng.ibuf.length + r.length)) := by omega
        simp only [s', State.withSrc, State.countIn, State.fillIbuf, List.length_append]
        rw [hsp]
        simp [BitVec.add_assoc, BitVec.ofNat_add]

end Sys2Proof.Machine
end

