-- ==== Sys2Proof/Laws/Engine.lean ====
section
/-! SUPPORT. What no engine step of any command touches (60_exceptions.md R293 "CFG is never written by a command";
44_control.md R265, R266): every step keeps the command's frame, or completes after a step that keeps it. -/

namespace Sys2Proof.Machine

/-- A step's frame: the running command, LAST_OP, CFG, STATE, the host program, the reads and the
instance are as before. -/
structure SameFrame (s t : State) : Prop where
  opCur : t.eng.opCur = s.eng.opCur
  lastOp : t.regs.lastOp = s.regs.lastOp
  chunkSize : t.regs.chunkSize = s.regs.chunkSize
  ovfPolicy : t.regs.ovfPolicy = s.regs.ovfPolicy
  stat : t.regs.stat = s.regs.stat
  host : t.env.host = s.env.host
  reads : t.env.reads = s.env.reads
  inst : t.inst = s.inst

theorem SameFrame.rfl' (s : State) : SameFrame s s := ⟨rfl, rfl, rfl, rfl, rfl, rfl, rfl, rfl⟩

theorem SameFrame.trans {s t u : State} (h : SameFrame s t) (h' : SameFrame t u) : SameFrame s u :=
  ⟨h'.1.trans h.1, h'.2.trans h.2, h'.3.trans h.3, h'.4.trans h.4, h'.5.trans h.5, h'.6.trans h.6, h'.7.trans h.7,
    h'.8.trans h.8⟩

theorem SameFrame.from {s t u : State} (h : SameFrame t u) (h' : SameFrame s t) : SameFrame s u := h'.trans h

variable {s t : State}

theorem readStep_frame {n : Nat} {onEos : State → State} {onData : List Byte → State → State}
    (ha : ∀ u, SameFrame u (onEos u)) (hb : ∀ r u, SameFrame u (onData r u))
    (h : readStep n onEos onData s = .went t) : SameFrame s t := by
  rcases readStep_went h with ⟨ht, -⟩ | ⟨r, rest, ht, -⟩
  · rw [ht]; exact (ha s.sawEos).from ⟨rfl, rfl, rfl, rfl, rfl, rfl, rfl, rfl⟩
  · rw [ht]; exact (hb r ((s.withSrc rest).countIn r.length)).from ⟨rfl, rfl, rfl, rfl, rfl, rfl, rfl, rfl⟩

theorem loadStep_frame {after : State → Turn} (ha : ∀ t, after s = .went t → SameFrame s t)
    (h : loadStep after s = .went t) : SameFrame s t := by
  unfold loadStep at h
  split at h
  · exact ha t h
  · refine readStep_frame (.rfl') (fun r u => ?_) h
    split <;> exact ⟨rfl, rfl, rfl, rfl, rfl, rfl, rfl, rfl⟩

theorem scanPhase_frame {f : List Byte → State → State} (hf : ∀ a u, SameFrame u (f a u))
    (h : scanPhase f s = .went t) : SameFrame s t := by
  unfold scanPhase at h
  split at h <;> cases h
  · rename_i a _
    exact (hf a (s.withN a.length)).from ⟨rfl, rfl, rfl, rfl, rfl, rfl, rfl, rfl⟩
  · exact ⟨rfl, rfl, rfl, rfl, rfl, rfl, rfl, rfl⟩

theorem encPhase_frame {emit : List Byte → State → State} {leave overflow : State → State}
    (h1 : ∀ o u, SameFrame u (emit o u)) (h2 : ∀ u, SameFrame u (leave u)) (h3 : ∀ u, SameFrame u (overflow u))
    (h : encPhase emit leave overflow s = .went t) : SameFrame s t := by
  have hw : ∀ (r : Lzw) (o : List Byte) (p : Nat), SameFrame s (emit o ((s.withLzw r).seek p)) := fun r o p =>
    (h1 o ((s.withLzw r).seek p)).from ⟨rfl, rfl, rfl, rfl, rfl, rfl, rfl, rfl⟩
  have hw' : ∀ (r : Lzw) (o : List Byte), SameFrame s (emit o (s.withLzw r)) := fun r o =>
    (h1 o (s.withLzw r)).from ⟨rfl, rfl, rfl, rfl, rfl, rfl, rfl, rfl⟩
  unfold encPhase at h
  split at h
  · cases h; exact h2 s
  · split at h
    · split at h <;> cases h
      · exact hw _ _ _
      · exact (hw' _ _).trans (h3 _)
    · cases h; exact (h1 _ s).trans (h2 _)

theorem decPhase_frame {codes : List Byte} {leave malformed : State → State}
    (h2 : ∀ u, SameFrame u (leave u)) (h3 : ∀ u, SameFrame u (malformed u))
    (h : decPhase codes leave malformed s = .went t) : SameFrame s t := by
  have hw : ∀ (r : Lzw) (o : List Byte) (p : Nat), SameFrame s (((s.withLzw r).seek p).emit o) := fun _ _ _ =>
    ⟨rfl, rfl, rfl, rfl, rfl, rfl, rfl, rfl⟩
  have hw' : ∀ (r : Lzw) (o : List Byte), SameFrame s ((s.withLzw r).emit o) := fun _ _ =>
    ⟨rfl, rfl, rfl, rfl, rfl, rfl, rfl, rfl⟩
  unfold decPhase at h
  split at h
  · split at h <;> cases h
    · exact hw _ _ _
    · exact (hw' _ _).trans (h3 _)
  · cases h; exact h2 s

theorem enterDec_frame (alpha : List Byte) (b : Bool) (u : State) : SameFrame u (enterDec alpha b u) := by
  unfold enterDec
  dsimp only
  split <;> exact ⟨rfl, rfl, rfl, rfl, rfl, rfl, rfl, rfl⟩

theorem publishAlphabet_frame (alpha : List Byte) (u : State) : SameFrame u (u.publishAlphabet alpha) :=
  ⟨by simp, by simp, by simp, by simp, by simp, by simp, by simp, by simp⟩

/-- A step keeps the frame, or it is a completion from a state with the same frame. -/
def FramedOrEnds (s t : State) : Prop := SameFrame s t ∨ ∃ e u, SameFrame s u ∧ t = complete e u

theorem flushStep_frame (h : flushStep s = .went t) : SameFrame s t := by
  obtain ⟨a, -, ⟨-, rfl⟩ | ⟨-, rfl⟩⟩ := flushStep_went h <;> exact ⟨rfl, rfl, rfl, rfl, rfl, rfl, rfl, rfl⟩

theorem finishStep_frame (h : finishStep s = .went t) : FramedOrEnds s t := by
  unfold finishStep at h
  injection h with h
  exact .inr ⟨_, s, .rfl' s, h.symm⟩

/-- A rule that flushes first keeps the frame if it does with nothing pending. -/
theorem flushFirst_frame {f : State → Turn} (hf : f s = .went t → FramedOrEnds s t)
    (h : flushFirst f s = .went t) : FramedOrEnds s t := by
  unfold flushFirst at h
  split at h
  · exact hf h
  · exact .inl (flushStep_frame h)

theorem chunkReadStep_frame (h : chunkReadStep s = .went t) : SameFrame s t := by
  unfold chunkReadStep at h
  split at h
  · cases h
    unfold checkConfig
    split <;> exact ⟨rfl, rfl, rfl, rfl, rfl, rfl, rfl, rfl⟩
  · split at h
    · refine readStep_frame ?_ ?_ h <;> intros <;> exact ⟨rfl, rfl, rfl, rfl, rfl, rfl, rfl, rfl⟩
    · split at h <;> cases h <;> exact ⟨rfl, rfl, rfl, rfl, rfl, rfl, rfl, rfl⟩

theorem envWriteStep_frame (h : envWriteStep s = .went t) : SameFrame s t := by
  unfold envWriteStep at h
  split at h
  · cases h; exact ⟨rfl, rfl, rfl, rfl, rfl, rfl, rfl, rfl⟩
  · split at h <;> cases h <;> exact ⟨rfl, rfl, rfl, rfl, rfl, rfl, rfl, rfl⟩

theorem headerStep_frame (h : headerStep s = .went t) : SameFrame s t := by
  refine readStep_frame (fun u => ?_) (fun r u => ?_) h
  · split <;> exact ⟨rfl, rfl, rfl, rfl, rfl, rfl, rfl, rfl⟩
  · unfold headerDone; split <;> exact ⟨rfl, rfl, rfl, rfl, rfl, rfl, rfl, rfl⟩

theorem bodyStep_frame (h : bodyStep s = .went t) : SameFrame s t := by
  unfold bodyStep at h
  split at h
  · refine readStep_frame ?_ ?_ h <;> intros <;> exact ⟨rfl, rfl, rfl, rfl, rfl, rfl, rfl, rfl⟩
  · cases h
    unfold enterBody
    split
    · exact ⟨rfl, rfl, rfl, rfl, rfl, rfl, rfl, rfl⟩
    · exact ⟨rfl, rfl, rfl, rfl, rfl, rfl, rfl, rfl⟩
    · exact enterDec_frame _ _ s

theorem enterFrmDec_frame : SameFrame s (enterFrmDec s) := by
  unfold enterFrmDec
  split
  · exact ⟨rfl, rfl, rfl, rfl, rfl, rfl, rfl, rfl⟩
  · exact ⟨rfl, rfl, rfl, rfl, rfl, rfl, rfl, rfl⟩
  · exact (publishAlphabet_frame _ s).trans (enterDec_frame _ _ _)

theorem endRun_frame (u : State) : SameFrame u (endRun u) := ⟨rfl, rfl, rfl, rfl, rfl, rfl, rfl, rfl⟩

theorem raise_latchNext_frame (e : Err) (u : State) : SameFrame u (raise e u.latchNext) :=
  ⟨rfl, rfl, rfl, rfl, rfl, rfl, rfl, rfl⟩

/-- Every engine step of every command (44_control.md R265): the frame is kept, or the command completes. -/
theorem engineStep_frame (h : engineStep s = .went t) : FramedOrEnds s t := by
  have toScan : ∀ t, Turn.went (s.toPhase .scan) = .went t → SameFrame s t := by
    intro t ht; cases ht; exact ⟨rfl, rfl, rfl, rfl, rfl, rfl, rfl, rfl⟩
  have encU : encPhase State.emit endRun (fun t => raise .dictionaryOverflow t.latchNext) s = .went t →
      SameFrame s t :=
    encPhase_frame (fun _ _ => ⟨rfl, rfl, rfl, rfl, rfl, rfl, rfl, rfl⟩) endRun_frame (raise_latchNext_frame _)
  have decU : ∀ {codes}, decPhase codes endRun (fun t => raise .malformedFrame t.latchNext) s = .went t →
      SameFrame s t :=
    decPhase_frame endRun_frame (raise_latchNext_frame _)
  unfold engineStep at h
  split at h
  · refine flushFirst_frame (fun hg => ?_) h
    split at hg
    · exact .inl (loadStep_frame toScan hg)
    · refine .inl (scanPhase_frame (fun a u => ?_) hg)
      exact (publishAlphabet_frame a u).trans ⟨rfl, rfl, rfl, rfl, rfl, rfl, rfl, rfl⟩
    · exact finishStep_frame hg
    · cases hg
  · refine flushFirst_frame (fun hg => ?_) h
    split at hg
    · exact .inl (loadStep_frame toScan hg)
    · refine .inl (scanPhase_frame (fun a u => ?_) hg)
      constructor <;> simp [enterEnc]
    · exact .inl (encU hg)
    · exact finishStep_frame hg
    · cases hg
  · refine flushFirst_frame (fun hg => ?_) h
    split at hg
    · exact .inl (loadStep_frame (fun t ht => by cases ht; exact enterDec_frame _ _ s) hg)
    · exact .inl (decU hg)
    · exact finishStep_frame hg
    · cases hg
  · refine flushFirst_frame (fun hg => ?_) h
    split at hg
    · exact .inl (loadStep_frame toScan hg)
    · refine .inl (scanPhase_frame (fun a u => ?_) hg)
      constructor <;> simp [enterEnc]
    · exact .inl (encU hg)
    · exact finishStep_frame hg
    · cases hg
  · refine flushFirst_frame (fun hg => ?_) h
    split at hg
    · exact .inl (loadStep_frame (fun t ht => by injection ht with ht; rw [← ht]; exact enterFrmDec_frame) hg)
    · exact .inl (decU hg)
    · exact finishStep_frame hg
    · cases hg
  · refine flushFirst_frame (fun hg => ?_) h
    split at hg
    · exact .inl (chunkReadStep_frame hg)
    · refine .inl (scanPhase_frame (fun a u => ?_) hg)
      constructor <;> simp [startFrame, enterEnc]
    · refine .inl (encPhase_frame ?_ ?_ ?_ hg) <;> intros <;> exact ⟨rfl, rfl, rfl, rfl, rfl, rfl, rfl, rfl⟩
    · exact .inl (envWriteStep_frame hg)
    · exact finishStep_frame hg
    · cases hg
  · refine flushFirst_frame (fun hg => ?_) h
    split at hg
    · exact .inl (headerStep_frame hg)
    · exact .inl (bodyStep_frame hg)
    · refine .inl (decPhase_frame ?_ ?_ hg) <;> intros <;> exact ⟨rfl, rfl, rfl, rfl, rfl, rfl, rfl, rfl⟩
    · exact finishStep_frame hg
    · cases hg
  · cases h
  · cases h

/-- Only a command with an engine rule takes an engine step. -/
theorem engineStep_runs (h : engineStep s = .went t) : ∃ i, i ≠ .clr ∧ instrOfOp s.eng.opCur = some i := by
  unfold engineStep at h
  split at h <;> first | cases h | (refine ⟨_, ?_, ‹_›⟩; simp)

/-- While output is pending, the step of every command is a flush (44_control.md R265; notes/assumptions/10). -/
theorem engineStep_pending {i : Instr} (hi : instrOfOp s.eng.opCur = some i) (hc : i ≠ .clr) (ho : s.eng.outq ≠ []) :
    engineStep s = flushStep s := by
  unfold engineStep
  rw [hi]
  cases i <;> first | exact absurd rfl hc | exact flushFirst_pending ho

/-- In FINISH with nothing pending, the step of every command is the completion (44_control.md R266). -/
theorem engineStep_finish {i : Instr} (hi : instrOfOp s.eng.opCur = some i) (hc : i ≠ .clr)
    (hp : s.eng.ph = .finish) (ho : s.eng.outq = []) : engineStep s = .went (complete s.eng.outcome s) := by
  unfold engineStep
  rw [hi]
  cases i <;> first | exact absurd rfl hc | (refine (flushFirst_empty ho).trans ?_; simp [hp, finishStep])

/-- The running command stays the running command. -/
theorem engineStep_opCur (h : engineStep s = .went t) : t.eng.opCur = s.eng.opCur := by
  rcases engineStep_frame h with hf | ⟨e, u, hf, rfl⟩ <;> exact hf.opCur

/-- No engine step writes the instance. -/
theorem engineStep_inst (h : engineStep s = .went t) : t.inst = s.inst := by
  rcases engineStep_frame h with hf | ⟨e, u, hf, rfl⟩ <;> exact hf.inst

/-- What every BUSY step keeps, a run keeps. -/
theorem runTurns_keeps {f : State → Turn} {P : State → Prop}
    (hP : ∀ s t, P s → s.regs.stat = .busy → f s = .went t → P t) {n : Nat} (hs : P s)
    (hr : runTurns f n s = .next t) : P t := by
  induction n generalizing s with
  | zero => cases hr; exact hs
  | succ n ih =>
    simp only [runTurns] at hr
    split at hr
    · split at hr
      · exact ih (hP _ _ hs ‹_› ‹_›) hr
      · cases hr; exact hs
      · cases hr
      · cases hr
    · cases hr; exact hs

theorem engineTurns_inst {n : Nat} (h : engineTurns n s = .next t) : t.inst = s.inst :=
  runTurns_keeps (P := fun u => u.inst = s.inst) (fun _ _ hu _ hs => (engineStep_inst hs).trans hu) rfl h

/-- No command writes the instance. -/
theorem exec_inst (i : Instr) (h : exec i s = .next t) : t.inst = s.inst := by
  have key : ∀ (p : Phase) (f : State → Turn), (∀ u, u.eng.opCur = opOf i → f u = engineStep u) →
      issue (opOf i) p f s = .next t → t.inst = s.inst := by
    intro p f hf hi
    unfold issue at hi
    split at hi
    · cases hi; rfl
    · refine (runTurns_keeps (s := accept (opOf i) p s) (P := fun u => u.eng.opCur = opOf i ∧ u.inst = s.inst)
        (fun u v hu _ hs => ?_) ⟨rfl, rfl⟩ hi).2
      rw [hf u hu.1] at hs
      exact ⟨(engineStep_opCur hs).trans hu.1, (engineStep_inst hs).trans hu.2⟩
  cases i with
  | clr =>
    simp only [exec, execClr] at h
    split at h <;> cases h <;> rfl
  | _ => exact key _ _ (fun u hu => by simp [engineStep, hu, instrOfOp, opOf]) h

/-- No step writes the instance. -/
theorem step_inst (h : step s = .next t) : t.inst = s.inst := by
  unfold step at h
  split at h
  · exact engineTurns_inst h
  · rename_i op rest _
    cases op with
    | write g v =>
      simp only [hostStep, atOffset] at h
      split at h
      · simp only [writeAt, commandWrite] at h
        split at h
        · split at h
          · exact exec_inst (s := popHost rest s) _ h
          · cases h; unfold illegalCommand; split <;> rfl
        · cases h; unfold hostWrite; split
          · rfl
          · split <;> rfl
      · cases h
    | read g =>
      simp only [hostStep, atOffset] at h
      split at h <;> cases h; rfl
    | narrow => cases h
    | wait =>
      simp only [hostStep, waitPoll] at h
      split at h
      · exact engineTurns_inst (s := hostRead 4 s) h
      · cases h; rfl
    | engine n => exact engineTurns_inst (s := popHost rest s) h
    | _ => cases h; rfl

end Sys2Proof.Machine
end

