-- ==== Sys2Proof/Laws/Phases.lean ====
section
/-! SUPPORT. What a whole phase of a command does: emitting and flushing, ENC and DEC over the rest of their buffer
(41_lzw_codec.md R158), as paths of engine steps that end where the big-step functions of Machine/BigStep.lean say. -/

namespace Sys2Proof.Machine

/-- The state after its sink has accepted `out`, with the call sizes `calls` left: OUT_COUNT and the sink
(20_memory.md R70). -/
def State.sent (out : List Byte) (calls : List Nat) (s : State) : State :=
  { s with
    regs.outCount := s.regs.outCount + BitVec.ofNat 32 out.length
    env.sink := { s.env.sink.take out with calls := calls } }

section Sent

variable (out : List Byte) (calls : List Nat) (s : State)

@[simp] theorem sent_regs :
    (s.sent out calls).regs = { s.regs with outCount := s.regs.outCount + BitVec.ofNat 32 out.length } := rfl
@[simp] theorem sent_eng : (s.sent out calls).eng = s.eng := rfl
@[simp] theorem sent_env :
    (s.sent out calls).env = { s.env with sink := { s.env.sink.take out with calls := calls } } := rfl
@[simp] theorem sent_draw : (s.sent out calls).draw = s.draw := rfl
@[simp] theorem sent_nil : s.sent [] s.env.sink.calls = s := by simp [State.sent]

end Sent

theorem sent_sent (a b : List Byte) (c d : List Nat) (s : State) : (s.sent a c).sent b d = s.sent (a ++ b) d := by
  simp [State.sent, Sink.take, BitVec.add_assoc, BitVec.ofNat_add, Function.comp_def, Nat.sub_sub]

/-- `f` flushes before anything else, and completes in FINISH once nothing is pending. -/
structure Flushes (f : State → Turn) : Prop where
  pending : ∀ s, s.eng.outq ≠ [] → f s = flushStep s
  finish : ∀ s, s.eng.outq = [] → s.eng.ph = .finish → f s = finishStep s

theorem flushes_flushFirst {g : State → Turn} (hg : ∀ s, s.eng.ph = .finish → g s = finishStep s) :
    Flushes (flushFirst g) :=
  ⟨fun _ h => flushFirst_pending h, fun s h hp => (flushFirst_empty h).trans (hg s hp)⟩

/-- Each command's engine rule flushes first and completes in FINISH. -/
theorem engine_flushes : Flushes scanCmdStep ∧ Flushes lzwEncStep ∧ Flushes lzwDecStep ∧ Flushes frmEncStep ∧
    Flushes frmDecStep ∧ Flushes strEncStep ∧ Flushes strDecStep := by
  refine ⟨?_, ?_, ?_, ?_, ?_, ?_, ?_⟩ <;> exact flushes_flushFirst fun s hp => by simp [hp]

variable {f : State → Turn}

/-- Pending output that the sink takes whole, in however many calls; each listed call size pays for one step. -/
theorem flush_whole (hf : Flushes f) (u : State) (hb : u.regs.stat = .busy)
    (hfit : u.env.sink.fits u.eng.outq.length = true) :
    ∃ k c, k + c.length ≤ u.env.sink.calls.length + 1 ∧ Steps f k u ({ u with eng.outq := [] }.sent u.eng.outq c) := by
  generalize hm : u.eng.outq.length = m at hfit
  induction m using Nat.strong_induction_on generalizing u with
  | _ m ih =>
    by_cases ho : u.eng.outq = []
    · refine ⟨0, u.env.sink.calls, by omega, ?_⟩
      have : { u with eng.outq := [] }.sent u.eng.outq u.env.sink.calls = u := by
        rw [ho]; exact (sent_nil { u with eng.outq := [] }).trans (by rw [← ho])
      rw [this]; exact .refl u
    · obtain ⟨hpre, hlen, hpos⟩ := offered_spec ho
      have hle := hpre.length_le
      have hstep : f u = .went ({ u with eng.outq := u.eng.outq.drop u.offered.length }.sent u.offered
          u.env.sink.calls.tail) := by
        rw [hf.pending u ho, flushStep_whole (fits_mono hfit (by omega))]; rfl
      set v := { u with eng.outq := u.eng.outq.drop u.offered.length }.sent u.offered u.env.sink.calls.tail with hv
      have hvo : v.eng.outq = u.eng.outq.drop u.offered.length := rfl
      have hfitv : v.env.sink.fits v.eng.outq.length = true := by
        show (u.env.sink.take u.offered).fits _ = true
        rw [fits_take (fits_mono hfit (by omega)), hvo, List.length_drop]
        exact fits_mono hfit (by omega)
      obtain ⟨k, c, hk, hst⟩ := ih v.eng.outq.length (by rw [hvo, List.length_drop]; omega) v hb rfl hfitv
      have hres : { v with eng.outq := [] }.sent v.eng.outq c = { u with eng.outq := [] }.sent u.eng.outq c := by
        rw [hvo, hv]
        exact (sent_sent u.offered _ _ c { u with eng.outq := [] }).trans (by rw [offered_append])
      rw [hres] at hst
      cases hcalls : u.env.sink.calls with
      | nil =>
        have hall : u.offered.length = u.eng.outq.length := hlen.trans (callSize_all hcalls _)
        have hvn : v.eng.outq = [] := by rw [hvo, hall, List.drop_length]
        have hve : v = { u with eng.outq := [] }.sent u.eng.outq [] := by
          rw [hv, hcalls, hall, List.drop_length, (hpre.eq_of_length hall)]; rfl
        exact ⟨1, [], by simp, .one hb (hstep.trans (by rw [hve]))⟩
      | cons x xs =>
        have : v.env.sink.calls = xs := by show u.env.sink.calls.tail = xs; rw [hcalls]; rfl
        rw [this] at hk
        exact ⟨k + 1, c, by simp; omega, .cons hb hstep hst⟩

/-- Pending output that the sink takes short: SHORT_WRITE, in whichever call the room runs out, and the completion after
it. -/
theorem flush_short (hf : Flushes f) (u : State) (hb : u.regs.stat = .busy)
    (ht : u.env.sink.tail = .ends) {r : Nat} (hr : u.env.sink.room = some r) (hlt : r < u.eng.outq.length) :
    ∃ k c, k ≤ u.env.sink.calls.length + 2 ∧
      Steps f k u (complete .shortWrite (u.sent (u.eng.outq.take r) c).cutShort) := by
  generalize hm : u.eng.outq.length = m at hlt
  induction m using Nat.strong_induction_on generalizing u r with
  | _ m ih =>
    have ho : u.eng.outq ≠ [] := by intro h; rw [h] at hm; simp at hm; omega
    obtain ⟨hpre, hlen, hpos⟩ := offered_spec ho
    have hle := hpre.length_le
    by_cases hrl : r < u.offered.length
    · refine ⟨2, u.env.sink.calls.tail, by omega, .cons (t := (u.sent (u.eng.outq.take r) _).cutShort) hb ?_
        (.one hb (hf.finish _ rfl rfl))⟩
      have htk : u.offered.take r = u.eng.outq.take r := by
        obtain ⟨rest, h⟩ := hpre
        rw [← h, List.take_append_of_le_length hrl.le]
      rw [hf.pending u ho, flushStep_short hr hrl ht, htk]
      simp only [State.sent, List.length_take, Nat.min_eq_left (show r ≤ u.eng.outq.length by omega)]
      rfl
    · have hfit : u.env.sink.fits u.offered.length = true := by simp [Sink.fits, hr]; omega
      have hstep : f u = .went ({ u with eng.outq := u.eng.outq.drop u.offered.length }.sent u.offered
          u.env.sink.calls.tail) := by
        rw [hf.pending u ho, flushStep_whole hfit]; rfl
      set v := { u with eng.outq := u.eng.outq.drop u.offered.length }.sent u.offered u.env.sink.calls.tail with hv
      have hvo : v.eng.outq = u.eng.outq.drop u.offered.length := rfl
      obtain ⟨k, c, hk, hst⟩ := ih v.eng.outq.length (by rw [hvo, List.length_drop]; omega) v hb ht
        (r := r - u.offered.length) (by simp [hv, Sink.take, hr]) rfl (by rw [hvo, List.length_drop]; omega)
      have htk : u.offered ++ v.eng.outq.take (r - u.offered.length) = u.eng.outq.take r := by
        conv_rhs => rw [← offered_append u, List.take_append, List.take_of_length_le (by omega)]
        rw [hvo]
      have hres : complete .shortWrite (v.sent (v.eng.outq.take (r - u.offered.length)) c).cutShort =
          complete .shortWrite (u.sent (u.eng.outq.take r) c).cutShort := by
        rw [← htk, hv]
        simp only [sent_sent]
        rfl
      rw [hres] at hst
      cases hcalls : u.env.sink.calls with
      | nil =>
        have : u.offered.length = u.eng.outq.length := hlen.trans (callSize_all hcalls _)
        omega
      | cons x xs =>
        have : v.env.sink.calls = xs := by show u.env.sink.calls.tail = xs; rw [hcalls]; rfl
        rw [this] at hk
        exact ⟨k + 1, c, by simp; omega, .cons hb hstep hst⟩

/-- A command that SHORT_WRITE ended: the sink holds the part `got` of the output there was room for, and of the
registers only OUT_COUNT and (as a free value) DICT_NEXT differ from those before (20_memory.md R72). -/
def EndsShort (s t : State) (got : List Byte) : Prop :=
  ∃ (u : State) (d : BitVec 9) (c : List Nat), t = complete .shortWrite u ∧
    u.regs = { s.regs with outCount := s.regs.outCount + BitVec.ofNat 32 got.length, dictNext := d } ∧
    u.env = { s.env with sink := { s.env.sink.take got with calls := c } } ∧ u.eng.opCur = s.eng.opCur ∧
    u.draw = s.draw

theorem endsShort_of_flush {s u : State} {d : BitVec 9} {got : List Byte} {c : List Nat}
    (hr : u.regs = { s.regs with dictNext := d }) (he : u.env = s.env) (ho : u.eng.opCur = s.eng.opCur)
    (hd : u.draw = s.draw) : EndsShort s (complete .shortWrite (u.sent got c).cutShort) got :=
  ⟨_, d, c, rfl, by simp [hr], by simp [he], ho, hd⟩

theorem EndsShort.after {s s' t : State} {a b : List Byte} {d : BitVec 9} {c : List Nat} (h : EndsShort s' t b)
    (hr : s'.regs = { (s.sent a c).regs with dictNext := d }) (he : s'.env = (s.sent a c).env)
    (ho : s'.eng.opCur = s.eng.opCur) (hd : s'.draw = s.draw) : EndsShort s t (a ++ b) := by
  obtain ⟨u, d', c', rfl, h1, h2, h3, h4⟩ := h
  refine ⟨u, d', c', rfl, ?_, ?_, h3.trans ho, h4.trans hd⟩
  · rw [h1, hr]; simp [BitVec.add_assoc, BitVec.ofNat_add]
  · rw [h2, he]; simp [Sink.take, Function.comp_def, Nat.sub_sub]

/-- The bytes of an LZW run. -/
def LzwResult.out : LzwResult → List Byte
  | .ok _ o => o
  | .raised _ _ o => o
  | .fault _ => []

@[simp] theorem LzwResult.after_ok (a o : List Byte) (r : Lzw) : (LzwResult.ok r o).after a = .ok r (a ++ o) := rfl
@[simp] theorem LzwResult.after_raised (a o : List Byte) (r : Lzw) (e : Err) :
    (LzwResult.raised e r o).after a = .raised e r (a ++ o) := rfl
@[simp] theorem LzwResult.after_fault (a : List Byte) (x : Fault) : (LzwResult.fault x).after a = .fault x := rfl

theorem LzwResult.after_eq_ok {a o : List Byte} {x : LzwResult} {r : Lzw} (h : x.after a = .ok r o) :
    ∃ o', x = .ok r o' ∧ o = a ++ o' := by
  cases x <;> simp [LzwResult.after] at h
  exact ⟨_, by rw [h.1], h.2.symm⟩

theorem LzwResult.after_eq_raised {a o : List Byte} {x : LzwResult} {r : Lzw} {e : Err}
    (h : x.after a = .raised e r o) : ∃ o', x = .raised e r o' ∧ o = a ++ o' := by
  cases x <;> simp [LzwResult.after] at h
  exact ⟨_, by rw [h.1, h.2.1], h.2.2.symm⟩

/-! ### A coding phase: one step function over the rest of a buffer -/

/-- The engine `e0` at byte `p` of its buffer, with LZW registers `r` and nothing pending. -/
def Engine.at (e0 : Engine) (p : Nat) (r : Lzw) : Engine := { e0 with lzw := r, ipos := p, outq := [] }

/-- What an error update `bad` of a coding phase may touch. -/
structure BadUpdate (bad : State → State) : Prop where
  stat : ∀ u, (bad u).regs.stat = u.regs.stat
  outq : ∀ u, (bad u).eng.outq = u.eng.outq
  env : ∀ u, (bad u).env = u.env
  regs : ∀ u, ∃ d, (bad u).regs = { u.regs with dictNext := d }
  opCur : ∀ u, (bad u).eng.opCur = u.eng.opCur
  draw : ∀ u, (bad u).draw = u.draw
  sent : ∀ u o c, { bad u with eng.outq := [] }.sent o c = bad ({ u with eng.outq := [] }.sent o c)

/-- `f` walks the buffer `buf` with step function `g` while its engine is `e0` at some byte of it. -/
def Walks (f : State → Turn) (g : Byte → Lzw → LzwResult) (bad : State → State) (buf : List Byte) (e0 : Engine) :
    Prop :=
  ∀ s p r c, s.eng = e0.at p r → buf[p]? = some c →
    f s = match g c r with
      | .ok r' out => .went (((s.withLzw r').seek (p + 1)).emit out)
      | .raised _ r' out => .went (bad ((s.withLzw r').emit out))
      | .fault x => .fault x

section Walk

variable {g : Byte → Lzw → LzwResult} {bad : State → State} {buf : List Byte} {e0 : Engine}

theorem at_emit {s : State} {p : Nat} {r r' : Lzw} {out : List Byte} (hs : s.eng = e0.at p r) :
    ({ ((s.withLzw r').seek (p + 1)).emit out with eng.outq := [] } : State) =
      { s with eng := e0.at (p + 1) r' } := by
  simp [State.emit, State.seek, State.withLzw, hs, Engine.at]

theorem at_emit_raised {s : State} {p : Nat} {r r' : Lzw} {out : List Byte} (hs : s.eng = e0.at p r) :
    ({ (s.withLzw r').emit out with eng.outq := [] } : State) = { s with eng := e0.at p r' } := by
  simp [State.emit, State.withLzw, hs, Engine.at]

theorem drop_eq_cons {p : Nat} {c : Byte} (h : buf[p]? = some c) : buf.drop p = c :: buf.drop (p + 1) := by
  obtain ⟨hlt, rfl⟩ := List.getElem?_eq_some_iff.mp h
  exact List.drop_eq_getElem_cons hlt

/-- The rest of the buffer is walked without an error and its output is taken whole. -/
theorem walk_ok (hfl : Flushes f) (hw : Walks f g bad buf e0) (s : State) (p : Nat) (r r' : Lzw) (out : List Byte)
    (hb : s.regs.stat = .busy) (hs : s.eng = e0.at p r) (hp : p ≤ buf.length)
    (hrun : walk g (buf.drop p) r = .ok r' out) (hfit : s.env.sink.fits out.length = true) :
    ∃ k c, k + c.length ≤ 2 * (buf.length - p) + s.env.sink.calls.length ∧
      Steps f k s ({ s with eng := e0.at buf.length r' }.sent out c) := by
  generalize hm : buf.length - p = m
  induction m generalizing s p r out with
  | zero =>
    have hpe : p = buf.length := by omega
    subst hpe
    simp only [List.drop_length, walk] at hrun
    cases hrun
    refine ⟨0, s.env.sink.calls, by omega, ?_⟩
    rw [← hs, sent_nil]
    exact .refl s
  | succ m ih =>
    have hc : buf[p]? = some buf[p] := List.getElem?_eq_getElem (by omega)
    rw [drop_eq_cons hc] at hrun
    have hf := hw s p r _ hs hc
    simp only [walk] at hrun
    split at hrun
    · rename_i r1 o1 hg
      obtain ⟨o2, h2, rfl⟩ := LzwResult.after_eq_ok hrun
      rw [hg] at hf
      set u := ((s.withLzw r1).seek (p + 1)).emit o1 with hu
      have huo : u.eng.outq = o1 := by simp [hu, hs, Engine.at]
      have hue : u.env = s.env := rfl
      have hfit1 : s.env.sink.fits o1.length = true := fits_mono hfit (by simp)
      obtain ⟨k1, c1, hk1, hst1⟩ := flush_whole hfl u hb (by rw [huo, hue]; exact hfit1)
      rw [huo, at_emit hs] at hst1
      obtain ⟨k2, c2, hk2, hst2⟩ := ih ({ s with eng := e0.at (p + 1) r1 }.sent o1 c1) (p + 1) r1 o2 hb rfl (by omega)
        h2 ((fits_take hfit1 (n := o2.length)).trans (by simpa using hfit)) (by omega)
      simp only [sent_env, hue] at hk1 hk2
      refine ⟨k1 + k2 + 1, c2, by omega, .cons hb hf (hst1.trans ?_)⟩
      convert hst2 using 1
      rw [← sent_sent _ _ c1]; rfl
    · cases hrun
    · cases hrun

/-- The walk meets an error and the output before it is taken whole. -/
theorem walk_raised (hfl : Flushes f) (hbad : BadUpdate bad) (hw : Walks f g bad buf e0) (s : State) (p : Nat)
    (r r' : Lzw) (e : Err) (out : List Byte)
    (hb : s.regs.stat = .busy) (hs : s.eng = e0.at p r) (hp : p ≤ buf.length)
    (hrun : walk g (buf.drop p) r = .raised e r' out) (hfit : s.env.sink.fits out.length = true) :
    ∃ k q c, k + c.length ≤ 2 * (buf.length - p) + s.env.sink.calls.length ∧
      Steps f k s (bad ({ s with eng := e0.at q r' }.sent out c)) := by
  generalize hm : buf.length - p = m
  induction m generalizing s p r out with
  | zero =>
    have hpe : p = buf.length := by omega
    subst hpe
    simp [walk] at hrun
  | succ m ih =>
    have hc : buf[p]? = some buf[p] := List.getElem?_eq_getElem (by omega)
    rw [drop_eq_cons hc] at hrun
    have hf := hw s p r _ hs hc
    simp only [walk] at hrun
    split at hrun
    · rename_i r1 o1 hg
      obtain ⟨o2, h2, rfl⟩ := LzwResult.after_eq_raised hrun
      rw [hg] at hf
      set u := ((s.withLzw r1).seek (p + 1)).emit o1 with hu
      have huo : u.eng.outq = o1 := by simp [hu, hs, Engine.at]
      have hue : u.env = s.env := rfl
      have hfit1 : s.env.sink.fits o1.length = true := fits_mono hfit (by simp)
      obtain ⟨k1, c1, hk1, hst1⟩ := flush_whole hfl u hb (by rw [huo, hue]; exact hfit1)
      rw [huo, at_emit hs] at hst1
      obtain ⟨k2, q, c2, hk2, hst2⟩ := ih ({ s with eng := e0.at (p + 1) r1 }.sent o1 c1) (p + 1) r1 o2 hb rfl
        (by omega) h2 ((fits_take hfit1 (n := o2.length)).trans (by simpa using hfit)) (by omega)
      simp only [sent_env, hue] at hk1 hk2
      refine ⟨k1 + k2 + 1, q, c2, by omega, .cons hb hf (hst1.trans ?_)⟩
      convert hst2 using 2
      rw [← sent_sent _ _ c1]; rfl
    · rename_i e1 r1 o1 hg
      cases hrun
      rw [hg] at hf
      set u := (s.withLzw r').emit out with hu
      have huo : u.eng.outq = out := by simp [hu, hs, Engine.at]
      have hue : u.env = s.env := rfl
      obtain ⟨k1, c1, hk1, hst1⟩ := flush_whole hfl (bad u) ((hbad.stat u).trans hb)
        (by rw [hbad.outq, huo, hbad.env]; exact hfit)
      rw [hbad.outq, huo, hbad.sent, at_emit_raised hs] at hst1
      rw [hbad.env, hue] at hk1
      exact ⟨k1 + 1, _, c1, by omega, .cons hb hf hst1⟩
    · cases hrun

/-- The sink takes the walk's output short. -/
theorem walk_short (hfl : Flushes f) (hbad : BadUpdate bad) (hw : Walks f g bad buf e0) (s : State) (p : Nat)
    (r : Lzw) (a : Nat)
    (hb : s.regs.stat = .busy) (hs : s.eng = e0.at p r) (hp : p ≤ buf.length)
    (hnf : ∀ x, walk g (buf.drop p) r ≠ .fault x)
    (ha : s.env.sink.room = some a) (ht : s.env.sink.tail = .ends)
    (hlt : a < (walk g (buf.drop p) r).out.length) :
    ∃ k t, k ≤ 2 * (buf.length - p) + s.env.sink.calls.length + 1 ∧ Steps f k s t ∧
      EndsShort s t ((walk g (buf.drop p) r).out.take a) := by
  generalize hm : buf.length - p = m
  induction m generalizing s p r a with
  | zero =>
    have hpe : p = buf.length := by omega
    subst hpe
    simp [walk, LzwResult.out] at hlt
  | succ m ih =>
    have hc : buf[p]? = some buf[p] := List.getElem?_eq_getElem (by omega)
    rw [drop_eq_cons hc] at hnf hlt ⊢
    have hf := hw s p r _ hs hc
    simp only [walk] at hnf hlt ⊢
    cases hg : g buf[p] r with
    | ok r1 o1 =>
      rw [hg] at hf
      simp only [hg] at hnf hlt ⊢
      have hout : ((walk g (buf.drop (p + 1)) r1).after o1).out = o1 ++ (walk g (buf.drop (p + 1)) r1).out := by
        cases hx : walk g (buf.drop (p + 1)) r1 with
        | fault x => exact absurd (by simp [hx]) (hnf x)
        | _ => rfl
      rw [hout] at hlt ⊢
      have hnf' : ∀ x, walk g (buf.drop (p + 1)) r1 ≠ .fault x := fun x hx => hnf x (by simp [hx])
      set u := ((s.withLzw r1).seek (p + 1)).emit o1 with hu
      have huo : u.eng.outq = o1 := by simp [hu, hs, Engine.at]
      have hue : u.env = s.env := rfl
      by_cases hfit1 : s.env.sink.fits o1.length = true
      · obtain ⟨k1, c1, hk1, hst1⟩ := flush_whole hfl u hb (by rw [huo, hue]; exact hfit1)
        rw [huo, at_emit hs] at hst1
        have hle : o1.length ≤ a := by simpa [Sink.fits, ha] using hfit1
        obtain ⟨k2, t, hk2, hst2, hend⟩ := ih ({ s with eng := e0.at (p + 1) r1 }.sent o1 c1) (p + 1) r1
          (a - o1.length) hb rfl (by omega) hnf' (by simp [Sink.take, ha]) ht (by simp at hlt; omega) (by omega)
        simp only [sent_env, hue] at hk1 hk2
        refine ⟨k1 + k2 + 1, t, by omega, .cons hb hf (hst1.trans hst2), ?_⟩
        rw [List.take_append, List.take_of_length_le hle]
        exact hend.after (d := s.regs.dictNext) (c := c1) rfl rfl (by simp [hs, Engine.at]) rfl
      · have hlt1 : a < o1.length := by simpa [Sink.fits, ha] using hfit1
        obtain ⟨k1, c1, hk1, hst1⟩ := flush_short hfl u hb ht ha (by rw [huo]; exact hlt1)
        rw [huo] at hst1
        rw [hue] at hk1
        refine ⟨k1 + 1, _, by omega, .cons hb hf hst1, ?_⟩
        rw [List.take_append_of_le_length hlt1.le]
        exact endsShort_of_flush (d := s.regs.dictNext) rfl rfl (by simp [hu, hs, Engine.at]) rfl
    | raised e r1 o1 =>
      rw [hg] at hf
      simp only [hg, LzwResult.out] at hlt ⊢
      set u := (s.withLzw r1).emit o1 with hu
      have huo : u.eng.outq = o1 := by simp [hu, hs, Engine.at]
      have hue : u.env = s.env := rfl
      obtain ⟨k1, c1, hk1, hst1⟩ := flush_short hfl (bad u) ((hbad.stat u).trans hb) (by rw [hbad.env]; exact ht)
        (by rw [hbad.env]; exact ha) (by rw [hbad.outq, huo]; exact hlt)
      rw [hbad.outq, huo] at hst1
      obtain ⟨d, hd⟩ := hbad.regs u
      rw [hbad.env, hue] at hk1
      refine ⟨k1 + 1, _, by omega, .cons hb hf hst1, ?_⟩
      exact endsShort_of_flush (d := d) (hd.trans (by simp [hu])) (hbad.env u)
        ((hbad.opCur u).trans (by simp [hu, hs, Engine.at])) (hbad.draw u)
    | fault x => exact absurd (by simp [hg]) (hnf x)

end Walk

end Sys2Proof.Machine
end

