-- ==== Sys2Proof/Laws/Lzw.lean ====
section
/-! SUPPORT. The scanner and the dictionary: what a scan returns (40_alphabet_scanner.md R122), lookup and insertion
(41_lzw_codec.md R141 to R143), and that every LZW step keeps the dictionary invariants (10_state.md R47) and never
stops in a fault. -/

namespace Sys2Proof.Machine

/-! ### The scanner -/

/-- Everything a successful scan says about its alphabet. -/
theorem scanFrom_spec {a0 alpha data : List Byte} (h : scanFrom a0 data = some alpha) (hn : a0.Nodup)
    (hl : a0.length ≤ 255) :
    alpha.Nodup ∧ alpha.length ≤ 255 ∧ a0 <+: alpha ∧ (∀ b, b ∈ alpha ↔ b ∈ a0 ∨ b ∈ data) ∧
      alpha.length ≤ a0.length + data.length := by
  induction data generalizing a0 with
  | nil => cases h; exact ⟨hn, hl, List.prefix_refl _, by simp, by simp⟩
  | cons c cs ih =>
    simp only [scanFrom, scanByte] at h
    split at h
    · rename_i a1 hsb
      split at hsb
      · rename_i hc
        cases hsb
        obtain ⟨h1, h2, h3, h4, h5⟩ := ih h hn hl
        refine ⟨h1, h2, h3, fun b => ?_, by simp; omega⟩
        rw [h4]
        by_cases hbc : b = c
        · subst hbc; simp [hc]
        · simp [hbc]
      · rename_i hc
        split at hsb
        · cases hsb
        · rename_i hl'
          cases hsb
          simp only [Config.maxAlphabet] at hl'
          have hn' : (a0 ++ [c]).Nodup := by
            rw [List.nodup_append]
            exact ⟨hn, by simp, fun x hx y hy hxy => hc (by simp at hy; rw [← hy, ← hxy]; exact hx)⟩
          obtain ⟨h1, h2, h3, h4, h5⟩ := ih h hn' (by simp; omega)
          refine ⟨h1, h2, (List.prefix_append _ _).trans h3, fun b => ?_, by simp at h5 ⊢; omega⟩
          rw [h4]; simp [or_assoc]
    · cases h

theorem scan_spec {alpha data : List Byte} (h : scan data = some alpha) :
    alpha.Nodup ∧ alpha.length ≤ 255 ∧ (∀ b, b ∈ alpha ↔ b ∈ data) ∧ alpha.length ≤ data.length := by
  obtain ⟨h1, h2, -, h4, h5⟩ := scanFrom_spec h List.nodup_nil (by simp)
  exact ⟨h1, h2, by simpa using h4, by simpa using h5⟩

/-- N = 0 exactly for the empty unit (40_alphabet_scanner.md R122(b)). -/
theorem scan_nil_iff {alpha data : List Byte} (h : scan data = some alpha) : alpha = [] ↔ data = [] := by
  obtain ⟨-, -, hm, -⟩ := scan_spec h
  constructor
  · rintro rfl
    exact List.eq_nil_iff_forall_not_mem.mpr fun b hb => by simpa using (hm b).mpr hb
  · rintro rfl
    exact List.eq_nil_iff_forall_not_mem.mpr fun b hb => by simpa using (hm b).mp hb

/-! ### Lookup -/

theorem findSlot_some {l : List (Option (List Byte))} {k j : Nat} {s : List Byte} (h : findSlot l k s = some j) :
    ∃ i, ∃ hi : i < l.length, j = k + i ∧ l[i] = some s := by
  induction l generalizing k with
  | nil => simp [findSlot] at h
  | cons o os ih =>
    simp only [findSlot] at h
    split at h
    · cases h; exact ⟨0, by simp, by simp, by simpa using ‹_›⟩
    · obtain ⟨i, hi, rfl, hs⟩ := ih h
      exact ⟨i + 1, by simpa using hi, by omega, by simpa using hs⟩

theorem findSlot_of_get {l : List (Option (List Byte))} {k i : Nat} {s : List Byte} (hi : i < l.length)
    (h : l[i] = some s) : ∃ j, findSlot l k s = some j := by
  induction l generalizing k i with
  | nil => simp at hi
  | cons o os ih =>
    simp only [findSlot]
    split
    · exact ⟨k, rfl⟩
    · cases i with
      | zero => simp at h; contradiction
      | succ i => exact ih (by simpa using hi) (by simpa using h)

theorem slot_eq (r : Lzw) (d : Byte) : r.slot d = r.dict[d.toNat]'(by have := d.isLt; omega) := by
  have := d.isLt
  simp [Lzw.slot, show d.toNat < 256 by omega]

theorem slot_ofNat (r : Lzw) {k : Nat} (hk : k < 256) : r.slot (BitVec.ofNat 8 k) = r.dict[k] := by
  rw [slot_eq]; congr 1; simp; omega

/-- `Code(s)` names a slot that holds `s` (41_lzw_codec.md R141). -/
theorem code_some {r : Lzw} {s : List Byte} {d : Byte} (h : r.code s = some d) : r.slot d = some s := by
  unfold Lzw.code at h
  obtain ⟨j, hj, rfl⟩ := Option.map_eq_some_iff.mp h
  obtain ⟨i, hi, rfl, hs⟩ := findSlot_some hj
  have hi' : i < 256 := by simpa using hi
  simp only [Nat.zero_add]
  rw [slot_ofNat r hi']
  simpa using hs

/-- A sequence in the dictionary has a code (41_lzw_codec.md R141). -/
theorem code_of_slot {r : Lzw} {s : List Byte} {k : Nat} (hk : k < 256) (h : r.dict[k] = some s) :
    ∃ d, r.code s = some d := by
  obtain ⟨j, hj⟩ := findSlot_of_get (l := r.dict.toList) (k := 0) (i := k) (by simpa using hk) (by simpa using h)
  exact ⟨BitVec.ofNat 8 j, by simp [Lzw.code, hj]⟩

theorem code_none {r : Lzw} {s : List Byte} (h : r.code s = none) {k : Nat} (hk : k < 256) : r.dict[k] ≠ some s :=
  fun hs => by obtain ⟨d, hd⟩ := code_of_slot hk hs; simp [hd] at h

/-! ### Seeding and insertion -/

theorem seedSlots_get (alpha : List Byte) {k : Nat} (hk : k < 256) :
    (seedSlots alpha)[k] = if k = 0 then none else (alpha[k - 1]?).map fun b => [b] := by
  simp [seedSlots]

theorem seed_next {alpha : List Byte} (h : alpha.length ≤ 255) : (Lzw.seed alpha).next.toNat = alpha.length + 1 := by
  simp [Lzw.seed]; omega

/-- The dictionary right after seeding (41_lzw_codec.md R140). -/
theorem seed_dictInv {alpha : List Byte} (h : alpha.length ≤ 255) : DictInv alpha (Lzw.seed alpha) where
  size := h
  nextLo := (seed_next h).ge
  nextHi := by rw [seed_next h]; omega
  present k hk := by
    rw [seed_next h]
    simp only [Lzw.seed, seedSlots_get alpha hk]
    split
    · simp; omega
    · simp; omega
  seeded k hk h1 _ := by
    simp only [Lzw.seed, seedSlots_get alpha hk]
    rw [if_neg (by omega)]
  learned k hk h1 h2 := by rw [seed_next h] at h2; omega

theorem seed_injective {alpha : List Byte} (hn : alpha.Nodup) : DictInjective (Lzw.seed alpha) := by
  intro j k hj hk hne heq
  simp only [Lzw.seed, seedSlots_get alpha hj, seedSlots_get alpha hk] at hne heq
  split at hne
  · simp at hne
  · rename_i hj0
    rw [if_neg hj0] at heq
    split at heq
    · exact absurd heq hne
    · rename_i hk0
      have hjl : j - 1 < alpha.length := by by_contra hc; simp at hne; omega
      simp only [List.getElem?_eq_getElem hjl, Option.map_some] at heq
      obtain ⟨b, hb, hbe⟩ := Option.map_eq_some_iff.mp heq.symm
      obtain ⟨hkl, hbk⟩ := List.getElem?_eq_some_iff.mp hb
      have : alpha[k - 1] = alpha[j - 1] := by simp at hbe; rw [hbk, hbe]
      have := (List.Nodup.getElem_inj_iff hn).mp this
      omega

theorem full_iff {r : Lzw} : r.full = true ↔ 256 ≤ r.next.toNat := by
  simp [Lzw.full, Config.maxCode]; omega

theorem insert_next {r : Lzw} (h : r.full = false) (s : List Byte) :
    (r.insert s).next.toNat = r.next.toNat + 1 := by
  have : ¬ 256 ≤ r.next.toNat := fun hc => by simp [full_iff.mpr hc] at h
  simp [Lzw.insert, BitVec.toNat_add]; omega

theorem insert_get {r : Lzw} (s : List Byte) {k : Nat} (hk : k < 256) :
    (r.insert s).dict[k] = if k = r.next.toNat then some s else r.dict[k] := by
  simp only [Lzw.insert]
  rw [Vector.getElem_setIfInBounds hk]
  by_cases h : r.next.toNat = k
  · simp [h]
  · simp [h, Ne.symm h]

variable {alpha : List Byte} {r : Lzw}

theorem DictInv.slotZero (h : DictInv alpha r) : r.dict[0] = none := by
  by_contra hc
  have := (h.present 0 (by omega)).mp hc
  omega

/-- An insertion of an entry extended by one byte keeps the dictionary invariants (10_state.md R47). -/
theorem DictInv.insert (h : DictInv alpha r) (hf : r.full = false) {q : List Byte} {b : Byte} {p : Nat}
    (hp : p < 256) (hq : r.dict[p] = some q) : DictInv alpha (r.insert (q ++ [b])) := by
  have hlt : r.next.toNat < 256 := by
    by_contra hc
    have := full_iff (r := r).mpr (by omega)
    simp [this] at hf
  have hpn : p < r.next.toNat := ((h.present p hp).mp (by simp [hq])).2
  have hnx := insert_next hf (q ++ [b])
  refine ⟨h.size, by have := h.nextLo; omega, by omega, fun k hk => ?_, fun k hk h1 h2 => ?_, fun k hk h1 h2 => ?_⟩
  · rw [insert_get _ hk, hnx]
    split
    · have := h.nextLo; simp; omega
    · rw [h.present k hk]; omega
  · have := h.nextLo
    rw [insert_get _ hk, if_neg (by omega)]
    exact h.seeded k hk h1 h2
  · by_cases hke : k = r.next.toNat
    · refine ⟨p, by omega, q, b, ?_, ?_⟩
      · rw [insert_get _ hp, if_neg (by omega)]; exact hq
      · rw [insert_get _ hk, if_pos hke]
    · obtain ⟨p', hp', q', b', h3, h4⟩ := h.learned k hk h1 (by omega)
      refine ⟨p', hp', q', b', ?_, ?_⟩
      · rw [insert_get _ (by omega), if_neg (by omega)]; exact h3
      · rw [insert_get _ hk, if_neg hke]; exact h4

theorem DictInjective.insert (hi : DictInjective r) {s : List Byte}
    (hs : r.code s = none) : DictInjective (r.insert s) := by
  intro j k hj hk hne heq
  rw [insert_get _ hj] at hne heq
  rw [insert_get _ hk] at heq
  split at heq
  · split at heq
    · omega
    · exact absurd heq.symm (code_none hs hk)
  · rename_i hjn
    rw [if_neg hjn] at hne
    split at heq
    · exact absurd heq (code_none hs hj)
    · exact hi j k hj hk hne heq

/-- Entries are never empty (10_state.md R47(a)). -/
theorem DictInv.entry_ne_nil (h : DictInv alpha r) {k : Nat} (hk : k < 256) {s : List Byte}
    (hs : r.dict[k] = some s) : s ≠ [] := by
  obtain ⟨h1, h2⟩ := (h.present k hk).mp (by simp [hs])
  by_cases hka : k ≤ alpha.length
  · rw [h.seeded k hk h1 hka] at hs
    obtain ⟨b, -, rfl⟩ := Option.map_eq_some_iff.mp hs
    simp
  · obtain ⟨p, hp, q, b, -, h4⟩ := h.learned k hk (by omega) h2
    rw [h4] at hs; cases hs; simp

/-- Every symbol of the alphabet has a code. -/
theorem DictInv.code_symbol (h : DictInv alpha r) {c : Byte} (hc : c ∈ alpha) : ∃ d, r.code [c] = some d := by
  obtain ⟨i, hi, rfl⟩ := List.getElem_of_mem hc
  have := h.size
  exact code_of_slot (k := i + 1) (by omega)
    (by rw [h.seeded (i + 1) (by omega) (by omega) (by omega)]; simp [hi])

/-! ### The encoder's step -/

/-- W and what it stands for, as the encoder keeps them (10_state.md R36). -/
structure EncOk (alpha : List Byte) (r : Lzw) : Prop where
  dict : DictInv alpha r
  inj : DictInjective r
  w : r.wValid = true → r.slot r.wCode ≠ none

theorem seed_encOk (hn : alpha.Nodup) (hl : alpha.length ≤ 255) : EncOk alpha (Lzw.seed alpha) :=
  ⟨seed_dictInv hl, seed_injective hn, by simp [Lzw.seed]⟩

theorem w_of_valid (hv : r.wValid = true) (hs : r.slot r.wCode ≠ none) : r.slot r.wCode = some r.w := by
  obtain ⟨s, hs⟩ := Option.ne_none_iff_exists'.mp hs
  simp [Lzw.w, hv, hs]

theorem w_of_invalid (hv : r.wValid = false) : r.w = [] := by simp [Lzw.w, hv]

/-- What EncStep does to the encoder's registers and its output: a hit, a miss with an insertion, a miss in a frozen
dictionary, or DICTIONARY_OVERFLOW after the emission (41_lzw_codec.md R142, R145). -/
theorem encStep_cases (h : EncOk alpha r) {c : Byte} (hc : c ∈ alpha) (pol : Policy) :
    (∃ k, r.code (r.w ++ [c]) = some k ∧ encStep pol c r = .ok { r with wValid := true, wCode := k } []) ∨
    (r.wValid = true ∧ r.code (r.w ++ [c]) = none ∧ r.full = false ∧
      ∃ k, (r.insert (r.w ++ [c])).code [c] = some k ∧
        encStep pol c r = .ok { r.insert (r.w ++ [c]) with wCode := k } [r.wCode]) ∨
    (r.wValid = true ∧ r.code (r.w ++ [c]) = none ∧ r.full = true ∧ pol = .freeze ∧
      ∃ k, r.code [c] = some k ∧ encStep pol c r = .ok { r with wCode := k } [r.wCode]) ∨
    (r.wValid = true ∧ r.code (r.w ++ [c]) = none ∧ r.full = true ∧ pol = .error ∧
      encStep pol c r = .raised .dictionaryOverflow r [r.wCode]) := by
  cases hcode : r.code (r.w ++ [c]) with
  | some k => exact .inl ⟨k, rfl, by simp [encStep, hcode]⟩
  | none =>
    have hv : r.wValid = true := by
      by_contra hv
      rw [w_of_invalid (by simpa using hv)] at hcode
      obtain ⟨d, hd⟩ := h.dict.code_symbol hc
      simp [hd] at hcode
    refine .inr ?_
    cases hf : r.full with
    | false =>
      have hd' : DictInv alpha (r.insert (r.w ++ [c])) :=
        h.dict.insert hf (p := r.wCode.toNat) (by have := r.wCode.isLt; omega)
          (by rw [← slot_eq]; exact w_of_valid hv (h.w hv))
      obtain ⟨k, hk⟩ := hd'.code_symbol hc
      exact .inl ⟨hv, rfl, rfl, k, hk, by simp [encStep, hcode, encMiss, hv, encInsert, hf, hk]⟩
    | true =>
      refine .inr ?_
      cases pol with
      | freeze =>
        obtain ⟨k, hk⟩ := h.dict.code_symbol hc
        exact .inl ⟨hv, rfl, rfl, rfl, k, hk, by simp [encStep, hcode, encMiss, hv, encInsert, hf, hk]⟩
      | error => exact .inr ⟨hv, rfl, rfl, rfl, by simp [encStep, hcode, encMiss, hv, encInsert, hf]⟩

theorem EncOk.hit (h : EncOk alpha r) {s : List Byte} {k : Byte} (hk : r.code s = some k) :
    EncOk alpha { r with wValid := true, wCode := k } :=
  ⟨⟨h.dict.size, h.dict.nextLo, h.dict.nextHi, h.dict.present, h.dict.seeded, h.dict.learned⟩, h.inj,
    fun _ => by show r.slot k ≠ none; simp [code_some hk]⟩

theorem EncOk.insert (h : EncOk alpha r) {c : Byte} (hv : r.wValid = true) (hn : r.code (r.w ++ [c]) = none)
    (hf : r.full = false) {k : Byte} (hk : (r.insert (r.w ++ [c])).code [c] = some k) :
    EncOk alpha { r.insert (r.w ++ [c]) with wCode := k } := by
  have hd := h.dict.insert (b := c) hf (p := r.wCode.toNat) (by have := r.wCode.isLt; omega)
    (by rw [← slot_eq]; exact w_of_valid hv (h.w hv))
  exact ⟨⟨hd.size, hd.nextLo, hd.nextHi, hd.present, hd.seeded, hd.learned⟩, h.inj.insert hn,
    fun _ => by show (r.insert (r.w ++ [c])).slot k ≠ none; simp [code_some hk]⟩

theorem EncOk.restart (h : EncOk alpha r) {s : List Byte} {k : Byte} (hk : r.code s = some k) :
    EncOk alpha { r with wCode := k } :=
  ⟨⟨h.dict.size, h.dict.nextLo, h.dict.nextHi, h.dict.present, h.dict.seeded, h.dict.learned⟩, h.inj,
    fun _ => by show r.slot k ≠ none; simp [code_some hk]⟩

/-- An EncStep that goes on keeps the invariants, leaves W holding something, and emits at most one code. -/
theorem encStep_ok (h : EncOk alpha r) {c : Byte} (hc : c ∈ alpha) {pol : Policy} {r' : Lzw} {out : List Byte}
    (hs : encStep pol c r = .ok r' out) :
    EncOk alpha r' ∧ r'.wValid = true ∧ out.length + (if r'.wValid then 1 else 0) ≤ 1 + (if r.wValid then 1 else 0) := by
  rcases encStep_cases h hc pol with ⟨k, hk, he⟩ | ⟨hv, hn, hf, k, hk, he⟩ | ⟨hv, hn, hf, -, k, hk, he⟩ |
    ⟨-, -, -, -, he⟩ <;> rw [he] at hs <;> cases hs
  · exact ⟨h.hit hk, rfl, by simp⟩
  · exact ⟨h.insert hv hn hf hk, by simp [Lzw.insert, hv], by simp [Lzw.insert, hv]⟩
  · exact ⟨h.restart hk, hv, by simp [hv]⟩

/-- The encoder's only error is DICTIONARY_OVERFLOW, under policy ERROR, with NEXT = 256 (41_lzw_codec.md R142). -/
theorem encStep_raised (h : EncOk alpha r) {c : Byte} (hc : c ∈ alpha) {pol : Policy} {r' : Lzw} {e : Err}
    {out : List Byte} (hs : encStep pol c r = .raised e r' out) :
    e = .dictionaryOverflow ∧ pol = .error ∧ r' = r ∧ r.next.toNat = 256 ∧ out = [r.wCode] ∧ r.wValid = true := by
  rcases encStep_cases h hc pol with ⟨k, hk, he⟩ | ⟨hv, hn, hf, k, hk, he⟩ | ⟨hv, hn, hf, -, k, hk, he⟩ |
    ⟨hv, hn, hf, hp, he⟩ <;> rw [he] at hs <;> cases hs
  exact ⟨rfl, hp, rfl, le_antisymm h.dict.nextHi (full_iff.mp hf), rfl, hv⟩

theorem encStep_no_fault (h : EncOk alpha r) {c : Byte} (hc : c ∈ alpha) (pol : Policy) (x : Fault) :
    encStep pol c r ≠ .fault x := by
  rcases encStep_cases h hc pol with ⟨k, hk, he⟩ | ⟨hv, hn, hf, k, hk, he⟩ | ⟨hv, hn, hf, -, k, hk, he⟩ |
    ⟨-, -, -, -, he⟩ <;> rw [he] <;> simp

/-! ### The decoder's step -/

/-- PREV and what it stands for, as the decoder keeps them (10_state.md R37). -/
structure DecOk (alpha : List Byte) (r : Lzw) : Prop where
  dict : DictInv alpha r
  prev : r.prevValid = true → r.slot r.prevCode ≠ none

theorem seed_decOk (hl : alpha.length ≤ 255) : DecOk alpha (Lzw.seed alpha) :=
  ⟨seed_dictInv hl, by simp [Lzw.seed]⟩

theorem prev_of_valid (hv : r.prevValid = true) (hs : r.slot r.prevCode ≠ none) : r.slot r.prevCode = some r.prev := by
  obtain ⟨s, hs⟩ := Option.ne_none_iff_exists'.mp hs
  simp [Lzw.prev, hv, hs]

theorem DecOk.setPrev {d : Byte} (h : DictInv alpha r) (hs : r.slot d ≠ none) (v : Bool) :
    DecOk alpha { r with prevValid := v, prevCode := d } :=
  ⟨⟨h.size, h.nextLo, h.nextHi, h.present, h.seeded, h.learned⟩, fun _ => hs⟩

theorem decInsert_dictInv (h : DictInv alpha r) {q : List Byte} {b : Byte} {p : Nat} (hp : p < 256)
    (hq : r.dict[p] = some q) : DictInv alpha (decInsert (q ++ [b]) r) := by
  unfold decInsert
  split
  · exact h
  · rename_i hf
    exact h.insert (by simpa using hf) hp hq

/-- An insertion keeps every entry that is there. -/
theorem decInsert_keeps (h : DictInv alpha r) (s : List Byte) {k : Nat} (hk : k < 256) (hne : r.dict[k] ≠ none) :
    (decInsert s r).dict[k] = r.dict[k] := by
  unfold decInsert
  split
  · rfl
  · have := (h.present k hk).mp hne
    rw [insert_get _ hk, if_neg (by omega)]

/-- What a decoder step does: a first code, a present code, the self-referential case, or MALFORMED_FRAME
(41_lzw_codec.md R152, R153). -/
theorem decCode_cases (h : DecOk alpha r) {n d : Byte} (hn : n.toNat = alpha.length) :
    (r.prevValid = false ∧ 1 ≤ d.toNat ∧ d.toNat ≤ n.toNat ∧ ∃ cur, r.slot d = some cur ∧
      decCode n d r = .ok { r with prevValid := true, prevCode := d } cur) ∨
    (r.prevValid = false ∧ ¬(1 ≤ d.toNat ∧ d.toNat ≤ n.toNat) ∧ decCode n d r = .raised .malformedFrame r []) ∨
    (r.prevValid = true ∧ ∃ c cs, r.slot d = some (c :: cs) ∧
      decCode n d r = .ok { decInsert (r.prev ++ [c]) r with prevCode := d } (c :: cs)) ∨
    (r.prevValid = true ∧ r.slot d = none ∧ d.toNat = r.next.toNat ∧ ∃ c cs, r.prev = c :: cs ∧
      decCode n d r = .ok { decInsert (r.prev ++ [c]) r with prevCode := d } (r.prev ++ [c])) ∨
    (r.prevValid = true ∧ r.slot d = none ∧ d.toNat ≠ r.next.toNat ∧
      decCode n d r = .raised .malformedFrame r []) := by
  have hd8 := d.isLt
  cases hv : r.prevValid with
  | false =>
    by_cases hr : 1 ≤ d.toNat ∧ d.toNat ≤ n.toNat
    · obtain ⟨cur, hcur⟩ := Option.ne_none_iff_exists'.mp
        ((h.dict.present d.toNat (by omega)).mpr ⟨hr.1, by have := h.dict.nextLo; omega⟩)
      rw [← slot_eq] at hcur
      exact .inl ⟨rfl, hr.1, hr.2, cur, hcur, by simp [decCode, hv, decFirst, hr, hcur]⟩
    · exact .inr (.inl ⟨rfl, hr, by simp only [decCode, hv, decFirst, if_neg hr]; simp⟩)
  | true =>
    refine .inr (.inr ?_)
    cases hs : r.slot d with
    | some cur =>
      have hne : cur ≠ [] := h.dict.entry_ne_nil (k := d.toNat) (by omega) (by rw [← slot_eq]; exact hs)
      obtain ⟨c, cs, rfl⟩ := List.exists_cons_of_ne_nil hne
      exact .inl ⟨rfl, c, cs, rfl, by simp [decCode, hv, decStep, hs, decTake]⟩
    | none =>
      refine .inr ?_
      by_cases hdn : d.toNat = r.next.toNat
      · have hp := prev_of_valid hv (h.prev hv)
        have hne : r.prev ≠ [] := h.dict.entry_ne_nil (k := r.prevCode.toNat) (by have := r.prevCode.isLt; omega)
          (by rw [← slot_eq]; exact hp)
        obtain ⟨c, cs, hcs⟩ := List.exists_cons_of_ne_nil hne
        exact .inl ⟨rfl, rfl, hdn, c, cs, hcs, by simp [decCode, hv, decStep, hs, hdn, hcs, decTake]⟩
      · exact .inr ⟨rfl, rfl, hdn, by simp [decCode, hv, decStep, hs, hdn]⟩

/-- A decoder step that goes on keeps the invariants, and PREV holds something after it. -/
theorem decCode_ok (h : DecOk alpha r) {n d : Byte} (hn : n.toNat = alpha.length) {r' : Lzw} {out : List Byte}
    (hs : decCode n d r = .ok r' out) : DecOk alpha r' ∧ r'.prevValid = true := by
  have hd8 := d.isLt
  rcases decCode_cases h (d := d) hn with ⟨hv, h1, h2, cur, hc, he⟩ | ⟨-, -, he⟩ | ⟨hv, c, cs, hc, he⟩ |
    ⟨hv, hnone, hdn, c, cs, hp, he⟩ | ⟨-, -, -, he⟩ <;> rw [he] at hs <;> cases hs
  · exact ⟨.setPrev h.dict (by simp [hc]) true, rfl⟩
  · have hpv := prev_of_valid hv (h.prev hv)
    have hpc := r.prevCode.isLt
    have hd := decInsert_dictInv h.dict (b := c) (p := r.prevCode.toNat) (by omega) (by rw [← slot_eq]; exact hpv)
    have hv' : (decInsert (r.prev ++ [c]) r).prevValid = true := by
      unfold decInsert; split <;> simp [Lzw.insert, hv]
    refine ⟨⟨⟨hd.size, hd.nextLo, hd.nextHi, hd.present, hd.seeded, hd.learned⟩, fun _ => ?_⟩, hv'⟩
    show (decInsert (r.prev ++ [c]) r).slot d ≠ none
    rw [slot_eq, decInsert_keeps h.dict _ (by omega) (by rw [← slot_eq, hc]; simp), ← slot_eq, hc]; simp
  · have hpv := prev_of_valid hv (h.prev hv)
    have hpc := r.prevCode.isLt
    have hd := decInsert_dictInv h.dict (b := c) (p := r.prevCode.toNat) (by omega) (by rw [← slot_eq]; exact hpv)
    have hv' : (decInsert (r.prev ++ [c]) r).prevValid = true := by
      unfold decInsert; split <;> simp [Lzw.insert, hv]
    refine ⟨⟨⟨hd.size, hd.nextLo, hd.nextHi, hd.present, hd.seeded, hd.learned⟩, fun _ => ?_⟩, hv'⟩
    show (decInsert (r.prev ++ [c]) r).slot d ≠ none
    have hnf : r.full = false := by
      by_contra hc; have := full_iff.mp (by simpa using hc); omega
    rw [slot_eq, decInsert, hnf]
    simp only [Bool.false_eq_true, if_false]
    rw [insert_get _ (by omega), if_pos hdn]; simp

theorem decCode_raised (h : DecOk alpha r) {n d : Byte} (hn : n.toNat = alpha.length) {r' : Lzw} {e : Err}
    {out : List Byte} (hs : decCode n d r = .raised e r' out) : e = .malformedFrame ∧ r' = r ∧ out = [] := by
  rcases decCode_cases h (d := d) hn with ⟨hv, h1, h2, cur, hc, he⟩ | ⟨-, -, he⟩ | ⟨hv, c, cs, hc, he⟩ |
    ⟨hv, hnone, hdn, c, cs, hp, he⟩ | ⟨-, -, -, he⟩ <;> rw [he] at hs <;> cases hs <;> exact ⟨rfl, rfl, rfl⟩

theorem decCode_no_fault (h : DecOk alpha r) {n d : Byte} (hn : n.toNat = alpha.length) (x : Fault) :
    decCode n d r ≠ .fault x := by
  rcases decCode_cases h (d := d) hn with ⟨hv, h1, h2, cur, hc, he⟩ | ⟨-, -, he⟩ | ⟨hv, c, cs, hc, he⟩ |
    ⟨hv, hnone, hdn, c, cs, hp, he⟩ | ⟨-, -, -, he⟩ <;> rw [he] <;> simp

/-! ### Whole runs -/

/-- Every step of a walk keeps `P`, and so does the walk; `Q` is what a step needs of its byte. -/
theorem walk_keeps {g : Byte → Lzw → LzwResult} {P : Lzw → Prop} {Q : Byte → Prop}
    (hg : ∀ c r r' out, P r → Q c → g c r = .ok r' out → P r') :
    ∀ cs r r' out, P r → (∀ c ∈ cs, Q c) → walk g cs r = .ok r' out → P r' := by
  intro cs
  induction cs with
  | nil => intro r r' out hp _ hw; cases hw; exact hp
  | cons c cs ih =>
    intro r r' out hp hq hw
    simp only [walk] at hw
    split at hw
    · rename_i r1 o1 h1
      obtain ⟨o2, h2, -⟩ := LzwResult.after_eq_ok hw
      exact ih r1 r' o2 (hg c r r1 o1 hp (hq c (by simp)) h1) (fun c' hc' => hq c' (by simp [hc'])) h2
    · cases hw
    · cases hw

/-- A walk whose steps never fault does not either. -/
theorem walk_no_fault {g : Byte → Lzw → LzwResult} {P : Lzw → Prop} {Q : Byte → Prop}
    (hg : ∀ c r r' out, P r → Q c → g c r = .ok r' out → P r')
    (hf : ∀ c r x, P r → Q c → g c r ≠ .fault x) :
    ∀ cs r x, P r → (∀ c ∈ cs, Q c) → walk g cs r ≠ .fault x := by
  intro cs
  induction cs with
  | nil => intro r x _ _ hw; cases hw
  | cons c cs ih =>
    intro r x hp hq hw
    simp only [walk] at hw
    split at hw
    · rename_i r1 o1 h1
      have := ih r1 x (hg c r r1 o1 hp (hq c (by simp)) h1) (fun c' hc' => hq c' (by simp [hc']))
      cases hx : walk g cs r1 <;> rw [hx] at hw <;> simp [LzwResult.after] at hw
      exact this (by rw [hx, hw])
    · cases hw
    · rename_i y hy
      exact hf c r y hp (hq c (by simp)) hy

/-- Where a walk raises, some step of it does, in a state that `P` holds of. -/
theorem walk_raises {g : Byte → Lzw → LzwResult} {P : Lzw → Prop} {Q : Byte → Prop}
    (hg : ∀ c r r' out, P r → Q c → g c r = .ok r' out → P r') :
    ∀ cs r r' e out, P r → (∀ c ∈ cs, Q c) → walk g cs r = .raised e r' out →
      ∃ c r1 o, Q c ∧ P r1 ∧ g c r1 = .raised e r' o := by
  intro cs
  induction cs with
  | nil => intro r r' e out _ _ hw; cases hw
  | cons c cs ih =>
    intro r r' e out hp hq hw
    simp only [walk] at hw
    split at hw
    · rename_i r1 o1 h1
      obtain ⟨o2, h2, -⟩ := LzwResult.after_eq_raised hw
      exact ih r1 r' e o2 (hg c r r1 o1 hp (hq c (by simp)) h1) (fun c' hc' => hq c' (by simp [hc'])) h2
    · rename_i e1 r1 o1 h1
      cases hw
      exact ⟨c, r, out, hq c (by simp), hp, h1⟩
    · cases hw

theorem encStep_walk_no_fault (h : EncOk alpha r) (pol : Policy) {cs : List Byte} (hcs : ∀ c ∈ cs, c ∈ alpha)
    (x : Fault) : walk (encStep pol) cs r ≠ .fault x :=
  walk_no_fault (P := EncOk alpha) (Q := (· ∈ alpha)) (fun _ _ _ _ hp hq hs => (encStep_ok hp hq hs).1)
    (fun _ _ x hp hq => encStep_no_fault hp hq pol x) cs r x h hcs

theorem decCode_walk_no_fault (h : DecOk alpha r) {n : Byte} (hn : n.toNat = alpha.length) (cs : List Byte)
    (x : Fault) : walk (decCode n) cs r ≠ .fault x :=
  walk_no_fault (P := DecOk alpha) (Q := fun _ => True) (fun _ _ _ _ hp _ hs => (decCode_ok hp hn hs).1)
    (fun _ _ x hp _ => decCode_no_fault hp hn x) cs r x h (fun _ _ => trivial)

end Sys2Proof.Machine
end

