-- ==== Sys2Proof/Laws/PerInstr.lean ====
section
/-! SUPPORT. The statement made of every constructor of Instr, one lemma each (LAWS.json). -/

namespace Sys2Proof.Laws.OpWord

/-- The command's word is legal, its OP is the command's and its RSVD bits are 0 (30_encoding.md R90, R91). -/
def Statement (i : Instr) : Prop :=
  wordWf (encode i) = true ∧ opField (encode i) = opOf i ∧ rsvdField (encode i) = 0

theorem clr : Statement .clr := by unfold Statement; decide
theorem scan : Statement .scan := by unfold Statement; decide
theorem lzwEnc : Statement .lzwEnc := by unfold Statement; decide
theorem lzwDec : Statement .lzwDec := by unfold Statement; decide
theorem frmEnc : Statement .frmEnc := by unfold Statement; decide
theorem frmDec : Statement .frmDec := by unfold Statement; decide
theorem strEnc : Statement .strEnc := by unfold Statement; decide
theorem strDec : Statement .strDec := by unfold Statement; decide

end Sys2Proof.Laws.OpWord
end

