-- ==== Sys2Proof/Tests/Slice0.lean ====
section
/-! SUPPORT. Tests of one step each, their expected results taken from spec/95_test_vectors.md and the worked examples of
the rules, and a witness for the hypotheses of every statement that has any. -/

set_option Elab.async false

namespace Sys2Proof.Tests

open Sys2Proof.Machine

/-! ### Well-formedness: one ill-formed term for each check -/

theorem test_wordWf_refuses_reserved_bits : wordWf 0x00000010 = false := by decide
theorem test_wordWf_refuses_reserved_op : wordWf 0x00000008 = false := by decide
theorem test_wordWf_takes_seven : wordWf 0x00000007 = true := by decide
theorem test_alignWf_refuses_halfword_offset : alignWf 0x002 = false := by decide
theorem test_spaceWf_refuses_end_of_space : spaceWf 0x200 = false := by decide
theorem test_spaceWf_takes_last_word : spaceWf 0x1FC = true := by decide

/-! ### Decoding: words written out bit by bit (30_encoding.md R90, R91) -/

theorem test_decode_clr : decode 0b00000000000000000000000000000000#32 = .ok .clr := by decide
theorem test_decode_scan : decode 0b00000000000000000000000000000001#32 = .ok .scan := by decide
theorem test_decode_lzwEnc : decode 0b00000000000000000000000000000010#32 = .ok .lzwEnc := by decide
theorem test_decode_lzwDec : decode 0b00000000000000000000000000000011#32 = .ok .lzwDec := by decide
theorem test_decode_frmEnc : decode 0b00000000000000000000000000000100#32 = .ok .frmEnc := by decide
theorem test_decode_frmDec : decode 0b00000000000000000000000000000101#32 = .ok .frmDec := by decide
theorem test_decode_strEnc : decode 0b00000000000000000000000000000110#32 = .ok .strEnc := by decide
theorem test_decode_strDec : decode 0b00000000000000000000000000000111#32 = .ok .strDec := by decide
theorem test_decode_op_8 : decode 0b00000000000000000000000000001000#32 = .error .reservedOp := by decide
theorem test_decode_rsvd_bit_4 : decode 0b00000000000000000000000000010000#32 = .error .reservedBits := by decide
theorem test_decode_rsvd_bit_31 : decode 0b10000000000000000000000000000001#32 = .error .reservedBits := by decide
theorem test_decodeBytes_low_byte_first : decodeBytes [0x05, 0, 0, 0] = .ok .frmDec := by decide
theorem test_decodeBytes_short : decodeBytes [0x05, 0, 0] = .error .notOneWord := by decide
theorem test_decodeTableWord : decodeTableWord 32 6 = some .strEnc := by decide

/-! ### Helpers -/

/-- Bytes from numbers. -/
def bytes (l : List Nat) : List Byte := l.map (BitVec.ofNat 8)

/-- A state that meets `ready data`: the reset state with an input attached. -/
def given (data : List Byte) (plan : List Nat := []) (room : Option Nat := none) (calls : List Nat := []) : State :=
  { State.reset with
    env.nextSrc := { stream := data, plan := plan, tail := .ends }
    env.nextSink := { held := [], room := room, calls := calls, tail := .ends } }

theorem given_ready (data : List Byte) (plan : List Nat) (room : Option Nat) (calls : List Nat := []) :
    (given data plan room calls).ready data :=
  ⟨(fun h => by cases h), rfl, rfl, rfl, rfl⟩

/-- The reset state with an alphabet operand and CFG set. -/
def setUp (chunk : Nat) (pol : Policy) (alpha : List Byte) (s : State) : State :=
  { s with regs := { setAlphabet alpha s.regs with chunkSize := BitVec.ofNat 16 chunk, ovfPolicy := pol } }

theorem setUp_ready {s : State} {data : List Byte} (chunk : Nat) (pol : Policy) (alpha : List Byte)
    (h : s.ready data) : (setUp chunk pol alpha s).ready data :=
  ⟨h.notBusy, h.stream, h.srcEnds, h.sinkEnds, h.unpaced⟩

/-- What a test looks at after one step: STATUS, IN_COUNT, OUT_COUNT, CHUNKS and the sink. -/
structure Seen where
  status : Word
  ins : Nat
  outs : Nat
  chunks : Nat
  sink : List Byte
  deriving DecidableEq, Repr

def seen (o : Host.Outcome State Fault Refusal) : Option Seen :=
  match o with
  | .next t => some ⟨statusWord t.regs, t.regs.inCount.toNat, t.regs.outCount.toNat, t.regs.chunks.toNat, t.env.sink.held⟩
  | _ => none

/-- DICT_NEXT after a step. -/
def nextSeen (o : Host.Outcome State Fault Refusal) : Option Nat :=
  match o with
  | .next t => some t.regs.dictNext.toNat
  | _ => none

/-- ALPHA_N and the first `n` bytes of ALPHA after a step. -/
def alphabetSeen (n : Nat) (o : Host.Outcome State Fault Refusal) : Option (Byte × List Byte) :=
  match o with
  | .next t => some (t.regs.alphaN, t.regs.alpha.toList.take n)
  | _ => none

/-- "BOBO", "TOBEORNOT" -/
def bobo : List Byte := bytes [0x42, 0x4F, 0x42, 0x4F]
def tobeornot : List Byte := bytes [0x54, 0x4F, 0x42, 0x45, 0x4F, 0x52, 0x4E, 0x4F, 0x54]

/-- V-LZW-20's unit F: 255 distinct bytes, then 00 01. -/
def unitF : List Byte := bytes (List.range 255) ++ [0, 1]

/-- All 256 byte values. -/
def allBytes : List Byte := bytes (List.range 256)

/-- The container of V-STR-2. -/
def container : List Byte :=
  bytes [0, 4, 0, 5, 4, 0x54, 0x4F, 0x42, 0x45] ++ bytes [0, 4, 0, 8, 3, 0x4F, 0x52, 0x4E, 1, 2, 3, 1] ++
    bytes [0, 1, 0, 2, 1, 0x54]

/-! ### One step of each command (spec/95_test_vectors.md) -/

/-- V-CTL-3: CLR after an error. -/
theorem test_clr :
    seen (exec .clr { State.reset with regs := { Regs.reset with stat := .error, err := .shortWrite, inCount := 3 } }) =
      some ⟨0x00000000, 0, 0, 0, []⟩ := by decide +kernel

/-- V-SCAN-3, with the source answering one byte at a time. -/
theorem test_scan :
    seen (exec .scan (given bobo [1, 1, 1, 1])) = some ⟨0x00000102, 4, 0, 0, []⟩ ∧
    alphabetSeen 2 (exec .scan (given bobo [1, 1, 1, 1])) = some (2, bytes [0x42, 0x4F]) := by decide +kernel

/-- The STATUS words of V-SCAN-6, V-LZW-20 and V-SCAN-8: ERR 1, 2 and 8. -/
theorem test_status_words :
    statusWord { Regs.reset with stat := .error, err := .alphabetOverflow, lastOp := 1 } = 0x00000113 ∧
    statusWord { Regs.reset with stat := .error, err := .dictionaryOverflow, lastOp := 2 } = 0x00000223 ∧
    statusWord { Regs.reset with stat := .error, err := .unitTooLong, lastOp := 1 } = 0x00000183 := by decide

/-- V-LZW-3. -/
theorem test_lzwEnc :
    seen (exec .lzwEnc (given bobo)) = some ⟨0x00000202, 4, 3, 0, [1, 2, 3]⟩ ∧
    nextSeen (exec .lzwEnc (given bobo)) = some 5 := by decide +kernel
/-- V-LZW-8b: the byte 0 is an ordinary symbol. -/
theorem test_lzwEnc_zero_byte :
    seen (exec .lzwEnc (given [0, 0, 1])) = some ⟨0x00000202, 3, 3, 0, [1, 1, 2]⟩ ∧
    nextSeen (exec .lzwEnc (given [0, 0, 1])) = some 5 := by decide +kernel

/-- V-LZW-10: the self-referential case twice. -/
theorem test_lzwDec_self_referential :
    seen (exec .lzwDec (setUp 32767 .freeze [0x41] (given [1, 2, 3]))) =
      some ⟨0x00000302, 3, 6, 0, bytes [0x41, 0x41, 0x41, 0x41, 0x41, 0x41]⟩ ∧
    nextSeen (exec .lzwDec (setUp 32767 .freeze [0x41] (given [1, 2, 3]))) = some 4 := by decide +kernel
/-- V-LZW-14: code 0 as a later code. -/
theorem test_lzwDec_code_zero :
    seen (exec .lzwDec (setUp 32767 .freeze [0x41, 0x42] (given [1, 0]))) = some ⟨0x00000333, 2, 1, 0, [0x41]⟩ ∧
    nextSeen (exec .lzwDec (setUp 32767 .freeze [0x41, 0x42] (given [1, 0]))) = some 3 := by decide +kernel

/-- V-FRM-3. -/
theorem test_frmEnc :
    seen (exec .frmEnc (given bobo)) = some ⟨0x00000402, 4, 6, 0, bytes [2, 0x42, 0x4F, 1, 2, 3]⟩ ∧
    alphabetSeen 2 (exec .frmEnc (given bobo)) = some (2, bytes [0x42, 0x4F]) := by decide +kernel
/-- V-FRM-19 with `SINK 3`. -/
theorem test_frmEnc_short_write :
    seen (exec .frmEnc (given bobo [] (some 3))) = some ⟨0x00000453, 4, 3, 0, bytes [2, 0x42, 0x4F]⟩ := by decide +kernel

/-- V-CTL-8: FRM_ENC with a source that has not answered yet reads BUSY. -/
theorem test_busy_status :
    seen (exec .frmEnc { State.reset with env.nextSrc := { stream := [], plan := [], tail := .silent } }) =
      some ⟨0x00000401, 0, 0, 0, []⟩ := by decide +kernel
/-- 70_reset_and_hazards.md R312, V-CTL-11: a reset with a part of the header in the sink leaves that prefix there. -/
theorem test_reset_leaves_a_prefix :
    seen (match exec .frmEnc { given bobo [] none [2] with env.quota := some 5 } with
      | .next t => .next (hostReset t)
      | o => o) = some ⟨0x00000000, 0, 0, 0, bytes [2, 0x42]⟩ := by decide +kernel

/-- 44_control.md R265: the short answer and the completion are two steps, with BUSY between them. -/
theorem test_short_answer_then_completion :
    [5, 6].map (fun n => seen (exec .frmEnc { given bobo [] (some 2) with env.quota := some n })) =
      [some ⟨0x00000401, 4, 2, 0, bytes [2, 0x42]⟩, some ⟨0x00000453, 4, 2, 0, bytes [2, 0x42]⟩] := by decide +kernel

/-- V-FRM-10. -/
theorem test_frmDec_malformed :
    seen (exec .frmDec (given (bytes [1, 0x41, 1, 3]))) = some ⟨0x00000533, 4, 1, 0, [0x41]⟩ ∧
    nextSeen (exec .frmDec (given (bytes [1, 0x41, 1, 3]))) = some 2 := by decide +kernel
/-- V-FRM-7b. -/
theorem test_frmDec :
    seen (exec .frmDec (given (bytes [2, 0x41, 0x42, 1, 2, 3, 5]))) =
      some ⟨0x00000502, 7, 7, 0, bytes [0x41, 0x42, 0x41, 0x42, 0x41, 0x42, 0x41]⟩ := by decide +kernel

/-- V-STR-2. -/
theorem test_strEnc :
    seen (exec .strEnc (setUp 4 .freeze [] (given tobeornot [3]))) = some ⟨0x00000602, 9, 27, 3, container⟩ := by
  decide +kernel
/-- V-STR-8: BAD_CONFIG. -/
theorem test_strEnc_bad_config :
    seen (exec .strEnc (setUp 65280 .freeze [] (given tobeornot))) = some ⟨0x00000673, 0, 0, 0, []⟩ := by decide +kernel

/-- 43_chunk_streamer.md R224: the first engine step checks CHUNK_SIZE and reads nothing; the second reads. -/
theorem test_strEnc_check_step :
    [1, 2].map (fun n => (seen (exec .strEnc { given tobeornot with env.quota := some n })).map Seen.ins) =
      [some 0, some 9] := by decide +kernel

/-- V-STR-23: SHORT_WRITE in the second envelope. -/
theorem test_strDec_short_write :
    seen (exec .strDec (given container [2, 5] (some 5))) =
      some ⟨0x00000753, 21, 5, 1, bytes [0x54, 0x4F, 0x42, 0x45, 0x4F]⟩ := by decide +kernel
/-- V-STR-17: a partial header after one envelope. -/
theorem test_strDec_truncated :
    seen (exec .strDec (given (bytes [0, 1, 0, 2, 1, 0x41, 0, 1, 0]))) = some ⟨0x00000743, 9, 1, 1, [0x41]⟩ := by
  decide +kernel

/-- V-CTL-2b: an illegal word. -/
theorem test_illegal_word :
    seen (step (State.reset.withFetchWord 32 0xFFFFFFFF)) = some ⟨0x00000F63, 0, 0, 0, []⟩ := by decide +kernel

/-- The step runs what `withFetchWord` places: all eight words complete. -/
theorem test_fetched_words_run :
    (List.range 8).map (fun w => (seen (step (State.reset.withFetchWord 32 w))).map Seen.status) =
      [some 0x000, some 0x102, some 0x202, some 0x302, some 0x402, some 0x502, some 0x602, some 0x702] := by
  decide +kernel

/-! ### Witnesses: the hypotheses of each statement are met together -/

/-- A run that goes on. -/
def LzwResult.isOk : LzwResult → Bool
  | .ok _ _ => true
  | _ => false

def LzwResult.isRaised : LzwResult → Bool
  | .raised _ _ _ => true
  | _ => false

/-- The codes or bytes of a run. -/
def LzwResult.bytesOf : LzwResult → List Byte
  | .ok _ out => out
  | .raised _ _ out => out
  | .fault _ => []

theorem exists_ok {x : LzwResult} (h : LzwResult.isOk x = true) : ∃ r, x = .ok r (LzwResult.bytesOf x) := by
  cases x <;> simp [LzwResult.isOk] at h
  exact ⟨_, rfl⟩

theorem exists_raised {x : LzwResult} (h : LzwResult.isRaised x = true) :
    ∃ e r, x = .raised e r (LzwResult.bytesOf x) := by
  cases x <;> simp [LzwResult.isRaised] at h
  exact ⟨_, _, rfl⟩

/-- A step that goes on. -/
theorem exists_next {o : Host.Outcome State Fault Refusal} (h : (seen o).isSome = true) : ∃ t, o = .next t := by
  cases o <;> simp [seen] at h
  exact ⟨_, rfl⟩

theorem fits_ibuf {l : List Byte} (h : l.length ≤ 65279) : l.length ≤ Config.ibufSize :=
  h.trans (Nat.le_add_left _ _)

theorem witness_OpcodeTableDecodes : 8 ≤ (8#32).toNat ∧ (8#32).toNat ≤ 15 ∧ 8 ≤ (15#32).toNat ∧ (15#32).toNat ≤ 15 := by
  decide

theorem witness_ExactlyEightWordsAreLegal :
    (7#32).toNat ≤ 7 ∧ 7 < (8#32).toNat ∧ State.reset.regs.stat ≠ .busy := by decide

theorem witness_IllegalWordEndsInError :
    State.reset.regs.stat ≠ .busy ∧ (0x10#32).extractLsb' 4 28 ≠ 0 ∧ 8 ≤ ((8#32).extractLsb' 0 4).toNat := by decide

theorem witness_WritesWithoutEffect :
    (accept 1 .load State.reset).regs.stat = .busy ∧ (0x010 ≤ 0x010 ∧ 0x010 < 0x100) ∧ (0x010 ≤ 0x0FC ∧ 0x0FC < 0x100) := by
  decide +kernel

theorem witness_CfgAndAlphaNReadBackAsWritten : State.reset.regs.stat ≠ .busy := by decide

theorem witness_AlphaWindowReadsBackAsWritten :
    State.reset.regs.stat ≠ .busy ∧ 63 < 64 ∧ (3 : Nat) < 4 ∧ 4 * 63 + 3 < 256 ∧ 62 ≠ 63 := by decide

theorem witness_RegisterReads :
    State.reset.regs.stat ≠ .busy ∧ (accept (opOf .lzwDec) .load State.reset).regs.stat = .busy ∧
      (accept (opOf .lzwDec) .load State.reset).eng.opCur = opOf .lzwDec ∧
      0x024 ≤ 0x0FC ∧ 0x0FC < 0x100 ∧ 63 < 64 := by decide +kernel

/-- The reset state with a one-line host program. -/
def hosted (op : HostOp) : State := { State.reset with env.host := [op] }

theorem witness_BadAccessesAreRefused :
    (hosted (.narrow (.offset 4) 1)).env.host = .narrow (.offset 4) 1 :: [] ∧
    (510 < 512 ∧ 510 % 4 ≠ 0 ∧ (hosted (.write (.offset 510) 0)).env.host = .write (.offset 510) 0 :: [] ∧
      (hosted (.read (.offset 510))).env.host = .read (.offset 510) :: []) ∧
    (512 ≤ 512 ∧ (hosted (.write (.offset 512) 0)).env.host = .write (.offset 512) 0 :: [] ∧
      (hosted (.read (.offset 512))).env.host = .read (.offset 512) :: []) := by decide

theorem witness_AddressIsBasePlusOffset : 0 < 1 := by decide

theorem witness_StepRunsTheDecodedCommand :
    (hosted (.write (.offset 0) 4)).env.host = .write (.offset 0) 4 :: [] ∧ resolve (Config.regBase State.reset.inst) (.offset 0) = .ok 0x000 ∧
      decode 4 = .ok .frmEnc := by decide

theorem witness_EngineRestsUnlessBusy : State.reset.regs.stat ≠ .busy ∧ State.reset.env.host = [] := by decide

theorem witness_ResetEventFromAnyState : (hosted .reset).env.host = .reset :: [] := by decide

theorem witness_ClearReturnsToIdle :
    State.reset.regs.stat ≠ .busy ∧ (accept 1 .load State.reset).regs.stat = .busy := by decide +kernel

theorem witness_ScanPublishesTheAlphabet :
    (given bobo).ready bobo ∧ bobo.length ≤ Config.ibufSize ∧ scan bobo = some (bytes [0x42, 0x4F]) :=
  ⟨given_ready _ _ _, fits_ibuf (by decide), by decide +kernel⟩

theorem witness_ScanProperties : scan bobo = some (bytes [0x42, 0x4F]) ∧ bobo ≠ [] ∧ 0x4F#8 ∈ bobo ∧ 0x42#8 ∈ bobo := by
  decide +kernel

theorem witness_AlphabetOverflowEndsTheUnit :
    (given allBytes).ready allBytes ∧ allBytes.length ≤ Config.ibufSize ∧ scan allBytes = none :=
  ⟨given_ready _ _ _, fits_ibuf (by decide +kernel), by decide +kernel⟩

theorem witness_UnitTooLongEndsTheUnit :
    (given (List.replicate (Config.ibufSize + 1) 0x41)).ready (List.replicate (Config.ibufSize + 1) 0x41) ∧
      Config.ibufSize < (List.replicate (Config.ibufSize + 1) 0x41#8).length :=
  ⟨given_ready _ _ _, by simp⟩

theorem witness_LzwEncResult :
    (given bobo [] (some 3)).ready bobo ∧ bobo.length ≤ Config.ibufSize ∧ scan bobo = some (bytes [0x42, 0x4F]) ∧
      (∃ r, encodeUnit .freeze (bytes [0x42, 0x4F]) bobo = .ok r [1, 2, 3]) ∧
      takesAll (given bobo [] (some 3)).env.nextSink.room [1, 2, 3] := by
  refine ⟨given_ready _ _ _, fits_ibuf (by decide), by decide +kernel, ?_, by simp [given, takesAll]⟩
  have h : LzwResult.bytesOf (encodeUnit .freeze (bytes [0x42, 0x4F]) bobo) = [1, 2, 3] := by decide +kernel
  rw [← h]
  exact exists_ok (by decide +kernel)

theorem witness_FrmEncResult :
    (given bobo [] (some 6)).ready bobo ∧ bobo.length ≤ Config.ibufSize ∧ scan bobo = some (bytes [0x42, 0x4F]) ∧
      (∃ r, encodeUnit .freeze (bytes [0x42, 0x4F]) bobo = .ok r [1, 2, 3]) ∧
      takesAll (given bobo [] (some 6)).env.nextSink.room (frameHeader (bytes [0x42, 0x4F]) ++ [1, 2, 3]) := by
  obtain ⟨-, h2, h3, h4, -⟩ := witness_LzwEncResult
  exact ⟨given_ready _ _ _, h2, h3, h4, by simp [given, takesAll, frameHeader, bytes]⟩

theorem witness_DictionaryOverflowEndsTheUnit :
    (setUp 32767 .error [] (given unitF)).ready unitF ∧ unitF.length ≤ Config.ibufSize ∧
      scan unitF = some (bytes (List.range 255)) ∧
      (∃ e r codes, encodeUnit .error (bytes (List.range 255)) unitF = .raised e r codes) ∧
      (∀ codes, takesAll (setUp 32767 .error [] (given unitF)).env.nextSink.room codes) :=
  ⟨setUp_ready _ _ _ (given_ready _ _ _), fits_ibuf (by decide +kernel), by decide +kernel,
    (let ⟨e, r, h⟩ := exists_raised (x := encodeUnit .error (bytes (List.range 255)) unitF) (by decide +kernel)
     ⟨e, r, _, h⟩), fun _ => trivial⟩

theorem witness_EncodersShortWrite :
    (given bobo [] (some 2)).ready bobo ∧ bobo.length ≤ Config.ibufSize ∧ scan bobo = some (bytes [0x42, 0x4F]) ∧
      (∃ r, encodeUnit .freeze (bytes [0x42, 0x4F]) bobo = .ok r [1, 2, 3]) ∧
      (given bobo [] (some 2)).env.nextSink.room = some 2 ∧ 2 < [1#8, 2, 3].length ∧
      2 < (frameHeader (bytes [0x42, 0x4F]) ++ [1#8, 2, 3]).length := by
  obtain ⟨-, h2, h3, h4, -⟩ := witness_LzwEncResult
  exact ⟨given_ready _ _ _, h2, h3, h4, rfl, by decide, by decide⟩

theorem witness_EncoderRaisesOnlyUnderErrorPolicy : scan bobo = some (bytes [0x42, 0x4F]) := by decide +kernel

theorem witness_CodeCountAndRange :
    scan bobo = some (bytes [0x42, 0x4F]) ∧ (∃ r, encodeUnit .freeze (bytes [0x42, 0x4F]) bobo = .ok r [1, 2, 3]) ∧
      (bytes [0x42, 0x4F]).length ≠ bobo.length ∧ (bytes [0x42, 0x4F]).length ≤ 255 ∧
      ∃ r out, lzwDecode (bytes [0x42, 0x4F]) [1, 2, 3] = .ok r out := by
  obtain ⟨-, -, h3, h4, -⟩ := witness_LzwEncResult
  obtain ⟨r, h⟩ := exists_ok (x := lzwDecode (bytes [0x42, 0x4F]) [1, 2, 3]) (by decide +kernel)
  exact ⟨h3, h4, by decide, by decide, r, _, h⟩

theorem witness_FrameLengthBound :
    scan bobo = some (bytes [0x42, 0x4F]) ∧ frameEncode .freeze bobo = .bytes (bytes [2, 0x42, 0x4F, 1, 2, 3]) := by
  decide +kernel

/-- An LZW_DEC's hypotheses: alphabet "BO", codes 01 02 03. -/
theorem witness_LzwDecResult :
    let s := setUp 32767 .freeze (bytes [0x42, 0x4F]) (given [1, 2, 3])
    s.ready [1, 2, 3] ∧ [1#8, 2, 3].length ≤ Config.ibufSize ∧
      (∃ r out, lzwDecode (s.regs.alpha.toList.take s.regs.alphaN.toNat) [1, 2, 3] = .ok r out ∧
        takesAll s.env.nextSink.room out) := by
  intro s
  obtain ⟨r, h⟩ := exists_ok (x := lzwDecode (s.regs.alpha.toList.take s.regs.alphaN.toNat) [1, 2, 3]) (by decide +kernel)
  exact ⟨setUp_ready _ _ _ (given_ready _ _ _), fits_ibuf (by decide), r, _, h, trivial⟩

theorem witness_LzwDecMalformed :
    let s := setUp 32767 .freeze (bytes [0x42, 0x4F]) (given [1, 0])
    s.ready [1, 0] ∧ [1#8, 0].length ≤ Config.ibufSize ∧
      (∃ e r out, lzwDecode (s.regs.alpha.toList.take s.regs.alphaN.toNat) [1, 0] = .raised e r out ∧
        takesAll s.env.nextSink.room out) := by
  intro s
  obtain ⟨e, r, h⟩ := exists_raised (x := lzwDecode (s.regs.alpha.toList.take s.regs.alphaN.toNat) [1, 0]) (by decide +kernel)
  exact ⟨setUp_ready _ _ _ (given_ready _ _ _), fits_ibuf (by decide), e, r, _, h, trivial⟩

theorem witness_FrmDecResult :
    let fr := (2 : Byte) :: (bytes [0x42, 0x4F] ++ [1, 2, 3])
    (given fr).ready fr ∧ fr.length ≤ Config.ibufSize ∧ (2 : Byte) ≠ 0 ∧ (bytes [0x42, 0x4F]).length = (2 : Byte).toNat ∧
      (∃ r out, lzwDecode (bytes [0x42, 0x4F]) [1, 2, 3] = .ok r out ∧ takesAll (given fr).env.nextSink.room out) := by
  obtain ⟨r, h⟩ := exists_ok (x := lzwDecode (bytes [0x42, 0x4F]) [1, 2, 3]) (by decide +kernel)
  exact ⟨given_ready _ _ _, fits_ibuf (by decide), by decide, by decide, r, _, h, trivial⟩

theorem witness_FrmDecMalformedCode :
    let fr := (1 : Byte) :: (bytes [0x41] ++ [1, 3])
    (given fr).ready fr ∧ fr.length ≤ Config.ibufSize ∧ (1 : Byte) ≠ 0 ∧ (bytes [0x41]).length = (1 : Byte).toNat ∧
      (∃ e r out, lzwDecode (bytes [0x41]) [1, 3] = .raised e r out ∧ takesAll (given fr).env.nextSink.room out) := by
  obtain ⟨e, r, h⟩ := exists_raised (x := lzwDecode (bytes [0x41]) [1, 3]) (by decide +kernel)
  exact ⟨given_ready _ _ _, fits_ibuf (by decide), by decide, by decide, e, r, _, h, trivial⟩

theorem witness_FrmDecEmptyFrame :
    ((given []).ready [] ∧ ([] : List Byte).length ≤ Config.ibufSize) ∧
      ((given (bytes [0, 0x41, 1])).ready (bytes [0, 0x41, 1]) ∧ (bytes [0, 0x41, 1]).length ≤ Config.ibufSize ∧
        (bytes [0, 0x41, 1]).head? = some 0) :=
  ⟨⟨given_ready _ _ _, by simp⟩, given_ready _ _ _, fits_ibuf (by decide), by decide⟩

theorem witness_FrmDecShortFrame :
    (2 : Byte) ≠ 0 ∧ [0x42#8].length < (2 : Byte).toNat ∧ (given [2, 0x42]).ready [2, 0x42] ∧
      [2#8, 0x42].length ≤ Config.ibufSize :=
  ⟨by decide, by decide, given_ready _ _ _, fits_ibuf (by decide)⟩

theorem witness_DecodersShortWrite :
    let s := setUp 32767 .freeze (bytes [0x42, 0x4F]) (given [1, 2, 3] [] (some 3))
    let fr := (2 : Byte) :: (bytes [0x42, 0x4F] ++ [1, 2, 3])
    s.env.nextSink.room = some 3 ∧ 3 < bobo.length ∧ s.ready [1, 2, 3] ∧ [1#8, 2, 3].length ≤ Config.ibufSize ∧
      (∃ r, lzwDecode (s.regs.alpha.toList.take s.regs.alphaN.toNat) [1, 2, 3] = .ok r bobo) ∧
      (given fr [] (some 3)).ready fr ∧ fr.length ≤ Config.ibufSize ∧ (2 : Byte) ≠ 0 ∧
      (bytes [0x42, 0x4F]).length = (2 : Byte).toNat ∧ ∃ r, lzwDecode (bytes [0x42, 0x4F]) [1, 2, 3] = .ok r bobo := by
  intro s fr
  obtain ⟨r, h⟩ := exists_ok (x := lzwDecode (s.regs.alpha.toList.take s.regs.alphaN.toNat) [1, 2, 3]) (by decide +kernel)
  obtain ⟨r', h'⟩ := exists_ok (x := lzwDecode (bytes [0x42, 0x4F]) [1, 2, 3]) (by decide +kernel)
  have hb : LzwResult.bytesOf (lzwDecode (s.regs.alpha.toList.take s.regs.alphaN.toNat) [1, 2, 3]) = bobo := by
    decide +kernel
  have hb' : LzwResult.bytesOf (lzwDecode (bytes [0x42, 0x4F]) [1, 2, 3]) = bobo := by decide +kernel
  exact ⟨rfl, by decide, setUp_ready _ _ _ (given_ready _ _ _), fits_ibuf (by decide),
    ⟨r, h.trans (congrArg _ hb)⟩, given_ready _ _ _, fits_ibuf (by decide), by decide, by decide, r', h'.trans (congrArg _ hb')⟩

theorem witness_DecoderRaisesOnlyMalformedFrame :
    (bytes [0x41]).length ≤ 255 ∧ (0 : Byte) ∈ [1#8, 0] := by decide

theorem witness_StrEncBadConfig :
    (setUp 0 .freeze [] (given bobo)).ready bobo ∧ (setUp 0 .freeze [] (given bobo)).regs.chunkSize.toNat = 0 ∧
      (setUp 65280 .freeze [] (given bobo)).ready bobo ∧
      65279 < (setUp 65280 .freeze [] (given bobo)).regs.chunkSize.toNat :=
  ⟨setUp_ready _ _ _ (given_ready _ _ _), rfl, setUp_ready _ _ _ (given_ready _ _ _), by decide⟩

theorem witness_StrEncResult :
    let s := setUp 4 .freeze [] (given tobeornot)
    s.ready tobeornot ∧ 1 ≤ s.regs.chunkSize.toNat ∧ s.regs.chunkSize.toNat ≤ 65279 ∧
      (strEncode s.regs.ovfPolicy s.regs.chunkSize.toNat tobeornot).out = container ∧
      takesAll s.env.nextSink.room (strEncode s.regs.ovfPolicy s.regs.chunkSize.toNat tobeornot).out :=
  ⟨setUp_ready _ _ _ (given_ready _ _ _), by decide, by decide, by decide +kernel, trivial⟩

theorem witness_StrEncShortWrite :
    let s := setUp 4 .freeze [] (given tobeornot [] (some 10))
    s.ready tobeornot ∧ 1 ≤ s.regs.chunkSize.toNat ∧ s.regs.chunkSize.toNat ≤ 65279 ∧
      chunksOf s.regs.chunkSize.toNat tobeornot =
        [bytes [0x54, 0x4F, 0x42, 0x45]] ++ bytes [0x4F, 0x52, 0x4E, 0x4F] :: [bytes [0x54]] ∧
      (encodeChunks s.regs.ovfPolicy [bytes [0x54, 0x4F, 0x42, 0x45]]).err = .noError ∧
      frameEncode s.regs.ovfPolicy (bytes [0x4F, 0x52, 0x4E, 0x4F]) = .bytes (bytes [3, 0x4F, 0x52, 0x4E, 1, 2, 3, 1]) ∧
      s.env.nextSink.room = some 10 ∧ (encodeChunks s.regs.ovfPolicy [bytes [0x54, 0x4F, 0x42, 0x45]]).out.length ≤ 10 ∧
      10 < ((encodeChunks s.regs.ovfPolicy [bytes [0x54, 0x4F, 0x42, 0x45]]).out ++
        envelope 4 (bytes [3, 0x4F, 0x52, 0x4E, 1, 2, 3, 1])).length :=
  ⟨setUp_ready _ _ _ (given_ready _ _ _), by decide, by decide, by decide +kernel, by decide +kernel, by decide +kernel,
    rfl, by decide +kernel, by decide +kernel⟩

theorem witness_StrDecResult :
    (given container).ready container ∧ (strDecode container).err = .noError ∧
      takesAll (given container).env.nextSink.room (strDecode container).out :=
  ⟨given_ready _ _ _, by decide +kernel, trivial⟩

theorem witness_StrDecShortWrite :
    let front := bytes [0, 4, 0, 5, 4, 0x54, 0x4F, 0x42, 0x45]
    let body := bytes [3, 0x4F, 0x52, 0x4E, 1, 2, 3, 1]
    let all := front ++ [0, 4] ++ be16 body.length ++ body ++ []
    body.length ≤ 65535 ∧ (given all [] (some 5)).ready all ∧ (strDecode front).err = .noError ∧
      frameDecode body = .bytes (bytes [0x4F, 0x52, 0x4E, 0x4F]) ∧ (given all [] (some 5)).env.nextSink.room = some 5 ∧
      (strDecode front).out.length ≤ 5 ∧ 5 < ((strDecode front).out ++ bytes [0x4F, 0x52, 0x4E, 0x4F]).length :=
  ⟨by decide, given_ready _ _ _, by decide +kernel, by decide +kernel, rfl, by decide +kernel, by decide +kernel⟩

theorem witness_ChunksCutTheInput :
    1 ≤ 4 ∧ 2 < (chunksOf 4 tobeornot).length ∧ bytes [0x54] ∈ chunksOf 4 tobeornot ∧
      bytes [0x4F, 0x52, 0x4E, 0x4F] ∈ (chunksOf 4 tobeornot).dropLast := by decide +kernel

theorem witness_EnvelopeLayout : 65535 ≤ 65535 ∧ (bytes [1, 0x41]).length ≤ 65535 := by decide

theorem witness_LzwRoundTrip :
    scan bobo = some (bytes [0x42, 0x4F]) ∧ ∃ r, encodeUnit .freeze (bytes [0x42, 0x4F]) bobo = .ok r [1, 2, 3] := by
  obtain ⟨-, -, h3, h4, -⟩ := witness_LzwEncResult
  exact ⟨h3, h4⟩

theorem witness_FrameRoundTrip :
    frameEncode .freeze bobo = .bytes (bytes [2, 0x42, 0x4F, 1, 2, 3]) ∧ scan bobo ≠ none ∧
      bytes [0x54, 0x4F] ≠ [] ∧ (bytes [0x54, 0x4F]).Nodup ∧ (bytes [0x54, 0x4F]).length ≤ 255 := by decide +kernel

theorem witness_ContainerRoundTrip :
    1 ≤ 4 ∧ 4 ≤ 65279 ∧ (strEncode .freeze 4 tobeornot).err = .noError ∧ ∀ c ∈ chunksOf 4 tobeornot, scan c ≠ none := by
  decide +kernel

theorem witness_ChunksEncodeIndependently :
    1 ≤ 4 ∧ bobo.length = 1 * 4 ∧ (strEncode .freeze 4 bobo).err = .noError := by decide +kernel

/-- A host line that goes on from the reset state, for the statements about a step. -/
theorem witness_step_goes_on :
    ∃ t, step (hosted (.write (.offset 0x008) 4)) = .next t ∧ (hosted (.write (.offset 0x008) 4)).regs.stat ≠ .busy :=
  ⟨_, rfl, by decide⟩

theorem witness_EveryCommandReachesItsEnd :
    (given tobeornot [3, 0, 99] (some 5)).ready tobeornot ∧
      (let s : State := { given [7] with env.nextSrc.tail := .endless 3 0 }
       s.regs.stat ≠ .busy ∧ s.env.nextSrc.tail = .endless 3 0 ∧ s.env.nextSink.tail = .ends) :=
  ⟨given_ready _ _ _, (fun h => by cases h), rfl, rfl⟩

/-- FRM_ENC "BOBO" two engine steps in. -/
theorem witness_CommandFrame : ∃ t, exec .frmEnc { given bobo with env.quota := some 2 } = .next t ∧
    (given bobo).regs.stat ≠ .busy :=
  (exists_next (by decide +kernel)).imp fun _ h => ⟨h, by decide⟩

/-- The first engine step of an accepted SCAN. -/
theorem witness_BusyEndsInDoneOrError :
    let s := accept (opOf .scan) .load (given bobo)
    s.regs.stat = .busy ∧ ∃ t, engineStep s = .went t := ⟨rfl, _, rfl⟩

theorem witness_ResultsPersist :
    State.reset.regs.stat ≠ .busy ∧ step State.reset = .next State.reset ∧
      (∀ g v rest, State.reset.env.host = .write g v :: rest → resolve (Config.regBase State.reset.inst) g ≠ .ok 0x000) ∧
      (∀ rest, State.reset.env.host ≠ .reset :: rest) :=
  ⟨by decide, rfl, (fun _ _ _ h => by cases h), (fun _ h => by cases h)⟩

/-- A busy engine with three bytes pending and a sink that takes them. -/
def pending (calls : List Nat := []) : State :=
  (accept (opOf .frmEnc) .load (given bobo [] none calls)).emit [1, 2, 3]

/-- Offered whole, in a call of two bytes, and to a sink with room for two. -/
theorem witness_OutputIsOfferedFirst :
    (pending.regs.stat = .busy ∧ pending.eng.outq ≠ [] ∧ ∃ t, engineStep pending = .went t) ∧
      ((pending [2]).offered = [1, 2] ∧ ∃ t, engineStep (pending [2]) = .went t) ∧
      ∃ t, engineStep { pending with env.sink.room := some 2 } = .went t ∧ t.env.sink.held = [1, 2] :=
  ⟨⟨rfl, (fun h => by cases h), _, rfl⟩, ⟨rfl, _, rfl⟩, _, rfl, rfl⟩

theorem witness_ResultsDependOnOperandsOnly :
    let s := given bobo
    let s' : State := { given bobo [1, 1] with eng := { Engine.reset with ibuf := [7], opCur := 5 } }
    Instr.frmEnc ≠ .clr ∧ s.ready bobo ∧ s'.ready bobo ∧ s'.env.nextSink.room = s.env.nextSink.room ∧
      s'.regs = s.regs ∧ s'.draw = s.draw :=
  ⟨by decide, given_ready _ _ _, ⟨(fun h => by cases h), rfl, rfl, rfl, rfl⟩, rfl, rfl, rfl⟩

/-- FRM_ENC "BOBO" emits 6 bytes: the draws at that length and one below it. -/
theorem witness_SinkDrawDecidesTheEnd :
    Instr.frmEnc ≠ .clr ∧ (given bobo).ready bobo ∧ (given bobo).env.nextSink.room = none ∧
      seen (exec .frmEnc (given bobo [] (some 6))) = some ⟨0x00000402, 4, 6, 0, bytes [2, 0x42, 0x4F, 1, 2, 3]⟩ ∧
      seen (exec .frmEnc (given bobo [] (some 5))) = some ⟨0x00000453, 4, 5, 0, bytes [2, 0x42, 0x4F, 1, 2]⟩ :=
  ⟨by decide, given_ready _ _ _, rfl, by decide +kernel, by decide +kernel⟩

theorem witness_PausingDoesNotMatter :
    Instr.frmEnc ≠ .clr ∧ (given bobo).ready bobo ∧ ∃ p, exec .frmEnc { given bobo with env.quota := some 2 } = .next p :=
  ⟨by decide, given_ready _ _ _, exists_next (by decide +kernel)⟩

/-- A running SCAN whose source stopped, with the given end. -/
def stopped (tail : SourceTail) : State :=
  { accept (opOf .scan) .load (given []) with env.src := { stream := [], plan := [], tail := tail } }

/-- A running FRM_ENC with output pending and a full sink, with the given end. -/
def blocked (tail : SinkTail) : State :=
  { pending with env.sink := { held := [], room := some 2, calls := [], tail := tail } }

theorem witness_StalledAndBreachingStreams_source (tail : SourceTail) :
    (stopped tail).regs.stat = .busy ∧ (stopped tail).reading ∧ (stopped tail).eng.outq = [] ∧
      (stopped tail).env.src.stream = [] ∧ (stopped tail).env.src.tail = tail :=
  ⟨rfl, .inl ⟨rfl, rfl, .scan, by simp, rfl⟩, rfl, rfl, rfl⟩

theorem witness_StalledAndBreachingStreams_sink (tail : SinkTail) :
    (blocked tail).regs.stat = .busy ∧ (blocked tail).streams ∧ (blocked tail).eng.outq ≠ [] ∧
      (blocked tail).env.sink.fits (blocked tail).offered.length = false ∧ (blocked tail).env.sink.tail = tail :=
  ⟨rfl, ⟨.frmEnc, by decide, rfl⟩, (fun h => by cases h), rfl, rfl⟩

theorem witness_InstancesShareNothing :
    0 < Config.nInstances ∧ ∃ q, platformStep 1 [State.reset, hosted (.write (.offset 0x008) 4)] = .next q :=
  ⟨Nat.succ_pos _, _, rfl⟩

end Sys2Proof.Tests
end

section
/-! PROOF. The register port: STATUS's fields (obligation O9), CFG, ALPHA_N and the ALPHA window read back as written (O6,
O7), and the step at a CMD write (O12). -/

namespace Sys2Proof.Machine

variable {s : State} {k : Nat}

/-! ### STATUS (10_state.md R24; 30_encoding.md R101) -/

/-- No bit stands above a value's width. -/
theorem extractLsb'_above {n start len : Nat} (h : n ≤ start) (x : BitVec n) : x.extractLsb' start len = 0 := by
  have hlt : x.toNat < 2 ^ start := x.isLt.trans_le (Nat.pow_le_pow_right (by decide) h)
  apply BitVec.eq_of_toNat_eq
  simp [Nat.shiftRight_eq_zero _ _ hlt]

/-- Settles O9: the two code tables are finite, and each field is cut out of STATUS's concatenation. -/
theorem statusFieldPositions : Obligations.StatusFieldPositions := by
  refine ⟨by decide, by decide, fun g => ⟨?_, ?_, ?_, ?_, ?_⟩⟩
  all_goals rw [statusWord, BitVec.extractLsb'_setWidth_of_le (by decide)]
  · rw [BitVec.extractLsb'_append_eq_of_add_le (by decide), BitVec.extractLsb'_eq_self]
  · rw [BitVec.extractLsb'_append_eq_of_le (by decide), BitVec.extractLsb'_append_eq_of_add_le (by decide)]
    rfl
  · rw [BitVec.extractLsb'_append_eq_of_le (by decide), BitVec.extractLsb'_append_eq_of_le (by decide),
      BitVec.extractLsb'_append_eq_of_add_le (by decide), BitVec.extractLsb'_eq_self]
  · rw [BitVec.extractLsb'_append_eq_of_le (by decide), BitVec.extractLsb'_append_eq_of_le (by decide),
      BitVec.extractLsb'_append_eq_of_le (by decide), BitVec.extractLsb'_eq_self]
  · exact extractLsb'_above (by decide) _

/-! ### The writes that are stored (44_control.md R263) -/

theorem writeAt_cfg (h : s.regs.stat ≠ .busy) (v : Word) :
    writeAt 0x008 v s = .next { s with regs := setCfg v s.regs } := by
  rw [writeAt_other (by decide), hostWrite_idle h, regAt_cfg]

theorem writeAt_alphaN (h : s.regs.stat ≠ .busy) (v : Word) :
    writeAt 0x00C v s = .next { s with regs := setAlphaN v s.regs } := by
  rw [writeAt_other (by decide), hostWrite_idle h, regAt_alphaN]

theorem writeAt_alphaWord (h : s.regs.stat ≠ .busy) (hk : k < 64) (v : Word) :
    writeAt (0x100 + 4 * k) v s = .next { s with regs := setAlphaWord k v s.regs } := by
  rw [writeAt_other (by omega), hostWrite_idle h, regAt_alphaWord hk]

/-! ### CFG and ALPHA_N (10_state.md R25, R26) -/

/-- The lowest `n` bits of a word, the others 0. -/
theorem lowBits_eq_and (v : Word) {n : Nat} (hn : n ≤ 32) :
    (v.extractLsb' 0 n).setWidth 32 = v &&& BitVec.ofNat 32 (2 ^ n - 1) := by
  have hpow : 2 ^ n ≤ 2 ^ 32 := Nat.pow_le_pow_right (by decide) hn
  have hpos : 0 < 2 ^ n := Nat.two_pow_pos n
  apply BitVec.eq_of_toNat_eq
  simp only [BitVec.toNat_setWidth, BitVec.extractLsb'_toNat, BitVec.toNat_and, BitVec.toNat_ofNat, Nat.shiftRight_zero]
  rw [Nat.mod_eq_of_lt (show 2 ^ n - 1 < 2 ^ 32 by omega), Nat.and_two_pow_sub_one_eq_mod]
  exact Nat.mod_eq_of_lt ((Nat.mod_lt _ hpos).trans_le hpow)

theorem policyCode_policyOfBit (b : BitVec 1) : policyCode (policyOfBit b) = b := by
  revert b; decide

theorem policyOfBit_eq_error (b : BitVec 1) : policyOfBit b = .error ↔ b[0] = true := by
  revert b; decide

/-- CFG reads back as written, its reserved bits 0 (10_state.md R25, R33). -/
theorem cfgWord_setCfg (v : Word) (g : Regs) : cfgWord (setCfg v g) = v &&& 0x0001FFFF := by
  simp only [cfgWord, setCfg, policyCode_policyOfBit]
  rw [BitVec.extractLsb'_append_extractLsb'_eq_extractLsb' (by rfl)]
  exact lowBits_eq_and v (by decide)

/-- Settles O6: the two writes are setCfg and setAlphaN, whose fields are the low bits of the word. -/
theorem cfgAndAlphaNReadBackAsWritten : Obligations.CfgAndAlphaNReadBackAsWritten := by
  intro s v h
  refine ⟨⟨_, _, writeAt_cfg h v, cfgWord_setCfg v s.regs, rfl, ?_⟩, _, writeAt_alphaN h v, lowBits_eq_and v (by decide)⟩
  simp [policyOfBit_eq_error]

/-! ### The ALPHA window (10_state.md R32; 20_memory.md R63) -/

/-- A word is its four bus bytes (20_memory.md R63). -/
theorem wordOfBytes_byteOfWord (v : Word) :
    wordOfBytes (byteOfWord v 0) (byteOfWord v 1) (byteOfWord v 2) (byteOfWord v 3) = v := by
  simp only [wordOfBytes, byteOfWord]
  rw [BitVec.extractLsb'_append_extractLsb'_eq_extractLsb' (by rfl),
    BitVec.extractLsb'_append_extractLsb'_eq_extractLsb' (by rfl),
    BitVec.extractLsb'_append_extractLsb'_eq_extractLsb' (by rfl)]
  exact BitVec.extractLsb'_eq_self

theorem writeWord_get (v : Word) (alpha : Vector Byte 256) {i : Nat} (hi : i < 256) :
    (writeWord k v alpha)[i] = if i / 4 = k then byteOfWord v (i % 4) else alpha[i] := by
  simp [writeWord]

/-- A byte of ALPHA after a write to word `k` of the window: the word's if it stands in it, else as before. -/
theorem alphaByte_setAlphaWord (hk : k < 64) (v : Word) (g : Regs) (i : Nat) :
    alphaByte (setAlphaWord k v g) i = if i / 4 = k then byteOfWord v (i % 4) else alphaByte g i := by
  by_cases hi : i < 256
  · simp [alphaByte, setAlphaWord, hi, writeWord_get]
  · simp [alphaByte, setAlphaWord, hi, show i / 4 ≠ k by omega]

theorem alphaWord_setAlphaWord_same (hk : k < 64) (v : Word) (g : Regs) : alphaWord (setAlphaWord k v g) k = v := by
  have hbyte : ∀ j < 4, alphaByte (setAlphaWord k v g) (4 * k + j) = byteOfWord v j := fun j hj => by
    rw [alphaByte_setAlphaWord hk, if_pos (by omega), show (4 * k + j) % 4 = j by omega]
  rw [alphaWord, hbyte 1 (by decide), hbyte 2 (by decide), hbyte 3 (by decide)]
  exact (congrArg (wordOfBytes · _ _ _) (hbyte 0 (by decide))).trans (wordOfBytes_byteOfWord v)

theorem alphaWord_setAlphaWord_other (hk : k < 64) (v : Word) (g : Regs) {j : Nat} (hj : j ≠ k) :
    alphaWord (setAlphaWord k v g) j = alphaWord g j := by
  have hbyte : ∀ m < 4, alphaByte (setAlphaWord k v g) (4 * j + m) = alphaByte g (4 * j + m) := fun m hm => by
    rw [alphaByte_setAlphaWord hk, if_neg (by omega)]
  rw [alphaWord, hbyte 1 (by decide), hbyte 2 (by decide), hbyte 3 (by decide)]
  exact congrArg (wordOfBytes · _ _ _) (hbyte 0 (by decide))

/-- Settles O7: the write is setAlphaWord, which changes the bytes of word `k` alone. -/
theorem alphaWindowReadsBackAsWritten : Obligations.AlphaWindowReadsBackAsWritten := by
  intro s v k h hk
  refine ⟨writeWord k v s.regs.alpha, writeAt_alphaWord h hk v, alphaWord_setAlphaWord_same hk v s.regs, ?_,
    fun j hj => alphaWord_setAlphaWord_other hk v s.regs hj⟩
  intro j hj hlt
  rw [writeWord_get v _ hlt, if_pos (by omega), show (4 * k + j) % 4 = j by omega, byteOfWord]

/-! ### The step at a CMD write (10_state.md R23; 44_control.md R261) -/

/-- Settles O12: the line's target is CMD, and a CMD write of a legal word is `exec` of its command. -/
theorem stepRunsTheDecodedCommand : Obligations.StepRunsTheDecodedCommand := by
  intro s g v i rest hhost hres hdec
  have hwrite : writeAt 0x000 v (popHost rest s) = exec i (popHost rest s) := by
    rw [writeAt_cmd, commandWrite, hdec]
  simp only [step, hhost, hostStep, atOffset, hres]
  exact hwrite

end Sys2Proof.Machine
end

section
/-! SUPPORT. The machine's invariant, part by part: its split for a BUSY state, and the updates of the state that keep it
whatever phase the command is in. -/

namespace Sys2Proof.Machine

/-! ### The parts of the invariant -/

/-- What State.Inv says of the LZW registers in every state (10_state.md R34, R35). -/
structure Lzw.InRange (r : Lzw) : Prop where
  nextLo : 1 ≤ r.next.toNat
  nextHi : r.next.toNat ≤ 256
  slotZero : r.slot 0 = none

/-- What State.Inv says of the engine in every state (20_memory.md R66, R67; 10_state.md R41). -/
structure Engine.Fits (e : Engine) : Prop where
  ibuf : e.ibuf.length ≤ Config.ibufSize
  fbuf : e.fbuf.length ≤ Config.fbufSize
  hdr : e.hdr.length ≤ 4
  lzw : e.lzw.InRange

/-- What State.Inv says of the registers while a command runs. -/
structure Regs.BusyInv (g : Regs) : Prop where
  stat : g.stat = .busy
  err : g.err = .noError
  dictNextLo : 1 ≤ g.dictNext.toNat
  dictNextHi : g.dictNext.toNat ≤ 256

/-- What State.Inv says of a BUSY state. -/
structure State.BusyInv (s : State) : Prop where
  regs : s.regs.BusyInv
  fits : s.eng.Fits
  run : RunInv s.eng

variable {s t : State} {e e' : Engine} {g g' : Regs} {i : Instr}

theorem phasesOf_not_idle (i : Instr) : Phase.idle ∉ phasesOf i := by
  cases i <;> decide

theorem RunInv.not_idle (h : RunInv e) : e.ph ≠ .idle := by
  obtain ⟨i, -, hp⟩ := h.phase
  exact fun hi => phasesOf_not_idle i (hi ▸ hp)

theorem State.Inv.fits (h : s.Inv) : s.eng.Fits :=
  ⟨h.ibufFits, h.fbufFits, h.hdrFits, h.nextLo, h.nextHi, h.slotZero⟩

theorem State.Inv.busyInv (h : s.Inv) (hb : s.regs.stat = .busy) : s.BusyInv where
  regs := ⟨hb, by simpa [hb] using h.regs.errIff, h.regs.dictNextLo, h.regs.dictNextHi⟩
  fits := h.fits
  run := h.running hb

theorem State.BusyInv.inv (h : s.BusyInv) : s.Inv where
  regs := ⟨by simp [h.regs.stat, h.regs.err], h.regs.dictNextLo, h.regs.dictNextHi⟩
  ibufFits := h.fits.ibuf
  fbufFits := h.fits.fbuf
  hdrFits := h.fits.hdr
  nextLo := h.fits.lzw.nextLo
  nextHi := h.fits.lzw.nextHi
  slotZero := h.fits.lzw.slotZero
  busyIff := iff_of_true h.regs.stat h.run.not_idle
  idleFlushed hi := absurd hi h.run.not_idle
  running _ := h.run

/-- A state at rest meets the invariant with its registers' and its engine's parts. -/
theorem inv_of_rest (hg : s.regs.Inv) (hb : s.regs.stat ≠ .busy) (hf : s.eng.Fits) (hr : s.atRest) : s.Inv where
  regs := hg
  ibufFits := hf.ibuf
  fbufFits := hf.fbuf
  hdrFits := hf.hdr
  nextLo := hf.lzw.nextLo
  nextHi := hf.lzw.nextHi
  slotZero := hf.lzw.slotZero
  busyIff := iff_of_false hb (not_not_intro hr.1)
  idleFlushed _ := hr.2
  running h := absurd h hb

theorem State.Inv.atRest (h : s.Inv) (hb : s.regs.stat ≠ .busy) : s.atRest :=
  have hi : s.eng.ph = .idle := not_not.mp (mt h.busyIff.mpr hb)
  ⟨hi, h.idleFlushed hi⟩

/-- The invariant speaks of the registers and the engine alone. -/
theorem State.Inv.of_eq (h : s.Inv) (hr : t.regs = s.regs) (he : t.eng = s.eng) : t.Inv :=
  ⟨hr ▸ h.regs, he ▸ h.ibufFits, he ▸ h.fbufFits, he ▸ h.hdrFits, he ▸ h.nextLo, he ▸ h.nextHi, he ▸ h.slotZero,
    hr ▸ he ▸ h.busyIff, he ▸ h.idleFlushed, hr ▸ he ▸ h.running⟩

/-- A register update while not BUSY. -/
theorem State.Inv.setRegs (h : s.Inv) (hb : s.regs.stat ≠ .busy) (hg : g.Inv) (hs : g.stat ≠ .busy) :
    ({ s with regs := g } : State).Inv :=
  inv_of_rest hg hs h.fits (h.atRest hb)

theorem DictInv.inRange {alpha : List Byte} {r : Lzw} (h : DictInv alpha r) : r.InRange :=
  ⟨by have := h.nextLo; omega, h.nextHi, (slot_ofNat r (k := 0) (by decide)).trans h.slotZero⟩

theorem EncInv.inRange (h : EncInv e) : e.lzw.InRange := by
  obtain ⟨_, _, _, hd⟩ := h.alphabet
  exact hd.inRange

theorem DecInv.inRange (h : DecInv e) : e.lzw.InRange := by
  obtain ⟨_, _, hd⟩ := h.alphabet
  exact hd.inRange

/-! ### Which command runs -/

theorem instrOfOp_eq_some {op : BitVec 4} (h : instrOfOp op = some i) : op = opOf i := by
  unfold instrOfOp at h
  split_ifs at h <;> cases h <;> assumption

@[simp] theorem instrOfOp_opOf (i : Instr) : instrOfOp (opOf i) = some i := by
  cases i <;> rfl

theorem opOf_inj {i j : Instr} : opOf i = opOf j ↔ i = j :=
  ⟨fun h => Option.some.inj (by rw [← instrOfOp_opOf i, h, instrOfOp_opOf]), congrArg opOf⟩

/-- The phase of the running command is one of its own. -/
theorem RunInv.mem_phasesOf (h : RunInv e) (ho : e.opCur = opOf i) : e.ph ∈ phasesOf i := by
  obtain ⟨j, hj, hp⟩ := h.phase
  rw [ho, instrOfOp_opOf] at hj
  cases hj
  exact hp

/-- The commands with no invariant of their own beside ENC's and DEC's: all but the two streamers. -/
theorem runInv_of_unit (ho : e.opCur = opOf i) (hi : i ≠ .strEnc ∧ i ≠ .strDec) (hp : e.ph ∈ phasesOf i)
    (henc : e.ph = .enc → EncInv e) (hdec : e.ph = .dec → DecInv e) : RunInv e where
  phase := ⟨i, by rw [ho, instrOfOp_opOf], hp⟩
  enc := henc
  dec := hdec
  strEnc h := absurd (opOf_inj.mp (ho.symm.trans h)) hi.1
  strDec h := absurd (opOf_inj.mp (ho.symm.trans h)) hi.2

theorem runInv_of_strEnc (ho : e.opCur = opOf .strEnc) (hp : e.ph ∈ phasesOf .strEnc) (henc : e.ph = .enc → EncInv e)
    (hs : StrEncInv e) : RunInv e where
  phase := ⟨.strEnc, by rw [ho, instrOfOp_opOf], hp⟩
  enc := henc
  dec h := absurd hp (by rw [h]; decide)
  strEnc _ := hs
  strDec h := absurd (opOf_inj.mp (ho.symm.trans h)) (by decide)

theorem runInv_of_strDec (ho : e.opCur = opOf .strDec) (hp : e.ph ∈ phasesOf .strDec) (hdec : e.ph = .dec → DecInv e)
    (hs : StrDecInv e) : RunInv e where
  phase := ⟨.strDec, by rw [ho, instrOfOp_opOf], hp⟩
  enc h := absurd hp (by rw [h]; decide)
  dec := hdec
  strEnc h := absurd (opOf_inj.mp (ho.symm.trans h)) (by decide)
  strDec _ := hs

/-! ### Updates that keep the invariant in every phase -/

/-- EOS_SEEN, OUTQ and the latched outcome are not spoken of while a command runs. -/
theorem RunInv.pending (h : RunInv e) (b : Bool) (q : List Byte) (x : Err) :
    RunInv { e with eosSeen := b, outq := q, outcome := x } where
  phase := h.phase
  enc hp := have ⟨h1, h2, h3, h4, h5⟩ := h.enc hp; ⟨h1, h2, h3, h4, h5⟩
  dec hp := have ⟨h1, h2⟩ := h.dec hp; ⟨h1, h2⟩
  strEnc ho := have ⟨h1, h2, h3, h4, h5⟩ := h.strEnc ho; ⟨h1, h2, h3, h4, h5⟩
  strDec ho := have ⟨h1, h2⟩ := h.strDec ho; ⟨h1, h2⟩

/-- FINISH asks nothing of the engine but what STR_ENC keeps of its chunk. -/
theorem RunInv.finish (h : RunInv e) (x : Err) : RunInv { e with ph := .finish, outcome := x } where
  phase := by
    obtain ⟨i, hi, hp⟩ := h.phase
    refine ⟨i, hi, ?_⟩
    cases i with
    | clr => exact absurd hp List.not_mem_nil
    | _ => simp [phasesOf]
  enc hp := by cases hp
  dec hp := by cases hp
  strEnc ho := ⟨(h.strEnc ho).chunkFits, by simp, (h.strEnc ho).legal, by simp, by simp⟩
  strDec _ := ⟨by simp, by simp⟩

/-- The buffers' sizes and the LZW registers' ranges carry over to an engine with the same buffers and LZW registers. -/
theorem Engine.Fits.of_eq (h : e.Fits) (hi : e'.ibuf = e.ibuf := by rfl) (hf : e'.fbuf = e.fbuf := by rfl)
    (hh : e'.hdr = e.hdr := by rfl) (hl : e'.lzw = e.lzw := by rfl) : e'.Fits :=
  ⟨hi ▸ h.ibuf, hf ▸ h.fbuf, hh ▸ h.hdr, hl ▸ h.lzw⟩

theorem Regs.BusyInv.of_eq (h : g.BusyInv) (hs : g'.stat = g.stat := by rfl) (he : g'.err = g.err := by rfl)
    (hd : g'.dictNext = g.dictNext := by rfl) : g'.BusyInv :=
  ⟨hs.trans h.stat, he.trans h.err, hd ▸ h.dictNextLo, hd ▸ h.dictNextHi⟩

namespace State.BusyInv

theorem endWith (h : s.BusyInv) (x : Err) : (s.endWith x).BusyInv := ⟨h.regs, h.fits.of_eq, h.run.finish x⟩

theorem emit (h : s.BusyInv) (bs : List Byte) : (s.emit bs).BusyInv := ⟨h.regs, h.fits.of_eq, h.run.pending _ _ _⟩

theorem sawEos (h : s.BusyInv) : s.sawEos.BusyInv := ⟨h.regs, h.fits.of_eq, h.run.pending _ _ _⟩

theorem countChunk (h : s.BusyInv) : s.countChunk.BusyInv := ⟨h.regs.of_eq, h.fits, h.run⟩

theorem publishAlphabet (h : s.BusyInv) (alpha : List Byte) : (s.publishAlphabet alpha).BusyInv :=
  ⟨h.regs.of_eq, h.fits, h.run⟩

/-- DICT_NEXT takes a value in NEXT's range (10_state.md R30, R35). -/
theorem latchNext (h : s.BusyInv) : s.latchNext.BusyInv :=
  ⟨⟨h.regs.stat, h.regs.err, h.fits.lzw.nextLo, h.fits.lzw.nextHi⟩, h.fits, h.run⟩

/-- Bytes delivered by the source, before the phase's rule stores them. -/
theorem delivered (h : s.BusyInv) (src : Source) (n : Nat) : ((s.withSrc src).countIn n).BusyInv :=
  ⟨h.regs.of_eq, h.fits, h.run⟩

theorem endRun (h : s.BusyInv) : (endRun s).BusyInv := h.latchNext.endWith _

end State.BusyInv

theorem drawNext_dictNext (d : Config.Draw) (g : Regs) :
    (drawNext d g).dictNext.toNat = (Config.freeNext d).val + 1 := by
  have := (Config.freeNext d).isLt
  simp only [drawNext, BitVec.toNat_ofNat]
  omega

/-- DICT_NEXT after a completion is the command's or a free value (60_exceptions.md R293). -/
theorem drawResults_dictNext (op : BitVec 4) (x : Err) (d : Config.Draw) (g : Regs) :
    (drawResults op x d g).dictNext = g.dictNext ∨
      (drawResults op x d g).dictNext.toNat = (Config.freeNext d).val + 1 := by
  unfold drawResults
  dsimp only
  split
  · exact .inr (drawNext_dictNext d _)
  · split
    · exact .inl (drawAlphabet_dictNext g d)
    · exact .inl rfl

/-- After a completion STATE and ERR agree, and DICT_NEXT is in its range (44_control.md R266). -/
theorem completed_regs_inv (h : g.BusyInv) (op : BitVec 4) (x : Err) (d : Config.Draw) :
    (setOutcome x (drawResults op x d g)).Inv := by
  have hd : 1 ≤ (drawResults op x d g).dictNext.toNat ∧ (drawResults op x d g).dictNext.toNat ≤ 256 := by
    have hfree := (Config.freeNext d).isLt
    rcases drawResults_dictNext op x d g with hg | hg
    · exact hg ▸ ⟨h.dictNextLo, h.dictNextHi⟩
    · omega
  refine ⟨?_, hd.1, hd.2⟩
  by_cases hx : x = .noError <;> simp [hx]

/-- Complete(outcome) leaves the block at rest (44_control.md R266). -/
theorem State.BusyInv.complete (h : s.BusyInv) (x : Err) : (complete x s).Inv := by
  refine inv_of_rest (completed_regs_inv h.regs _ x _) ?_ h.fits.of_eq ⟨rfl, rfl⟩
  by_cases hx : x = .noError <;> simp [hx]

theorem flushStep_inv (h : s.BusyInv) (ht : flushStep s = .went t) : t.BusyInv := by
  obtain ⟨a, -, ⟨-, rfl⟩ | ⟨-, rfl⟩⟩ := flushStep_went ht
  · exact ⟨h.regs.of_eq, h.fits.of_eq, h.run.pending _ _ _⟩
  · exact ⟨h.regs.of_eq, h.fits.of_eq, (h.run.pending _ [] _).finish _⟩

theorem finishStep_inv (h : s.BusyInv) (ht : finishStep s = .went t) : t.Inv := by
  cases ht
  exact h.complete _

/-- A rule that flushes first keeps the invariant if it does with nothing pending. -/
theorem flushFirst_inv {f : State → Turn} (h : s.BusyInv) (hf : f s = .went t → t.Inv)
    (ht : flushFirst f s = .went t) : t.Inv := by
  unfold flushFirst at ht
  split at ht
  · exact hf ht
  · exact (flushStep_inv h ht).inv

end Sys2Proof.Machine
end

section
/-! SUPPORT. The phases that several commands share: LOAD, ENC and DEC, and the entries into ENC and DEC, as far as the
machine's invariant goes (20_memory.md R66; 41_lzw_codec.md R144 to R153). -/

namespace Sys2Proof.Machine

variable {s t : State} {e : Engine} {i : Instr}

theorem EncInv.encOk (h : EncInv e) : ∃ alpha, scan e.ibuf = some alpha ∧ e.nCur = BitVec.ofNat 8 alpha.length ∧
    EncOk alpha e.lzw := by
  obtain ⟨alpha, hs, hn, hd⟩ := h.alphabet
  exact ⟨alpha, hs, hn, hd, h.injective, h.wPresent⟩

theorem DecInv.decOk (h : DecInv e) : ∃ alpha, e.nCur = BitVec.ofNat 8 alpha.length ∧ DecOk alpha e.lzw := by
  obtain ⟨alpha, hn, hd⟩ := h.alphabet
  exact ⟨alpha, hn, hd, h.prevPresent⟩

/-- 1 for the code that W still owes the output, 0 while W is empty (41_lzw_codec.md R146). -/
abbrev Lzw.owed (r : Lzw) : Nat := if r.wValid then 1 else 0

/-- Everything one step of ENC can do: it leaves the phase at once or at the end of the unit, codes one byte, or raises
DICTIONARY_OVERFLOW after one code. -/
theorem encPhase_went {emit : List Byte → State → State} {leave overflow : State → State} (h : EncInv s.eng)
    (ht : encPhase emit leave overflow s = .went t) :
    t = leave s ∨ t = leave (emit (encEnd s.eng.lzw) s) ∨
    (∃ r out, t = emit out ((s.withLzw r).seek (s.eng.ipos + 1)) ∧ s.eng.ipos < s.eng.ibuf.length ∧
      EncInv ((s.withLzw r).seek (s.eng.ipos + 1)).eng ∧ out.length + r.owed ≤ 1 + s.eng.lzw.owed) ∨
    (t = overflow (emit [s.eng.lzw.wCode] s) ∧ s.eng.lzw.wValid = true) := by
  obtain ⟨alpha, hs, hn, hok⟩ := h.encOk
  unfold encPhase at ht
  split at ht
  · cases ht; exact .inl rfl
  split at ht
  · rename_i c hc
    obtain ⟨hlt, hget⟩ := List.getElem?_eq_some_iff.mp hc
    have hmem : c ∈ alpha := ((scan_spec hs).2.2.1 c).mpr (hget ▸ List.getElem_mem hlt)
    split at ht <;> cases ht
    · rename_i r out hstep
      obtain ⟨hok', hv, hout⟩ := encStep_ok hok hmem hstep
      exact .inr (.inr (.inl ⟨r, out, rfl, hlt,
        ⟨⟨alpha, hs, hn, hok'.dict⟩, hok'.inj, hlt, hok'.w, fun hf => by simp [hv] at hf⟩, hout⟩))
    · rename_i x r out hstep
      obtain ⟨-, -, rfl, -, rfl, hv⟩ := encStep_raised hok hmem hstep
      exact .inr (.inr (.inr ⟨rfl, hv⟩))
  · cases ht; exact .inr (.inl rfl)

/-- Everything one step of DEC can do: it leaves the phase, decodes one code, or raises at a bad code. -/
theorem decPhase_went {codes : List Byte} {leave malformed : State → State} (h : DecInv s.eng)
    (ht : decPhase codes leave malformed s = .went t) :
    t = leave s ∨ t = malformed (s.emit []) ∨
    ∃ r out, t = ((s.withLzw r).seek (s.eng.ipos + 1)).emit out ∧ DecInv ((s.withLzw r).seek (s.eng.ipos + 1)).eng := by
  obtain ⟨alpha, hn, hok⟩ := h.decOk
  have hlen : s.eng.nCur.toNat = alpha.length := by
    have := hok.dict.size
    simp only [hn, BitVec.toNat_ofNat]
    omega
  unfold decPhase at ht
  split at ht
  · split at ht <;> cases ht
    · rename_i r out hstep
      have hok' := (decCode_ok hok hlen hstep).1
      exact .inr (.inr ⟨r, out, rfl, ⟨alpha, hn, hok'.dict⟩, hok'.prev⟩)
    · rename_i x r out hstep
      obtain ⟨-, rfl, rfl⟩ := decCode_raised hok hlen hstep
      exact .inr (.inl rfl)
  · cases ht; exact .inl rfl

/-- ENC starts with the unit's alphabet seeded and W empty (41_lzw_codec.md R140, R144). -/
theorem encInv_enter {alpha : List Byte} (hs : scan e.ibuf = some alpha) (p : Phase) :
    EncInv { e with nCur := BitVec.ofNat 8 alpha.length, lzw := Lzw.seed alpha, ipos := 0, ph := p } :=
  have ⟨hn, hl, _, _⟩ := scan_spec hs
  ⟨⟨alpha, hs, rfl, seed_dictInv hl⟩, seed_injective hn, Nat.zero_le _, (seed_encOk hn hl).w, fun _ => rfl⟩

/-- DEC starts with its alphabet seeded and PREV empty (41_lzw_codec.md R140, R150). -/
theorem decInv_enterDec {alpha : List Byte} (hl : alpha.length ≤ 255) (noCodes : Bool) :
    DecInv (enterDec alpha noCodes s).eng := by
  have hd := seed_decOk hl
  unfold enterDec
  cases noCodes <;> exact ⟨⟨alpha, rfl, hd.dict⟩, hd.prev⟩

theorem enterDec_eng (alpha : List Byte) (noCodes : Bool) : (enterDec alpha noCodes s).eng =
    { s.eng with
      nCur := BitVec.ofNat 8 alpha.length, lzw := Lzw.seed alpha, ipos := 0, ph := .dec
      outq := s.eng.outq ++ if noCodes then alpha else [] } := by
  cases noCodes <;> simp [enterDec]

theorem enterDec_regs (alpha : List Byte) (noCodes : Bool) : (enterDec alpha noCodes s).regs = s.regs := by
  cases noCodes <;> rfl

/-- LZW registers in their range keep an engine within its sizes. -/
theorem Engine.Fits.setLzw {e' : Engine} (h : e.Fits) (hl : e'.lzw.InRange) (hi : e'.ibuf = e.ibuf := by rfl)
    (hf : e'.fbuf = e.fbuf := by rfl) (hh : e'.hdr = e.hdr := by rfl) : e'.Fits :=
  ⟨hi ▸ h.ibuf, hf ▸ h.fbuf, hh ▸ h.hdr, hl⟩

/-! ### The phases of the unit commands -/

/-- A unit command goes on to a phase of its rule with the registers as they are. -/
theorem State.BusyInv.unit (h : s.BusyInv) (hi : i ≠ .strEnc ∧ i ≠ .strDec) (ho : t.eng.opCur = opOf i)
    (hr : t.regs = s.regs) (hf : t.eng.Fits) (hp : t.eng.ph ∈ phasesOf i) (henc : t.eng.ph = .enc → EncInv t.eng)
    (hdec : t.eng.ph = .dec → DecInv t.eng) : t.BusyInv :=
  ⟨hr ▸ h.regs, hf, runInv_of_unit ho hi hp henc hdec⟩

/-- N_CUR is the scan's to write (40_alphabet_scanner.md R123). -/
theorem State.BusyInv.withN (h : s.BusyInv) (hp : s.eng.ph = .scan) (n : Nat) : (s.withN n).BusyInv where
  regs := h.regs
  fits := h.fits.of_eq
  run :=
    { phase := h.run.phase
      enc := fun hq => absurd (hp.symm.trans hq) (by decide)
      dec := fun hq => absurd (hp.symm.trans hq) (by decide)
      strEnc := fun ho =>
        have ⟨h1, h2, h3, h4, _⟩ := h.run.strEnc ho
        ⟨h1, h2, h3, h4, fun hq => absurd (hp.symm.trans hq) (by decide)⟩
      strDec := fun ho => have ⟨h1, h2⟩ := h.run.strDec ho; ⟨h1, h2⟩ }

/-- LOAD (20_memory.md R66): IBUF never holds more than IBUF_SIZE bytes. -/
theorem loadStep_inv {after : State → Turn} (h : s.BusyInv) (hi : i ≠ .strEnc ∧ i ≠ .strDec)
    (ho : s.eng.opCur = opOf i) (hp : s.eng.ph = .load) (ha : ∀ t, after s = .went t → t.BusyInv)
    (ht : loadStep after s = .went t) : t.BusyInv := by
  unfold loadStep at ht
  split at ht
  · exact ha t ht
  rcases readStep_went ht with ⟨he, -⟩ | ⟨r, rest, he, -⟩
  · exact he ▸ h.sawEos
  have hd := h.delivered rest r.length
  rw [he]
  split
  · exact hd.endWith _
  · rename_i hfit
    refine hd.unit hi ho rfl ⟨?_, h.fits.fbuf, h.fits.hdr, h.fits.lzw⟩ (h.run.mem_phasesOf ho) ?_ ?_
    · simpa using hfit
    all_goals exact fun hq => absurd (hp.symm.trans hq) (by decide)

/-- LOAD is over and the unit is to be scanned. -/
theorem toScan_inv (h : s.BusyInv) (hi : i ≠ .strEnc ∧ i ≠ .strDec) (ho : s.eng.opCur = opOf i)
    (hp : Phase.scan ∈ phasesOf i) (ht : Turn.went (s.toPhase .scan) = .went t) : t.BusyInv := by
  cases ht
  exact h.unit hi ho rfl h.fits.of_eq hp (fun hq => by cases hq) (fun hq => by cases hq)

/-- The SCAN phase keeps the invariant if what follows the alphabet does. -/
theorem scanPhase_inv {f : List Byte → State → State} (h : s.BusyInv)
    (hf : ∀ alpha, scan s.eng.ibuf = some alpha → (f alpha (s.withN alpha.length)).BusyInv)
    (ht : scanPhase f s = .went t) : t.BusyInv := by
  unfold scanPhase at ht
  split at ht <;> cases ht
  · exact hf _ ‹_›
  · exact h.endWith _

/-- The entry into ENC of the unit commands. -/
theorem enterEnc_unit_inv (h : s.BusyInv) (hi : i ≠ .strEnc ∧ i ≠ .strDec) (ho : s.eng.opCur = opOf i)
    (hp : Phase.enc ∈ phasesOf i) {alpha : List Byte} (hs : scan s.eng.ibuf = some alpha) :
    (enterEnc alpha ((s.withN alpha.length).publishAlphabet alpha)).BusyInv := by
  have henc := encInv_enter hs .enc
  exact ⟨h.regs.of_eq, h.fits.setLzw henc.inRange, runInv_of_unit ho hi hp (fun _ => henc) (fun hq => by cases hq)⟩

/-- ENC of the unit commands. -/
theorem encPhase_unit_inv (h : s.BusyInv) (hi : i ≠ .strEnc ∧ i ≠ .strDec) (ho : s.eng.opCur = opOf i)
    (hp : s.eng.ph = .enc)
    (ht : encPhase State.emit endRun (fun t => raise .dictionaryOverflow t.latchNext) s = .went t) : t.BusyInv := by
  rcases encPhase_went (h.run.enc hp) ht with rfl | rfl | ⟨r, out, rfl, -, henc, -⟩ | ⟨rfl, -⟩
  · exact h.endRun
  · exact (h.emit _).endRun
  · exact (h.unit (t := (s.withLzw r).seek _) hi ho rfl (h.fits.setLzw henc.inRange) (h.run.mem_phasesOf ho)
      (fun _ => henc) (fun hq => absurd (hp.symm.trans hq) (by decide))).emit out
  · exact (h.emit _).latchNext.endWith _

/-- DEC of the unit commands. -/
theorem decPhase_unit_inv {codes : List Byte} (h : s.BusyInv) (hi : i ≠ .strEnc ∧ i ≠ .strDec)
    (ho : s.eng.opCur = opOf i) (hp : s.eng.ph = .dec)
    (ht : decPhase codes endRun (fun t => raise .malformedFrame t.latchNext) s = .went t) : t.BusyInv := by
  rcases decPhase_went (h.run.dec hp) ht with rfl | rfl | ⟨r, out, rfl, hdec⟩
  · exact h.endRun
  · exact (h.emit _).latchNext.endWith _
  · exact (h.unit (t := (s.withLzw r).seek _) hi ho rfl (h.fits.setLzw hdec.inRange) (h.run.mem_phasesOf ho)
      (fun hq => absurd (hp.symm.trans hq) (by decide)) (fun _ => hdec)).emit out

/-- The entry into DEC of the unit commands. -/
theorem enterDec_unit_inv (h : s.BusyInv) (hi : i ≠ .strEnc ∧ i ≠ .strDec) (ho : s.eng.opCur = opOf i)
    (hp : Phase.dec ∈ phasesOf i) {alpha : List Byte} (hl : alpha.length ≤ 255) (noCodes : Bool) :
    (enterDec alpha noCodes s).BusyInv := by
  have hdec := decInv_enterDec (s := s) hl noCodes
  refine h.unit hi ?_ (enterDec_regs ..) (h.fits.setLzw hdec.inRange ?_ ?_ ?_) ?_ ?_ (fun _ => hdec) <;>
    simp [enterDec_eng, ho, hp]

theorem alphabetOperand_length (n : Byte) (g : Regs) : (alphabetOperand n g).length ≤ 255 := by
  have := n.isLt
  rw [alphabetOperand, List.length_take]
  omega

/-- A frame's alphabet has at most 255 bytes (42_frame_codec.md R191). -/
theorem parseFrame_parts {fr alpha codes : List Byte} (h : parseFrame fr = .parts alpha codes) :
    alpha.length ≤ 255 := by
  unfold parseFrame at h
  split at h
  · cases h
  rename_i n rest
  split_ifs at h
  cases h
  have := n.isLt
  rw [List.length_take]
  omega

theorem enterFrmDec_inv (h : s.BusyInv) (ho : s.eng.opCur = opOf .frmDec) : (enterFrmDec s).BusyInv := by
  unfold enterFrmDec
  split
  · have hu : ({ s with regs := { s.regs with alphaN := 0, dictNext := 1 } } : State).BusyInv :=
      ⟨⟨h.regs.stat, h.regs.err, le_rfl, show (1 : BitVec 9).toNat ≤ 256 by decide⟩, h.fits, h.run⟩
    exact hu.endWith _
  · exact h.endWith _
  · rename_i alpha codes hfr
    exact enterDec_unit_inv (h.publishAlphabet alpha) (by decide) ho (by decide) (parseFrame_parts hfr) _

/-! ### The unit commands -/

theorem scanCmdStep_inv (h : s.BusyInv) (ho : s.eng.opCur = opOf .scan) (ht : scanCmdStep s = .went t) : t.Inv := by
  refine flushFirst_inv h (fun hg => ?_) ht
  split at hg
  · exact (loadStep_inv h (by decide) ho ‹_› (fun _ => toScan_inv h (by decide) ho (by decide)) hg).inv
  · exact (scanPhase_inv h (fun _ _ => ((h.withN ‹_› _).publishAlphabet _).endWith _) hg).inv
  · exact finishStep_inv h hg
  · cases hg

theorem lzwEncStep_inv (h : s.BusyInv) (ho : s.eng.opCur = opOf .lzwEnc) (ht : lzwEncStep s = .went t) : t.Inv := by
  refine flushFirst_inv h (fun hg => ?_) ht
  split at hg
  · exact (loadStep_inv h (by decide) ho ‹_› (fun _ => toScan_inv h (by decide) ho (by decide)) hg).inv
  · exact (scanPhase_inv h (fun _ hs => enterEnc_unit_inv h (by decide) ho (by decide) hs) hg).inv
  · exact (encPhase_unit_inv h (by decide) ho ‹_› hg).inv
  · exact finishStep_inv h hg
  · cases hg

theorem frmEncStep_inv (h : s.BusyInv) (ho : s.eng.opCur = opOf .frmEnc) (ht : frmEncStep s = .went t) : t.Inv := by
  refine flushFirst_inv h (fun hg => ?_) ht
  split at hg
  · exact (loadStep_inv h (by decide) ho ‹_› (fun _ => toScan_inv h (by decide) ho (by decide)) hg).inv
  · exact (scanPhase_inv h (fun _ hs => (enterEnc_unit_inv h (by decide) ho (by decide) hs).emit _) hg).inv
  · exact (encPhase_unit_inv h (by decide) ho ‹_› hg).inv
  · exact finishStep_inv h hg
  · cases hg

theorem lzwDecStep_inv (h : s.BusyInv) (ho : s.eng.opCur = opOf .lzwDec) (ht : lzwDecStep s = .went t) : t.Inv := by
  refine flushFirst_inv h (fun hg => ?_) ht
  split at hg
  · refine (loadStep_inv h (by decide) ho ‹_› (fun t ht => ?_) hg).inv
    cases ht
    exact enterDec_unit_inv h (by decide) ho (by decide) (alphabetOperand_length _ _) _
  · exact (decPhase_unit_inv h (by decide) ho ‹_› hg).inv
  · exact finishStep_inv h hg
  · cases hg

theorem frmDecStep_inv (h : s.BusyInv) (ho : s.eng.opCur = opOf .frmDec) (ht : frmDecStep s = .went t) : t.Inv := by
  refine flushFirst_inv h (fun hg => ?_) ht
  split at hg
  · refine (loadStep_inv h (by decide) ho ‹_› (fun t ht => ?_) hg).inv
    injection ht with ht
    exact ht ▸ enterFrmDec_inv h ho
  · exact (decPhase_unit_inv h (by decide) ho ‹_› hg).inv
  · exact finishStep_inv h hg
  · cases hg

end Sys2Proof.Machine
end

section
/-! SUPPORT. The chunk streamer's steps keep the machine's invariant: STR_ENC's chunk and frame stay within their buffers
(43_chunk_streamer.md R222, R224; 20_memory.md R67), and STR_DEC's header and body within theirs (R226 to R228). -/

namespace Sys2Proof.Machine

variable {s t : State} {e : Engine}

/-! ### STR_ENC -/

theorem encEnd_length (r : Lzw) : (encEnd r).length = r.owed := by
  unfold encEnd Lzw.owed
  split <;> rfl

/-- A legal chunk and its frame's header stay within FBUF (20_memory.md R67; 43_chunk_streamer.md R224). -/
theorem StrEncInv.frame_le (h : StrEncInv e) (hp : e.ph = .enc) (hpos : e.ipos ≤ e.ibuf.length) :
    e.fbuf.length + e.lzw.owed ≤ Config.fbufSize := by
  have hn := e.nCur.isLt
  have hfit := h.chunkFits
  have hframe : e.fbuf.length + e.lzw.owed ≤ 1 + e.nCur.toNat + e.ipos := (h.frameFits hp).2
  have hlegal := (h.legal (h.checked (by simp [hp]))).2
  simp only [Config.maxChunkSize] at hlegal
  simp only [Config.fbufSize]
  omega

/-- ENC is left for ENV_WRITE or for an end point, with the frame `fr` in FBUF. -/
theorem leaveEnc_inv (h : s.BusyInv) (ho : s.eng.opCur = opOf .strEnc) (hp : s.eng.ph = .enc) {fr : List Byte}
    (hfr : fr.length ≤ Config.fbufSize) {p : Phase} (hp' : p = .envWrite ∨ p = .finish) (x : Err) :
    ({ s with eng := { s.eng with fbuf := fr, ph := p, outcome := x } } : State).BusyInv := by
  have ⟨hchunk, hchecked, hlegal, hne, _⟩ := h.run.strEnc ho
  have hmem : s.eng.ph ∈ [Phase.scan, .enc, .envWrite] := by simp [hp]
  have hpe : p ∈ phasesOf .strEnc ∧ p ≠ .enc := by rcases hp' with rfl | rfl <;> decide
  exact ⟨h.regs, ⟨h.fits.ibuf, hfr, h.fits.hdr, h.fits.lzw⟩, runInv_of_strEnc ho hpe.1 (absurd · hpe.2)
    ⟨hchunk, fun _ => hchecked hmem, hlegal, fun _ => hne hmem, (absurd · hpe.2)⟩⟩

theorem encPhase_strEnc_inv (h : s.BusyInv) (ho : s.eng.opCur = opOf .strEnc) (hp : s.eng.ph = .enc)
    (ht : encPhase State.fillFbuf (State.toPhase .envWrite) (raise .dictionaryOverflow) s = .went t) : t.BusyInv := by
  have henc := h.run.enc hp
  have hstr := h.run.strEnc ho
  have hroom := hstr.frame_le hp henc.pos
  rcases encPhase_went henc ht with rfl | rfl | ⟨r, out, rfl, hlt, henc', hout⟩ | ⟨rfl, hv⟩
  · exact leaveEnc_inv h ho hp h.fits.fbuf (.inl rfl) _
  · have hfr : (s.eng.fbuf ++ encEnd s.eng.lzw).length ≤ Config.fbufSize := by
      rw [List.length_append, encEnd_length]; exact hroom
    exact leaveEnc_inv h ho hp hfr (.inl rfl) _
  · set u := ((s.withLzw r).seek (s.eng.ipos + 1)).fillFbuf out with hu
    have ⟨hfne, hfl⟩ := hstr.frameFits hp
    change s.eng.fbuf.length + s.eng.lzw.owed ≤ _ at hfl
    have hfr : (s.eng.fbuf ++ out).length + r.owed ≤ 1 + s.eng.nCur.toNat + (s.eng.ipos + 1) := by
      rw [List.length_append]; omega
    have hstr' : StrEncInv u.eng :=
      ⟨hstr.chunkFits, hstr.checked, hstr.legal, hstr.nonempty, fun _ => ⟨by simp [hu, hfne], hfr⟩⟩
    have henc'' : EncInv u.eng := ⟨henc'.alphabet, henc'.injective, henc'.pos, henc'.wPresent, henc'.wEmpty⟩
    exact ⟨h.regs, ⟨h.fits.ibuf, le_of_add_le_left (hstr'.frame_le hp henc''.pos), h.fits.hdr, henc''.inRange⟩,
      runInv_of_strEnc ho (h.run.mem_phasesOf ho) (fun _ => henc'') hstr'⟩
  · have hfr : (s.eng.fbuf ++ [s.eng.lzw.wCode]).length ≤ Config.fbufSize := by
      simpa [Lzw.owed, hv] using hroom
    exact leaveEnc_inv h ho hp hfr (.inr rfl) _

theorem badChunkSize_eq_false {cs : BitVec 16} (h : badChunkSize cs = false) :
    1 ≤ cs.toNat ∧ cs.toNat ≤ Config.maxChunkSize := by
  simp only [badChunkSize, Bool.or_eq_false_iff, decide_eq_false_iff_not] at h
  omega

theorem checkConfig_inv (h : s.BusyInv) (ho : s.eng.opCur = opOf .strEnc) (hp : s.eng.ph = .chunkRead) :
    (checkConfig s).BusyInv := by
  have hstr := h.run.strEnc ho
  unfold checkConfig
  split
  · exact h.endWith _
  · rename_i hb
    have hlegal := badChunkSize_eq_false (by simpa using hb)
    exact ⟨h.regs, h.fits.of_eq, runInv_of_strEnc ho (h.run.mem_phasesOf ho) (by simp [hp])
      ⟨hstr.chunkFits, fun _ => rfl, fun _ => hlegal, hstr.nonempty, by simp [hp]⟩⟩

/-- IBUF_SIZE is no less than the largest legal chunk size (20_memory.md R66; 43_chunk_streamer.md R224). -/
theorem maxChunkSize_le_ibufSize : Config.maxChunkSize ≤ Config.ibufSize := ibufSize_bounds.1

theorem chunkReadStep_inv (h : s.BusyInv) (ho : s.eng.opCur = opOf .strEnc) (hp : s.eng.ph = .chunkRead)
    (ht : chunkReadStep s = .went t) : t.BusyInv := by
  have hstr := h.run.strEnc ho
  unfold chunkReadStep at ht
  split at ht
  · cases ht; exact checkConfig_inv h ho hp
  rename_i hc
  have hchecked : s.eng.cfgChecked = true := by simpa using hc
  split at ht
  · rename_i hread
    rcases readStep_went ht with ⟨rfl, -⟩ | ⟨r, rest, rfl, -, -, -, hr⟩
    · exact h.sawEos
    · have hchunk : (s.eng.ibuf ++ r).length ≤ s.eng.csCur.toNat := by
        rw [List.length_append]; omega
      have hibuf := hchunk.trans ((hstr.legal hchecked).2.trans maxChunkSize_le_ibufSize)
      exact ⟨h.regs.of_eq, ⟨hibuf, h.fits.fbuf, h.fits.hdr, h.fits.lzw⟩,
        runInv_of_strEnc ho (h.run.mem_phasesOf ho) (by simp [hp])
          ⟨hchunk, fun _ => hchecked, hstr.legal, by simp [hp], by simp [hp]⟩⟩
  split at ht <;> cases ht
  · exact h.endWith _
  · rename_i hne
    exact ⟨h.regs, h.fits.of_eq,
      runInv_of_strEnc ho (show Phase.scan ∈ phasesOf .strEnc by decide) (fun hq => by cases hq)
        ⟨hstr.chunkFits, fun _ => hchecked, hstr.legal, fun _ => hne, fun hq => by cases hq⟩⟩

/-- The entry into ENC of a chunk: FBUF holds the frame's header. -/
theorem startFrame_inv (h : s.BusyInv) (ho : s.eng.opCur = opOf .strEnc) (hp : s.eng.ph = .scan) {alpha : List Byte}
    (hs : scan s.eng.ibuf = some alpha) : (startFrame alpha (enterEnc alpha (s.withN alpha.length))).BusyInv := by
  have hstr := h.run.strEnc ho
  have hmem : s.eng.ph ∈ [Phase.scan, .enc, .envWrite] := by simp [hp]
  have hne := hstr.nonempty hmem
  have halpha : alpha ≠ [] := mt (scan_nil_iff hs).mp hne
  have hl := (scan_spec hs).2.1
  have hlen : (frameHeader alpha).length = alpha.length + 1 := by simp [frameHeader, halpha]
  set u := startFrame alpha (enterEnc alpha (s.withN alpha.length)) with hu
  have henc : EncInv u.eng :=
    have ⟨h1, h2, h3, h4, h5⟩ := encInv_enter hs .enc
    ⟨h1, h2, h3, h4, h5⟩
  have hframe : (frameHeader alpha).length + 0 ≤ 1 + (BitVec.ofNat 8 alpha.length).toNat + 0 := by
    rw [hlen, BitVec.toNat_ofNat]; omega
  have hstr' : StrEncInv u.eng :=
    ⟨hstr.chunkFits, fun _ => hstr.checked hmem, hstr.legal, fun _ => hne,
      fun _ => ⟨List.ne_nil_of_length_pos (hlen ▸ Nat.succ_pos _), hframe⟩⟩
  exact ⟨h.regs, ⟨h.fits.ibuf, hstr'.frame_le rfl henc.pos, h.fits.hdr, henc.inRange⟩,
    runInv_of_strEnc ho (show Phase.enc ∈ phasesOf .strEnc by decide) (fun _ => henc) hstr'⟩

theorem envWriteStep_inv (h : s.BusyInv) (ho : s.eng.opCur = opOf .strEnc) (hp : s.eng.ph = .envWrite)
    (ht : envWriteStep s = .went t) : t.BusyInv := by
  have hstr := h.run.strEnc ho
  unfold envWriteStep at ht
  split at ht
  · cases ht
    exact ⟨h.regs, ⟨h.fits.ibuf, Nat.zero_le _, h.fits.hdr, h.fits.lzw⟩,
      runInv_of_strEnc ho (h.run.mem_phasesOf ho) (by simp [hp])
        ⟨hstr.chunkFits, hstr.checked, hstr.legal, hstr.nonempty, by simp [hp]⟩⟩
  split at ht <;> cases ht
  · exact h.countChunk.endWith _
  · exact ⟨h.regs.of_eq, ⟨Nat.zero_le _, h.fits.fbuf, h.fits.hdr, h.fits.lzw⟩,
      runInv_of_strEnc ho (show Phase.chunkRead ∈ phasesOf .strEnc by decide) (fun hq => by cases hq)
        ⟨Nat.zero_le _, by simp, hstr.legal, by simp, by simp⟩⟩

theorem strEncStep_inv (h : s.BusyInv) (ho : s.eng.opCur = opOf .strEnc) (ht : strEncStep s = .went t) : t.Inv := by
  refine flushFirst_inv h (fun hg => ?_) ht
  split at hg
  · exact (chunkReadStep_inv h ho ‹_› hg).inv
  · exact (scanPhase_inv h (fun _ hs => startFrame_inv h ho ‹_› hs) hg).inv
  · exact (encPhase_strEnc_inv h ho ‹_› hg).inv
  · exact (envWriteStep_inv h ho ‹_› hg).inv
  · exact finishStep_inv h hg
  · cases hg

/-! ### STR_DEC -/

theorem awaitHeader_inv (h : s.BusyInv) (ho : s.eng.opCur = opOf .strDec) : (awaitHeader s).BusyInv :=
  ⟨h.regs, ⟨h.fits.ibuf, h.fits.fbuf, Nat.zero_le _, h.fits.lzw⟩,
    runInv_of_strDec ho (show Phase.awaitHeader ∈ phasesOf .strDec by decide) (fun hq => by cases hq)
      ⟨fun _ => Nat.zero_lt_succ 3, fun hq => by cases hq⟩⟩

theorem envelopeDone_inv (h : s.BusyInv) (ho : s.eng.opCur = opOf .strDec) : (envelopeDone s).BusyInv :=
  awaitHeader_inv h.countChunk ho

theorem headerStep_inv (h : s.BusyInv) (ho : s.eng.opCur = opOf .strDec) (hp : s.eng.ph = .awaitHeader)
    (ht : headerStep s = .went t) : t.BusyInv := by
  have hlt := (h.run.strDec ho).header hp
  rcases readStep_went ht with ⟨he, -⟩ | ⟨r, rest, he, -, -, -, hr⟩ <;> rw [he]
  · split <;> exact h.sawEos.endWith _
  have hlen : (s.eng.hdr ++ r).length ≤ 4 := by
    rw [List.length_append]; omega
  unfold headerDone
  split
  · exact ⟨h.regs.of_eq, ⟨h.fits.ibuf, Nat.zero_le _, hlen, h.fits.lzw⟩,
      runInv_of_strDec ho (show Phase.awaitBody ∈ phasesOf .strDec by decide) (fun hq => by cases hq)
        ⟨(fun hq => by cases hq), fun _ => Nat.zero_le _⟩⟩
  · rename_i hne
    exact ⟨h.regs.of_eq, ⟨h.fits.ibuf, h.fits.fbuf, hlen, h.fits.lzw⟩,
      runInv_of_strDec ho (h.run.mem_phasesOf ho) (by simp [hp])
        ⟨fun _ => Nat.lt_of_le_of_ne hlen hne, by simp [hp]⟩⟩

theorem enterBody_inv (h : s.BusyInv) (ho : s.eng.opCur = opOf .strDec) : (enterBody s).BusyInv := by
  unfold enterBody
  split
  · exact envelopeDone_inv h ho
  · exact h.endWith _
  · rename_i alpha codes hfr
    have hdec := decInv_enterDec (s := s) (parseFrame_parts hfr) (codes = [])
    refine ⟨?_, h.fits.setLzw hdec.inRange ?_ ?_ ?_, runInv_of_strDec ?_ ?_ (fun _ => hdec) ⟨?_, ?_⟩⟩
    · rw [enterDec_regs]; exact h.regs
    all_goals simp [enterDec_eng, ho, phasesOf]

theorem bodyStep_inv (h : s.BusyInv) (ho : s.eng.opCur = opOf .strDec) (hp : s.eng.ph = .awaitBody)
    (ht : bodyStep s = .went t) : t.BusyInv := by
  unfold bodyStep at ht
  split at ht
  · rcases readStep_went ht with ⟨rfl, -⟩ | ⟨r, rest, rfl, -, -, -, hr⟩
    · exact h.sawEos.endWith _
    · have hbody : (s.eng.fbuf ++ r).length ≤ s.eng.fneed.toNat := by
        rw [List.length_append]; omega
      have hfbuf : (s.eng.fbuf ++ r).length ≤ Config.fbufSize := hbody.trans (Nat.le_of_lt_succ s.eng.fneed.isLt)
      exact ⟨h.regs.of_eq, ⟨h.fits.ibuf, hfbuf, h.fits.hdr, h.fits.lzw⟩,
        runInv_of_strDec ho (h.run.mem_phasesOf ho) (by simp [hp]) ⟨by simp [hp], fun _ => hbody⟩⟩
  · cases ht
    exact enterBody_inv h ho

theorem decPhase_strDec_inv {codes : List Byte} (h : s.BusyInv) (ho : s.eng.opCur = opOf .strDec)
    (hp : s.eng.ph = .dec) (ht : decPhase codes envelopeDone (raise .malformedFrame) s = .went t) : t.BusyInv := by
  rcases decPhase_went (h.run.dec hp) ht with rfl | rfl | ⟨r, out, rfl, hdec⟩
  · exact envelopeDone_inv h ho
  · exact (h.emit _).endWith _
  · have hu : ((s.withLzw r).seek (s.eng.ipos + 1)).BusyInv :=
      ⟨h.regs, h.fits.setLzw hdec.inRange, runInv_of_strDec ho (h.run.mem_phasesOf ho) (fun _ => hdec)
        ⟨by simp [hp], by simp [hp]⟩⟩
    exact hu.emit out

theorem strDecStep_inv (h : s.BusyInv) (ho : s.eng.opCur = opOf .strDec) (ht : strDecStep s = .went t) : t.Inv := by
  refine flushFirst_inv h (fun hg => ?_) ht
  split at hg
  · exact (headerStep_inv h ho ‹_› hg).inv
  · exact (bodyStep_inv h ho ‹_› hg).inv
  · exact (decPhase_strDec_inv h ho ‹_› hg).inv
  · exact finishStep_inv h hg
  · cases hg

end Sys2Proof.Machine
end

section
/-! PROOF. Every step of the machine keeps its invariant (obligation O49): the engine's steps, the acceptance of a
command, and each line of a host program. -/

namespace Sys2Proof.Machine

variable {s t : State} {i : Instr}

/-! ### The engine -/

/-- Every engine step of every command keeps the invariant (44_control.md R265). -/
theorem engineStep_inv (h : s.Inv) (hb : s.regs.stat = .busy) (ht : engineStep s = .went t) : t.Inv := by
  have hbusy := h.busyInv hb
  unfold engineStep at ht
  split at ht
  · exact scanCmdStep_inv hbusy (instrOfOp_eq_some ‹_›) ht
  · exact lzwEncStep_inv hbusy (instrOfOp_eq_some ‹_›) ht
  · exact lzwDecStep_inv hbusy (instrOfOp_eq_some ‹_›) ht
  · exact frmEncStep_inv hbusy (instrOfOp_eq_some ‹_›) ht
  · exact frmDecStep_inv hbusy (instrOfOp_eq_some ‹_›) ht
  · exact strEncStep_inv hbusy (instrOfOp_eq_some ‹_›) ht
  · exact strDecStep_inv hbusy (instrOfOp_eq_some ‹_›) ht
  · cases ht
  · cases ht

theorem engineTurns_inv {n : Nat} (h : s.Inv) (ht : engineTurns n s = .next t) : t.Inv :=
  runTurns_keeps (P := State.Inv) (fun _ _ => engineStep_inv) h ht

/-! ### The commands -/

/-- The phase a command starts in (44_control.md R261). -/
def startPhase : Instr → Phase
  | .strEnc => .chunkRead
  | .strDec => .awaitHeader
  | _ => .load

theorem startPhase_mem (hi : i ≠ .clr) : startPhase i ∈ phasesOf i := by
  cases i with
  | clr => exact absurd rfl hi
  | _ => decide

/-- No command starts in a phase that works on a whole unit, chunk or body. -/
theorem startPhase_early (i : Instr) : startPhase i ∉ [Phase.scan, .enc, .envWrite, .dec, .awaitBody] := by
  cases i <;> decide

/-- A command is issued into its first phase, and its rule is the engine's while it runs. -/
theorem exec_eq_issue_startPhase (hi : i ≠ .clr) (s : State) :
    ∃ f, exec i s = issue (opOf i) (startPhase i) f s ∧ ∀ t : State, t.eng.opCur = opOf i → engineStep t = f t := by
  cases i with
  | clr => exact absurd rfl hi
  | _ => exact ⟨_, rfl, fun t ht => by simp only [engineStep, ht, instrOfOp_opOf]⟩

/-- Acceptance: the buffers and OUTQ are empty, the LZW registers as they were (44_control.md R261). -/
theorem accept_inv (h : s.Inv) (hi : i ≠ .clr) : (accept (opOf i) (startPhase i) s).BusyInv := by
  have hearly := startPhase_early i
  simp only [List.mem_cons, List.not_mem_nil, or_false, not_or] at hearly
  obtain ⟨hscan, henc, henv, hdec, hbody⟩ := hearly
  exact
    { regs := ⟨rfl, rfl, h.regs.dictNextLo, h.regs.dictNextHi⟩
      fits := ⟨Nat.zero_le _, Nat.zero_le _, Nat.zero_le _, h.fits.lzw⟩
      run :=
        { phase := ⟨i, instrOfOp_opOf i, startPhase_mem hi⟩
          enc := fun hq => absurd hq henc
          dec := fun hq => absurd hq hdec
          strEnc := fun _ => ⟨Nat.zero_le _, by simp [hscan, henc, henv], by simp, by simp [hscan, henc, henv],
            fun hq => absurd hq henc⟩
          strDec := fun _ => ⟨fun _ => Nat.zero_lt_succ 3, fun _ => Nat.zero_le _⟩ } }

theorem execClr_inv (h : s.Inv) (ht : execClr s = .next t) : t.Inv := by
  unfold execClr at ht
  split at ht <;> cases ht
  · exact h
  · exact h.setRegs ‹_› ⟨by simp, h.regs.dictNextLo, h.regs.dictNextHi⟩ (by simp)

theorem exec_inv (h : s.Inv) (ht : exec i s = .next t) : t.Inv := by
  by_cases hi : i = .clr
  · subst hi; exact execClr_inv h ht
  obtain ⟨f, he, hf⟩ := exec_eq_issue_startPhase hi s
  rw [he] at ht
  unfold issue at ht
  split at ht
  · cases ht; exact h
  refine (runTurns_keeps (P := fun u => u.Inv ∧ u.eng.opCur = opOf i) (fun u v hu hb hs => ?_)
    ⟨(accept_inv h hi).inv, rfl⟩ ht).1
  rw [← hf u hu.2] at hs
  exact ⟨engineStep_inv hu.1 hb hs, (engineStep_opCur hs).trans hu.2⟩

theorem illegalCommand_inv (h : s.Inv) (v : Word) : (illegalCommand v s).Inv := by
  unfold illegalCommand
  split
  · exact h
  · exact h.setRegs ‹_› ⟨by simp, h.regs.dictNextLo, h.regs.dictNextHi⟩ (by simp)

/-! ### The register port and reset -/

/-- A write that leaves STATUS and DICT_NEXT alone. -/
theorem Regs.Inv.of_eq {g g' : Regs} (h : g.Inv) (hs : g'.stat = g.stat) (he : g'.err = g.err)
    (hd : g'.dictNext = g.dictNext) : g'.Inv :=
  ⟨hs ▸ he ▸ h.errIff, hd ▸ h.dictNextLo, hd ▸ h.dictNextHi⟩

theorem hostWrite_inv (h : s.Inv) (off : Nat) (v : Word) : (hostWrite off v s).Inv := by
  by_cases hb : s.regs.stat = .busy
  · rwa [hostWrite_busy hb]
  have key : ∀ g : Regs, g.stat = s.regs.stat → g.err = s.regs.err → g.dictNext = s.regs.dictNext →
      ({ s with regs := g } : State).Inv := fun g hs he hd =>
    h.setRegs hb (h.regs.of_eq hs he hd) (hs ▸ hb)
  rw [hostWrite_idle hb]
  split
  · exact key _ rfl rfl rfl
  · exact key _ rfl rfl rfl
  · exact key _ (by simp) (by simp) (by simp)
  all_goals exact h

theorem writeAt_inv {off : Nat} {v : Word} (h : s.Inv) (ht : writeAt off v s = .next t) : t.Inv := by
  by_cases ho : off = 0
  · rw [ho, writeAt_cmd, commandWrite] at ht
    split at ht
    · exact exec_inv h ht
    · cases ht; exact illegalCommand_inv h v
  · rw [writeAt_other ho] at ht
    cases ht
    exact hostWrite_inv h off v

/-- The reset event meets the invariant from every state (70_reset_and_hazards.md R310, R311). -/
theorem hostReset_inv (s : State) : (hostReset s).Inv := by
  have hone : (1 : BitVec 9).toNat ≤ 256 := by decide
  refine inv_of_rest ⟨?_, le_rfl, hone⟩ (show Stat.idle ≠ .busy by decide)
    ⟨Nat.zero_le _, Nat.zero_le _, Nat.zero_le _, le_rfl, hone, ?_⟩ ⟨rfl, rfl⟩
  · simp [hostReset, resetRegs, Regs.reset]
  · simp [hostReset, resetEngine, resetLzw, Lzw.slot, resetSlots, resetSlot]

theorem atOffset_next {n : Nat} {g : Target} {k : Nat → Host.Outcome State Fault Refusal}
    (h : atOffset n g k = .next t) : ∃ off, k off = .next t := by
  unfold atOffset at h
  split at h
  · exact ⟨_, h⟩
  · cases h

/-! ### The step -/

theorem hostStep_inv {op : HostOp} {rest : List HostOp} (h : s.Inv) (ht : hostStep op rest s = .next t) : t.Inv := by
  have hpop : (popHost rest s).Inv := h.of_eq rfl rfl
  cases op with
  | write g v =>
    obtain ⟨off, hw⟩ := atOffset_next ht
    exact writeAt_inv hpop hw
  | read g =>
    obtain ⟨off, hr⟩ := atOffset_next ht
    cases hr
    exact hpop.of_eq rfl rfl
  | narrow => cases ht
  | wait =>
    have hread : (hostRead 0x004 s).Inv := h.of_eq rfl rfl
    simp only [hostStep, waitPoll] at ht
    split at ht
    · exact engineTurns_inv hread ht
    · cases ht; exact hread.of_eq rfl rfl
  | engine n => exact engineTurns_inv hpop ht
  | reset => cases ht; exact hostReset_inv _
  | _ => cases ht; exact hpop.of_eq rfl rfl

/-- Settles O49: the engine takes only steps that keep the invariant, every command is accepted into a state that meets
it, and every other host line changes the environment, the stored registers or, at reset, everything. -/
theorem stepKeepsInvariant : Obligations.StepKeepsInvariant := by
  intro s t h ht
  unfold step at ht
  split at ht
  · exact engineTurns_inv h ht
  · exact hostStep_inv h ht

end Sys2Proof.Machine
end

section
/-! PROOF. Command words (30_encoding.md R90 to R92): a word is its RSVD and OP fields, exactly the words below 8 decode
(obligations O1, O2, O3); and the envelope's big-endian fields (R99; obligation O43). -/

namespace Sys2Proof.Machine

variable {s : State} {v : Word} {i : Instr} {e : IllegalWord}

/-- Concatenation as arithmetic: the high part counts in units of the low part's range. -/
theorem toNat_append_eq_add {m n : Nat} (x : BitVec m) (y : BitVec n) :
    (x ++ y).toNat = 2 ^ n * x.toNat + y.toNat := by
  rw [BitVec.toNat_append, ← Nat.shiftLeft_add_eq_or_of_lt y.isLt, Nat.shiftLeft_eq, Nat.mul_comm]

/-! ### The fields of a command word (30_encoding.md R90) -/

theorem rsvdField_append_opField (v : Word) : rsvdField v ++ opField v = v :=
  BitVec.extractLsb'_append_extractLsb' (w := 28) (len := 4) (x := v)

theorem toNat_eq_rsvdField_opField (v : Word) : v.toNat = 16 * (rsvdField v).toNat + (opField v).toNat :=
  calc v.toNat = (rsvdField v ++ opField v).toNat := by rw [rsvdField_append_opField]
    _ = 16 * (rsvdField v).toNat + (opField v).toNat := toNat_append_eq_add _ _

theorem rsvdField_eq_zero_iff : rsvdField v = 0 ↔ v.toNat < 16 := by
  have hv := toNat_eq_rsvdField_opField v
  have hop := (opField v).isLt
  rw [← BitVec.toNat_inj, show (0 : BitVec 28).toNat = 0 from rfl]
  omega

theorem opField_toNat (h : rsvdField v = 0) : (opField v).toNat = v.toNat := by
  rw [toNat_eq_rsvdField_opField v, h]
  simp

theorem wordWf_iff : wordWf v = true ↔ v.toNat < 8 := by
  have hfields : wordWf v = true ↔ rsvdField v = 0 ∧ (opField v).toNat < 8 := by
    simp [wordWf, rsvdField, opField]
  rw [hfields]
  constructor
  · rintro ⟨hr, hop⟩
    rwa [opField_toNat hr] at hop
  · intro hv
    have hr : rsvdField v = 0 := rsvdField_eq_zero_iff.mpr (by omega)
    exact ⟨hr, by rwa [opField_toNat hr]⟩

/-! ### Decoding (30_encoding.md R91, R92) -/

/-- OP 8 to 15 are the reserved rows of the opcode table. -/
theorem instrOfOp_eq_none_iff : ∀ op : BitVec 4, instrOfOp op = none ↔ 8 ≤ op.toNat := by decide

theorem decode_of_reservedBits (h : rsvdField v ≠ 0) : decode v = .error .reservedBits := if_pos h

theorem decode_of_rsvdField_zero (h : rsvdField v = 0) :
    decode v = (instrOfOp (opField v)).elim (.error .reservedOp) .ok := by
  rw [decode, if_neg (not_not.mpr h)]
  cases instrOfOp (opField v) <;> rfl

theorem decode_encode (i : Instr) : decode (encode i) = .ok i := by
  have hr : rsvdField (encode i) = 0 := BitVec.extractLsb'_append_eq_left
  have hop : opField (encode i) = opOf i := BitVec.extractLsb'_append_eq_right
  rw [decode_of_rsvdField_zero hr, hop, instrOfOp_opOf]
  rfl

theorem decode_of_reservedOp (h8 : 8 ≤ v.toNat) (h16 : v.toNat < 16) : decode v = .error .reservedOp := by
  have hr : rsvdField v = 0 := rsvdField_eq_zero_iff.mpr h16
  have hop : instrOfOp (opField v) = none := (instrOfOp_eq_none_iff _).mpr (by rwa [opField_toNat hr])
  rw [decode_of_rsvdField_zero hr, hop]
  rfl

/-- A word above 7 has a bit in RSVD or a reserved OP. -/
theorem decode_of_illegal (h : 8 ≤ v.toNat) : ∃ e, decode v = .error e := by
  by_cases h16 : v.toNat < 16
  · exact ⟨_, decode_of_reservedOp h h16⟩
  · exact ⟨_, decode_of_reservedBits (mt rsvdField_eq_zero_iff.mp h16)⟩

/-- A word below 8 has RSVD = 0, and its OP is a row of the opcode table. -/
theorem exists_eq_encode (h : v.toNat < 8) : ∃ i, v = encode i := by
  have hr : rsvdField v = 0 := rsvdField_eq_zero_iff.mpr (by omega)
  have hop : instrOfOp (opField v) ≠ none := by
    rw [Ne, instrOfOp_eq_none_iff, opField_toNat hr]
    omega
  obtain ⟨i, hi⟩ := Option.ne_none_iff_exists'.mp hop
  exact ⟨i, by rw [encode, ← instrOfOp_eq_some hi, ← hr, rsvdField_append_opField]⟩

theorem writeAt_cmd_illegal (hs : s.regs.stat ≠ .busy) (hd : decode v = .error e) :
    writeAt 0x000 v s = .next (acceptIllegal v s) := by
  rw [writeAt_cmd, commandWrite, hd]
  exact congrArg _ (if_neg hs)

/-- Settles O2: an encoded word's RSVD is 0 and its OP is the command's. -/
theorem decodeEncodeAgree : Obligations.DecodeEncodeAgree := decode_encode

/-- Settles O1: the words 0 to 7 are the commands' encodings, and 8 to 15 have RSVD = 0 and an OP without a row. -/
theorem opcodeTableDecodes : Obligations.OpcodeTableDecodes :=
  ⟨decode_encode .clr, decode_encode .scan, decode_encode .lzwEnc, decode_encode .lzwDec, decode_encode .frmEnc,
    decode_encode .frmDec, decode_encode .strEnc, decode_encode .strDec,
    fun _ h8 h15 => decode_of_reservedOp h8 (by omega)⟩

/-- Settles O3: a word up to 7 is an encoding; any other does not decode, and its write is `acceptIllegal`. -/
theorem exactlyEightWordsAreLegal : Obligations.ExactlyEightWordsAreLegal := by
  intro v
  constructor
  · intro h
    have hlt : v.toNat < 8 := by omega
    obtain ⟨i, rfl⟩ := exists_eq_encode hlt
    exact ⟨wordWf_iff.mpr hlt, i, decode_encode i, rfl, BitVec.extractLsb'_append_eq_right.symm⟩
  · intro h
    obtain ⟨e, he⟩ := decode_of_illegal h
    have hwf : wordWf v = false := Bool.eq_false_iff.mpr fun hw => by
      have := wordWf_iff.mp hw
      omega
    exact ⟨hwf, ⟨e, he⟩, fun s hs => ⟨acceptIllegal v s, writeAt_cmd_illegal hs he, rfl, rfl, rfl, rfl, rfl⟩⟩

/-! ### The envelope (30_encoding.md R99) -/

theorem fromBe16_toNat (hi lo : Byte) : (fromBe16 hi lo).toNat = 256 * hi.toNat + lo.toNat :=
  toNat_append_eq_add hi lo

/-- The two bytes of a length, read back, are the length. -/
theorem exists_be16_eq {n : Nat} (h : n ≤ 65535) :
    ∃ hi lo : Byte, be16 n = [hi, lo] ∧ (fromBe16 hi lo).toNat = n := by
  refine ⟨_, _, rfl, ?_⟩
  rw [fromBe16, BitVec.extractLsb'_append_extractLsb' (w := 8) (len := 8), BitVec.toNat_ofNat]
  omega

/-- Settles O43: each length is its two bytes, and FRAME_LEN reads the last two of the four. -/
theorem envelopeLayout : Obligations.EnvelopeLayout := by
  intro len fr hlen hfr
  obtain ⟨e0, e1, horig, horigVal⟩ := exists_be16_eq hlen
  obtain ⟨e2, e3, hframe, hframeVal⟩ := exists_be16_eq hfr
  have henv : envelope len fr = [e0, e1, e2, e3] ++ fr := by rw [envelope, horig, hframe]; rfl
  refine ⟨e0, e1, e2, e3, henv, ?_, ?_, hframeVal, ?_⟩
  · rw [← fromBe16_toNat, horigVal]
  · rw [← fromBe16_toNat, hframeVal]
  · rw [henv, List.length_append]; rfl

end Sys2Proof.Machine
end

section
/-! PROOF. The alphabet scanner (40_alphabet_scanner.md R120 to R123): what a successful scan says (obligation O18),
when a scan raises ALPHABET_OVERFLOW (O19), and the SCAN command's run (O17). -/

namespace Sys2Proof.Machine

variable {data xs a0 alpha : List Byte} {b c : Byte}

/-! ### One byte of the scan (40_alphabet_scanner.md R120, R121) -/

/-- Everything `scanByte` can answer with: the byte is known, or it is the next symbol. -/
theorem scanByte_eq_some (h : scanByte a0 b = some alpha) : (b ∈ a0 ∧ alpha = a0) ∨ (b ∉ a0 ∧ alpha = a0 ++ [b]) := by
  unfold scanByte at h
  split at h
  · cases h; exact .inl ⟨‹_›, rfl⟩
  · split at h
    · cases h
    · cases h; exact .inr ⟨‹_›, rfl⟩

theorem scanByte_eq_none_iff : scanByte alpha b = none ↔ b ∉ alpha ∧ alpha.length = 255 := by
  unfold scanByte
  split
  · simp [*]
  · split <;> simp [*]

/-! ### Scanning a unit from its end -/

theorem scanFrom_append (a0 xs ys : List Byte) :
    scanFrom a0 (xs ++ ys) = (scanFrom a0 xs).bind fun a => scanFrom a ys := by
  induction xs generalizing a0 with
  | nil => rfl
  | cons x xs ih =>
    simp only [List.cons_append, scanFrom]
    cases scanByte a0 x with
    | none => rfl
    | some a => exact ih a

theorem scan_append (xs ys : List Byte) : scan (xs ++ ys) = (scan xs).bind fun a => scanFrom a ys :=
  scanFrom_append [] xs ys

theorem scanFrom_singleton (a0 : List Byte) (b : Byte) : scanFrom a0 [b] = scanByte a0 b := by
  simp only [scanFrom]
  cases scanByte a0 b <;> rfl

theorem scan_concat (xs : List Byte) (b : Byte) : scan (xs ++ [b]) = (scan xs).bind fun a => scanByte a b := by
  simp only [scan_append, scanFrom_singleton]

/-- A byte more leaves the alphabet as it was, or it is new and becomes the last symbol. -/
theorem scan_concat_eq_some (h : scan (xs ++ [b]) = some alpha) :
    (scan xs = some alpha ∧ b ∈ xs) ∨ ∃ a, scan xs = some a ∧ b ∉ xs ∧ alpha = a ++ [b] := by
  rw [scan_concat] at h
  obtain ⟨a, ha, hb⟩ := Option.bind_eq_some_iff.mp h
  obtain ⟨-, -, hmem, -⟩ := scan_spec ha
  rcases scanByte_eq_some hb with ⟨hin, rfl⟩ | ⟨hout, rfl⟩
  · exact .inl ⟨ha, (hmem b).mp hin⟩
  · exact .inr ⟨a, ha, mt (hmem b).mpr hout, rfl⟩

/-! ### A successful scan (40_alphabet_scanner.md R122) -/

/-- R122(c): no byte is left out exactly when none repeats. -/
theorem scan_length_eq_iff (h : scan data = some alpha) : alpha.length = data.length ↔ data.Nodup := by
  obtain ⟨hnodup, -, hmem, -⟩ := scan_spec h
  have hset : alpha.toFinset = data.toFinset := by ext b; simp [hmem]
  rw [← List.toFinset_card_of_nodup hnodup, hset]
  exact Multiset.toFinset_card_eq_card_iff_nodup (m := (data : Multiset Byte))

/-- R122(e): the first byte of a unit is the first symbol. -/
theorem scan_head (h : scan data = some alpha) (hne : data ≠ []) : alpha.head? = data.head? := by
  cases data with
  | nil => exact absurd rfl hne
  | cons x xs =>
    have hx : scanFrom [x] xs = some alpha := h
    obtain ⟨-, -, ⟨rest, rfl⟩, -⟩ := scanFrom_spec hx (List.nodup_singleton x) (by simp)
    rfl

/-- R122(f): the symbols stand in the order of their first appearance. Scanning from the end, a new byte comes last in
the unit so far and last in the alphabet. -/
theorem scan_order (h : scan data = some alpha) (hb : b ∈ data) (hc : c ∈ data) :
    data.idxOf b < data.idxOf c ↔ alpha.idxOf b < alpha.idxOf c := by
  induction data using List.reverseRecOn generalizing alpha with
  | nil => cases hb
  | append_singleton xs d ih =>
    rcases scan_concat_eq_some h with ⟨hxs, hd⟩ | ⟨a, hxs, hd, rfl⟩
    · have hold : ∀ x ∈ xs ++ [d], x ∈ xs := by simp [or_imp, hd]
      rw [List.idxOf_append_of_mem (hold b hb), List.idxOf_append_of_mem (hold c hc)]
      exact ih hxs (hold b hb) (hold c hc)
    · obtain ⟨-, -, hmem, -⟩ := scan_spec hxs
      have hda : d ∉ a := mt (hmem d).mp hd
      have hold : ∀ x ∈ xs, (xs ++ [d]).idxOf x = xs.idxOf x ∧ (a ++ [d]).idxOf x = a.idxOf x ∧
          xs.idxOf x < xs.length ∧ a.idxOf x < a.length := fun x hx =>
        ⟨List.idxOf_append_of_mem hx, List.idxOf_append_of_mem ((hmem x).mpr hx), List.idxOf_lt_length_iff.mpr hx,
          List.idxOf_lt_length_iff.mpr ((hmem x).mpr hx)⟩
      have hnew : (xs ++ [d]).idxOf d = xs.length ∧ (a ++ [d]).idxOf d = a.length := by
        simp [List.idxOf_append_of_notMem hd, List.idxOf_append_of_notMem hda]
      rcases List.mem_append.mp hb with hbx | hbd <;> rcases List.mem_append.mp hc with hcx | hcd
      · have := hold b hbx; have := hold c hcx; have := ih hxs hbx hcx; omega
      · cases List.mem_singleton.mp hcd; have := hold b hbx; omega
      · cases List.mem_singleton.mp hbd; have := hold c hcx; omega
      · cases List.mem_singleton.mp hbd; cases List.mem_singleton.mp hcd; simp

/-- Settles O18: (a), (b), (d) and membership are the scan's own lemmas; (c), (e) and the order stand above. -/
theorem scanProperties : Obligations.ScanProperties := by
  intro data alpha h
  obtain ⟨hnodup, hmax, hmem, hlen⟩ := scan_spec h
  exact ⟨le_min hmax hlen, List.length_eq_zero_iff.trans (scan_nil_iff h), scan_length_eq_iff h, hnodup, scan_head h,
    fun b => (hmem b).symm, fun _ _ => scan_order h⟩

/-! ### ALPHABET_OVERFLOW (40_alphabet_scanner.md R121) -/

/-- The scan raises at the first new byte after 255 symbols, and nowhere else. -/
theorem scan_eq_none_iff : scan data = none ↔ ∃ (pre post alpha : List Byte) (b : Byte),
    data = pre ++ b :: post ∧ scan pre = some alpha ∧ alpha.length = 255 ∧ b ∉ pre := by
  constructor
  · intro h
    induction data using List.reverseRecOn with
    | nil => cases h
    | append_singleton xs d ih =>
      rw [scan_concat] at h
      cases hxs : scan xs with
      | none =>
        obtain ⟨pre, post, alpha, b, rfl, hrest⟩ := ih hxs
        exact ⟨pre, post ++ [d], alpha, b, by simp, hrest⟩
      | some alpha =>
        rw [hxs] at h
        obtain ⟨hd, hfull⟩ := scanByte_eq_none_iff.mp h
        obtain ⟨-, -, hmem, -⟩ := scan_spec hxs
        exact ⟨xs, [], alpha, d, rfl, hxs, hfull, mt (hmem d).mpr hd⟩
  · rintro ⟨pre, post, alpha, b, rfl, hpre, hfull, hb⟩
    obtain ⟨-, -, hmem, -⟩ := scan_spec hpre
    have hraise : scanByte alpha b = none := scanByte_eq_none_iff.mpr ⟨mt (hmem b).mp hb, hfull⟩
    simp [scan_append, hpre, scanFrom, hraise]

/-- Of a list of distinct bytes: it holds every byte value exactly when it has 256 entries. -/
theorem forall_mem_iff_length (h : alpha.Nodup) : (∀ b, b ∈ alpha) ↔ alpha.length = 256 := by
  have hinj : Function.Injective (BitVec.toFin (w := 8)) := fun _ _ => BitVec.eq_of_toFin_eq
  have hcard : (alpha.map BitVec.toFin).toFinset.card = alpha.length := by
    rw [List.toFinset_card_of_nodup (h.map hinj), List.length_map]
  rw [← hcard, show 256 = Fintype.card (Fin (2 ^ 8)) from (Fintype.card_fin _).symm, Finset.card_eq_iff_eq_univ,
    Finset.eq_univ_iff_forall]
  simp only [List.mem_toFinset]
  constructor
  · exact fun hall i => List.mem_map.mpr ⟨.ofFin i, hall _, rfl⟩
  · exact fun hall b => (List.mem_map_of_injective hinj).mp (hall b.toFin)

/-- A unit overflows exactly when it holds all 256 byte values: at the raise 255 symbols and a new byte have been met,
and an alphabet that is returned is too short to hold them all. -/
theorem scan_eq_none_iff_forall_mem : scan data = none ↔ ∀ b, b ∈ data := by
  constructor
  · intro h b
    obtain ⟨pre, post, alpha, d, rfl, hpre, hfull, hd⟩ := scan_eq_none_iff.mp h
    obtain ⟨hnodup, -, hmem, -⟩ := scan_spec hpre
    have hall := (forall_mem_iff_length (hnodup.cons (mt (hmem d).mp hd))).mpr (by simp [hfull])
    rcases List.mem_cons.mp (hall b) with rfl | hb
    · simp
    · simp [(hmem b).mp hb]
  · intro hall
    cases h : scan data with
    | none => rfl
    | some alpha =>
      obtain ⟨hnodup, hmax, hmem, -⟩ := scan_spec h
      have := (forall_mem_iff_length hnodup).mp fun b => (hmem b).mpr (hall b)
      omega

/-- Settles O19: both readings of R121 stand above. -/
theorem scanOverflowsExactlyOnAllBytes : Obligations.ScanOverflowsExactlyOnAllBytes := fun _ =>
  ⟨scan_eq_none_iff_forall_mem, scan_eq_none_iff⟩

/-! ### The SCAN command (40_alphabet_scanner.md R123) -/

/-- A unit command `op` accepted in `s`, once LOAD has buffered the whole unit `data`; `src` is what is left of its
source (20_memory.md R66). -/
def State.loaded (op : BitVec 4) (data : List Byte) (src : Source) (s : State) : State :=
  let a := accept op .load s
  { a with
    regs := { a.regs with inCount := count32 data.length }
    eng := { a.eng with ibuf := data, eosSeen := true }
    env := { a.env with src := src } }

section Loaded

variable {s : State} {op : BitVec 4} {src : Source}

/-- LOAD of a unit that fits, from acceptance on, however the source splits it. -/
theorem accept_load_steps {f after : State → Turn}
    (hf : ∀ s, s.eng.ph = .load → s.eng.outq = [] → f s = loadStep after s) (h : s.ready data)
    (hlen : data.length ≤ Config.ibufSize) (op : BitVec 4) :
    ∃ k src, k ≤ data.length + 1 ∧ Steps f k (accept op .load s) (s.loaded op data src) := by
  obtain ⟨k, src, hk, -, hst⟩ := load_steps hf (accept op .load s) rfl rfl rfl rfl h.srcEnds
    (by simpa [h.stream] using hlen)
  simp only [accept_env, accept_regs, accept_eng, h.stream, List.nil_append, clearForCommand_inCount] at hk hst
  refine ⟨k, src, hk, ?_⟩
  convert hst using 1
  simp [State.loaded, count32]

/-- The environment of a command that has loaded its unit and sent nothing. -/
theorem leftEnv_loaded {t : State} (ht : t.env = (s.loaded op data src).env) : leftEnv s t [] := by
  constructor <;> simp [ht, State.loaded]

end Loaded

/-- A completion with no unspecified entry draws no result register (60_exceptions.md R293). -/
theorem drawResults_specified {op : BitVec 4} {e : Err} (ha : alphabetUnspecified op e = false)
    (hn : nextUnspecified op e = false) (d : Config.Draw) (g : Regs) : drawResults op e d g = g := by
  simp [drawResults, ha, hn]

theorem scanPhase_some (f : List Byte → State → State) {s : State} (h : scan s.eng.ibuf = some alpha) :
    scanPhase f s = .went (f alpha (s.withN alpha.length)) := by
  simp [scanPhase, h]

/-- SCAN's step in LOAD. -/
theorem scanCmdStep_load (s : State) (hp : s.eng.ph = .load) (ho : s.eng.outq = []) :
    scanCmdStep s = loadStep (fun t => .went (t.toPhase .scan)) s :=
  (flushFirst_empty ho).trans (by simp only [hp])

/-- SCAN's step in the SCAN phase, over a unit with an alphabet. -/
theorem scanCmdStep_scan {s : State} (hp : s.eng.ph = .scan) (ho : s.eng.outq = [])
    (h : scan s.eng.ibuf = some alpha) :
    scanCmdStep s = .went (finishDone ((s.withN alpha.length).publishAlphabet alpha)) :=
  (flushFirst_empty ho).trans (by simp only [hp, scanPhase_some _ h])

/-- SCAN's engine path: LOAD, the step to SCAN, the scan, the completion. -/
theorem scan_steps {s : State} (h : s.ready data) (hlen : data.length ≤ Config.ibufSize)
    (hs : scan data = some alpha) :
    ∃ k src, k ≤ data.length + 4 ∧ Steps scanCmdStep k (accept (opOf .scan) .load s)
      (complete .noError (finishDone
        ((((s.loaded (opOf .scan) data src).toPhase .scan).withN alpha.length).publishAlphabet alpha))) := by
  obtain ⟨k, src, hk, hst⟩ := accept_load_steps scanCmdStep_load h hlen (opOf .scan)
  let u := (s.loaded (opOf .scan) data src).toPhase .scan
  have toScan : scanCmdStep (s.loaded (opOf .scan) data src) = .went u := scanCmdStep_load _ rfl rfl
  have scanned := scanCmdStep_scan (s := u) rfl rfl hs
  exact ⟨k + 3, src, by omega, hst.trans (.cons rfl toScan (.cons rfl scanned (.one rfl rfl)))⟩

/-- Settles O17: SCAN runs to its completion within the step budget, and that state's parts are read off. -/
theorem scanPublishesTheAlphabet : Obligations.ScanPublishesTheAlphabet := by
  intro s data alpha h hlen hs
  obtain ⟨k, src, hk, hst⟩ := scan_steps h hlen hs
  have hrun := issue_of_steps h.notBusy h.unpaced hst (by rw [h.stream]; omega) (by simp)
  refine ⟨_, hrun, leftEnv_loaded (op := opOf .scan) (data := data) (src := src) rfl, ⟨rfl, rfl⟩, ?_⟩
  rw [complete_regs, drawResults_specified rfl rfl]
  rfl

end Sys2Proof.Machine
end

section
/-! PROOF. Whole coding runs (41_lzw_codec.md R147 to R161): how a run of the encoder can end (obligation O26), how many
codes it emits and in which range (O27), and that a decode always ends, with MALFORMED_FRAME as its only error (O36). -/

namespace Sys2Proof.Machine

variable {alpha data codes cs out : List Byte} {r r' d : Lzw} {pol : Policy} {n c k : Byte}

/-! ### Walks -/

theorem walk_cons_of_ok {g : Byte → Lzw → LzwResult} {o : List Byte} (h : g c r = .ok r' o) (cs : List Byte) :
    walk g (c :: cs) r = (walk g cs r').after o := by
  simp only [walk, h]

/-- A walk that returns takes its first step and returns from there. -/
theorem walk_cons_eq_ok {g : Byte → Lzw → LzwResult} (h : walk g (c :: cs) r = .ok r' out) :
    ∃ r1 o1 o2, g c r = .ok r1 o1 ∧ walk g cs r1 = .ok r' o2 ∧ out = o1 ++ o2 := by
  simp only [walk] at h
  split at h
  · rename_i r1 o1 h1
    obtain ⟨o2, h2, rfl⟩ := LzwResult.after_eq_ok h
    exact ⟨r1, o1, o2, h1, h2, rfl⟩
  · cases h
  · cases h

/-- A walk over a byte at which no step returns does not return. -/
theorem walk_ne_ok_of_mem {g : Byte → Lzw → LzwResult} {P : Lzw → Prop}
    (hg : ∀ c r r' out, P r → g c r = .ok r' out → P r') (hbad : ∀ r r' out, P r → g c r ≠ .ok r' out)
    (hc : c ∈ cs) (hr : P r) : walk g cs r ≠ .ok r' out := by
  induction cs generalizing r out with
  | nil => cases hc
  | cons b cs ih =>
    intro hw
    obtain ⟨r1, o1, o2, hstep, hrest, -⟩ := walk_cons_eq_ok hw
    rcases List.mem_cons.mp hc with rfl | hc
    · exact hbad r r1 o1 hr hstep
    · exact ih hc (hg b r r1 o1 hr hstep) hrest

/-- An alphabet's size as N_CUR holds it. -/
theorem alphabetSize_toNat (h : alpha.length ≤ 255) : (BitVec.ofNat 8 alpha.length).toNat = alpha.length := by
  rw [BitVec.toNat_ofNat]
  omega

/-! ### The shape of an encoder's run (41_lzw_codec.md R147, R148) -/

theorem encodeUnit_of_distinct (h : alpha.length = data.length) : encodeUnit pol alpha data = .ok (Lzw.seed alpha) [] :=
  if_pos h

theorem encodeUnit_of_repeated (h : alpha.length ≠ data.length) :
    encodeUnit pol alpha data = encRun pol data (Lzw.seed alpha) :=
  if_neg h

theorem encRun_eq_ok (h : encRun pol cs r = .ok r' codes) :
    ∃ out, walk (encStep pol) cs r = .ok r' out ∧ codes = out ++ encEnd r' := by
  unfold encRun at h
  cases hw : walk (encStep pol) cs r <;> rw [hw] at h <;> cases h
  exact ⟨_, rfl, rfl⟩

/-- A unit whose bytes are all distinct is its own alphabet (40_alphabet_scanner.md R122(c)). -/
theorem scan_eq_self (h : scan data = some alpha) (hlen : alpha.length = data.length) : alpha = data := by
  induction data using List.reverseRecOn generalizing alpha with
  | nil => exact List.length_eq_zero_iff.mp hlen
  | append_singleton xs b ih =>
    rw [List.length_append, List.length_singleton] at hlen
    rcases scan_concat_eq_some h with ⟨hxs, -⟩ | ⟨a, hxs, -, rfl⟩
    · have hle := (scan_spec hxs).2.2.2
      omega
    · rw [ih hxs (by simpa using hlen)]

/-! ### The shape of a decoder's run (41_lzw_codec.md R151, R154) -/

theorem lzwDecode_nil (alpha : List Byte) : lzwDecode alpha [] = .ok (Lzw.seed alpha) alpha := if_pos rfl

theorem lzwDecode_of_codes (h : codes ≠ []) :
    lzwDecode alpha codes = walk (decCode (BitVec.ofNat 8 alpha.length)) codes (Lzw.seed alpha) :=
  if_neg h

/-! ### The encoder's steps, by what they do to the dictionary and W -/

/-- An insertion that never raises adds at most one entry (41_lzw_codec.md R143). -/
theorem decInsert_next_le (s : List Byte) (r : Lzw) : (decInsert s r).next.toNat ≤ r.next.toNat + 1 := by
  unfold decInsert
  split
  · omega
  · rename_i hf
    exact (insert_next (by simpa using hf) s).le

/-- What an EncStep that goes on does: a hit lengthens W, a miss emits its code, inserts where there is room and restarts
W from the byte (41_lzw_codec.md R142, R145). -/
theorem encStep_eq_ok (h : EncOk alpha r) (hc : c ∈ alpha) (hs : encStep pol c r = .ok r' out) :
    (out = [] ∧ r'.w = r.w ++ [c] ∧ r'.dict = r.dict ∧ r'.next = r.next) ∨
    (out = [r.wCode] ∧ r.wValid = true ∧ r'.w = [c] ∧ r'.dict = (decInsert (r.w ++ [c]) r).dict ∧
      r'.next = (decInsert (r.w ++ [c]) r).next) := by
  have hw : ∀ (x : Lzw) (s : List Byte), x.code s = some x.wCode → x.wValid = true → x.w = s := fun x s hx hv => by
    simp [Lzw.w, hv, code_some hx]
  rcases encStep_cases h hc pol with ⟨k, hk, he⟩ | ⟨hv, -, hf, k, hk, he⟩ | ⟨hv, -, hf, -, k, hk, he⟩ |
    ⟨-, -, -, -, he⟩ <;> rw [he] at hs <;> cases hs
  · exact .inl ⟨rfl, hw _ _ hk rfl, rfl, rfl⟩
  · have hins : decInsert (r.w ++ [c]) r = r.insert (r.w ++ [c]) := if_neg (by simp [hf])
    exact .inr ⟨rfl, hv, hw _ _ hk hv, by rw [hins], by rw [hins]⟩
  · have hins : decInsert (r.w ++ [c]) r = r := if_pos hf
    exact .inr ⟨rfl, hv, hw _ _ hk hv, by rw [hins], by rw [hins]⟩

/-! ### How the encoder ends (41_lzw_codec.md R142, R145) -/

/-- Settles O26: the units of distinct bytes have no step, and of the others a run that does not return raises in one
EncStep. -/
theorem encoderRaisesOnlyUnderErrorPolicy : Obligations.EncoderRaisesOnlyUnderErrorPolicy := by
  intro pol data alpha hs
  obtain ⟨hnodup, hmax, hmem, -⟩ := scan_spec hs
  by_cases hlen : alpha.length = data.length
  · exact .inl ⟨_, _, encodeUnit_of_distinct hlen⟩
  rw [encodeUnit_of_repeated hlen, encRun]
  have hseed := seed_encOk hnodup hmax
  have hdata : ∀ c ∈ data, c ∈ alpha := fun c => (hmem c).mpr
  cases hw : walk (encStep pol) data (Lzw.seed alpha) with
  | ok r out => exact .inl ⟨_, _, rfl⟩
  | raised e r out =>
    obtain ⟨c, r1, o, hc, hr1, hstep⟩ := walk_raises (P := EncOk alpha) (Q := (· ∈ alpha))
      (fun _ _ _ _ hp hq hg => (encStep_ok hp hq hg).1) _ _ _ _ _ hseed hdata hw
    obtain ⟨rfl, hpol, rfl, hnext, -⟩ := encStep_raised hr1 hc hstep
    exact .inr ⟨hpol, _, _, rfl, BitVec.eq_of_toNat_eq hnext⟩
  | fault x => exact absurd hw (encStep_walk_no_fault hseed pol hdata x)

/-- Under FREEZE every unit with an alphabet is encoded (41_lzw_codec.md R142). -/
theorem encodeUnit_freeze (h : scan data = some alpha) : ∃ r codes, encodeUnit .freeze alpha data = .ok r codes := by
  rcases encoderRaisesOnlyUnderErrorPolicy .freeze data alpha h with hok | ⟨hpol, -⟩
  · exact hok
  · cases hpol

/-! ### How many codes, and which (41_lzw_codec.md R161; 30_encoding.md R98) -/

/-- The codes of a run, with the one W still owes, are no more than its bytes; after a byte W holds something. -/
theorem encWalk_length (h : EncOk alpha r) (hcs : ∀ c ∈ cs, c ∈ alpha) (hw : walk (encStep pol) cs r = .ok r' out) :
    out.length + r'.owed ≤ cs.length + r.owed ∧ (r.wValid = true ∨ cs ≠ [] → r'.wValid = true) := by
  induction cs generalizing r out with
  | nil => cases hw; simp
  | cons c cs ih =>
    obtain ⟨r1, o1, o2, hstep, hrest, rfl⟩ := walk_cons_eq_ok hw
    obtain ⟨hr1, hv1, hlen1⟩ := encStep_ok h (hcs c (by simp)) hstep
    change o1.length + r1.owed ≤ 1 + r.owed at hlen1
    obtain ⟨hlen, hv⟩ := ih hr1 (fun x hx => hcs x (by simp [hx])) hrest
    simp only [List.length_append, List.length_cons]
    exact ⟨by omega, fun _ => hv (.inl hv1)⟩

/-- W's code names a slot that is in use. -/
theorem EncOk.wCode_range (h : EncOk alpha r) (hv : r.wValid = true) :
    1 ≤ r.wCode.toNat ∧ r.wCode.toNat < r.next.toNat :=
  (h.dict.present _ r.wCode.isLt).mp (by rw [← slot_eq]; exact h.w hv)

/-- The i-th code of a run is below NEXT when the i codes before it were emitted, and each of them added at most one
entry. -/
theorem encWalk_code_range (h : EncOk alpha r) (hcs : ∀ c ∈ cs, c ∈ alpha)
    (hw : walk (encStep pol) cs r = .ok r' out) {i : Nat} (hi : (out ++ encEnd r')[i]? = some k) :
    1 ≤ k.toNat ∧ k.toNat < r.next.toNat + i := by
  induction cs generalizing r out i with
  | nil =>
    obtain ⟨rfl, rfl⟩ := LzwResult.ok.inj hw
    unfold encEnd at hi
    split at hi
    · rename_i hv
      have hrange := h.wCode_range hv
      obtain ⟨rfl, hk⟩ : i = 0 ∧ r.wCode = k := by simpa [List.getElem?_singleton] using hi
      rwa [hk] at hrange
    · simp at hi
  | cons c cs ih =>
    obtain ⟨r1, o1, o2, hstep, hrest, rfl⟩ := walk_cons_eq_ok hw
    have hc := hcs c (by simp)
    have hrec := fun {j} => ih (i := j) (encStep_ok h hc hstep).1 (fun x hx => hcs x (by simp [hx])) hrest
    rcases encStep_eq_ok h hc hstep with ⟨rfl, -, -, hnext⟩ | ⟨rfl, hv, -, -, hnext⟩
    · rw [← hnext]
      exact hrec hi
    · cases i with
      | zero => cases hi; exact h.wCode_range hv
      | succ j =>
        have hins := decInsert_next_le (r.w ++ [c]) r
        have hj := hrec (j := j) (by simpa using hi)
        rw [hnext] at hj
        omega

/-- No entry is longer than its code: a seeded one has one byte, and a learned one is one byte longer than an earlier one
(10_state.md R47). -/
theorem DictInv.entry_length_le (h : DictInv alpha r) {m : Nat} (hm : m < 256) {s : List Byte}
    (hs : r.dict[m] = some s) : s.length ≤ m := by
  induction m using Nat.strong_induction_on generalizing s with
  | _ m ih =>
    obtain ⟨h1, hnext⟩ := (h.present m hm).mp (by simp [hs])
    by_cases hseed : m ≤ alpha.length
    · rw [h.seeded m hm h1 hseed] at hs
      obtain ⟨b, -, rfl⟩ := Option.map_eq_some_iff.mp hs
      exact h1
    · obtain ⟨p, hp, q, b, hq, he⟩ := h.learned m hm (by omega) hnext
      have hlen := ih p hp (by omega) hq
      rw [he] at hs
      cases hs
      rw [List.length_append, List.length_singleton]
      omega

/-- A code is decoded to at most as many bytes as its number. -/
theorem decCode_out_length (h : DecOk alpha r) (hn : n.toNat = alpha.length) (hs : decCode n k r = .ok r' out) :
    out.length ≤ k.toNat := by
  have hslot : ∀ {j : Byte} {s : List Byte}, r.slot j = some s → s.length ≤ j.toNat := fun {j s} hj =>
    h.dict.entry_length_le j.isLt (by rw [← slot_eq]; exact hj)
  rcases decCode_cases h (d := k) hn with ⟨-, -, -, cur, hcur, he⟩ | ⟨-, -, he⟩ | ⟨-, c, cs, hcur, he⟩ |
    ⟨hv, -, hk, c, cs, hp, he⟩ | ⟨-, -, -, he⟩ <;> rw [he] at hs <;> cases hs
  · exact hslot hcur
  · exact hslot hcur
  · have hprev := h.prev hv
    have hlen := hslot (prev_of_valid hv hprev)
    rw [slot_eq] at hprev
    have hlt := ((h.dict.present _ r.prevCode.isLt).mp hprev).2
    rw [List.length_append, List.length_singleton]
    omega

theorem decWalk_out_length (h : DecOk alpha r) (hn : n.toNat = alpha.length)
    (hw : walk (decCode n) codes r = .ok r' out) : out.length ≤ 255 * codes.length := by
  induction codes generalizing r out with
  | nil => cases hw; simp
  | cons c cs ih =>
    obtain ⟨r1, o1, o2, hstep, hrest, rfl⟩ := walk_cons_eq_ok hw
    have hlen1 := decCode_out_length h hn hstep
    have hlen2 := ih (decCode_ok h hn hstep).1 hrest
    have hc := c.isLt
    simp only [List.length_append, List.length_cons]
    omega

/-- Every unit but those of distinct bytes has a code (41_lzw_codec.md R161). -/
theorem encRun_length (hs : scan data = some alpha) (hlen : alpha.length ≠ data.length)
    (h : encRun pol data (Lzw.seed alpha) = .ok r codes) : 1 ≤ codes.length ∧ codes.length ≤ data.length := by
  obtain ⟨hnodup, hmax, hmem, hle⟩ := scan_spec hs
  obtain ⟨out, hw, rfl⟩ := encRun_eq_ok h
  have hne : data ≠ [] := by
    rintro rfl
    exact hlen (Nat.le_zero.mp hle)
  obtain ⟨hcount, hv⟩ := encWalk_length (seed_encOk hnodup hmax) (fun c => (hmem c).mpr) hw
  have howed : (Lzw.seed alpha).owed = 0 := rfl
  have hone : r.owed = 1 := by simp [Lzw.owed, hv (.inr hne)]
  rw [List.length_append, encEnd_length]
  omega

/-- Settles O27: the counts and ranges of a run of the encoder, and the decoder's output bound, code by code. -/
theorem codeCountAndRange : Obligations.CodeCountAndRange := by
  refine ⟨fun pol data alpha codes r hs h => ?_, fun alpha codes out r hmax h => ?_⟩
  · obtain ⟨hnodup, hmax, hmem, -⟩ := scan_spec hs
    by_cases hlen : alpha.length = data.length
    · rw [encodeUnit_of_distinct hlen] at h
      have hcodes : codes = [] := (LzwResult.ok.inj h).2.symm
      subst hcodes
      exact ⟨fun _ => rfl, fun hne => absurd hlen hne, fun i hi => absurd hi (Nat.not_lt_zero i)⟩
    · rw [encodeUnit_of_repeated hlen] at h
      refine ⟨fun he => absurd he hlen, fun _ => encRun_length hs hlen h, fun i hi => ?_⟩
      obtain ⟨out, hw, rfl⟩ := encRun_eq_ok h
      obtain ⟨hlo, hhi⟩ := encWalk_code_range (seed_encOk hnodup hmax) (fun c => (hmem c).mpr) hw
        (List.getElem?_eq_getElem hi)
      have hbyte := ((out ++ encEnd r)[i]).isLt
      rw [seed_next hmax] at hhi
      omega
  · by_cases hcodes : codes = []
    · subst hcodes
      obtain ⟨-, rfl⟩ := LzwResult.ok.inj ((lzwDecode_nil alpha).symm.trans h)
      exact (if_pos rfl).ge
    · rw [lzwDecode_of_codes hcodes] at h
      rw [if_neg hcodes]
      exact decWalk_out_length (seed_decOk hmax) (alphabetSize_toNat hmax) h

/-! ### How the decoder ends (41_lzw_codec.md R152, R153) -/

/-- Code 0 is never decoded: no slot stands at it, and it is neither a seeded code nor NEXT. -/
theorem decCode_zero_ne_ok (h : DecOk alpha r) (hn : n.toNat = alpha.length) : decCode n 0 r ≠ .ok r' out := by
  intro hs
  have hslot : r.slot 0 = none := h.dict.inRange.slotZero
  have hnext := h.dict.nextLo
  rcases decCode_cases h (d := 0) hn with ⟨-, h1, -⟩ | ⟨-, -, he⟩ | ⟨-, c, cs, hcur, -⟩ | ⟨-, -, hk, -⟩ |
    ⟨-, -, -, he⟩
  · simp at h1
  · rw [he] at hs; cases hs
  · rw [hslot] at hcur; cases hcur
  · rw [← hk] at hnext; simp at hnext
  · rw [he] at hs; cases hs

theorem lzwDecode_ends (hmax : alpha.length ≤ 255) (codes : List Byte) :
    (∃ r out, lzwDecode alpha codes = .ok r out) ∨ ∃ r out, lzwDecode alpha codes = .raised .malformedFrame r out := by
  by_cases hcodes : codes = []
  · subst hcodes
    exact .inl ⟨_, _, lzwDecode_nil alpha⟩
  have hn := alphabetSize_toNat hmax
  have hseed := seed_decOk hmax
  rw [lzwDecode_of_codes hcodes]
  cases hw : walk (decCode (BitVec.ofNat 8 alpha.length)) codes (Lzw.seed alpha) with
  | ok r out => exact .inl ⟨r, out, rfl⟩
  | raised e r out =>
    obtain ⟨c, r1, o, -, hr1, hstep⟩ := walk_raises (P := DecOk alpha) (Q := fun _ => True)
      (fun _ _ _ _ hp _ hg => (decCode_ok hp hn hg).1) _ _ _ _ _ hseed (fun _ _ => trivial) hw
    obtain ⟨rfl, -, -⟩ := decCode_raised hr1 hn hstep
    exact .inr ⟨r, out, rfl⟩
  | fault x => exact absurd hw (decCode_walk_no_fault hseed hn codes x)

/-- Settles O36: a decode ends in one of two ways, and over a code 0 it does not return. -/
theorem decoderRaisesOnlyMalformedFrame : Obligations.DecoderRaisesOnlyMalformedFrame := by
  intro alpha codes hmax
  refine ⟨lzwDecode_ends hmax codes, fun hzero => (lzwDecode_ends hmax codes).resolve_left ?_⟩
  rintro ⟨r, out, h⟩
  have hn := alphabetSize_toNat hmax
  rw [lzwDecode_of_codes (List.ne_nil_of_mem hzero)] at h
  exact walk_ne_ok_of_mem (g := decCode _) (fun _ _ _ _ hp hg => (decCode_ok hp hn hg).1)
    (fun _ _ _ hp => decCode_zero_ne_ok hp hn) hzero (seed_decOk hmax) h

end Sys2Proof.Machine
end

section
/-! PROOF. The round-trip law (41_lzw_codec.md R155, R156; obligation O44). The decoder stays one insertion behind the
encoder: the entry it still lacks is PREV with W's first byte, which it learns with the code of W. -/

namespace Sys2Proof.Machine

variable {alpha data codes cs out : List Byte} {r r' d : Lzw} {pol : Policy} {n c k : Byte}

/-! ### One insertion behind (41_lzw_codec.md R155) -/

/-- The decoder's registers once it has learned that `w` comes next: after a first code, PREV ++ [head(w)] is inserted
(41_lzw_codec.md R153). -/
def Lzw.learn (w : List Byte) (d : Lzw) : Lzw := if d.prevValid then decInsert (d.prev ++ w.take 1) d else d

theorem learn_fresh {w : List Byte} (h : d.prevValid = false) : d.learn w = d := if_neg (by simp [h])

theorem learn_started {w : List Byte} (h : d.prevValid = true) : d.learn w = decInsert (d.prev ++ w.take 1) d :=
  if_pos h

theorem decInsert_prevValid (s : List Byte) (d : Lzw) : (decInsert s d).prevValid = d.prevValid := by
  unfold decInsert
  split <;> rfl

theorem learn_prevValid (w : List Byte) (d : Lzw) : (d.learn w).prevValid = d.prevValid := by
  unfold Lzw.learn
  split
  · exact decInsert_prevValid ..
  · rfl

/-- The decoder `d` has decoded the codes that the encoder `r` has emitted. -/
structure Follows (alpha : List Byte) (r d : Lzw) : Prop where
  enc : EncOk alpha r
  dec : DecOk alpha d
  dict : (d.learn r.w).dict = r.dict
  next : (d.learn r.w).next = r.next
  fresh : d.prevValid = false → d.next.toNat = alpha.length + 1
  started : d.prevValid = true → r.wValid = true

/-- The decoder `d` has also decoded the code of the encoder's W, and nothing is left to learn. -/
structure CaughtUp (alpha : List Byte) (r d : Lzw) : Prop where
  dec : DecOk alpha d
  valid : d.prevValid = true
  prev : d.prev = r.w
  dict : d.dict = r.dict
  next : d.next = r.next

theorem seed_follows (hn : alpha.Nodup) (hl : alpha.length ≤ 255) :
    Follows alpha (Lzw.seed alpha) (Lzw.seed alpha) where
  enc := seed_encOk hn hl
  dec := seed_decOk hl
  dict := rfl
  next := rfl
  fresh _ := seed_next hl
  started h := h

theorem slot_congr {x y : Lzw} (h : x.dict = y.dict) (k : Byte) : x.slot k = y.slot k := by
  rw [Lzw.slot, h, Lzw.slot]

theorem slot_decInsert (s : List Byte) (d : Lzw) (k : Byte) :
    (decInsert s d).slot k = if k.toNat = d.next.toNat then some s else d.slot k := by
  have hk := k.isLt
  unfold decInsert
  split
  · rename_i hf
    have hnext := full_iff.mp hf
    rw [if_neg (by omega)]
  · rw [slot_eq, insert_get s (by omega), slot_eq]

theorem decInsert_congr {x y : Lzw} (hd : x.dict = y.dict) (hn : x.next = y.next) (s : List Byte) :
    (decInsert s x).dict = (decInsert s y).dict ∧ (decInsert s x).next = (decInsert s y).next := by
  have hf : x.full = y.full := by rw [Lzw.full, hn, Lzw.full]
  unfold decInsert
  rw [hf]
  split
  · exact ⟨hd, hn⟩
  · exact ⟨by rw [Lzw.insert, hd, hn]; rfl, by rw [Lzw.insert, hn]; rfl⟩

/-- The code of W, decoded next, gives W: its entry is one the decoder has, or the one it is about to learn
(41_lzw_codec.md R152, R153). -/
theorem Follows.decode_w (h : Follows alpha r d) (hv : r.wValid = true) (hn : n.toNat = alpha.length) :
    ∃ d', decCode n r.wCode d = .ok d' r.w ∧ CaughtUp alpha r d' := by
  have hw : r.slot r.wCode = some r.w := w_of_valid hv (h.enc.w hv)
  have hlearn : (d.learn r.w).slot r.wCode = some r.w := (slot_congr h.dict _).trans hw
  suffices hdec : ∃ d', decCode n r.wCode d = .ok d' r.w ∧ d'.prevValid = true ∧ d'.prevCode = r.wCode ∧
      d'.dict = r.dict ∧ d'.next = r.next by
    obtain ⟨d', hstep, hpv, hpc, hdict, hnext⟩ := hdec
    refine ⟨d', hstep, (decCode_ok h.dec hn hstep).1, hpv, ?_, hdict, hnext⟩
    simp [Lzw.prev, hpv, hpc, slot_congr hdict, hw]
  rcases decCode_cases h.dec (d := r.wCode) hn with ⟨hpv, -, -, cur, hcur, hstep⟩ | ⟨hpv, hbad, -⟩ |
    ⟨hpv, b, bs, hcur, hstep⟩ | ⟨hpv, -, hk, b, bs, hprev, hstep⟩ | ⟨hpv, hnone, hk, -⟩
  · -- the first code, a seeded one
    rw [learn_fresh hpv, hcur] at hlearn
    obtain rfl := Option.some.inj hlearn
    exact ⟨_, hstep, rfl, rfl, learn_fresh hpv ▸ h.dict, learn_fresh hpv ▸ h.next⟩
  · have hrange := h.enc.wCode_range hv
    rw [← h.next, learn_fresh hpv, h.fresh hpv] at hrange
    omega
  · -- a code the decoder has: learning changes no present slot
    have hold := ((h.dec.dict.present _ r.wCode.isLt).mp (by rw [← slot_eq, hcur]; simp)).2
    rw [learn_started hpv, slot_decInsert, if_neg hold.ne, hcur] at hlearn
    have hwb := Option.some.inj hlearn
    have hsame : decInsert (d.prev ++ [b]) d = d.learn r.w := by rw [learn_started hpv, ← hwb]; rfl
    rw [hsame, hwb] at hstep
    exact ⟨_, hstep, (learn_prevValid ..).trans hpv, rfl, h.dict, h.next⟩
  · -- the self-referential case: the code is the one to be learned, so W is PREV with PREV's own first byte
    rw [learn_started hpv, slot_decInsert, if_pos hk] at hlearn
    have hwp := Option.some.inj hlearn
    have hhead : r.w.take 1 = [b] := by rw [← hwp, hprev]; rfl
    rw [hhead] at hwp
    have hsame : decInsert (d.prev ++ [b]) d = d.learn r.w := by rw [learn_started hpv, hhead]
    rw [hsame, hwp] at hstep
    exact ⟨_, hstep, (learn_prevValid ..).trans hpv, rfl, h.dict, h.next⟩
  · rw [learn_started hpv, slot_decInsert, if_neg hk, hnone] at hlearn
    cases hlearn

/-- A hit lengthens W behind its first byte, so what the decoder has to learn stays the same. -/
theorem Follows.hit (h : Follows alpha r d) (henc : EncOk alpha r') (hv : r'.wValid = true) (hw : r'.w = r.w ++ [c])
    (hd : r'.dict = r.dict) (hn : r'.next = r.next) : Follows alpha r' d := by
  have hlearn : d.learn r'.w = d.learn r.w := by
    cases hpv : d.prevValid with
    | false => rw [learn_fresh hpv, learn_fresh hpv]
    | true =>
      have hrv := h.started hpv
      have hne : r.w ≠ [] := h.enc.dict.entry_ne_nil r.wCode.isLt
        (by rw [← slot_eq]; exact w_of_valid hrv (h.enc.w hrv))
      rw [learn_started hpv, learn_started hpv, hw, List.take_append_of_le_length (List.length_pos_iff.mpr hne)]
  exact ⟨henc, h.dec, by rw [hlearn, h.dict, hd], by rw [hlearn, h.next, hn], h.fresh, fun _ => hv⟩

/-- After a miss the encoder is one insertion ahead again, by W and the byte that W restarts from. -/
theorem CaughtUp.miss (h : CaughtUp alpha r d) (henc : EncOk alpha r') (hv : r'.wValid = true) (hw : r'.w = [c])
    (hd : r'.dict = (decInsert (r.w ++ [c]) r).dict) (hn : r'.next = (decInsert (r.w ++ [c]) r).next) :
    Follows alpha r' d := by
  have hlearn : d.learn r'.w = decInsert (r.w ++ [c]) d := by
    rw [hw, learn_started h.valid, h.prev]; rfl
  obtain ⟨hdict, hnext⟩ := decInsert_congr h.dict h.next (r.w ++ [c])
  refine ⟨henc, h.dec, ?_, ?_, fun hpv => ?_, fun _ => hv⟩
  · rw [hlearn, hdict, hd]
  · rw [hlearn, hnext, hn]
  · rw [h.valid] at hpv; cases hpv

/-! ### The law (41_lzw_codec.md R156) -/

/-- A decoder that follows decodes the rest of the codes to W and the rest of the unit, and the dictionaries are equal at
the end. -/
theorem decode_rest (hn : n.toNat = alpha.length) (h : Follows alpha r d) (hcs : ∀ c ∈ cs, c ∈ alpha)
    (hne : r.wValid = true ∨ cs ≠ []) (hw : walk (encStep pol) cs r = .ok r' out) :
    ∃ d', walk (decCode n) (out ++ encEnd r') d = .ok d' (r.w ++ cs) ∧ d'.next = r'.next ∧ d'.dict = r'.dict := by
  induction cs generalizing r d out with
  | nil =>
    obtain ⟨rfl, rfl⟩ := LzwResult.ok.inj hw
    have hv := hne.resolve_right (not_not_intro rfl)
    obtain ⟨d', hstep, hd'⟩ := h.decode_w hv hn
    refine ⟨d', ?_, hd'.next, hd'.dict⟩
    rw [encEnd, if_pos hv, List.nil_append, walk_cons_of_ok hstep]
    rfl
  | cons c cs ih =>
    obtain ⟨r1, o1, o2, hstep, hrest, rfl⟩ := walk_cons_eq_ok hw
    have hc := hcs c (by simp)
    obtain ⟨henc, hv1, -⟩ := encStep_ok h.enc hc hstep
    have rest := fun {d1} (h1 : Follows alpha r1 d1) => ih h1 (fun x hx => hcs x (by simp [hx])) (.inl hv1) hrest
    rcases encStep_eq_ok h.enc hc hstep with ⟨rfl, hw1, hd1, hn1⟩ | ⟨rfl, hv, hw1, hd1, hn1⟩
    · obtain ⟨d', hdec, hend⟩ := rest (h.hit henc hv1 hw1 hd1 hn1)
      rw [hw1, List.append_assoc] at hdec
      exact ⟨d', hdec, hend⟩
    · obtain ⟨d1, hfirst, hcaught⟩ := h.decode_w hv hn
      obtain ⟨d', hdec, hend⟩ := rest (hcaught.miss henc hv1 hw1 hd1 hn1)
      refine ⟨d', ?_, hend⟩
      rw [hw1] at hdec
      rw [List.append_assoc, List.singleton_append, walk_cons_of_ok hfirst, hdec]
      rfl

/-- Settles O44: a unit of distinct bytes is its own alphabet, and of any other the decoder follows the encoder from the
seeded dictionary on. -/
theorem lzwRoundTrip : Obligations.LzwRoundTrip := by
  intro data alpha hs
  refine ⟨encodeUnit_freeze hs, fun pol codes r h => ?_⟩
  obtain ⟨hnodup, hmax, hmem, -⟩ := scan_spec hs
  by_cases hlen : alpha.length = data.length
  · rw [encodeUnit_of_distinct hlen] at h
    obtain ⟨rfl, hcodes⟩ := LzwResult.ok.inj h
    rw [← hcodes, ← scan_eq_self hs hlen]
    exact ⟨_, lzwDecode_nil alpha, rfl, rfl⟩
  · rw [encodeUnit_of_repeated hlen] at h
    obtain ⟨hpos, hle⟩ := encRun_length hs hlen h
    have hdata : data ≠ [] := List.ne_nil_of_length_pos (hpos.trans hle)
    obtain ⟨out, hw, rfl⟩ := encRun_eq_ok h
    rw [lzwDecode_of_codes (List.ne_nil_of_length_pos hpos)]
    exact decode_rest (alphabetSize_toNat hmax) (seed_follows hnodup hmax) (fun c => (hmem c).mpr) (.inr hdata) hw

end Sys2Proof.Machine
end

section
/-! PROOF. The commands LZW_ENC and LZW_DEC (41_lzw_codec.md R158 to R160): the engine's coding phases end where the
big-step functions do (obligations O22, O29, O30). -/

namespace Sys2Proof.Machine

variable {f : State → Turn} {g : Byte → Lzw → LzwResult} {s s0 t : State} {e0 : Engine}
  {alpha data codes out : List Byte} {r r' : Lzw} {e : Err} {op : BitVec 4} {src : Source} {next : BitVec 9}

/-! ### The end of a run that publishes NEXT -/

/-- From `s` the command has sent `out` and completed with outcome `e` and DICT_NEXT = `next`; of the registers and the
environment nothing else was touched before the completion. -/
def EndsRun (e : Err) (next : BitVec 9) (s t : State) (out : List Byte) : Prop :=
  ∃ (u : State) (c : List Nat), t = complete e u ∧
    u.regs = { s.regs with outCount := s.regs.outCount + BitVec.ofNat 32 out.length, dictNext := next } ∧
    u.env = { s.env with sink := { s.env.sink.take out with calls := c } } ∧ u.eng.opCur = s.eng.opCur

@[simp] theorem emit_nil (s : State) : s.emit [] = s := by simp [State.emit]

/-- A run from where the output `a` has been sent is a run that sends `a` first. -/
theorem EndsRun.after_sent {a b : List Byte} {c : List Nat} {en : Engine} (hen : en.opCur = s.eng.opCur)
    (h : EndsRun e next ({ s with eng := en }.sent a c) t b) : EndsRun e next s t (a ++ b) := by
  obtain ⟨u, c', rfl, hregs, henv, hop⟩ := h
  refine ⟨u, c', rfl, ?_, ?_, hop.trans hen⟩
  · rw [hregs]; simp [BitVec.add_assoc, BitVec.ofNat_add]
  · rw [henv]; simp [Sink.take, Function.comp_def, Nat.sub_sub]

/-- What a unit command leaves that ended so after LOAD (60_exceptions.md R293, where no entry is "U"). -/
theorem EndsRun.result (h : EndsRun e next s0 t out) (henv : s0.env = (s.loaded op data src).env)
    (hop : s0.eng.opCur = op) (hcount : s0.regs.outCount = 0) (ha : alphabetUnspecified op e = false)
    (hn : nextUnspecified op e = false) :
    leftEnv s t out ∧ t.atRest ∧
      t.regs = setOutcome e { s0.regs with outCount := count32 out.length, dictNext := next } := by
  obtain ⟨u, c, rfl, hregs, huenv, huop⟩ := h
  refine ⟨?_, ⟨rfl, rfl⟩, ?_⟩
  · constructor <;> simp [huenv, henv, State.loaded]
  · rw [complete_regs, huop, hop, drawResults_specified ha hn, hregs, hcount]
    simp [count32]

theorem setOutcome_not_busy (e : Err) (g : Regs) : (setOutcome e g).stat ≠ .busy := by
  rw [setOutcome_stat]
  split <;> decide

/-- FINISH: the pending output is flushed, then the command completes (44_control.md R266). -/
theorem finish_steps (hfl : Flushes f) (u : State) (hb : u.regs.stat = .busy) (hp : u.eng.ph = .finish)
    (hfit : u.env.sink.fits u.eng.outq.length = true) :
    ∃ k c, k ≤ u.env.sink.calls.length + 2 ∧
      Steps f k u (complete u.eng.outcome ({ u with eng.outq := [] }.sent u.eng.outq c)) := by
  obtain ⟨k, c, hk, hst⟩ := flush_whole hfl u hb hfit
  exact ⟨k + 1, c, by omega, hst.trans (.one hb (hfl.finish _ rfl hp))⟩

/-- The step that leaves a coding phase, with the last output `out`, and what follows it. -/
theorem endRun_steps (hfl : Flushes f) (hb : s.regs.stat = .busy) (ho : s.eng.outq = [])
    (hend : f s = .went (endRun (s.emit out))) (hfit : s.env.sink.fits out.length = true) :
    ∃ k t, k ≤ s.env.sink.calls.length + 3 ∧ Steps f k s t ∧ EndsRun .noError s.eng.lzw.next s t out := by
  have hout : (endRun (s.emit out)).eng.outq = out := by simp [endRun_eq, ho]
  obtain ⟨k, c, hk, hst⟩ := finish_steps hfl (endRun (s.emit out)) hb rfl (by rw [hout]; exact hfit)
  rw [hout] at hst
  exact ⟨k + 1, _, Nat.add_le_add_right hk 1, .cons hb hend hst, _, c, rfl, rfl, rfl, rfl⟩

/-! ### A coding phase over its whole buffer (41_lzw_codec.md R158) -/

theorem Engine.at_self (en : Engine) (ho : en.outq = []) : en = en.at en.ipos en.lzw := by
  rw [Engine.at, ← ho]

/-- The walk returns, and the step after it leaves the phase with the output `tail`. -/
theorem coding_ok_steps {bad : State → State} {buf tail : List Byte} (hfl : Flushes f) (hw : Walks f g bad buf e0)
    (hend : ∀ s, s.eng = e0.at buf.length r' → f s = .went (endRun (s.emit tail))) (hb : s.regs.stat = .busy)
    (hs : s.eng = e0.at 0 r) (hrun : walk g buf r = .ok r' out)
    (hfit : s.env.sink.fits (out ++ tail).length = true) :
    ∃ k t, k ≤ 2 * buf.length + s.env.sink.calls.length + 3 ∧ Steps f k s t ∧
      EndsRun .noError r'.next s t (out ++ tail) := by
  rw [List.length_append] at hfit
  have hfit1 : s.env.sink.fits out.length = true := fits_mono hfit (Nat.le_add_right _ _)
  obtain ⟨k1, c, hk1, hst1⟩ := walk_ok hfl hw s 0 r r' out hb hs (Nat.zero_le _) hrun hfit1
  set u := { s with eng := e0.at buf.length r' }.sent out c with hu
  obtain ⟨k2, t, hk2, hst2, hends⟩ := endRun_steps (s := u) hfl hb rfl (hend u rfl)
    ((fits_take hfit1).trans hfit)
  have hcalls : u.env.sink.calls = c := rfl
  rw [hcalls] at hk2
  exact ⟨k1 + k2, t, by omega, hst1.trans hst2, hends.after_sent (by simp [hs, Engine.at])⟩

/-- The walk raises `e`, which ends the command there. -/
theorem coding_raised_steps {buf : List Byte} {x : Err} (hfl : Flushes f)
    (hw : Walks f g (fun t => raise e t.latchNext) buf e0) (hb : s.regs.stat = .busy) (hs : s.eng = e0.at 0 r)
    (hrun : walk g buf r = .raised x r' out) (hfit : s.env.sink.fits out.length = true) :
    ∃ k t, k ≤ 2 * buf.length + s.env.sink.calls.length + 1 ∧ Steps f k s t ∧ EndsRun e r'.next s t out := by
  have hbad : BadUpdate fun t => raise e t.latchNext :=
    ⟨fun _ => rfl, fun _ => rfl, fun _ => rfl, fun u => ⟨u.eng.lzw.next, rfl⟩, fun _ => rfl, fun _ => rfl,
      fun _ _ _ => rfl⟩
  obtain ⟨k, q, c, hk, hst⟩ := walk_raised hfl hbad hw s 0 r r' x out hb hs (Nat.zero_le _) hrun hfit
  refine ⟨k + 1, _, by omega, hst.trans (.one hb (hfl.finish _ rfl rfl)), _, c, rfl, rfl, rfl, ?_⟩
  simp [hs, Engine.at]

/-! ### The phase ENC -/

/-- Where `f` is ENC's rule, it walks the buffered unit with EncStep, unless the unit is its own alphabet. -/
theorem encPhase_walks {overflow : State → State}
    (hf : ∀ s p r, s.eng = e0.at p r → f s = encPhase State.emit endRun overflow s)
    (hne : e0.nCur.toNat ≠ e0.ibuf.length) :
    Walks f (encStep e0.polCur) overflow e0.ibuf e0 := by
  intro s p r c hs hc
  rw [hf s p r hs, encPhase]
  cases hstep : encStep e0.polCur c r <;> simp [hs, Engine.at, hne, hc, hstep]

/-- ENC of a unit whose encoding returns (41_lzw_codec.md R147, R148). -/
theorem enc_steps {overflow : State → State} (hfl : Flushes f)
    (hf : ∀ u p r, u.eng = s.eng.at p r → f u = encPhase State.emit endRun overflow u)
    (hb : s.regs.stat = .busy) (ho : s.eng.outq = []) (hpos : s.eng.ipos = 0) (hlzw : s.eng.lzw = Lzw.seed alpha)
    (hn : s.eng.nCur.toNat = alpha.length) (hrun : encodeUnit s.eng.polCur alpha s.eng.ibuf = .ok r codes)
    (hfit : s.env.sink.fits codes.length = true) :
    ∃ k t, k ≤ 2 * s.eng.ibuf.length + s.env.sink.calls.length + 3 ∧ Steps f k s t ∧
      EndsRun .noError r.next s t codes := by
  have hself := s.eng.at_self ho
  by_cases hlen : alpha.length = s.eng.ibuf.length
  · rw [encodeUnit_of_distinct hlen] at hrun
    obtain ⟨rfl, hcodes⟩ := LzwResult.ok.inj hrun
    have hend : f s = .went (endRun (s.emit [])) := by
      rw [hf s _ _ hself, encPhase, if_pos (hn.trans hlen), emit_nil]
    rw [← hcodes, ← hlzw]
    obtain ⟨k, t, hk, hst, hends⟩ := endRun_steps hfl hb ho hend (by simp)
    exact ⟨k, t, by omega, hst, hends⟩
  · rw [encodeUnit_of_repeated hlen] at hrun
    obtain ⟨out, hw, rfl⟩ := encRun_eq_ok hrun
    have hne : s.eng.nCur.toNat ≠ s.eng.ibuf.length := by rwa [hn]
    refine coding_ok_steps hfl (encPhase_walks hf hne) (fun u hu => ?_) hb (by rw [← hpos]; exact hself)
      (by rw [hlzw]; exact hw) hfit
    rw [hf u _ _ hu, encPhase]
    simp [hu, Engine.at, hne]

/-! ### LZW_ENC (41_lzw_codec.md R159) -/

theorem lzwEncStep_load (s : State) (hp : s.eng.ph = .load) (ho : s.eng.outq = []) :
    lzwEncStep s = loadStep (fun t => .went (t.toPhase .scan)) s :=
  (flushFirst_empty ho).trans (by simp only [hp])

theorem lzwEncStep_scan (hp : s.eng.ph = .scan) (ho : s.eng.outq = []) (h : scan s.eng.ibuf = some alpha) :
    lzwEncStep s = .went (enterEnc alpha ((s.withN alpha.length).publishAlphabet alpha)) :=
  (flushFirst_empty ho).trans (by simp only [hp, scanPhase_some _ h])

theorem lzwEncStep_enc (hp : s.eng.ph = .enc) (ho : s.eng.outq = []) :
    lzwEncStep s = encPhase State.emit endRun (fun t => raise .dictionaryOverflow t.latchNext) s :=
  (flushFirst_empty ho).trans (by simp only [hp])

/-- LZW_ENC in ENC for the first time: the unit is loaded and scanned, its alphabet published and seeded. -/
def State.encoding (alpha data : List Byte) (src : Source) (s : State) : State :=
  enterEnc alpha ((((s.loaded (opOf .lzwEnc) data src).toPhase .scan).withN alpha.length).publishAlphabet alpha)

theorem lzwEnc_enter_steps (h : s.ready data) (hlen : data.length ≤ Config.ibufSize) (hs : scan data = some alpha) :
    ∃ k src, k ≤ data.length + 3 ∧
      Steps lzwEncStep k (accept (opOf .lzwEnc) .load s) (s.encoding alpha data src) := by
  obtain ⟨k, src, hk, hst⟩ := accept_load_steps lzwEncStep_load h hlen (opOf .lzwEnc)
  let u := (s.loaded (opOf .lzwEnc) data src).toPhase .scan
  have toScan : lzwEncStep (s.loaded (opOf .lzwEnc) data src) = .went u := lzwEncStep_load _ rfl rfl
  have scanned := lzwEncStep_scan (s := u) rfl rfl hs
  exact ⟨k + 2, src, by omega, hst.trans (.cons rfl toScan (.one rfl scanned))⟩

theorem fits_of_takesAll {k : Sink} (h : takesAll k.room out) : k.fits out.length = true := by
  unfold takesAll at h
  unfold Sink.fits
  cases hr : k.room with
  | none => rfl
  | some a => simpa [hr] using h

/-- Settles O22: LOAD, SCAN, ENC and the completion lie within the step budget, and the end's parts are read off. -/
theorem lzwEncResult : Obligations.LzwEncResult := by
  intro s data alpha codes r h hlen hs hrun hfit
  have hn := alphabetSize_toNat (scan_spec hs).2.1
  obtain ⟨k1, src, hk1, hst1⟩ := lzwEnc_enter_steps h hlen hs
  obtain ⟨k2, t, hk2, hst2, hends⟩ := enc_steps (s := s.encoding alpha data src) engine_flushes.2.1
    (fun u p r hu => lzwEncStep_enc (by rw [hu]; rfl) (by rw [hu]; rfl)) rfl rfl rfl rfl hn hrun (fits_of_takesAll hfit)
  change k2 ≤ 2 * data.length + s.env.nextSink.calls.length + 3 at hk2
  obtain ⟨hleft, hrest, hregs⟩ := hends.result (s := s) (data := data) (src := src) rfl rfl rfl rfl rfl
  have hexec : exec .lzwEnc s = .next t := issue_of_steps h.notBusy h.unpaced (hst1.trans hst2)
    (by rw [h.stream]; omega) (by rw [hregs]; exact setOutcome_not_busy _ _)
  exact ⟨t, hexec, hleft, hrest, hregs⟩

/-! ### The phase DEC -/

/-- Where `f` is DEC's rule over the codes `codes`, it walks them with DecFirst and DecStep. -/
theorem decPhase_walks {leave malformed : State → State}
    (hf : ∀ s p r, s.eng = e0.at p r → f s = decPhase codes leave malformed s) :
    Walks f (decCode e0.nCur) malformed codes e0 := by
  intro s p r c hs hc
  rw [hf s p r hs, decPhase]
  cases hstep : decCode e0.nCur c r <;> simp [hs, Engine.at, hc, hstep]

/-- DEC entered for the alphabet `alpha` and the code sequence `codes`; without codes the alphabet is pending
(41_lzw_codec.md R150, R151). -/
structure State.EntersDec (alpha codes : List Byte) (s : State) : Prop where
  busy : s.regs.stat = .busy
  phase : s.eng.ph = .dec
  pos : s.eng.ipos = 0
  lzw : s.eng.lzw = Lzw.seed alpha
  n : s.eng.nCur = BitVec.ofNat 8 alpha.length
  pending : s.eng.outq = if codes = [] then alpha else []

theorem enterDec_entersDec (hb : s.regs.stat = .busy) (ho : s.eng.outq = []) (alpha codes : List Byte) :
    (enterDec alpha (codes = []) s).EntersDec alpha codes := by
  constructor <;> simp [enterDec_eng, enterDec_regs, hb, ho]

theorem enterDec_env (alpha : List Byte) (noCodes : Bool) (s : State) : (enterDec alpha noCodes s).env = s.env := by
  cases noCodes <;> rfl

/-- With codes to come nothing is pending at the entry into DEC, and the decode is the walk from there. -/
theorem State.EntersDec.walk (h : s.EntersDec alpha codes) (hcodes : codes ≠ []) :
    s.eng = s.eng.at 0 s.eng.lzw ∧ lzwDecode alpha codes = walk (decCode s.eng.nCur) codes s.eng.lzw := by
  have hself := s.eng.at_self (h.pending.trans (if_neg hcodes))
  rw [h.pos] at hself
  exact ⟨hself, by rw [lzwDecode_of_codes hcodes, h.n, h.lzw]⟩

/-- DEC of codes whose decode returns (41_lzw_codec.md R151, R154). -/
theorem dec_steps {malformed : State → State} (hfl : Flushes f) (h : s.EntersDec alpha codes)
    (hf : ∀ u p r, u.eng = s.eng.at p r → f u = decPhase codes endRun malformed u)
    (hrun : lzwDecode alpha codes = .ok r out) (hfit : s.env.sink.fits out.length = true) :
    ∃ k t, k ≤ 2 * codes.length + s.env.sink.calls.length + 4 ∧ Steps f k s t ∧ EndsRun .noError r.next s t out := by
  have hleave : ∀ u r, u.eng = s.eng.at codes.length r → f u = .went (endRun (u.emit [])) := fun u r hu => by
    rw [hf u _ r hu, decPhase]
    simp [hu, Engine.at]
  by_cases hcodes : codes = []
  · have ho := h.pending.trans (if_pos hcodes)
    rw [hcodes, lzwDecode_nil] at hrun
    obtain ⟨rfl, rfl⟩ := LzwResult.ok.inj hrun
    obtain ⟨k1, c, hk1, hst1⟩ := flush_whole hfl s h.busy (by rw [ho]; exact hfit)
    rw [ho] at hst1
    set u := { s with eng.outq := [] }.sent alpha c with hu
    have hend := hleave u s.eng.lzw (by simp [hu, Engine.at, hcodes, h.pos])
    obtain ⟨k2, t, hk2, hst2, hends⟩ := endRun_steps (s := u) hfl h.busy rfl hend (by simp)
    change k2 ≤ c.length + 3 at hk2
    rw [← h.lzw, ← List.append_nil alpha]
    exact ⟨k1 + k2, t, by omega, hst1.trans hst2, hends.after_sent rfl⟩
  · obtain ⟨hself, hwalk⟩ := h.walk hcodes
    rw [hwalk] at hrun
    rw [← List.append_nil out] at hfit ⊢
    obtain ⟨k, t, hk, hst, hends⟩ :=
      coding_ok_steps hfl (decPhase_walks hf) (fun u hu => hleave u _ hu) h.busy hself hrun hfit
    exact ⟨k, t, by omega, hst, hends⟩

/-- DEC of codes at one of which the decode raises. -/
theorem dec_raised_steps {leave : State → State} {x : Err} (hfl : Flushes f) (h : s.EntersDec alpha codes)
    (hf : ∀ u p r, u.eng = s.eng.at p r →
      f u = decPhase codes leave (fun t => raise .malformedFrame t.latchNext) u)
    (hrun : lzwDecode alpha codes = .raised x r out) (hfit : s.env.sink.fits out.length = true) :
    ∃ k t, k ≤ 2 * codes.length + s.env.sink.calls.length + 4 ∧ Steps f k s t ∧
      EndsRun .malformedFrame r.next s t out := by
  have hcodes : codes ≠ [] := by
    rintro rfl
    rw [lzwDecode_nil] at hrun
    cases hrun
  obtain ⟨hself, hwalk⟩ := h.walk hcodes
  rw [hwalk] at hrun
  obtain ⟨k, t, hk, hst, hends⟩ := coding_raised_steps hfl (decPhase_walks hf) h.busy hself hrun hfit
  exact ⟨k, t, by omega, hst, hends⟩

/-! ### LZW_DEC (41_lzw_codec.md R160) -/

theorem lzwDecStep_load (s : State) (hp : s.eng.ph = .load) (ho : s.eng.outq = []) :
    lzwDecStep s = loadStep (fun t => .went (enterLzwDec t)) s :=
  (flushFirst_empty ho).trans (by simp only [hp])

theorem lzwDecStep_dec (hp : s.eng.ph = .dec) (ho : s.eng.outq = []) :
    lzwDecStep s = decPhase s.eng.ibuf endRun (fun t => raise .malformedFrame t.latchNext) s :=
  (flushFirst_empty ho).trans (by simp only [hp])

/-- LZW_DEC in DEC for the first time: the codes are loaded, and the alphabet operand is seeded. -/
def State.decoding (codes : List Byte) (src : Source) (s : State) : State :=
  enterLzwDec (s.loaded (opOf .lzwDec) codes src)

theorem lzwDec_enter_steps (h : s.ready codes) (hlen : codes.length ≤ Config.ibufSize) :
    ∃ k src, k ≤ codes.length + 2 ∧
      Steps lzwDecStep k (accept (opOf .lzwDec) .load s) (s.decoding codes src) := by
  obtain ⟨k, src, hk, hst⟩ := accept_load_steps lzwDecStep_load h hlen (opOf .lzwDec)
  exact ⟨k + 1, src, by omega, hst.trans (.one rfl (lzwDecStep_load _ rfl rfl))⟩

theorem decoding_entersDec (codes : List Byte) (src : Source) (s : State) :
    (s.decoding codes src).EntersDec (alphabetOperand s.regs.alphaN s.regs) codes :=
  enterDec_entersDec (s := s.loaded (opOf .lzwDec) codes src) rfl rfl _ codes

/-- LZW_DEC's rule while it is in DEC. -/
theorem lzwDecStep_decoding {u : State} {p : Nat} (hu : u.eng = (s.decoding codes src).eng.at p r) :
    lzwDecStep u = decPhase codes endRun (fun t => raise .malformedFrame t.latchNext) u := by
  have hph : u.eng.ph = .dec := by rw [hu]; exact (decoding_entersDec codes src s).phase
  have hbuf : u.eng.ibuf = codes := by
    rw [hu, State.decoding, enterLzwDec, enterDec_eng]
    rfl
  rw [lzwDecStep_dec hph (by rw [hu]; rfl), hbuf]

/-- LZW_DEC ends as its part in DEC does. -/
theorem lzwDec_ends (h : s.ready codes) (hlen : codes.length ≤ Config.ibufSize)
    (hspec : alphabetUnspecified (opOf .lzwDec) e = false ∧ nextUnspecified (opOf .lzwDec) e = false)
    (hrun : ∀ src, ∃ k t, k ≤ 2 * codes.length + s.env.nextSink.calls.length + 4 ∧
      Steps lzwDecStep k (s.decoding codes src) t ∧ EndsRun e next (s.decoding codes src) t out) :
    ∃ t, exec .lzwDec s = .next t ∧ leftEnv s t out ∧ t.atRest ∧
      t.regs = setOutcome e { s.regs with
        lastOp := 3, inCount := count32 codes.length, outCount := count32 out.length, chunks := 0
        dictNext := next } := by
  obtain ⟨k1, src, hk1, hst1⟩ := lzwDec_enter_steps h hlen
  obtain ⟨k2, t, hk2, hst2, hends⟩ := hrun src
  have hregs0 : (s.decoding codes src).regs = (s.loaded (opOf .lzwDec) codes src).regs := enterDec_regs ..
  have hop : (s.decoding codes src).eng.opCur = opOf .lzwDec := by
    rw [State.decoding, enterLzwDec, enterDec_eng]
    rfl
  obtain ⟨hleft, hrest, hregs⟩ := hends.result (s := s) (data := codes) (src := src) (enterDec_env ..) hop
    (by rw [hregs0]; rfl) hspec.1 hspec.2
  have hexec : exec .lzwDec s = .next t := issue_of_steps h.notBusy h.unpaced (hst1.trans hst2)
    (by rw [h.stream]; omega) (by rw [hregs]; exact setOutcome_not_busy _ _)
  exact ⟨t, hexec, hleft, hrest, by rw [hregs, hregs0]; rfl⟩

/-- The sink of LZW_DEC at its entry into DEC is the attached one. -/
theorem decoding_sink (codes : List Byte) (src : Source) (s : State) :
    (s.decoding codes src).env.sink = s.env.nextSink := by
  rw [State.decoding, enterLzwDec, enterDec_env]
  rfl

/-- Settles O29: DEC of the operand alphabet and the codes returns, and LZW_DEC ends as DEC does. -/
theorem lzwDecResult : Obligations.LzwDecResult := by
  intro s codes out r h hlen hrun hfit
  refine lzwDec_ends (e := .noError) h hlen (by decide) fun src => ?_
  rw [← decoding_sink codes src]
  exact dec_steps engine_flushes.2.2.1 (decoding_entersDec codes src s) (fun _ _ _ => lzwDecStep_decoding) hrun
    (by rw [decoding_sink]; exact fits_of_takesAll hfit)

/-- Settles O30: DEC raises at the bad code, and LZW_DEC ends as DEC does. -/
theorem lzwDecMalformed : Obligations.LzwDecMalformed := by
  intro s codes out r e h hlen hrun hfit
  refine lzwDec_ends (e := .malformedFrame) h hlen (by decide) fun src => ?_
  rw [← decoding_sink codes src]
  exact dec_raised_steps engine_flushes.2.2.1 (decoding_entersDec codes src s) (fun _ _ _ => lzwDecStep_decoding) hrun
    (by rw [decoding_sink]; exact fits_of_takesAll hfit)

end Sys2Proof.Machine
end

section
/-! PROOF. No step faults from a state that meets the machine's invariant (obligation O50; notes/assumptions/18): the
running command is in a phase of its rule, and in ENC and DEC the dictionary is an alphabet's. -/

namespace Sys2Proof.Machine

variable {s : State} {f : State → Turn} {x : Fault} {i : Instr}

/-! ### The shared operations: only the rule's own part of a step can fault -/

theorem flushStep_ne_fault : flushStep s ≠ .fault x := by
  unfold flushStep
  split
  · dsimp only
    split <;> simp
  · simp
  · simp

theorem fault_of_flushFirst (h : flushFirst f s = .fault x) : f s = .fault x := by
  unfold flushFirst at h
  split at h
  · exact h
  · exact absurd h flushStep_ne_fault

theorem readStep_ne_fault {n : Nat} {onEos : State → State} {onData : List Byte → State → State} :
    readStep n onEos onData s ≠ .fault x := by
  unfold readStep
  split <;> simp

theorem fault_of_loadStep {after : State → Turn} (h : loadStep after s = .fault x) : after s = .fault x := by
  unfold loadStep at h
  split at h
  · exact h
  · exact absurd h readStep_ne_fault

theorem scanPhase_ne_fault {onAlphabet : List Byte → State → State} : scanPhase onAlphabet s ≠ .fault x := by
  unfold scanPhase
  split <;> simp

theorem finishStep_ne_fault : finishStep s ≠ .fault x := by
  simp [finishStep]

/-- Every byte of the unit is of its alphabet, so EncStep finds what it looks up (41_lzw_codec.md R145). -/
theorem encPhase_ne_fault {emit : List Byte → State → State} {leave overflow : State → State} (h : EncInv s.eng) :
    encPhase emit leave overflow s ≠ .fault x := by
  obtain ⟨alpha, hs, -, hok⟩ := h.encOk
  intro hx
  unfold encPhase at hx
  split at hx
  · cases hx
  split at hx
  · rename_i c hc
    have hmem : c ∈ alpha := ((scan_spec hs).2.2.1 c).mpr (List.mem_of_getElem? hc)
    split at hx
    · cases hx
    · cases hx
    · exact encStep_no_fault hok hmem _ _ ‹_›
  · cases hx

/-- PREV is in the dictionary, so the decoder finds what it looks up (41_lzw_codec.md R152, R153). -/
theorem decPhase_ne_fault {codes : List Byte} {leave malformed : State → State} (h : DecInv s.eng) :
    decPhase codes leave malformed s ≠ .fault x := by
  obtain ⟨alpha, hn, hok⟩ := h.decOk
  have hlen : s.eng.nCur.toNat = alpha.length := by rw [hn, alphabetSize_toNat hok.dict.size]
  intro hx
  unfold decPhase at hx
  split at hx
  · split at hx
    · cases hx
    · cases hx
    · exact decCode_no_fault hok hlen _ ‹_›
  · cases hx

theorem chunkReadStep_ne_fault : chunkReadStep s ≠ .fault x := by
  unfold chunkReadStep
  split
  · simp
  split
  · exact readStep_ne_fault
  split <;> simp

theorem envWriteStep_ne_fault : envWriteStep s ≠ .fault x := by
  unfold envWriteStep
  split
  · simp
  split <;> simp

theorem bodyStep_ne_fault : bodyStep s ≠ .fault x := by
  unfold bodyStep
  split
  · exact readStep_ne_fault
  · simp

/-! ### The commands' rules, in the phases that are theirs; the last case of each is a phase the rule never sets -/

theorem scanCmdStep_ne_fault (hp : s.eng.ph ∈ phasesOf .scan) : scanCmdStep s ≠ .fault x := by
  intro hx
  have hg := fault_of_flushFirst hx
  split at hg
  · cases fault_of_loadStep hg
  · exact scanPhase_ne_fault hg
  · exact finishStep_ne_fault hg
  · simp_all [phasesOf]

theorem lzwEncStep_ne_fault (h : RunInv s.eng) (hp : s.eng.ph ∈ phasesOf .lzwEnc) : lzwEncStep s ≠ .fault x := by
  intro hx
  have hg := fault_of_flushFirst hx
  split at hg
  · cases fault_of_loadStep hg
  · exact scanPhase_ne_fault hg
  · exact encPhase_ne_fault (h.enc ‹_›) hg
  · exact finishStep_ne_fault hg
  · simp_all [phasesOf]

theorem lzwDecStep_ne_fault (h : RunInv s.eng) (hp : s.eng.ph ∈ phasesOf .lzwDec) : lzwDecStep s ≠ .fault x := by
  intro hx
  have hg := fault_of_flushFirst hx
  split at hg
  · cases fault_of_loadStep hg
  · exact decPhase_ne_fault (h.dec ‹_›) hg
  · exact finishStep_ne_fault hg
  · simp_all [phasesOf]

theorem frmEncStep_ne_fault (h : RunInv s.eng) (hp : s.eng.ph ∈ phasesOf .frmEnc) : frmEncStep s ≠ .fault x := by
  intro hx
  have hg := fault_of_flushFirst hx
  split at hg
  · cases fault_of_loadStep hg
  · exact scanPhase_ne_fault hg
  · exact encPhase_ne_fault (h.enc ‹_›) hg
  · exact finishStep_ne_fault hg
  · simp_all [phasesOf]

theorem frmDecStep_ne_fault (h : RunInv s.eng) (hp : s.eng.ph ∈ phasesOf .frmDec) : frmDecStep s ≠ .fault x := by
  intro hx
  have hg := fault_of_flushFirst hx
  split at hg
  · cases fault_of_loadStep hg
  · exact decPhase_ne_fault (h.dec ‹_›) hg
  · exact finishStep_ne_fault hg
  · simp_all [phasesOf]

theorem strEncStep_ne_fault (h : RunInv s.eng) (hp : s.eng.ph ∈ phasesOf .strEnc) : strEncStep s ≠ .fault x := by
  intro hx
  have hg := fault_of_flushFirst hx
  split at hg
  · exact chunkReadStep_ne_fault hg
  · exact scanPhase_ne_fault hg
  · exact encPhase_ne_fault (h.enc ‹_›) hg
  · exact envWriteStep_ne_fault hg
  · exact finishStep_ne_fault hg
  · simp_all [phasesOf]

theorem strDecStep_ne_fault (h : RunInv s.eng) (hp : s.eng.ph ∈ phasesOf .strDec) : strDecStep s ≠ .fault x := by
  intro hx
  have hg := fault_of_flushFirst hx
  split at hg
  · exact readStep_ne_fault hg
  · exact bodyStep_ne_fault hg
  · exact decPhase_ne_fault (h.dec ‹_›) hg
  · exact finishStep_ne_fault hg
  · simp_all [phasesOf]

/-- The rule of the running command, which is never CLR: that has no phase. -/
theorem engineStep_ne_fault (h : RunInv s.eng) : engineStep s ≠ .fault x := by
  obtain ⟨i, hi, hp⟩ := h.phase
  unfold engineStep
  rw [hi]
  cases i with
  | clr => cases hp
  | scan => exact scanCmdStep_ne_fault hp
  | lzwEnc => exact lzwEncStep_ne_fault h hp
  | lzwDec => exact lzwDecStep_ne_fault h hp
  | frmEnc => exact frmEncStep_ne_fault h hp
  | frmDec => exact frmDecStep_ne_fault h hp
  | strEnc => exact strEncStep_ne_fault h hp
  | strDec => exact strDecStep_ne_fault h hp

/-! ### Runs, commands and the step -/

/-- A run whose steps keep `P` and do not fault does not fault. -/
theorem runTurns_ne_fault {P : State → Prop} {n : Nat}
    (hP : ∀ s t, P s → s.regs.stat = .busy → f s = .went t → P t)
    (hf : ∀ s, P s → s.regs.stat = .busy → f s ≠ .fault x) (hs : P s) : runTurns f n s ≠ .fault x := by
  induction n generalizing s with
  | zero => simp [runTurns]
  | succ n ih =>
    intro hr
    simp only [runTurns] at hr
    split at hr
    · rename_i hb
      split at hr
      · exact ih (hP _ _ hs hb ‹_›) hr
      · cases hr
      · cases hr
        exact hf s hs hb ‹_›
      · cases hr
    · cases hr

theorem engineTurns_ne_fault {n : Nat} (h : s.Inv) : engineTurns n s ≠ .fault x :=
  runTurns_ne_fault (fun _ _ => engineStep_inv) (fun _ hu hb => engineStep_ne_fault (hu.running hb)) h

theorem exec_ne_fault (h : s.Inv) : exec i s ≠ .fault x := by
  by_cases hi : i = .clr
  · subst hi
    simp only [exec, execClr]
    split <;> simp
  obtain ⟨f, he, hf⟩ := exec_eq_issue_startPhase hi s
  rw [he, issue]
  split
  · simp
  refine runTurns_ne_fault (P := fun u => u.Inv ∧ u.eng.opCur = opOf i) (fun u v hu hb hs => ?_) (fun u hu hb => ?_)
    ⟨(accept_inv h hi).inv, rfl⟩
  · rw [← hf u hu.2] at hs
    exact ⟨engineStep_inv hu.1 hb hs, (engineStep_opCur hs).trans hu.2⟩
  · rw [← hf u hu.2]
    exact engineStep_ne_fault (hu.1.running hb)

theorem writeAt_ne_fault {off : Nat} {v : Word} (h : s.Inv) : writeAt off v s ≠ .fault x := by
  by_cases ho : off = 0
  · rw [ho, writeAt_cmd, commandWrite]
    split
    · exact exec_ne_fault h
    · simp
  · rw [writeAt_other ho]
    simp

theorem atOffset_ne_fault {n : Nat} {g : Target} {k : Nat → Host.Outcome State Fault Refusal}
    (h : ∀ off, k off ≠ .fault x) : atOffset n g k ≠ .fault x := by
  unfold atOffset
  split
  · exact h _
  · simp

theorem hostStep_ne_fault {op : HostOp} {rest : List HostOp} (h : s.Inv) : hostStep op rest s ≠ .fault x := by
  have hpop : (popHost rest s).Inv := h.of_eq rfl rfl
  cases op with
  | write g v => exact atOffset_ne_fault fun _ => writeAt_ne_fault hpop
  | read g => exact atOffset_ne_fault fun _ => by simp
  | wait =>
    have hread : (hostRead 0x004 s).Inv := h.of_eq rfl rfl
    simp only [hostStep, waitPoll]
    split
    · exact engineTurns_ne_fault hread
    · simp
  | engine n => exact engineTurns_ne_fault hpop
  | _ => simp [hostStep]

/-- Settles O50: the engine's steps do not fault while the invariant holds, which they keep, and no other part of a step
faults. -/
theorem invariantStatesNeverFault : Obligations.InvariantStatesNeverFault := by
  intro s x h
  unfold step
  split
  · exact engineTurns_ne_fault h
  · exact hostStep_ne_fault h

end Sys2Proof.Machine
end

section
/-! PROOF. The frame codec (42_frame_codec.md): a frame's shape, length and round trip (obligations O45, O28), and the
commands FRM_ENC and FRM_DEC, which end where FrameEncode and FrameDecode do (O23, O31 to O34). -/

namespace Sys2Proof.Machine

variable {f : State → Turn} {s s0 t : State} {alpha data codes out fr rest : List Byte} {r : Lzw} {pol : Policy}
  {e : Err} {op : BitVec 4} {src : Source} {next : BitVec 9} {n : Byte} {k : Nat}

/-! ### The parse (42_frame_codec.md R191 to R193) -/

theorem parseFrame_zero (rest : List Byte) : parseFrame (0 :: rest) = .empty := by
  rw [parseFrame, if_pos rfl]

theorem parseFrame_short (hn : n ≠ 0) (h : rest.length < n.toNat) : parseFrame (n :: rest) = .short := by
  rw [parseFrame, if_neg hn, if_pos h]

theorem parseFrame_append (hn : n ≠ 0) (h : alpha.length = n.toNat) (codes : List Byte) :
    parseFrame (n :: (alpha ++ codes)) = .parts alpha codes := by
  have hlen : ¬ (alpha ++ codes).length < n.toNat := by simp [h]
  rw [parseFrame, if_neg hn, if_neg hlen, ← h, List.take_left, List.drop_left]

theorem frameDecode_of_empty (h : parseFrame fr = .empty) : frameDecode fr = .bytes [] := by
  simp only [frameDecode, h]

theorem frameDecode_of_short (h : parseFrame fr = .short) : frameDecode fr = .raised .malformedFrame [] := by
  simp only [frameDecode, h]

theorem frameDecode_of_parts (h : parseFrame fr = .parts alpha codes) :
    frameDecode fr = (lzwDecode alpha codes).coded [] := by
  simp only [frameDecode, h]

/-! ### The shape of an encoder's frame (42_frame_codec.md R190) -/

theorem frameHeader_of_ne_nil (h : alpha ≠ []) : frameHeader alpha = BitVec.ofNat 8 alpha.length :: alpha := if_neg h

/-- The N byte of a header is not 0 (30_encoding.md R95, R96). -/
theorem alphabetSize_ne_zero (h : alpha ≠ []) (hmax : alpha.length ≤ 255) : BitVec.ofNat 8 alpha.length ≠ 0 := by
  intro h0
  have hsize := alphabetSize_toNat hmax
  rw [h0] at hsize
  exact h (List.length_eq_zero_iff.mp hsize.symm)

/-- The N byte of a frame is its alphabet's size. -/
theorem ofNat_alphabetSize (h : alpha.length = n.toNat) : BitVec.ofNat 8 alpha.length = n := by
  rw [h, BitVec.ofNat_toNat, BitVec.setWidth_eq]

theorem frameEncode_of_ok (hs : scan data = some alpha) (h : encodeUnit pol alpha data = .ok r codes) :
    frameEncode pol data = .bytes (frameHeader alpha ++ codes) := by
  simp only [frameEncode, hs, h, LzwResult.coded]

theorem frameEncode_of_distinct (hs : scan data = some alpha) (h : alpha.length = data.length) :
    frameEncode pol data = .bytes (frameHeader alpha) := by
  rw [frameEncode_of_ok hs (encodeUnit_of_distinct h), List.append_nil]

theorem frameEncode_nil (pol : Policy) : frameEncode pol [] = .bytes [] := frameEncode_of_distinct (alpha := []) rfl rfl

/-- A frame that FrameEncode returns is the header part and the codes of a run that returns. -/
theorem frameEncode_eq_bytes (h : frameEncode pol data = .bytes fr) :
    ∃ alpha codes r, scan data = some alpha ∧ encodeUnit pol alpha data = .ok r codes ∧
      fr = frameHeader alpha ++ codes := by
  cases hs : scan data with
  | none => simp [frameEncode, hs] at h
  | some alpha =>
    cases hrun : encodeUnit pol alpha data <;> simp only [frameEncode, hs, hrun, LzwResult.coded] at h <;> cases h
    exact ⟨alpha, _, _, rfl, hrun, rfl⟩

/-- The frame of a unit that has bytes: N >= 1, the alphabet of N bytes, the codes (30_encoding.md R95). -/
theorem frameEncode_eq_bytes_of_ne_nil (h : frameEncode pol data = .bytes fr) (hne : data ≠ []) :
    ∃ n alpha codes r, fr = n :: (alpha ++ codes) ∧ n ≠ 0 ∧ alpha.length = n.toNat ∧ scan data = some alpha ∧
      encodeUnit pol alpha data = .ok r codes := by
  obtain ⟨alpha, codes, r, hs, hrun, rfl⟩ := frameEncode_eq_bytes h
  have hmax := (scan_spec hs).2.1
  have halpha : alpha ≠ [] := (scan_nil_iff hs).not.mpr hne
  exact ⟨_, alpha, codes, r, by rw [frameHeader_of_ne_nil halpha, List.cons_append],
    alphabetSize_ne_zero halpha hmax, (alphabetSize_toNat hmax).symm, hs, hrun⟩

/-! ### The round trip (42_frame_codec.md R197) -/

/-- A unit of at most 255 bytes, all distinct, is its own alphabet. -/
theorem scan_of_nodup (h : data.Nodup) (hmax : data.length ≤ 255) : scan data = some data := by
  cases hs : scan data with
  | none =>
    have hall := (forall_mem_iff_length h).mp (scan_eq_none_iff_forall_mem.mp hs)
    omega
  | some alpha => rw [scan_eq_self hs ((scan_length_eq_iff hs).mpr h)]

theorem frameDecode_frameEncode (h : frameEncode pol data = .bytes fr) : frameDecode fr = .bytes data := by
  by_cases hne : data = []
  · subst hne
    rw [frameEncode_nil] at h
    cases h
    exact frameDecode_of_empty rfl
  · obtain ⟨n, alpha, codes, r, rfl, hn, hlen, hs, hrun⟩ := frameEncode_eq_bytes_of_ne_nil h hne
    obtain ⟨r', hdec, -, -⟩ := (lzwRoundTrip data alpha hs).2 pol codes r hrun
    rw [frameDecode_of_parts (parseFrame_append hn hlen codes), hdec]
    rfl

/-- Settles O45: the parse gives back the alphabet and the codes, which the LZW round trip decodes. -/
theorem frameRoundTrip : Obligations.FrameRoundTrip := by
  refine ⟨fun _ _ _ => frameDecode_frameEncode, fun data hs => ?_, frameEncode_nil, fun pol data hne hd hmax => ?_⟩
  · obtain ⟨alpha, hs⟩ := Option.ne_none_iff_exists'.mp hs
    obtain ⟨r, codes, hrun⟩ := encodeUnit_freeze hs
    exact ⟨_, frameEncode_of_ok hs hrun⟩
  · rw [frameEncode_of_distinct (scan_of_nodup hd hmax) rfl, frameHeader_of_ne_nil hne]

/-! ### The length of a frame (42_frame_codec.md R196) -/

theorem frameHeader_length_le (alpha : List Byte) : (frameHeader alpha).length ≤ 1 + alpha.length := by
  unfold frameHeader
  split <;> simp [Nat.add_comm]

/-- A run emits at most one code for each byte of its unit (41_lzw_codec.md R161). -/
theorem encodeUnit_length_le (hs : scan data = some alpha) (h : encodeUnit pol alpha data = .ok r codes) :
    codes.length ≤ data.length := by
  by_cases hlen : alpha.length = data.length
  · rw [encodeUnit_of_distinct hlen] at h
    rw [← (LzwResult.ok.inj h).2]
    exact Nat.zero_le _
  · rw [encodeUnit_of_repeated hlen] at h
    exact (encRun_length hs hlen h).2

/-- Settles O28: the header part has at most 1 + N bytes, and no unit has more codes than bytes. -/
theorem frameLengthBound : Obligations.FrameLengthBound := by
  intro pol data alpha fr hs h
  have hmax := (scan_spec hs).2.1
  have hbound : fr.length ≤ 1 + alpha.length + data.length := by
    obtain ⟨alpha', codes, r, hs', hrun, rfl⟩ := frameEncode_eq_bytes h
    cases hs.symm.trans hs'
    rw [List.length_append]
    exact Nat.add_le_add (frameHeader_length_le alpha) (encodeUnit_length_le hs hrun)
  refine ⟨?_, fun hne hd => ?_, hbound, by omega, by simp only [Config.maxChunkSize, Config.fbufSize]; omega⟩
  · rintro rfl
    rw [frameEncode_nil] at h
    exact (Coded.bytes.inj h).symm
  · have hlen := (scan_length_eq_iff hs).mpr hd
    rw [frameEncode_of_distinct hs hlen, frameHeader_of_ne_nil ((scan_nil_iff hs).not.mpr hne)] at h
    cases h
    rw [List.length_cons, hlen, Nat.add_comm]

/-! ### The end of a unit command -/

/-- A unit command whose path from acceptance on ends as its coding phase does, within the step budget: its whole
result. -/
theorem EndsRun.issued (h : EndsRun e next s0 t out) (hready : s.ready data)
    (hst : Steps f k (accept op .load s) t) (hk : k ≤ 16 * data.length + s.env.nextSink.calls.length + 64)
    (henv : s0.env = (s.loaded op data src).env) (hop : s0.eng.opCur = op) (hcount : s0.regs.outCount = 0)
    (ha : alphabetUnspecified op e = false) (hn : nextUnspecified op e = false) :
    issue op .load f s = .next t ∧ leftEnv s t out ∧ t.atRest ∧
      t.regs = setOutcome e { s0.regs with outCount := count32 out.length, dictNext := next } := by
  obtain ⟨hleft, hrest, hregs⟩ := h.result henv hop hcount ha hn
  have hend : t.regs.stat ≠ .busy := by
    rw [hregs]
    exact setOutcome_not_busy _ _
  exact ⟨issue_of_steps hready.notBusy hready.unpaced hst (by rwa [hready.stream]) hend, hleft, hrest, hregs⟩

/-- The completion of a command with nothing pending; DICT_NEXT stays. -/
theorem finish_endsRun (hfl : Flushes f) (hb : s.regs.stat = .busy) (hp : s.eng.ph = .finish) (ho : s.eng.outq = []) :
    ∃ t, Steps f 1 s t ∧ EndsRun s.eng.outcome s.regs.dictNext s t [] :=
  ⟨_, .one hb (hfl.finish s ho hp), s, s.env.sink.calls, rfl, by simp, by simp, rfl⟩

/-! ### FRM_ENC (42_frame_codec.md R194) -/

theorem frmEncStep_load (s : State) (hp : s.eng.ph = .load) (ho : s.eng.outq = []) :
    frmEncStep s = loadStep (fun t => .went (t.toPhase .scan)) s :=
  (flushFirst_empty ho).trans (by simp only [hp])

theorem frmEncStep_scan (hp : s.eng.ph = .scan) (ho : s.eng.outq = []) (h : scan s.eng.ibuf = some alpha) :
    frmEncStep s =
      .went ((enterEnc alpha ((s.withN alpha.length).publishAlphabet alpha)).emit (frameHeader alpha)) :=
  (flushFirst_empty ho).trans (by simp only [hp, scanPhase_some _ h])

theorem frmEncStep_enc (hp : s.eng.ph = .enc) (ho : s.eng.outq = []) :
    frmEncStep s = encPhase State.emit endRun (fun t => raise .dictionaryOverflow t.latchNext) s :=
  (flushFirst_empty ho).trans (by simp only [hp])

/-- FRM_ENC at its entry into ENC, its header part not yet emitted: the unit is loaded and scanned, its alphabet
published and seeded. -/
def State.encodingFrame (alpha data : List Byte) (src : Source) (s : State) : State :=
  enterEnc alpha ((((s.loaded (opOf .frmEnc) data src).toPhase .scan).withN alpha.length).publishAlphabet alpha)

theorem frmEnc_enter_steps (h : s.ready data) (hlen : data.length ≤ Config.ibufSize) (hs : scan data = some alpha) :
    ∃ k src, k ≤ data.length + 3 ∧ Steps frmEncStep k (accept (opOf .frmEnc) .load s)
      ((s.encodingFrame alpha data src).emit (frameHeader alpha)) := by
  obtain ⟨k, src, hk, hst⟩ := accept_load_steps frmEncStep_load h hlen (opOf .frmEnc)
  let u := (s.loaded (opOf .frmEnc) data src).toPhase .scan
  have toScan : frmEncStep (s.loaded (opOf .frmEnc) data src) = .went u := frmEncStep_load _ rfl rfl
  have scanned := frmEncStep_scan (s := u) rfl rfl hs
  exact ⟨k + 2, src, by omega, hst.trans (.cons rfl toScan (.one rfl scanned))⟩

/-- ENC of FRM_ENC: the header part is flushed, then the unit is coded as LZW_ENC codes it. -/
theorem encodingFrame_steps (hs : scan data = some alpha)
    (hrun : encodeUnit s.regs.ovfPolicy alpha data = .ok r codes)
    (hfit : s.env.nextSink.fits (frameHeader alpha ++ codes).length = true) (src : Source) :
    ∃ k t, k ≤ 2 * data.length + s.env.nextSink.calls.length + 4 ∧
      Steps frmEncStep k ((s.encodingFrame alpha data src).emit (frameHeader alpha)) t ∧
      EndsRun .noError r.next (s.encodingFrame alpha data src) t (frameHeader alpha ++ codes) := by
  have hfl : Flushes frmEncStep := engine_flushes.2.2.2.1
  have hn := alphabetSize_toNat (scan_spec hs).2.1
  rw [List.length_append] at hfit
  have hfitHeader : s.env.nextSink.fits (frameHeader alpha).length = true := fits_mono hfit (Nat.le_add_right _ _)
  obtain ⟨k1, c, hk1, hst1⟩ :=
    flush_whole hfl ((s.encodingFrame alpha data src).emit (frameHeader alpha)) rfl hfitHeader
  obtain ⟨k2, t, hk2, hst2, hends⟩ := enc_steps (s := (s.encodingFrame alpha data src).sent (frameHeader alpha) c) hfl
    (fun u p r hu => frmEncStep_enc (by rw [hu]; rfl) (by rw [hu]; rfl)) rfl rfl rfl rfl hn hrun
    ((fits_take hfitHeader).trans hfit)
  change k1 + c.length ≤ s.env.nextSink.calls.length + 1 at hk1
  change k2 ≤ 2 * data.length + c.length + 3 at hk2
  have hwhole := EndsRun.after_sent (en := (s.encodingFrame alpha data src).eng) rfl hends
  exact ⟨k1 + k2, t, by omega, hst1.trans hst2, hwhole⟩

/-- Settles O23: LOAD, SCAN, the header part, ENC and the completion lie within the step budget. -/
theorem frmEncResult : Obligations.FrmEncResult := by
  intro s data alpha codes r h hlen hs hrun hfit
  obtain ⟨k1, src, hk1, hst1⟩ := frmEnc_enter_steps h hlen hs
  obtain ⟨k2, t, hk2, hst2, hends⟩ := encodingFrame_steps hs hrun (fits_of_takesAll hfit) src
  obtain ⟨hexec, hleft, hrest, hregs⟩ := hends.issued h (hst1.trans hst2) (by omega) rfl rfl rfl rfl rfl
  exact ⟨t, hexec, hleft, hrest, frameEncode_of_ok hs hrun, hregs⟩

/-! ### FRM_DEC (42_frame_codec.md R195) -/

theorem enterFrmDec_of_empty (h : parseFrame s.eng.ibuf = .empty) :
    enterFrmDec s = finishDone { s with regs := { s.regs with alphaN := 0, dictNext := 1 } } := by
  simp only [enterFrmDec, h]

theorem enterFrmDec_of_short (h : parseFrame s.eng.ibuf = .short) : enterFrmDec s = raise .malformedFrame s := by
  simp only [enterFrmDec, h]

theorem enterFrmDec_of_parts (h : parseFrame s.eng.ibuf = .parts alpha codes) :
    enterFrmDec s = enterDec alpha (codes = []) (s.publishAlphabet alpha) := by
  simp only [enterFrmDec, h]

/-- The entry into DEC leaves the environment and OUT_COUNT, whatever the frame. -/
theorem enterFrmDec_env_outCount (s : State) :
    (enterFrmDec s).env = s.env ∧ (enterFrmDec s).regs.outCount = s.regs.outCount := by
  cases h : parseFrame s.eng.ibuf with
  | empty => rw [enterFrmDec_of_empty h]; exact ⟨rfl, rfl⟩
  | short => rw [enterFrmDec_of_short h]; exact ⟨rfl, rfl⟩
  | parts alpha codes => rw [enterFrmDec_of_parts h, enterDec_env, enterDec_regs]; exact ⟨rfl, rfl⟩

theorem frmDecStep_load (s : State) (hp : s.eng.ph = .load) (ho : s.eng.outq = []) :
    frmDecStep s = loadStep (fun t => .went (enterFrmDec t)) s :=
  (flushFirst_empty ho).trans (by simp only [hp])

theorem frmDecStep_dec (hp : s.eng.ph = .dec) (ho : s.eng.outq = []) :
    frmDecStep s =
      decPhase (frameCodes s.eng.nCur s.eng.ibuf) endRun (fun t => raise .malformedFrame t.latchNext) s :=
  (flushFirst_empty ho).trans (by simp only [hp])

/-- FRM_DEC after its entry into DEC: the frame is loaded and parsed. -/
def State.decodingFrame (fr : List Byte) (src : Source) (s : State) : State :=
  enterFrmDec (s.loaded (opOf .frmDec) fr src)

theorem frmDec_enter_steps (h : s.ready fr) (hlen : fr.length ≤ Config.ibufSize) :
    ∃ k src, k ≤ fr.length + 2 ∧
      Steps frmDecStep k (accept (opOf .frmDec) .load s) (s.decodingFrame fr src) := by
  obtain ⟨k, src, hk, hst⟩ := accept_load_steps frmDecStep_load h hlen (opOf .frmDec)
  exact ⟨k + 1, src, by omega, hst.trans (.one rfl (frmDecStep_load _ rfl rfl))⟩

/-- FRM_DEC ends as its part after the entry into DEC does. -/
theorem frmDec_ends (h : s.ready fr) (hlen : fr.length ≤ Config.ibufSize)
    (hspec : alphabetUnspecified (opOf .frmDec) e = false ∧ nextUnspecified (opOf .frmDec) e = false)
    (hrun : ∀ src, ∃ k t, k ≤ 2 * fr.length + s.env.nextSink.calls.length + 4 ∧
      Steps frmDecStep k (s.decodingFrame fr src) t ∧ EndsRun e next (s.decodingFrame fr src) t out) :
    ∃ t src, exec .frmDec s = .next t ∧ leftEnv s t out ∧ t.atRest ∧
      t.regs = setOutcome e { (s.decodingFrame fr src).regs with
        outCount := count32 out.length, dictNext := next } := by
  obtain ⟨k1, src, hk1, hst1⟩ := frmDec_enter_steps h hlen
  obtain ⟨k2, t, hk2, hst2, hends⟩ := hrun src
  obtain ⟨henv, hcount⟩ := enterFrmDec_env_outCount (s.loaded (opOf .frmDec) fr src)
  exact ⟨t, src, hends.issued h (hst1.trans hst2) (by omega) henv enterFrmDec_frame.opCur hcount hspec.1 hspec.2⟩

/-! ### FRM_DEC of a frame with an alphabet -/

/-- DEC is entered for the frame's alphabet and codes, with the alphabet published. -/
theorem decodingFrame_of_parts (h : parseFrame fr = .parts alpha codes) (src : Source) (s : State) :
    s.decodingFrame fr src =
      enterDec alpha (codes = []) ((s.loaded (opOf .frmDec) fr src).publishAlphabet alpha) :=
  enterFrmDec_of_parts h

theorem decodingFrame_entersDec (h : parseFrame fr = .parts alpha codes) (src : Source) (s : State) :
    (s.decodingFrame fr src).EntersDec alpha codes := by
  rw [decodingFrame_of_parts h]
  exact enterDec_entersDec rfl rfl alpha codes

theorem frameCodes_append (h : alpha.length = n.toNat) (codes : List Byte) :
    frameCodes n (n :: (alpha ++ codes)) = codes := by
  rw [frameCodes, Nat.add_comm, List.drop_succ_cons, ← h, List.drop_left]

/-- FRM_DEC's rule while it is in DEC. -/
theorem frmDecStep_decodingFrame {u : State} {p : Nat} (hn : n ≠ 0) (hlen : alpha.length = n.toNat)
    (hu : u.eng = (s.decodingFrame (n :: (alpha ++ codes)) src).eng.at p r) :
    frmDecStep u = decPhase codes endRun (fun t => raise .malformedFrame t.latchNext) u := by
  have hparse := parseFrame_append hn hlen codes
  have henters := decodingFrame_entersDec hparse src s
  have hph : u.eng.ph = .dec := by rw [hu]; exact henters.phase
  have hsize : u.eng.nCur = n := by
    rw [hu]
    exact henters.n.trans (ofNat_alphabetSize hlen)
  have hbuf : u.eng.ibuf = n :: (alpha ++ codes) := by
    rw [hu, decodingFrame_of_parts hparse, enterDec_eng]
    rfl
  rw [frmDecStep_dec hph (by rw [hu]; rfl), hsize, hbuf, frameCodes_append hlen]

/-- FRM_DEC of such a frame ends as its part in DEC does. -/
theorem frmDec_parts_ends (h : s.ready (n :: (alpha ++ codes)))
    (hlen : (n :: (alpha ++ codes)).length ≤ Config.ibufSize) (hn : n ≠ 0) (halpha : alpha.length = n.toNat)
    (hspec : alphabetUnspecified (opOf .frmDec) e = false ∧ nextUnspecified (opOf .frmDec) e = false)
    (hrun : ∀ s0 : State, s0.env.sink = s.env.nextSink → s0.EntersDec alpha codes →
      (∀ u p r, u.eng = s0.eng.at p r →
        frmDecStep u = decPhase codes endRun (fun t => raise .malformedFrame t.latchNext) u) →
      ∃ k t, k ≤ 2 * codes.length + s0.env.sink.calls.length + 4 ∧ Steps frmDecStep k s0 t ∧
        EndsRun e next s0 t out) :
    ∃ t, exec .frmDec s = .next t ∧ leftEnv s t out ∧ t.atRest ∧
      t.regs = setOutcome e { setAlphabet alpha s.regs with
        lastOp := 5, inCount := count32 (1 + alpha.length + codes.length), outCount := count32 out.length
        chunks := 0, alphaN := n, dictNext := next } := by
  have hparse := parseFrame_append hn halpha codes
  have hcount : (n :: (alpha ++ codes)).length = 1 + alpha.length + codes.length := by
    rw [List.length_cons, List.length_append]
    omega
  obtain ⟨t, src, hexec, hleft, hrest, hregs⟩ := frmDec_ends h hlen hspec fun src => by
    have hsink : (s.decodingFrame (n :: (alpha ++ codes)) src).env.sink = s.env.nextSink :=
      congrArg Env.sink (enterFrmDec_env_outCount _).1
    obtain ⟨k, t, hk, hst, hends⟩ := hrun _ hsink (decodingFrame_entersDec hparse src s)
      fun _ _ _ => frmDecStep_decodingFrame hn halpha
    exact ⟨k, t, by rw [hsink] at hk; omega, hst, hends⟩
  refine ⟨t, hexec, hleft, hrest, ?_⟩
  rw [hregs, decodingFrame_of_parts hparse, enterDec_regs, ← hcount, ← ofNat_alphabetSize halpha]
  rfl

/-- Settles O31: DEC of the frame's alphabet and codes returns, and FRM_DEC ends as DEC does. -/
theorem frmDecResult : Obligations.FrmDecResult := by
  intro s n alpha codes out r h hlen hn halpha hrun hfit
  refine frmDec_parts_ends (e := .noError) h hlen hn halpha (by decide) fun s0 hsink henters hf => ?_
  exact dec_steps engine_flushes.2.2.2.2.1 henters hf hrun (by rw [hsink]; exact fits_of_takesAll hfit)

/-- Settles O32: DEC raises at the bad code, and FRM_DEC ends as DEC does. -/
theorem frmDecMalformedCode : Obligations.FrmDecMalformedCode := by
  intro s n alpha codes out r e h hlen hn halpha hrun hfit
  refine frmDec_parts_ends (e := .malformedFrame) h hlen hn halpha (by decide) fun s0 hsink henters hf => ?_
  exact dec_raised_steps engine_flushes.2.2.2.2.1 henters hf hrun (by rw [hsink]; exact fits_of_takesAll hfit)

/-! ### FRM_DEC of a frame without an alphabet -/

/-- Where the entry into DEC ends the command instead, the completion is the next step. -/
theorem frmDec_uncoded_ends (h : s.ready fr) (hlen : fr.length ≤ Config.ibufSize)
    (hspec : alphabetUnspecified (opOf .frmDec) e = false ∧ nextUnspecified (opOf .frmDec) e = false)
    (hfin : ∀ src, s.decodingFrame fr src = (s.decodingFrame fr src).endWith e ∧
      (s.decodingFrame fr src).regs.stat = .busy ∧ (s.decodingFrame fr src).eng.outq = [] ∧
      (s.decodingFrame fr src).regs.dictNext = next) :
    ∃ t src, exec .frmDec s = .next t ∧ leftEnv s t [] ∧ t.atRest ∧
      t.regs = setOutcome e { (s.decodingFrame fr src).regs with outCount := 0, dictNext := next } := by
  refine frmDec_ends (out := []) h hlen hspec fun src => ?_
  obtain ⟨hend, hb, ho, rfl⟩ := hfin src
  have hp : (s.decodingFrame fr src).eng.ph = .finish := by rw [hend]; rfl
  have he : (s.decodingFrame fr src).eng.outcome = e := by rw [hend]; rfl
  obtain ⟨t, hst, hends⟩ := finish_endsRun engine_flushes.2.2.2.2.1 hb hp ho
  exact ⟨1, t, by omega, hst, he ▸ hends⟩

theorem parseFrame_empty (h : fr = [] ∨ fr.head? = some 0) : parseFrame fr = .empty := by
  rcases h with rfl | h
  · rfl
  · rw [← List.cons_head?_tail h, parseFrame_zero]

/-- The frame of a unit is empty, or its N byte is the size of an alphabet that has bytes. -/
theorem frameEncode_ne_zero_cons (pol : Policy) (data rest : List Byte) :
    frameEncode pol data ≠ .bytes (0 :: rest) := by
  intro h
  by_cases hne : data = []
  · rw [hne, frameEncode_nil] at h
    cases h
  · obtain ⟨n, alpha, codes, r, hfr, hn, -⟩ := frameEncode_eq_bytes_of_ne_nil h hne
    exact hn (List.cons.inj hfr).1.symm

/-- Settles O33: such a frame parses as empty, and the entry into DEC ends the command with the empty result. -/
theorem frmDecEmptyFrame : Obligations.FrmDecEmptyFrame := by
  refine ⟨fun rest => frameDecode_of_empty (parseFrame_zero rest), frameDecode_of_empty rfl, frameEncode_ne_zero_cons,
    fun s fr h hlen hfr => ?_⟩
  have henter (src : Source) := enterFrmDec_of_empty (s := s.loaded (opOf .frmDec) fr src) (parseFrame_empty hfr)
  obtain ⟨t, src, hexec, hleft, hrest, hregs⟩ := frmDec_uncoded_ends (e := .noError) (next := 1) h hlen (by decide)
    fun src => by rw [State.decodingFrame, henter]; exact ⟨rfl, rfl, rfl, rfl⟩
  refine ⟨t, hexec, hleft, hrest, ?_⟩
  rw [hregs, State.decodingFrame, henter]
  rfl

/-- Settles O34: such a frame parses as short, and the entry into DEC raises with the result registers as they were. -/
theorem frmDecShortFrame : Obligations.FrmDecShortFrame := by
  intro n rest hn hshort
  have hparse := parseFrame_short hn hshort
  refine ⟨frameDecode_of_short hparse, fun s h hlen => ?_⟩
  have henter (src : Source) := enterFrmDec_of_short (s := s.loaded (opOf .frmDec) (n :: rest) src) hparse
  obtain ⟨t, src, hexec, hleft, hrest, hregs⟩ := frmDec_uncoded_ends (e := .malformedFrame) (next := s.regs.dictNext) h
    hlen (by decide) fun src => by rw [State.decodingFrame, henter]; exact ⟨rfl, rfl, rfl, rfl⟩
  refine ⟨t, hexec, hleft, hrest, ?_⟩
  rw [hregs, State.decodingFrame, henter, Nat.add_comm]
  rfl

end Sys2Proof.Machine
end

section
/-! PROOF. Chunks and containers (43_chunk_streamer.md R220, R221, R226 to R231): how an input is cut (obligation O42),
what the big-step streamers do with one chunk or one envelope more, and the container round trip (O46). -/

namespace Sys2Proof.Machine

variable {cs L : Nat} {data c fr bs body rest out : List Byte} {chunks : List (List Byte)} {pol : Policy} {e : Err}
  {h0 h1 h2 h3 : Byte}

/-! ### Chunks (43_chunk_streamer.md R220) -/

/-- Any bound on the number of chunks gives the same chunks. -/
theorem chunksFuel_congr (hcs : 1 ≤ cs) {m n : Nat} (hm : data.length ≤ m) (hn : data.length ≤ n) :
    chunksFuel cs m data = chunksFuel cs n data := by
  induction m generalizing data n with
  | zero =>
    obtain rfl : data = [] := List.length_eq_zero_iff.mp (by omega)
    cases n <;> rfl
  | succ m ih =>
    cases data with
    | nil => cases n <;> rfl
    | cons b bs =>
      obtain ⟨n, rfl⟩ := Nat.exists_eq_succ_of_ne_zero (n := n) (by rw [List.length_cons] at hn; omega)
      rw [List.length_cons] at hm hn
      simp only [chunksFuel]
      rw [ih (n := n)] <;> rw [List.length_drop, List.length_cons] <;> omega

theorem chunksOf_of_ne_nil (hcs : 1 ≤ cs) (h : data ≠ []) :
    chunksOf cs data = data.take cs :: chunksOf cs (data.drop cs) := by
  cases data with
  | nil => exact absurd rfl h
  | cons b bs =>
    rw [chunksOf, List.length_cons, chunksFuel, chunksOf]
    congr 1
    exact chunksFuel_congr hcs (by rw [List.length_drop, List.length_cons]; omega) le_rfl

theorem chunksOf_eq_nil_iff (hcs : 1 ≤ cs) : chunksOf cs data = [] ↔ data = [] := by
  refine ⟨fun h => by_contra fun hne => ?_, by rintro rfl; rfl⟩
  rw [chunksOf_of_ne_nil hcs hne] at h
  cases h

/-- The first chunk, and the chunks of the rest. -/
theorem chunksOf_eq_cons (hcs : 1 ≤ cs) (h : chunksOf cs data = c :: chunks) :
    data ≠ [] ∧ c = data.take cs ∧ chunksOf cs (data.drop cs) = chunks := by
  have hne : data ≠ [] := by
    rintro rfl
    cases h
  rw [chunksOf_of_ne_nil hcs hne] at h
  exact ⟨hne, (List.cons.inj h).1.symm, (List.cons.inj h).2⟩

/-- What holds of the empty input, and of an input when it holds of what follows the first chunk, holds of every
input. -/
theorem chunk_induction (hcs : 1 ≤ cs) {P : List Byte → Prop} (nil : P [])
    (chunk : ∀ data, data ≠ [] → P (data.drop cs) → P data) (data : List Byte) : P data := by
  induction hm : data.length using Nat.strong_induction_on generalizing data with
  | _ m ih =>
    by_cases hne : data = []
    · rw [hne]
      exact nil
    · have hpos := List.length_pos_iff.mpr hne
      exact chunk data hne (ih _ (by rw [List.length_drop]; omega) _ rfl)

theorem chunksOf_flatten (hcs : 1 ≤ cs) (data : List Byte) : (chunksOf cs data).flatten = data := by
  induction data using chunk_induction hcs with
  | nil => rfl
  | chunk data hne ih => rw [chunksOf_of_ne_nil hcs hne, List.flatten_cons, ih, List.take_append_drop]

theorem chunksOf_length (hcs : 1 ≤ cs) (data : List Byte) :
    (chunksOf cs data).length = (data.length + cs - 1) / cs := by
  induction data using chunk_induction hcs with
  | nil => exact (Nat.div_eq_of_lt (by rw [List.length_nil]; omega)).symm
  | chunk data hne ih =>
    have hpos := List.length_pos_iff.mpr hne
    rw [chunksOf_of_ne_nil hcs hne, List.length_cons, ih, List.length_drop]
    have hright : data.length + cs - 1 = data.length - 1 + cs := by omega
    rw [hright, Nat.add_div_right _ hcs]
    congr 1
    by_cases hle : cs ≤ data.length
    · congr 1
      omega
    · rw [Nat.div_eq_of_lt (by omega), Nat.div_eq_of_lt (by omega)]

theorem chunksOf_getElem? (hcs : 1 ≤ cs) (data : List Byte) {j : Nat} (hj : j < (chunksOf cs data).length) :
    (chunksOf cs data)[j]? = some ((data.drop (j * cs)).take cs) := by
  induction data using chunk_induction hcs generalizing j with
  | nil => exact absurd hj (Nat.not_lt_zero _)
  | chunk data hne ih =>
    rw [chunksOf_of_ne_nil hcs hne] at hj ⊢
    cases j with
    | zero => rw [Nat.zero_mul]; rfl
    | succ j =>
      rw [List.getElem?_cons_succ, ih (Nat.lt_of_succ_lt_succ hj), List.drop_drop, Nat.succ_mul, Nat.add_comm]

theorem chunksOf_mem (hcs : 1 ≤ cs) (data : List Byte) : ∀ c ∈ chunksOf cs data, c ≠ [] ∧ c.length ≤ cs := by
  induction data using chunk_induction hcs with
  | nil => exact fun c hc => absurd hc List.not_mem_nil
  | chunk data hne ih =>
    have hpos := List.length_pos_iff.mpr hne
    rw [chunksOf_of_ne_nil hcs hne]
    refine List.forall_mem_cons.mpr ⟨⟨List.length_pos_iff.mp ?_, List.length_take_le _ _⟩, ih⟩
    rw [List.length_take]
    omega

/-- Every chunk but the last is whole: what follows it is not empty. -/
theorem chunksOf_dropLast_length (hcs : 1 ≤ cs) (data : List Byte) :
    ∀ c ∈ (chunksOf cs data).dropLast, c.length = cs := by
  induction data using chunk_induction hcs with
  | nil => exact fun c hc => absurd hc List.not_mem_nil
  | chunk data hne ih =>
    rw [chunksOf_of_ne_nil hcs hne]
    by_cases hlast : data.drop cs = []
    · rw [hlast]
      exact fun c hc => absurd hc List.not_mem_nil
    · rw [List.dropLast_cons_of_ne_nil ((chunksOf_eq_nil_iff hcs).not.mpr hlast)]
      have hlt := List.length_pos_iff.mpr hlast
      rw [List.length_drop] at hlt
      exact List.forall_mem_cons.mpr ⟨by rw [List.length_take]; omega, ih⟩

/-- Settles O42: each part by going chunk by chunk through the input. -/
theorem chunksCutTheInput : Obligations.ChunksCutTheInput := fun _ data hcs =>
  ⟨chunksOf_length hcs data, fun _ => chunksOf_getElem? hcs data, chunksOf_flatten hcs data, chunksOf_mem hcs data,
    chunksOf_dropLast_length hcs data, rfl, fun _ => rfl⟩

/-! ### STR_ENC, one chunk more (43_chunk_streamer.md R221, R222) -/

/-- A frame is returned, or an error is raised; FrameEncode never stops in a fault. -/
theorem frameEncode_cases (pol : Policy) (data : List Byte) :
    (∃ fr, frameEncode pol data = .bytes fr) ∨ ∃ e out, frameEncode pol data = .raised e out ∧ e ≠ .noError := by
  cases hs : scan data with
  | none => exact .inr ⟨.alphabetOverflow, [], by simp only [frameEncode, hs], by decide⟩
  | some alpha =>
    obtain ⟨r, codes, h⟩ | ⟨-, r, codes, h, -⟩ := encoderRaisesOnlyUnderErrorPolicy pol data alpha hs
    · exact .inl ⟨_, frameEncode_of_ok hs h⟩
    · exact .inr ⟨.dictionaryOverflow, _, by simp only [frameEncode, hs, h, LzwResult.coded]; rfl, by decide⟩

theorem encodeChunks_cons_of_bytes (h : frameEncode pol c = .bytes fr) (chunks : List (List Byte)) :
    encodeChunks pol (c :: chunks) = (encodeChunks pol chunks).after (envelope c.length fr) c.length := by
  simp only [encodeChunks, h]

theorem encodeChunks_cons_of_raised (h : frameEncode pol c = .raised e out) (chunks : List (List Byte)) :
    encodeChunks pol (c :: chunks) = { out := [], err := e, chunks := 0, consumed := c.length } := by
  simp only [encodeChunks, h]

/-- Where the run ends without an error, the first chunk has a frame and the later chunks' run ends so too. -/
theorem encodeChunks_cons_eq_ok (h : (encodeChunks pol (c :: chunks)).err = .noError) :
    ∃ fr, frameEncode pol c = .bytes fr ∧ (encodeChunks pol chunks).err = .noError := by
  obtain ⟨fr, hfr⟩ | ⟨e, out, hfr, he⟩ := frameEncode_cases pol c
  · rw [encodeChunks_cons_of_bytes hfr] at h
    exact ⟨fr, hfr, h⟩
  · rw [encodeChunks_cons_of_raised hfr] at h
    exact absurd h he

/-- A run without an error consumes all chunks and counts an envelope for each. -/
theorem encodeChunks_ok_counts (h : (encodeChunks pol chunks).err = .noError) :
    (encodeChunks pol chunks).consumed = chunks.flatten.length ∧
      (encodeChunks pol chunks).chunks = chunks.length := by
  induction chunks with
  | nil => exact ⟨rfl, rfl⟩
  | cons c chunks ih =>
    obtain ⟨fr, hfr, hok⟩ := encodeChunks_cons_eq_ok h
    obtain ⟨hcons, hcount⟩ := ih hok
    rw [encodeChunks_cons_of_bytes hfr]
    simp [StreamRun.after, hcons, hcount]

/-- The frame of a legal chunk has a length that FRAME_LEN holds (42_frame_codec.md R196). -/
theorem frameEncode_length_le (h : frameEncode pol c = .bytes fr) (hc : c.length ≤ 65279) : fr.length ≤ 65535 := by
  obtain ⟨alpha, codes, r, hs, -, -⟩ := frameEncode_eq_bytes h
  obtain ⟨-, -, -, hle, -⟩ := frameLengthBound pol c alpha fr hs h
  omega

/-! ### STR_DEC, one envelope more (43_chunk_streamer.md R226 to R228) -/

/-- Any bound on the number of envelopes above the container's length gives the same run. -/
theorem strDecodeFuel_congr {m n : Nat} (hm : bs.length < m) (hn : bs.length < n) :
    strDecodeFuel m bs = strDecodeFuel n bs := by
  induction m generalizing bs n with
  | zero => omega
  | succ m ih =>
    obtain ⟨n, rfl⟩ := Nat.exists_eq_succ_of_ne_zero (n := n) (by omega)
    match bs with
    | [] => rfl
    | [_] => rfl
    | [_, _] => rfl
    | [_, _, _] => rfl
    | h0 :: h1 :: h2 :: h3 :: rest =>
      simp only [List.length_cons] at hm hn
      simp only [strDecodeFuel]
      rw [ih (n := n)] <;> rw [List.length_drop] <;> omega

/-- 1 to 3 header bytes. -/
theorem strDecode_of_short_header (hne : bs ≠ []) (hlt : bs.length < 4) :
    strDecode bs = { out := [], err := .truncatedEnvelope, chunks := 0, consumed := bs.length } := by
  match bs with
  | [] => exact absurd rfl hne
  | [_] => rfl
  | [_, _] => rfl
  | [_, _, _] => rfl
  | _ :: _ :: _ :: _ :: rest =>
    simp only [List.length_cons] at hlt
    omega

/-- Fewer body bytes than FRAME_LEN. -/
theorem strDecode_of_short_body (hlt : rest.length < (fromBe16 h2 h3).toNat) :
    strDecode (h0 :: h1 :: h2 :: h3 :: rest) =
      { out := [], err := .truncatedEnvelope, chunks := 0, consumed := 4 + rest.length } := by
  simp only [strDecode, strDecodeFuel, if_pos hlt]

/-- A whole envelope, and what its frame decodes to. -/
theorem strDecode_of_bytes (hlen : body.length = (fromBe16 h2 h3).toNat) (h : frameDecode body = .bytes out) :
    strDecode (h0 :: h1 :: h2 :: h3 :: (body ++ rest)) = (strDecode rest).after out (4 + body.length) := by
  have hle : ¬ (body ++ rest).length < (fromBe16 h2 h3).toNat := by
    rw [List.length_append]
    omega
  simp only [strDecode, strDecodeFuel, if_neg hle]
  rw [← hlen, List.take_left, List.drop_left]
  simp only [h]
  congr 1
  refine strDecodeFuel_congr ?_ (Nat.lt_succ_self _)
  simp only [List.length_cons, List.length_append]
  omega

/-- A whole envelope whose frame is malformed. -/
theorem strDecode_of_raised (hlen : body.length = (fromBe16 h2 h3).toNat) (h : frameDecode body = .raised e out) :
    strDecode (h0 :: h1 :: h2 :: h3 :: (body ++ rest)) =
      { out := out, err := e, chunks := 0, consumed := 4 + body.length } := by
  have hle : ¬ (body ++ rest).length < (fromBe16 h2 h3).toNat := by
    rw [List.length_append]
    omega
  simp only [strDecode, strDecodeFuel, if_neg hle]
  rw [← hlen, List.take_left]
  simp only [h]

/-- ORIG_LEN of the first envelope, and those of the later ones; `fuel` bounds them all. -/
theorem origLensFuel_envelope (hL : L ≤ 65535) (hfr : fr.length ≤ 65535) (fuel : Nat) (rest : List Byte) :
    origLensFuel (fuel + 1) (envelope L fr ++ rest) = L :: origLensFuel fuel rest := by
  obtain ⟨e0, e1, horig, horigVal⟩ := exists_be16_eq hL
  obtain ⟨e2, e3, hframe, hframeVal⟩ := exists_be16_eq hfr
  rw [envelope, horig, hframe]
  simp [origLensFuel, horigVal, hframeVal]

theorem strDecode_envelope (hfr : fr.length ≤ 65535) (h : frameDecode fr = .bytes out) (L : Nat) (rest : List Byte) :
    strDecode (envelope L fr ++ rest) = (strDecode rest).after out (4 + fr.length) := by
  obtain ⟨e2, e3, hframe, hframeVal⟩ := exists_be16_eq hfr
  rw [envelope, hframe, be16]
  exact strDecode_of_bytes hframeVal.symm h

/-! ### The round trip (43_chunk_streamer.md R231) -/

theorem envelope_length (L : Nat) (fr : List Byte) : (envelope L fr).length = 4 + fr.length := by
  rw [envelope, List.length_append, List.length_append]
  rfl

/-- The ORIG_LEN fields of a container are the lengths of its chunks. -/
theorem origLensFuel_encodeChunks (hlen : ∀ c ∈ chunks, c.length ≤ 65279)
    (hok : (encodeChunks pol chunks).err = .noError) {fuel : Nat} (hfuel : chunks.length ≤ fuel) :
    origLensFuel fuel (encodeChunks pol chunks).out = chunks.map List.length := by
  induction chunks generalizing fuel with
  | nil => cases fuel <;> rfl
  | cons c chunks ih =>
    obtain ⟨hc, hlen⟩ := List.forall_mem_cons.mp hlen
    obtain ⟨fr, hfr, hok⟩ := encodeChunks_cons_eq_ok hok
    rw [List.length_cons] at hfuel
    obtain ⟨fuel, rfl⟩ := Nat.exists_eq_succ_of_ne_zero (n := fuel) (by omega)
    rw [encodeChunks_cons_of_bytes hfr, StreamRun.after,
      origLensFuel_envelope (by omega) (frameEncode_length_le hfr hc), ih hlen hok (by omega), List.map_cons]

/-- A container has at least as many bytes as envelopes. -/
theorem encodeChunks_length_le (hok : (encodeChunks pol chunks).err = .noError) :
    chunks.length ≤ (encodeChunks pol chunks).out.length := by
  induction chunks with
  | nil => exact Nat.zero_le _
  | cons c chunks ih =>
    obtain ⟨fr, hfr, hok⟩ := encodeChunks_cons_eq_ok hok
    have := ih hok
    rw [encodeChunks_cons_of_bytes hfr, StreamRun.after, List.length_append, envelope_length, List.length_cons]
    omega

/-- STR_DEC gives back the chunks, envelope by envelope, by the frame round trip. -/
theorem strDecode_encodeChunks (hlen : ∀ c ∈ chunks, c.length ≤ 65279)
    (hok : (encodeChunks pol chunks).err = .noError) :
    strDecode (encodeChunks pol chunks).out =
      { out := chunks.flatten, err := .noError, chunks := chunks.length
        consumed := (encodeChunks pol chunks).out.length } := by
  induction chunks with
  | nil => rfl
  | cons c chunks ih =>
    obtain ⟨hc, hlen⟩ := List.forall_mem_cons.mp hlen
    obtain ⟨fr, hfr, hok⟩ := encodeChunks_cons_eq_ok hok
    rw [encodeChunks_cons_of_bytes hfr, StreamRun.after,
      strDecode_envelope (frameEncode_length_le hfr hc) (frameDecode_frameEncode hfr), ih hlen hok]
    simp [StreamRun.after, envelope_length]

/-- Under FREEZE a chunk raises only ALPHABET_OVERFLOW. -/
theorem encodeChunks_freeze (h : ∀ c ∈ chunks, scan c ≠ none) : (encodeChunks .freeze chunks).err = .noError := by
  induction chunks with
  | nil => rfl
  | cons c chunks ih =>
    obtain ⟨hc, hchunks⟩ := List.forall_mem_cons.mp h
    obtain ⟨fr, hfr⟩ := frameRoundTrip.2.1 c hc
    rw [encodeChunks_cons_of_bytes hfr]
    exact ih hchunks

/-- Settles O46: over the chunks, which join to the input, by the frame round trip. -/
theorem containerRoundTrip : Obligations.ContainerRoundTrip := by
  intro pol cs data hcs hmax
  have hflat := chunksOf_flatten hcs data
  have hlen : ∀ c ∈ chunksOf cs data, c.length ≤ 65279 := fun c hc => (chunksOf_mem hcs data c hc).2.trans hmax
  refine ⟨fun hok => ?_, ?_⟩
  · obtain ⟨hconsumed, hcount⟩ := encodeChunks_ok_counts hok
    refine ⟨by rw [strEncode, hconsumed, hflat], ?_, ?_⟩
    · rw [strEncode, origLens, origLensFuel_encodeChunks hlen hok (encodeChunks_length_le hok), ← List.length_flatten,
        hflat]
    · rw [strEncode, strDecode_encodeChunks hlen hok, hflat, hcount]
  · rintro rfl
    exact encodeChunks_freeze

end Sys2Proof.Machine
end

section
/-! SUPPORT. Paths of a streamer's engine (43_chunk_streamer.md R232): what it has read, written and counted between two
states, and how its phases of reading and flushing and its end advance these. -/

namespace Sys2Proof.Machine

variable {f : State → Turn} {s t u : State} {data got got' rest : List Byte} {e : Err} {cost cost' m n read read' envs
  envs' : Nat}

theorem count32_add (m n : Nat) : count32 (m + n) = count32 m + count32 n := BitVec.ofNat_add ..

/-- From `s` to `t` the command was given `read` bytes, its sink accepted the bytes `got`, and `envs` envelopes were
counted; but for DICT_NEXT, nothing else of the registers and the environment changed. -/
structure Advanced (s t : State) (read : Nat) (got : List Byte) (envs : Nat) : Prop where
  regs : ∃ d, t.regs = { s.regs with
    inCount := s.regs.inCount + count32 read, outCount := s.regs.outCount + count32 got.length
    chunks := s.regs.chunks + count32 envs, dictNext := d }
  env : ∃ src calls, t.env = { s.env with src := src, sink := { s.env.sink.take got with calls := calls } }

namespace Advanced

theorem same (hr : t.regs = s.regs) (he : t.env = s.env) : Advanced s t 0 [] 0 :=
  ⟨⟨s.regs.dictNext, by simp [hr, count32]⟩, ⟨s.env.src, s.env.sink.calls, by simp [he]⟩⟩

theorem trans (h : Advanced s t read got envs) (h' : Advanced t u read' got' envs') :
    Advanced s u (read + read') (got ++ got') (envs + envs') := by
  obtain ⟨⟨d, hr⟩, src, c, he⟩ := h
  obtain ⟨⟨d', hr'⟩, src', c', he'⟩ := h'
  refine ⟨⟨d', ?_⟩, src', c', ?_⟩
  · simp [hr', hr, count32_add, BitVec.add_assoc]
  · simp [he', he, Sink.take, Function.comp_def, Nat.sub_sub]

theorem room (h : Advanced s t read got envs) {a : Nat} (ha : s.env.sink.room = some a) :
    t.env.sink.room = some (a - got.length) := by
  obtain ⟨src, c, he⟩ := h.env
  simp [he, Sink.take, ha]

theorem fits (h : Advanced s t read got envs) (hfit : s.env.sink.fits (got.length + n) = true) :
    t.env.sink.fits n = true := by
  obtain ⟨src, c, he⟩ := h.env
  rw [he]
  exact (fits_take (fits_mono hfit (Nat.le_add_right _ _))).trans hfit

end Advanced

/-- A path of rule `f` that advances so, in at most `cost` steps beside those the sink's listed calls pay for. -/
def Passes (f : State → Turn) (cost : Nat) (s t : State) (read : Nat) (got : List Byte) (envs : Nat) : Prop :=
  ∃ k, k + t.env.sink.calls.length ≤ cost + s.env.sink.calls.length ∧ Steps f k s t ∧ Advanced s t read got envs

/-- A path of rule `f` that advances so and then completes with outcome `e`. -/
def Ends (f : State → Turn) (cost : Nat) (e : Err) (s : State) (read : Nat) (got : List Byte) (envs : Nat) : Prop :=
  ∃ k u, k ≤ cost + s.env.sink.calls.length ∧ Steps f k s (complete e u) ∧ Advanced s u read got envs

theorem Passes.refl (f : State → Turn) (s : State) : Passes f 0 s s 0 [] 0 :=
  ⟨0, le_rfl, .refl s, .same rfl rfl⟩

theorem Passes.quiet (h : Steps f cost s t) (hr : t.regs = s.regs) (he : t.env = s.env) : Passes f cost s t 0 [] 0 :=
  ⟨cost, by rw [he], h, .same hr he⟩

/-- A path that counts an envelope (10_state.md R29). -/
theorem Passes.counted (h : Steps f cost s t) (hr : t.regs = s.countChunk.regs) (he : t.env = s.env) :
    Passes f cost s t 0 [] 1 :=
  ⟨cost, by rw [he], h, ⟨s.regs.dictNext, by simp [hr, count32]⟩, s.env.src, s.env.sink.calls, by simp [he]⟩

theorem Passes.trans (h : Passes f cost s t read got envs) (h' : Passes f cost' t u read' got' envs') :
    Passes f (cost + cost') s u (read + read') (got ++ got') (envs + envs') := by
  obtain ⟨k, hk, hst, hadv⟩ := h
  obtain ⟨k', hk', hst', hadv'⟩ := h'
  exact ⟨k + k', by omega, hst.trans hst', hadv.trans hadv'⟩

theorem Passes.mono (h : Passes f cost s t read got envs) (hle : cost ≤ cost') : Passes f cost' s t read got envs := by
  obtain ⟨k, hk, hst, hadv⟩ := h
  exact ⟨k, by omega, hst, hadv⟩

theorem Ends.mono (h : Ends f cost e s read got envs) (hle : cost ≤ cost') : Ends f cost' e s read got envs := by
  obtain ⟨k, u, hk, hst, hadv⟩ := h
  exact ⟨k, u, by omega, hst, hadv⟩

theorem Passes.advanced (h : Passes f cost s t read got envs) : Advanced s t read got envs := by
  obtain ⟨-, -, -, hadv⟩ := h
  exact hadv

theorem Passes.ends (h : Passes f cost s t read got envs) (h' : Ends f cost' e t read' got' envs') :
    Ends f (cost + cost') e s (read + read') (got ++ got') (envs + envs') := by
  obtain ⟨k, hk, hst, hadv⟩ := h
  obtain ⟨k', u, hk', hst', hadv'⟩ := h'
  exact ⟨k + k', u, by omega, hst.trans hst', hadv.trans hadv'⟩

/-- A whole streamer command, from its acceptance to its end (43_chunk_streamer.md R232; 60_exceptions.md R293). -/
theorem Ends.issued {op : BitVec 4} {p : Phase} (h : Ends f cost e (accept op p s) read got envs)
    (hready : s.ready data) (hcost : cost ≤ 16 * data.length + 64) :
    ∃ t, issue op p f s = .next t ∧ leftEnv s t got ∧ t.atRest ∧
      t.regs = { s.regs with
        stat := if e = .noError then .done else .error, err := e, lastOp := op
        inCount := count32 read, outCount := count32 got.length, chunks := count32 envs
        alphaN := t.regs.alphaN, alpha := t.regs.alpha, dictNext := t.regs.dictNext } := by
  obtain ⟨k, u, hk, hst, ⟨d, hr⟩, src, c, he⟩ := h
  change k ≤ cost + s.env.nextSink.calls.length at hk
  have hend : (complete e u).regs.stat ≠ .busy := by
    rw [complete_regs]
    exact setOutcome_not_busy _ _
  refine ⟨_, issue_of_steps hready.notBusy hready.unpaced hst (by rw [hready.stream]; omega) hend, ?_, ⟨rfl, rfl⟩, ?_⟩
  · constructor <;> simp [he]
  · rw [complete_regs, drawResults_frame, hr]
    simp [setOutcome, clearForCommand]

/-! ### Reading -/

/-- A streamer between two steps, with nothing pending and `rest` still to come from its source. -/
structure Streaming (rest : List Byte) (s : State) : Prop where
  busy : s.regs.stat = .busy
  flushed : s.eng.outq = []
  stream : s.env.src.stream = rest
  srcEnds : s.env.src.tail = .ends
  sinkEnds : s.env.sink.tail = .ends

theorem Streaming.of_accept (h : s.ready data) (op : BitVec 4) (p : Phase) : Streaming data (accept op p s) :=
  ⟨rfl, rfl, h.stream, h.srcEnds, h.sinkEnds⟩

/-- A step of the engine's own, after which nothing is pending. -/
theorem Streaming.of_eq (h : Streaming rest s) (hr : t.regs.stat = s.regs.stat) (he : t.env = s.env)
    (ho : t.eng.outq = []) : Streaming rest t :=
  ⟨hr.trans h.busy, ho, by rw [he, h.stream], by rw [he, h.srcEnds], by rw [he, h.sinkEnds]⟩

/-- While its engine is `en g` with `g` shorter than `n`, a step of `f` reads up to the rest of `n` bytes and its engine
goes on as `en` of what it then holds. -/
structure Fills (f : State → Turn) (n : Nat) (en : List Byte → Engine) : Prop where
  flushed : ∀ g, (en g).outq = []
  step : ∀ s g r src, s.eng = en g → g.length < n → srcRead (n - g.length) s.env.src = .data r src →
    f s = .went { (s.withSrc src).countIn r.length with eng := en (g ++ r) }

/-- All of `n` bytes are read, or all that are left, however the source splits them (20_memory.md R68). -/
theorem fill_passes {en : List Byte → Engine} {g : List Byte} (hf : Fills f n en) (h : Streaming data s)
    (hs : s.eng = en g) (hm : n - g.length = m) :
    ∃ t, Passes f (data.take m).length s t (data.take m).length [] 0 ∧ t.eng = en (g ++ data.take m) ∧
      Streaming (data.drop m) t := by
  induction m using Nat.strong_induction_on generalizing s g data with
  | _ m ih =>
    by_cases hstop : m = 0 ∨ data = []
    · obtain ⟨htake, hdrop⟩ : data.take m = [] ∧ data.drop m = data := by
        rcases hstop with rfl | rfl <;> simp
      rw [htake, hdrop]
      exact ⟨s, .refl f s, by rw [List.append_nil]; exact hs, h⟩
    · obtain ⟨hpos, hne⟩ := not_or.mp hstop
      obtain ⟨r, src, hr, happ, hr1, hrm, htl⟩ :=
        srcRead_data (n := m) (src := s.env.src) (by omega) (by rwa [h.stream]) h.srcEnds
      rw [h.stream] at happ
      let v : State := { (s.withSrc src).countIn r.length with eng := en (g ++ r) }
      have hstep : f s = .went v := hf.step s g r src hs (by omega) (by rwa [hm])
      have hv : Streaming src.stream v := ⟨h.busy, hf.flushed _, rfl, htl, h.sinkEnds⟩
      obtain ⟨t, hpass, heng, hrest⟩ := ih (m - r.length) (by omega) hv (g := g ++ r) rfl
        (by rw [List.length_append]; omega)
      have hread : Passes f 1 s v r.length [] 0 := ⟨1, Nat.le_of_eq rfl, .one h.busy hstep,
        ⟨s.regs.dictNext, by simp [v, count32]⟩, src, s.env.sink.calls, by simp [v]⟩
      have htake : data.take m = r ++ src.stream.take (m - r.length) := by
        rw [← happ, List.take_append, List.take_of_length_le hrm]
      have hdrop : data.drop m = src.stream.drop (m - r.length) := by
        rw [← happ, List.drop_append, List.drop_of_length_le hrm, List.nil_append]
      rw [htake, hdrop, ← List.append_assoc]
      refine ⟨t, ?_, heng, hrest⟩
      rw [List.length_append]
      exact (hread.trans hpass).mono (by omega)

/-- All `n` bytes are there. -/
theorem fill_whole {en : List Byte → Engine} {bs : List Byte} (hf : Fills f n en) (h : Streaming (bs ++ rest) s)
    (hs : s.eng = en []) (hn : bs.length = n) :
    ∃ t, Passes f n s t n [] 0 ∧ t.eng = en bs ∧ Streaming rest t := by
  obtain ⟨t, hpass, heng, hrest⟩ := fill_passes hf h hs (Nat.sub_zero n)
  rw [← hn, List.take_left] at hpass heng
  rw [← hn, List.drop_left] at hrest
  rw [← hn]
  exact ⟨t, hpass, heng, hrest⟩

/-- Fewer than `n` bytes are left before EOS. -/
theorem fill_to_eos {en : List Byte → Engine} (hf : Fills f n en) (h : Streaming data s) (hs : s.eng = en [])
    (hlt : data.length < n) :
    ∃ t, Passes f data.length s t data.length [] 0 ∧ t.eng = en data ∧ Streaming [] t := by
  obtain ⟨t, hpass, heng, hrest⟩ := fill_passes hf h hs (Nat.sub_zero n)
  rw [List.take_of_length_le hlt.le] at hpass heng
  rw [List.drop_of_length_le hlt.le] at hrest
  exact ⟨t, hpass, heng, hrest⟩

/-! ### Flushing, and the end -/

/-- Pending output that the sink takes whole. -/
theorem flush_passes (hfl : Flushes f) (u : State) (hb : u.regs.stat = .busy)
    (hfit : u.env.sink.fits u.eng.outq.length = true) :
    ∃ c, Passes f 1 u ({ u with eng.outq := [] }.sent u.eng.outq c) 0 u.eng.outq 0 := by
  obtain ⟨k, c, hk, hst⟩ := flush_whole hfl u hb hfit
  exact ⟨c, k, by rw [Nat.add_comm 1]; exact hk, hst, ⟨u.regs.dictNext, by simp [count32]⟩, u.env.src, c, rfl⟩

/-- Pending output that the sink takes short ends the command (60_exceptions.md R286). -/
theorem flush_ends_short (hfl : Flushes f) (u : State) (hb : u.regs.stat = .busy) (ht : u.env.sink.tail = .ends)
    {a : Nat} (ha : u.env.sink.room = some a) (hlt : a < u.eng.outq.length) :
    Ends f 2 .shortWrite u 0 (u.eng.outq.take a) 0 := by
  obtain ⟨k, c, hk, hst⟩ := flush_short hfl u hb ht ha hlt
  exact ⟨k, _, by omega, hst, ⟨u.regs.dictNext, by simp [count32]⟩, u.env.src, c, rfl⟩

/-- A coding phase that the sink's short answer ended (20_memory.md R72). -/
theorem EndsShort.ends {k : Nat} (h : EndsShort s t got) (hst : Steps f k s t)
    (hk : k ≤ cost + s.env.sink.calls.length) : Ends f cost .shortWrite s 0 got 0 := by
  obtain ⟨u, d, c, rfl, hr, he, -, -⟩ := h
  exact ⟨k, u, hk, hst, ⟨d, by simp [hr, count32]⟩, s.env.src, c, he⟩

/-- The end point with outcome `e`, nothing pending. -/
structure Finishing (e : Err) (s : State) : Prop where
  busy : s.regs.stat = .busy
  phase : s.eng.ph = .finish
  outcome : s.eng.outcome = e
  flushed : s.eng.outq = []

theorem Finishing.ends (h : Finishing e s) (hfl : Flushes f) : Ends f 1 e s 0 [] 0 := by
  have hstep : f s = .went (complete e s) := by rw [hfl.finish s h.flushed h.phase, finishStep, h.outcome]
  exact ⟨1, s, Nat.le_add_right _ _, .one h.busy hstep, .same rfl rfl⟩

/-- A step to the end point, and the completion. -/
theorem Finishing.ends_after (h : Finishing e t) (hfl : Flushes f) (hb : s.regs.stat = .busy) (hf : f s = .went t)
    (hr : t.regs = s.regs) (he : t.env = s.env) : Ends f 2 e s 0 [] 0 :=
  (Passes.quiet (.one hb hf) hr he).ends (h.ends hfl)

theorem Streaming.ends (h : Streaming rest s) (hfl : Flushes f) (hf : f s = .went (s.endWith e)) :
    Ends f 2 e s 0 [] 0 :=
  Finishing.ends_after (t := s.endWith e) ⟨h.busy, rfl, rfl, h.flushed⟩ hfl h.busy hf rfl rfl

/-- EOS where it ends the command. -/
theorem Streaming.ends_at_eos (h : Streaming rest s) (hfl : Flushes f) (hf : f s = .went (s.sawEos.endWith e)) :
    Ends f 2 e s 0 [] 0 :=
  Finishing.ends_after (t := s.sawEos.endWith e) ⟨h.busy, rfl, rfl, h.flushed⟩ hfl h.busy hf rfl rfl

end Sys2Proof.Machine
end

section
/-! PROOF. STR_ENC (43_chunk_streamer.md R222 to R224, R232): what the engine does with one chunk, and whole streams
(obligations O38, O39). -/

namespace Sys2Proof.Machine

variable {s t : State} {alpha data c fr rest out : List Byte} {pre post chunks : List (List Byte)} {pol : Policy}
  {cs : Nat} {e : Err} {r r' : Lzw}

/-! ### STR_ENC's rule, phase by phase -/

theorem strEncStep_chunkRead (hp : s.eng.ph = .chunkRead) (ho : s.eng.outq = []) : strEncStep s = chunkReadStep s :=
  (flushFirst_empty ho).trans (by simp only [hp])

theorem strEncStep_scan (hp : s.eng.ph = .scan) (ho : s.eng.outq = []) :
    strEncStep s = scanPhase (fun alpha t => startFrame alpha (enterEnc alpha t)) s :=
  (flushFirst_empty ho).trans (by simp only [hp])

theorem strEncStep_enc (hp : s.eng.ph = .enc) (ho : s.eng.outq = []) :
    strEncStep s = encPhase State.fillFbuf (State.toPhase .envWrite) (raise .dictionaryOverflow) s :=
  (flushFirst_empty ho).trans (by simp only [hp])

theorem strEncStep_envWrite (hp : s.eng.ph = .envWrite) (ho : s.eng.outq = []) : strEncStep s = envWriteStep s :=
  (flushFirst_empty ho).trans (by simp only [hp])

theorem strEnc_flushes : Flushes strEncStep := engine_flushes.2.2.2.2.2.1

theorem chunkReadStep_check (h : s.eng.cfgChecked = false) : chunkReadStep s = .went (checkConfig s) := if_pos h

theorem chunkReadStep_read (hc : s.eng.cfgChecked = true)
    (h : s.eng.ibuf.length < s.eng.csCur.toNat ∧ s.eng.eosSeen = false) :
    chunkReadStep s = readStep (s.eng.csCur.toNat - s.eng.ibuf.length) id State.fillIbuf s := by
  rw [chunkReadStep, if_neg (by simp [hc]), if_pos h]

theorem chunkReadStep_done (hc : s.eng.cfgChecked = true)
    (h : ¬(s.eng.ibuf.length < s.eng.csCur.toNat ∧ s.eng.eosSeen = false)) :
    chunkReadStep s = if s.eng.ibuf = [] then .went (finishDone s) else .went (s.toPhase .scan) := by
  rw [chunkReadStep, if_neg (by simp [hc]), if_neg h]

/-! ### The states between the steps of a chunk -/

/-- STR_ENC past its check, with chunk size `cs` and policy `pol`; it holds the bytes `c` of the current chunk, and
`rest` is still to come, nothing once EOS was seen. -/
structure HoldsChunk (pol : Policy) (cs : Nat) (c rest : List Byte) (s : State) : Prop extends Streaming rest s where
  checked : s.eng.cfgChecked = true
  chunkSize : s.eng.csCur.toNat = cs
  policy : s.eng.polCur = pol
  chunk : s.eng.ibuf = c
  atEos : s.eng.eosSeen = true → rest = []

/-- STR_ENC at the start of a chunk, with `data` still to come. -/
structure AtChunk (pol : Policy) (cs : Nat) (data : List Byte) (s : State) : Prop
    extends HoldsChunk pol cs [] data s where
  phase : s.eng.ph = .chunkRead
  notEos : s.eng.eosSeen = false

/-- STR_ENC with an envelope to write: the chunk `c` and its frame `fr` stand in the buffers. -/
structure AtEnvelope (pol : Policy) (cs : Nat) (c fr rest : List Byte) (s : State) : Prop
    extends HoldsChunk pol cs c rest s where
  phase : s.eng.ph = .envWrite
  frame : s.eng.fbuf = fr

/-- STR_ENC with `data` still to come: at the start of a chunk, or at its end point after EOS. -/
def AwaitsChunk (pol : Policy) (cs : Nat) (data : List Byte) (s : State) : Prop :=
  AtChunk pol cs data s ∨ (data = [] ∧ Finishing .noError s)

/-- An engine step that leaves the chunk and its configuration alone. -/
theorem HoldsChunk.of_eng {en : Engine} (h : HoldsChunk pol cs c rest s) (ho : en.outq = [] := by rfl)
    (hc : en.cfgChecked = s.eng.cfgChecked := by rfl) (hcs : en.csCur = s.eng.csCur := by rfl)
    (hpol : en.polCur = s.eng.polCur := by rfl) (hi : en.ibuf = s.eng.ibuf := by rfl)
    (he : en.eosSeen = s.eng.eosSeen := by rfl) : HoldsChunk pol cs c rest { s with eng := en } :=
  ⟨h.toStreaming.of_eq rfl rfl ho, hc.trans h.checked, by rw [← h.chunkSize, ← hcs], hpol.trans h.policy,
    hi.trans h.chunk, fun hx => h.atEos (he ▸ hx)⟩

/-! ### CHUNK_READ (43_chunk_streamer.md R222, R224) -/

/-- The acceptance of STR_ENC with a legal chunk size, and its check. -/
theorem strEnc_enter (h : s.ready data) (hlo : 1 ≤ s.regs.chunkSize.toNat) (hhi : s.regs.chunkSize.toNat ≤ 65279) :
    ∃ t, Passes strEncStep 1 (accept (opOf .strEnc) .chunkRead s) t 0 [] 0 ∧
      AtChunk s.regs.ovfPolicy s.regs.chunkSize.toNat data t := by
  let a := accept (opOf .strEnc) .chunkRead s
  have hlegal : badChunkSize a.eng.csCur = false := by
    simp only [badChunkSize, Bool.or_eq_false_iff, decide_eq_false_iff_not]
    exact ⟨Nat.ne_of_gt hlo, Nat.not_lt.mpr hhi⟩
  have hstep : strEncStep a = .went { a with eng.cfgChecked := true } := by
    rw [strEncStep_chunkRead rfl rfl, chunkReadStep_check rfl, checkConfig, hlegal]
    rfl
  have hstream : Streaming data a := .of_accept h _ _
  exact ⟨_, .quiet (.one rfl hstep) rfl rfl,
    ⟨⟨hstream.of_eq rfl rfl rfl, rfl, rfl, rfl, rfl, fun hx => nomatch hx⟩, rfl, rfl⟩⟩

/-- While STR_ENC reads a chunk, IBUF fills up to the chunk size. -/
theorem AtChunk.fills (h : AtChunk pol cs data s) :
    Fills strEncStep cs fun g => { s.eng with ibuf := g } where
  flushed _ := h.flushed
  step u g r src hu hlt hr := by
    have hread : u.eng.ibuf.length < u.eng.csCur.toNat ∧ u.eng.eosSeen = false := by
      rw [hu]
      exact ⟨by rw [h.chunkSize]; exact hlt, h.notEos⟩
    rw [strEncStep_chunkRead (by rw [hu]; exact h.phase) (by rw [hu]; exact h.flushed),
      chunkReadStep_read (by rw [hu]; exact h.checked) hread, readStep_data (r := r) (rest := src)]
    · simp [State.fillIbuf, State.withSrc, State.countIn, hu]
    · rw [hu, ← hr, ← h.chunkSize]

/-- The bytes of a chunk are read; where the input ends before the chunk is full, EOS is. -/
theorem AtChunk.read (h : AtChunk pol cs data s) :
    ∃ t, Passes strEncStep ((data.take cs).length + 1) s t (data.take cs).length [] 0 ∧
      HoldsChunk pol cs (data.take cs) (data.drop cs) t ∧ t.eng.ph = .chunkRead ∧
      ¬((data.take cs).length < cs ∧ t.eng.eosSeen = false) := by
  obtain ⟨t, hpass, heng, hstream⟩ := fill_passes h.fills h.toStreaming (g := []) (by rw [← h.chunk]) (Nat.sub_zero cs)
  rw [List.nil_append] at heng
  have hph : t.eng.ph = .chunkRead := by rw [heng]; exact h.phase
  have hopen : t.eng.eosSeen = false := by rw [heng]; exact h.notEos
  have hholds : HoldsChunk pol cs (data.take cs) (data.drop cs) t :=
    ⟨hstream, by rw [heng]; exact h.checked, by rw [heng]; exact h.chunkSize, by rw [heng]; exact h.policy,
      by rw [heng], fun hx => by rw [hopen] at hx; cases hx⟩
  by_cases hfull : (data.take cs).length < cs
  · have hrest : data.drop cs = [] := by
      rw [List.length_take] at hfull
      exact List.drop_eq_nil_of_le (by omega)
    have hstep : strEncStep t = .went t.sawEos := by
      rw [strEncStep_chunkRead hph hstream.flushed, chunkReadStep_read hholds.checked,
        readStep_eos (hstream.stream.trans hrest) hstream.srcEnds]
      · rfl
      · rw [hholds.chunk, hholds.chunkSize]
        exact ⟨hfull, hopen⟩
    refine ⟨t.sawEos, hpass.trans (.quiet (.one hstream.busy hstep) rfl rfl), ?_, hph, fun hx => nomatch hx.2⟩
    exact ⟨hstream.of_eq rfl rfl hstream.flushed, hholds.checked, hholds.chunkSize, hholds.policy, hholds.chunk,
      fun _ => hrest⟩
  · exact ⟨t, hpass.mono (Nat.le_succ _), hholds, hph, fun hx => hfull hx.1⟩

/-- A chunk is read, and the SCAN phase entered. -/
theorem AtChunk.toScan (h : AtChunk pol cs data s) (hcs : 1 ≤ cs) (hne : data ≠ []) :
    ∃ t, Passes strEncStep ((data.take cs).length + 2) s t (data.take cs).length [] 0 ∧
      HoldsChunk pol cs (data.take cs) (data.drop cs) t ∧ t.eng.ph = .scan := by
  obtain ⟨t, hpass, hholds, hph, hdone⟩ := h.read
  have hbuf : t.eng.ibuf ≠ [] := by
    have hpos := List.length_pos_iff.mpr hne
    rw [hholds.chunk, ← List.length_pos_iff, List.length_take]
    omega
  have hstep : strEncStep t = .went (t.toPhase .scan) := by
    rw [strEncStep_chunkRead hph hholds.flushed, chunkReadStep_done hholds.checked, if_neg hbuf]
    rwa [hholds.chunk, hholds.chunkSize]
  exact ⟨_, hpass.trans (.quiet (.one hholds.busy hstep) rfl rfl), hholds.of_eng hholds.flushed, rfl⟩

/-- With nothing left to read STR_ENC ends DONE. -/
theorem AwaitsChunk.ends (h : AwaitsChunk pol cs [] s) : Ends strEncStep 3 .noError s 0 [] 0 := by
  obtain h | ⟨-, hfin⟩ := h
  · obtain ⟨t, hpass, hholds, hph, hdone⟩ := h.read
    rw [List.take_nil] at hpass hholds hdone
    have hstep : strEncStep t = .went (t.endWith .noError) := by
      rw [strEncStep_chunkRead hph hholds.flushed, chunkReadStep_done hholds.checked, if_pos hholds.chunk]
      · rfl
      · rwa [hholds.chunk, hholds.chunkSize]
    exact hpass.ends (hholds.toStreaming.ends strEnc_flushes hstep)
  · exact (hfin.ends strEnc_flushes).mono (by omega)

/-! ### SCAN and ENC of a chunk (43_chunk_streamer.md R222) -/

/-- STR_ENC after the codes of an encoder's run have gone to FBUF: with an envelope to write, or raising. -/
def State.framed (p : Nat) (s : State) : LzwResult → State
  | .ok r out => (((s.withLzw r).seek p).fillFbuf out).toPhase .envWrite
  | .raised _ r out => raise .dictionaryOverflow (((s.withLzw r).seek p).fillFbuf out)
  | .fault _ => s

theorem framed_after {x : LzwResult} (hx : ∀ y, x ≠ .fault y) (p q : Nat) (r : Lzw) (out : List Byte) :
    (((s.withLzw r).seek q).fillFbuf out).framed p x.ended = s.framed p (x.after out).ended := by
  cases x with
  | fault y => exact absurd rfl (hx y)
  | _ => simp [LzwResult.ended, State.framed, State.fillFbuf, State.withLzw, State.seek, State.toPhase, State.endWith]

/-- ENC over the rest of the chunk fills FBUF with the codes of EncStep and EncEnd (41_lzw_codec.md R148). -/
theorem encWalk_frames (hb : s.regs.stat = .busy) (hp : s.eng.ph = .enc) (ho : s.eng.outq = [])
    (hne : s.eng.nCur.toNat ≠ s.eng.ibuf.length)
    (hnf : ∀ x, walk (encStep s.eng.polCur) (s.eng.ibuf.drop s.eng.ipos) s.eng.lzw ≠ .fault x) :
    ∃ k p, k ≤ s.eng.ibuf.length - s.eng.ipos + 1 ∧
      Steps strEncStep k s (s.framed p (walk (encStep s.eng.polCur) (s.eng.ibuf.drop s.eng.ipos) s.eng.lzw).ended) := by
  generalize hm : s.eng.ibuf.length - s.eng.ipos = m
  induction m generalizing s with
  | zero =>
    have hnone : s.eng.ibuf[s.eng.ipos]? = none := List.getElem?_eq_none (by omega)
    refine ⟨1, s.eng.ipos, Nat.le_refl 1, .one hb ?_⟩
    rw [strEncStep_enc hp ho, encPhase, if_neg hne, hnone, List.drop_of_length_le (by omega)]
    rfl
  | succ m ih =>
    have hc : s.eng.ibuf[s.eng.ipos]? = some s.eng.ibuf[s.eng.ipos] := List.getElem?_eq_getElem (by omega)
    have hstep := strEncStep_enc hp ho
    rw [encPhase, if_neg hne, hc] at hstep
    rw [drop_eq_cons hc] at hnf ⊢
    simp only [walk] at hnf ⊢
    cases hg : encStep s.eng.polCur s.eng.ibuf[s.eng.ipos] s.eng.lzw with
    | ok r out =>
      simp only [hg] at hstep hnf ⊢
      have hnf' : ∀ x, walk (encStep s.eng.polCur) (s.eng.ibuf.drop (s.eng.ipos + 1)) r ≠ .fault x :=
        fun x hx => hnf x (by rw [hx, LzwResult.after_fault])
      obtain ⟨k, p, hk, hst⟩ := ih (s := ((s.withLzw r).seek (s.eng.ipos + 1)).fillFbuf out) hb hp ho hne hnf'
        (by change s.eng.ibuf.length - (s.eng.ipos + 1) = m; omega)
      refine ⟨k + 1, p, by omega, .cons hb hstep ?_⟩
      rw [← framed_after hnf']
      exact hst
    | raised e r out =>
      simp only [hg] at hstep
      exact ⟨1, s.eng.ipos, by omega, .one hb hstep⟩
    | fault x => exact absurd (by rw [hg]) (hnf x)

/-- ENC of a whole chunk (41_lzw_codec.md R147, R148). -/
theorem enc_frames (hb : s.regs.stat = .busy) (hp : s.eng.ph = .enc) (ho : s.eng.outq = []) (hpos : s.eng.ipos = 0)
    (hs : scan s.eng.ibuf = some alpha) (hn : s.eng.nCur = BitVec.ofNat 8 alpha.length)
    (hlzw : s.eng.lzw = Lzw.seed alpha) :
    ∃ k p, k ≤ s.eng.ibuf.length + 1 ∧
      Steps strEncStep k s (s.framed p (encodeUnit s.eng.polCur alpha s.eng.ibuf)) := by
  obtain ⟨hnodup, hmax, hmem, -⟩ := scan_spec hs
  have hsize : s.eng.nCur.toNat = alpha.length := by rw [hn, alphabetSize_toNat hmax]
  by_cases hlen : alpha.length = s.eng.ibuf.length
  · refine ⟨1, s.eng.ipos, by omega, .one hb ?_⟩
    rw [encodeUnit_of_distinct hlen, ← hlzw, strEncStep_enc hp ho, encPhase, if_pos (hsize.trans hlen)]
    simp [State.framed, State.fillFbuf, State.withLzw, State.seek]
  · have hwalk : s.eng.ibuf.drop s.eng.ipos = s.eng.ibuf := by rw [hpos, List.drop_zero]
    obtain ⟨k, p, hk, hst⟩ := encWalk_frames hb hp ho (by rwa [hsize]) (by
      rw [hwalk, hlzw]
      exact encStep_walk_no_fault (seed_encOk hnodup hmax) _ fun c hc => (hmem c).mpr hc)
    rw [hwalk, hlzw] at hst
    exact ⟨k, p, by omega, by rw [encodeUnit_of_repeated hlen]; exact hst⟩

/-- The scan of a chunk that has an alphabet, and ENC after it. -/
theorem HoldsChunk.scan_enc (h : HoldsChunk pol cs c rest s) (hp : s.eng.ph = .scan) (hs : scan c = some alpha) :
    ∃ (v : State) (k p : Nat), k ≤ c.length + 2 ∧ Steps strEncStep k s (v.framed p (encodeUnit pol alpha c)) ∧
      v.regs = s.regs ∧ v.env = s.env ∧ v.eng.fbuf = frameHeader alpha ∧ HoldsChunk pol cs c rest v := by
  have hbuf : scan s.eng.ibuf = some alpha := by rw [h.chunk, hs]
  let v := startFrame alpha (enterEnc alpha (s.withN alpha.length))
  have hstep : strEncStep s = .went v := by rw [strEncStep_scan hp h.flushed, scanPhase_some _ hbuf]
  have hv : HoldsChunk pol cs c rest v := h.of_eng h.flushed
  obtain ⟨k, p, hk, hst⟩ := enc_frames (s := v) h.busy rfl h.flushed rfl hbuf rfl rfl
  rw [hv.chunk, hv.policy] at hst
  rw [hv.chunk] at hk
  exact ⟨v, k + 1, p, by omega, .cons h.busy hstep hst, rfl, rfl, rfl, hv⟩

/-- A chunk whose frame FrameEncode returns is ready for its envelope. -/
theorem HoldsChunk.coded (h : HoldsChunk pol cs c rest s) (hp : s.eng.ph = .scan)
    (hfr : frameEncode pol c = .bytes fr) :
    ∃ t, Passes strEncStep (c.length + 2) s t 0 [] 0 ∧ AtEnvelope pol cs c fr rest t := by
  obtain ⟨alpha, codes, r, hs, hrun, rfl⟩ := frameEncode_eq_bytes hfr
  obtain ⟨v, k, p, hk, hst, hregs, henv, hfbuf, hv⟩ := h.scan_enc hp hs
  rw [hrun] at hst
  refine ⟨_, (Passes.quiet hst hregs henv).mono hk, ⟨hv.of_eng hv.flushed, rfl, ?_⟩⟩
  rw [← hfbuf]
  rfl

/-- FrameEncode raises at the scan, or in the encoder's run. -/
theorem frameEncode_eq_raised (h : frameEncode pol data = .raised e out) :
    (scan data = none ∧ e = .alphabetOverflow) ∨
    ∃ alpha r codes, scan data = some alpha ∧ e = .dictionaryOverflow ∧
      encodeUnit pol alpha data = .raised .dictionaryOverflow r codes := by
  cases hs : scan data with
  | none =>
    simp only [frameEncode, hs, Coded.raised.injEq] at h
    exact .inl ⟨rfl, h.1.symm⟩
  | some alpha =>
    obtain ⟨r, codes, hrun⟩ | ⟨-, r, codes, hrun, -⟩ := encoderRaisesOnlyUnderErrorPolicy pol data alpha hs
    · rw [frameEncode_of_ok hs hrun] at h
      cases h
    · simp only [frameEncode, hs, hrun, LzwResult.coded, Coded.raised.injEq] at h
      exact .inr ⟨alpha, r, codes, rfl, h.1.symm, hrun⟩

/-- A chunk whose frame FrameEncode raises on ends STR_ENC with that error. -/
theorem HoldsChunk.raised (h : HoldsChunk pol cs c rest s) (hp : s.eng.ph = .scan)
    (hfr : frameEncode pol c = .raised e out) : Ends strEncStep (c.length + 3) e s 0 [] 0 := by
  obtain ⟨hs, rfl⟩ | ⟨alpha, r, codes, hs, rfl, hrun⟩ := frameEncode_eq_raised hfr
  · have hstep : strEncStep s = .went (s.endWith .alphabetOverflow) := by
      rw [strEncStep_scan hp h.flushed, scanPhase, h.chunk, hs, raise_eq]
    exact (h.toStreaming.ends strEnc_flushes hstep).mono (by omega)
  · obtain ⟨v, k, p, hk, hst, hregs, henv, -, hv⟩ := h.scan_enc hp hs
    rw [hrun] at hst
    have hfin : Finishing .dictionaryOverflow (v.framed p (.raised .dictionaryOverflow r codes)) :=
      ⟨hv.busy, rfl, rfl, hv.flushed⟩
    exact ((Passes.quiet hst hregs henv).mono hk).ends (hfin.ends strEnc_flushes)

/-! ### ENV_WRITE (43_chunk_streamer.md R222) -/

/-- The envelope becomes pending output, and FBUF is emptied. -/
theorem AtEnvelope.emitted (h : AtEnvelope pol cs c fr rest s) (hne : fr ≠ []) :
    strEncStep s = .went ({ s with eng.fbuf := [] }.emit (envelope c.length fr)) := by
  rw [strEncStep_envWrite h.phase h.flushed, envWriteStep, if_pos (by rw [h.frame]; exact hne), h.chunk, h.frame]

theorem AtEnvelope.pending (h : AtEnvelope pol cs c fr rest s) :
    ({ s with eng.fbuf := [] }.emit (envelope c.length fr)).eng.outq = envelope c.length fr := by
  rw [emit_eng]
  exact congrArg (· ++ _) h.flushed

/-- Once the envelope is offered it is counted, and the next chunk or the end follows. -/
theorem HoldsChunk.counted (h : HoldsChunk pol cs c rest s) (hp : s.eng.ph = .envWrite) (hf : s.eng.fbuf = []) :
    ∃ t, Passes strEncStep 1 s t 0 [] 1 ∧ AwaitsChunk pol cs rest t := by
  have hstep : strEncStep s = if s.eng.eosSeen then .went (finishDone s.countChunk)
      else .went ({ s.countChunk with eng.ibuf := [] }.toPhase .chunkRead) := by
    rw [strEncStep_envWrite hp h.flushed, envWriteStep, if_neg (not_not_intro hf)]
  cases heos : s.eng.eosSeen with
  | true =>
    rw [heos, if_pos rfl] at hstep
    exact ⟨_, .counted (.one h.busy hstep) rfl rfl, .inr ⟨h.atEos heos, h.busy, rfl, rfl, h.flushed⟩⟩
  | false =>
    rw [heos, if_neg Bool.false_ne_true] at hstep
    exact ⟨_, .counted (.one h.busy hstep) rfl rfl, .inl ⟨⟨h.toStreaming.of_eq rfl rfl h.flushed, h.checked,
      h.chunkSize, h.policy, rfl, h.atEos⟩, rfl, heos⟩⟩

/-- An envelope that the sink takes whole. -/
theorem AtEnvelope.sent (h : AtEnvelope pol cs c fr rest s) (hne : fr ≠ [])
    (hfit : s.env.sink.fits (envelope c.length fr).length = true) :
    ∃ t, Passes strEncStep 3 s t 0 (envelope c.length fr) 1 ∧ AwaitsChunk pol cs rest t := by
  obtain ⟨calls, hflush⟩ := flush_passes strEnc_flushes ({ s with eng.fbuf := [] }.emit (envelope c.length fr)) h.busy
    (by rw [h.pending]; exact hfit)
  rw [h.pending] at hflush
  have hholds : HoldsChunk pol cs c rest (State.sent (envelope c.length fr) calls
      { { s with eng.fbuf := [] }.emit (envelope c.length fr) with eng.outq := [] }) :=
    ⟨⟨h.busy, rfl, h.stream, h.srcEnds, h.sinkEnds⟩, h.checked, h.chunkSize, h.policy, h.chunk, h.atEos⟩
  obtain ⟨t, hcount, hawait⟩ := hholds.counted h.phase rfl
  have hall := ((Passes.quiet (.one h.busy (h.emitted hne)) rfl rfl).trans hflush).trans hcount
  rw [List.nil_append, List.append_nil] at hall
  exact ⟨t, hall, hawait⟩

/-- An envelope that the sink takes short ends STR_ENC, uncounted. -/
theorem AtEnvelope.short (h : AtEnvelope pol cs c fr rest s) (hne : fr ≠ []) {a : Nat}
    (ha : s.env.sink.room = some a) (hlt : a < (envelope c.length fr).length) :
    Ends strEncStep 3 .shortWrite s 0 ((envelope c.length fr).take a) 0 := by
  have hshort := flush_ends_short strEnc_flushes ({ s with eng.fbuf := [] }.emit (envelope c.length fr)) h.busy
    h.sinkEnds ha (by rw [h.pending]; exact hlt)
  rw [h.pending] at hshort
  exact (Passes.quiet (.one h.busy (h.emitted hne)) rfl rfl).ends hshort

/-! ### Whole streams -/

/-- The next chunk of a stream, read and coded. -/
theorem AwaitsChunk.coded (h : AwaitsChunk pol cs data s) (hcs : 1 ≤ cs) (hchunks : chunksOf cs data = c :: post)
    (hfr : frameEncode pol c = .bytes fr) :
    ∃ t rest, Passes strEncStep (2 * c.length + 4) s t c.length [] 0 ∧ AtEnvelope pol cs c fr rest t ∧ fr ≠ [] ∧
      chunksOf cs rest = post := by
  obtain ⟨hne, rfl, hpost⟩ := chunksOf_eq_cons hcs hchunks
  obtain ⟨hc, -⟩ := chunksOf_mem hcs data (data.take cs) (by rw [hchunks]; exact List.mem_cons_self)
  obtain h | ⟨hnil, -⟩ := h
  · obtain ⟨u, hread, hholds, hp⟩ := h.toScan hcs hne
    obtain ⟨t, hcode, hat⟩ := hholds.coded hp hfr
    obtain ⟨n, alpha, codes, r, hcons, -⟩ := frameEncode_eq_bytes_of_ne_nil hfr hc
    exact ⟨t, _, (hread.trans hcode).mono (by omega), hat, by rw [hcons]; exact List.cons_ne_nil _ _, hpost⟩
  · exact absurd hnil hne

/-- The chunks `pre` whose envelopes the sink takes whole; each costs at most nine steps a byte. -/
theorem AwaitsChunk.sent (h : AwaitsChunk pol cs data s) (hcs : 1 ≤ cs) (hchunks : chunksOf cs data = pre ++ post)
    (hok : (encodeChunks pol pre).err = .noError)
    (hfit : s.env.sink.fits (encodeChunks pol pre).out.length = true) :
    ∃ t rest, Passes strEncStep (9 * pre.flatten.length) s t (encodeChunks pol pre).consumed
        (encodeChunks pol pre).out pre.length ∧ AwaitsChunk pol cs rest t ∧ chunksOf cs rest = post := by
  induction pre generalizing data s with
  | nil => exact ⟨s, data, .refl _ s, h, hchunks⟩
  | cons c pre ih =>
    obtain ⟨fr, hfr, hok⟩ := encodeChunks_cons_eq_ok hok
    rw [encodeChunks_cons_of_bytes hfr] at hfit ⊢
    simp only [StreamRun.after, List.length_append] at hfit ⊢
    have hpos : 1 ≤ c.length := List.length_pos_iff.mpr
      (chunksOf_mem hcs data c (by rw [hchunks]; exact List.mem_cons_self)).1
    obtain ⟨u, rest, hcode, hat, hne, hrest⟩ := h.coded hcs hchunks hfr
    obtain ⟨v, hsent, hawait⟩ := hat.sent hne (fits_mono (hcode.advanced.fits (n := _ + _) (by simpa using hfit))
      (Nat.le_add_right _ _))
    have hone := hcode.trans hsent
    rw [List.nil_append] at hone
    obtain ⟨t, rest', hpass, hend⟩ := ih hawait hrest hok (hone.advanced.fits hfit)
    refine ⟨t, rest', ?_, hend⟩
    have hall := hone.trans hpass
    rw [Nat.add_zero, Nat.zero_add, Nat.add_comm 1] at hall
    refine hall.mono ?_
    rw [List.flatten_cons, List.length_append]
    omega

/-- A run has no error, or it ends at the first chunk whose frame raises one. -/
theorem encodeChunks_split (pol : Policy) (chunks : List (List Byte)) :
    (encodeChunks pol chunks).err = .noError ∨
    ∃ pre c post e out, chunks = pre ++ c :: post ∧ (encodeChunks pol pre).err = .noError ∧
      frameEncode pol c = .raised e out ∧
      encodeChunks pol chunks =
        { out := (encodeChunks pol pre).out, err := e, chunks := pre.length
          consumed := (encodeChunks pol pre).consumed + c.length } := by
  induction chunks with
  | nil => exact .inl rfl
  | cons c chunks ih =>
    obtain ⟨fr, hfr⟩ | ⟨e, out, hfr, -⟩ := frameEncode_cases pol c
    · obtain hok | ⟨pre, c', post, e, out, rfl, hok, hraise, hrun⟩ := ih
      · exact .inl (by rw [encodeChunks_cons_of_bytes hfr]; exact hok)
      · refine .inr ⟨c :: pre, c', post, e, out, rfl, by rw [encodeChunks_cons_of_bytes hfr]; exact hok, hraise, ?_⟩
        rw [encodeChunks_cons_of_bytes hfr, encodeChunks_cons_of_bytes hfr, hrun]
        simp [StreamRun.after, Nat.add_assoc]
    · exact .inr ⟨[], c, chunks, e, out, rfl, rfl, hfr, by
        rw [encodeChunks_cons_of_raised hfr]
        simp [encodeChunks]⟩

/-- STR_ENC of a whole stream whose sink takes everything ends as the big-step run does. -/
theorem AwaitsChunk.ends_run (h : AwaitsChunk pol cs data s) (hcs : 1 ≤ cs)
    (hfit : s.env.sink.fits (strEncode pol cs data).out.length = true) :
    Ends strEncStep (9 * data.length + 5) (strEncode pol cs data).err s (strEncode pol cs data).consumed
      (strEncode pol cs data).out (strEncode pol cs data).chunks := by
  have hlen := congrArg List.length (chunksOf_flatten hcs data)
  rw [strEncode] at hfit ⊢
  obtain hok | ⟨pre, c, post, e, out, hchunks, hok, hraise, hrun⟩ := encodeChunks_split pol (chunksOf cs data)
  · obtain ⟨t, rest, hpass, hawait, hnil⟩ := h.sent hcs (List.append_nil _).symm hok hfit
    rw [(chunksOf_eq_nil_iff hcs).mp hnil] at hawait
    have hends := hpass.ends hawait.ends
    rw [List.append_nil] at hends
    rw [hok, (encodeChunks_ok_counts hok).2]
    exact hends.mono (by omega)
  · rw [hrun] at hfit ⊢
    rw [hchunks, List.flatten_append, List.flatten_cons, List.length_append, List.length_append] at hlen
    obtain ⟨t, rest, hpass, hawait, hrest⟩ := h.sent hcs hchunks hok hfit
    obtain ⟨hne, rfl, -⟩ := chunksOf_eq_cons hcs hrest
    obtain hat | ⟨hnil, -⟩ := hawait
    · obtain ⟨u, hread, hholds, hp⟩ := hat.toScan hcs hne
      have hends := (hpass.trans hread).ends (hholds.raised hp hraise)
      rw [List.append_nil, List.append_nil] at hends
      exact hends.mono (by omega)
    · exact absurd hnil hne

/-- Settles O38: the check, the chunks and the end lie within the step budget. -/
theorem strEncResult : Obligations.StrEncResult := by
  intro s data run h hlo hhi hrun hfit
  subst hrun
  obtain ⟨t, hpass, hat⟩ := strEnc_enter h hlo hhi
  have hfit : (accept (opOf .strEnc) .chunkRead s).env.sink.fits _ = true := fits_of_takesAll hfit
  have hends := hpass.ends (AwaitsChunk.ends_run (.inl hat) hlo (hpass.advanced.fits (by simpa using hfit)))
  rw [Nat.zero_add, List.nil_append, Nat.zero_add] at hends
  exact hends.issued h (by omega)

/-- Settles O39: the chunks before `c` are sent, `c` is coded, and its envelope is taken short. -/
theorem strEncShortWrite : Obligations.StrEncShortWrite := by
  intro s data c fr pre post a h hlo hhi hchunks hok hfr ha hle hlt
  have hlen := congrArg List.length (chunksOf_flatten hlo data)
  rw [hchunks, List.flatten_append, List.flatten_cons, List.length_append, List.length_append] at hlen
  obtain ⟨t, hcheck, hat⟩ := strEnc_enter h hlo hhi
  have hfit : t.env.sink.fits (encodeChunks s.regs.ovfPolicy pre).out.length = true :=
    hcheck.advanced.fits (by simpa [Sink.fits, ha] using hle)
  obtain ⟨u, rest, hsent, hawait, hrest⟩ := AwaitsChunk.sent (.inl hat) hlo hchunks hok hfit
  obtain ⟨v, rest', hcode, hatEnv, hne, -⟩ := hawait.coded hlo hrest hfr
  have hpass := (hcheck.trans hsent).trans hcode
  rw [List.append_nil, List.nil_append, Nat.zero_add, Nat.zero_add, Nat.add_zero] at hpass
  have hends := hpass.ends (hatEnv.short hne (hpass.advanced.room ha) (by rw [List.length_append] at hlt; omega))
  rw [Nat.add_zero, Nat.add_zero] at hends
  have hgot : (encodeChunks s.regs.ovfPolicy pre).out ++
      (envelope c.length fr).take (a - (encodeChunks s.regs.ovfPolicy pre).out.length) =
      ((encodeChunks s.regs.ovfPolicy pre).out ++ envelope c.length fr).take a := by
    rw [List.take_append, List.take_of_length_le hle]
  rw [hgot] at hends
  obtain ⟨w, hexec, hleft, hrest, hregs⟩ := hends.issued h (by omega)
  rw [List.length_take_of_le hlt.le] at hregs
  exact ⟨w, hexec, hleft, hrest, hregs⟩

end Sys2Proof.Machine
end

section
/-! PROOF. STR_DEC (43_chunk_streamer.md R226 to R230, R232): what the engine does with one envelope, and whole
containers (obligations O40, O41). -/

namespace Sys2Proof.Machine

variable {f : State → Turn} {s t v : State} {alpha codes bs body front rest data out : List Byte} {e : Err} {r : Lzw}
  {n : Nat} {h0 h1 h2 h3 : Byte}

/-! ### STR_DEC's rule, phase by phase -/

theorem strDecStep_awaitHeader (hp : s.eng.ph = .awaitHeader) (ho : s.eng.outq = []) : strDecStep s = headerStep s :=
  (flushFirst_empty ho).trans (by simp only [hp])

theorem strDecStep_awaitBody (hp : s.eng.ph = .awaitBody) (ho : s.eng.outq = []) : strDecStep s = bodyStep s :=
  (flushFirst_empty ho).trans (by simp only [hp])

theorem strDecStep_dec (hp : s.eng.ph = .dec) (ho : s.eng.outq = []) :
    strDecStep s = decPhase (frameCodes s.eng.nCur s.eng.fbuf) envelopeDone (raise .malformedFrame) s :=
  (flushFirst_empty ho).trans (by simp only [hp])

theorem strDec_flushes : Flushes strDecStep := engine_flushes.2.2.2.2.2.2

/-! ### The states between the steps of an envelope -/

/-- STR_DEC at the start of an envelope, with `data` still to come. -/
structure AtHeader (data : List Byte) (s : State) : Prop extends Streaming data s where
  phase : s.eng.ph = .awaitHeader
  header : s.eng.hdr = []

/-- STR_DEC in a body of `n` bytes, of which it holds the bytes `body`. -/
structure InBody (n : Nat) (body rest : List Byte) (s : State) : Prop extends Streaming rest s where
  phase : s.eng.ph = .awaitBody
  need : s.eng.fneed.toNat = n
  held : s.eng.fbuf = body

/-! ### The header (43_chunk_streamer.md R226) -/

/-- The engine once it holds the header bytes `g`: it goes on to the body after the fourth. -/
def Engine.withHeader (en : Engine) (g : List Byte) : Engine :=
  if g.length = 4 then { en with hdr := g, fneed := frameLen g, fbuf := [], ph := .awaitBody } else { en with hdr := g }

theorem headerDone_fillHdr (s : State) (r : List Byte) :
    headerDone (s.fillHdr r) = { s with eng := s.eng.withHeader (s.eng.hdr ++ r) } := by
  unfold headerDone Engine.withHeader
  rw [fillHdr_eng]
  split <;> rfl

/-- Header bytes already held are replaced. -/
theorem withHeader_withHeader (en : Engine) {g : List Byte} (hg : g.length < 4) (g' : List Byte) :
    (en.withHeader g).withHeader g' = en.withHeader g' := by
  rw [Engine.withHeader.eq_def en g, if_neg (by omega)]
  rfl

theorem AtHeader.fills (h : AtHeader data s) : Fills strDecStep 4 s.eng.withHeader where
  flushed g := by
    unfold Engine.withHeader
    split <;> exact h.flushed
  step u g r src hu hlt hr := by
    have heng : u.eng = { s.eng with hdr := g } := by rw [hu, Engine.withHeader, if_neg (by omega)]
    have hhdr : u.eng.hdr = g := by rw [heng]
    rw [strDecStep_awaitHeader (by rw [heng]; exact h.phase) (by rw [heng]; exact h.flushed), headerStep, hhdr,
      readStep_data hr, headerDone_fillHdr, countIn_eng, withSrc_eng, hhdr, hu, withHeader_withHeader _ hlt]

theorem AtHeader.eng_eq (h : AtHeader data s) : s.eng = s.eng.withHeader [] := by
  rw [Engine.withHeader, if_neg (by decide), ← h.header]

/-- The four header bytes are read, and the body's length taken. -/
theorem AtHeader.toBody (h : AtHeader (h0 :: h1 :: h2 :: h3 :: data) s) :
    ∃ t, Passes strDecStep 4 s t 4 [] 0 ∧ InBody (fromBe16 h2 h3).toNat [] data t := by
  obtain ⟨t, hpass, heng, hstream⟩ := fill_whole (bs := [h0, h1, h2, h3]) h.fills h.toStreaming h.eng_eq rfl
  exact ⟨t, hpass, hstream, by rw [heng]; rfl, by rw [heng]; rfl, by rw [heng]; rfl⟩

/-- EOS before the fourth header byte: the clean end, or TRUNCATED_ENVELOPE (43_chunk_streamer.md R228). -/
theorem AtHeader.ends (h : AtHeader data s) (hlt : data.length < 4) :
    Ends strDecStep (data.length + 2) (if data = [] then .noError else .truncatedEnvelope) s data.length [] 0 := by
  obtain ⟨t, hpass, heng, hstream⟩ := fill_to_eos h.fills h.toStreaming h.eng_eq hlt
  rw [Engine.withHeader, if_neg (by omega)] at heng
  have hhdr : t.eng.hdr = data := by rw [heng]
  have hstep : strDecStep t =
      .went (t.sawEos.endWith (if data = [] then .noError else .truncatedEnvelope)) := by
    rw [strDecStep_awaitHeader (by rw [heng]; exact h.phase) hstream.flushed, headerStep,
      readStep_eos hstream.stream hstream.srcEnds, sawEos_eng, hhdr]
    split <;> rfl
  exact hpass.ends (hstream.ends_at_eos strDec_flushes hstep)

/-! ### The body (43_chunk_streamer.md R227) -/

theorem bodyStep_read (h : s.eng.fbuf.length < s.eng.fneed.toNat) :
    bodyStep s = readStep (s.eng.fneed.toNat - s.eng.fbuf.length) (raise .truncatedEnvelope) State.fillFbuf s :=
  if_pos h

theorem InBody.fills (h : InBody n [] data s) : Fills strDecStep n fun g => { s.eng with fbuf := g } where
  flushed _ := h.flushed
  step u g r src hu hlt hr := by
    have hneed : u.eng.fneed.toNat = n := by rw [hu]; exact h.need
    have hbuf : u.eng.fbuf = g := by rw [hu]
    rw [strDecStep_awaitBody (by rw [hu]; exact h.phase) (by rw [hu]; exact h.flushed),
      bodyStep_read (by rw [hneed, hbuf]; exact hlt), hneed, hbuf, readStep_data hr]
    simp [State.fillFbuf, State.withSrc, State.countIn, hu]

/-- The whole body is read. -/
theorem InBody.read (h : InBody body.length [] (body ++ rest) s) :
    ∃ t, Passes strDecStep body.length s t body.length [] 0 ∧ InBody body.length body rest t := by
  obtain ⟨t, hpass, heng, hstream⟩ := fill_whole h.fills h.toStreaming (by rw [← h.held]) rfl
  exact ⟨t, hpass, hstream, by rw [heng]; exact h.phase, by rw [heng]; exact h.need, by rw [heng]⟩

/-- EOS before the body's end (43_chunk_streamer.md R227). -/
theorem InBody.truncated (h : InBody n [] data s) (hlt : data.length < n) :
    Ends strDecStep (data.length + 2) .truncatedEnvelope s data.length [] 0 := by
  obtain ⟨t, hpass, heng, hstream⟩ := fill_to_eos h.fills h.toStreaming (by rw [← h.held]) hlt
  have hmore : t.eng.fbuf.length < t.eng.fneed.toNat := by
    rw [heng]
    exact hlt.trans_eq h.need.symm
  have hstep : strDecStep t = .went (t.sawEos.endWith .truncatedEnvelope) := by
    rw [strDecStep_awaitBody (by rw [heng]; exact h.phase) hstream.flushed, bodyStep_read hmore,
      readStep_eos hstream.stream hstream.srcEnds, raise_eq]
  exact hpass.ends (hstream.ends_at_eos strDec_flushes hstep)

/-- A whole envelope is read. -/
theorem AtHeader.read (h : AtHeader (h0 :: h1 :: h2 :: h3 :: (body ++ rest)) s)
    (hlen : body.length = (fromBe16 h2 h3).toNat) :
    ∃ t, Passes strDecStep (4 + body.length) s t (4 + body.length) [] 0 ∧ InBody body.length body rest t := by
  obtain ⟨u, hheader, hbody⟩ := h.toBody
  rw [← hlen] at hbody
  obtain ⟨t, hread, hend⟩ := hbody.read
  exact ⟨t, hheader.trans hread, hend⟩

/-! ### DEC in a streamer (41_lzw_codec.md R151, R154) -/

/-- DEC of codes whose decode returns, up to the step that leaves it. -/
theorem dec_passes {leave bad : State → State} (hfl : Flushes f) (h : s.EntersDec alpha codes)
    (hf : ∀ u p r, u.eng = s.eng.at p r → f u = decPhase codes leave bad u)
    (hrun : lzwDecode alpha codes = .ok r out) (hfit : s.env.sink.fits out.length = true) :
    ∃ c, Passes f (2 * codes.length + 1) s ({ s with eng := s.eng.at codes.length r }.sent out c) 0 out 0 := by
  by_cases hcodes : codes = []
  · have ho := h.pending.trans (if_pos hcodes)
    rw [hcodes, lzwDecode_nil] at hrun
    obtain ⟨rfl, rfl⟩ := LzwResult.ok.inj hrun
    obtain ⟨c, hpass⟩ := flush_passes hfl s h.busy (by rw [ho]; exact hfit)
    have hat : { s.eng with outq := [] } = s.eng.at codes.length (Lzw.seed alpha) := by
      rw [Engine.at, ← h.lzw, hcodes, List.length_nil, ← h.pos]
    rw [ho, hat] at hpass
    exact ⟨c, hpass.mono (Nat.le_add_left _ _)⟩
  · obtain ⟨hself, hwalk⟩ := h.walk hcodes
    rw [hwalk] at hrun
    obtain ⟨k, c, hk, hst⟩ := walk_ok hfl (decPhase_walks hf) s 0 _ r out h.busy hself (Nat.zero_le _) hrun hfit
    refine ⟨c, k, ?_, hst, ⟨s.regs.dictNext, by simp [count32]⟩, s.env.src, c, rfl⟩
    change k + c.length ≤ _
    omega

/-- The error of a streamer's coding phase touches no register. -/
theorem badUpdate_raise (e : Err) : BadUpdate (raise e) :=
  ⟨fun _ => rfl, fun _ => rfl, fun _ => rfl, fun u => ⟨u.regs.dictNext, rfl⟩, fun _ => rfl, fun _ => rfl,
    fun _ _ _ => rfl⟩

/-- DEC of codes at one of which the decode raises. -/
theorem dec_ends_raised {leave : State → State} {x : Err} (hfl : Flushes f) (h : s.EntersDec alpha codes)
    (hf : ∀ u p r, u.eng = s.eng.at p r → f u = decPhase codes leave (raise e) u)
    (hrun : lzwDecode alpha codes = .raised x r out) (hfit : s.env.sink.fits out.length = true) :
    Ends f (2 * codes.length + 1) e s 0 out 0 := by
  have hcodes : codes ≠ [] := by
    rintro rfl
    rw [lzwDecode_nil] at hrun
    cases hrun
  obtain ⟨hself, hwalk⟩ := h.walk hcodes
  rw [hwalk] at hrun
  obtain ⟨k, q, c, hk, hst⟩ := walk_raised hfl (badUpdate_raise e) (decPhase_walks hf) s 0 _ r x out h.busy hself
    (Nat.zero_le _) hrun hfit
  exact ⟨k + 1, _, by omega, hst.trans (.one h.busy (hfl.finish _ rfl rfl)), ⟨s.regs.dictNext, by simp [count32]⟩,
    s.env.src, c, rfl⟩

/-- DEC whose output the sink takes short, whether the decode returns or raises. -/
theorem dec_ends_short {leave : State → State} (hfl : Flushes f) (h : s.EntersDec alpha codes)
    (hf : ∀ u p r, u.eng = s.eng.at p r → f u = decPhase codes leave (raise e) u)
    (hrun : lzwDecode alpha codes = .ok r out ∨ ∃ x, lzwDecode alpha codes = .raised x r out)
    (ht : s.env.sink.tail = .ends) {a : Nat} (ha : s.env.sink.room = some a) (hlt : a < out.length) :
    Ends f (2 * codes.length + 2) .shortWrite s 0 (out.take a) 0 := by
  obtain ⟨hnf, hout⟩ : (∀ x, lzwDecode alpha codes ≠ .fault x) ∧ (lzwDecode alpha codes).out = out := by
    obtain hrun | ⟨x, hrun⟩ := hrun <;> rw [hrun] <;> exact ⟨(fun _ hx => nomatch hx), rfl⟩
  rw [← hout] at hlt ⊢
  by_cases hcodes : codes = []
  · have ho := h.pending.trans (if_pos hcodes)
    rw [hcodes, lzwDecode_nil] at hlt ⊢
    have hends := flush_ends_short hfl s h.busy ht ha (by rw [ho]; exact hlt)
    rw [ho] at hends
    exact hends.mono (by omega)
  · obtain ⟨hself, hwalk⟩ := h.walk hcodes
    rw [hwalk] at hnf hlt ⊢
    obtain ⟨k, t, hk, hst, hend⟩ := walk_short hfl (badUpdate_raise e) (decPhase_walks hf) s 0 _ a h.busy hself
      (Nat.zero_le _) hnf ha ht hlt
    exact hend.ends hst (by omega)

/-! ### What a frame decodes to (42_frame_codec.md R191 to R193) -/

theorem parseFrame_eq_parts (h : parseFrame body = .parts alpha codes) :
    ∃ n : Byte, body = n :: (alpha ++ codes) ∧ alpha.length = n.toNat := by
  unfold parseFrame at h
  split at h
  · cases h
  rename_i n rest
  split_ifs at h with h0 hshort
  cases h
  exact ⟨n, by rw [List.take_append_drop], List.length_take_of_le (Nat.not_lt.mp hshort)⟩

theorem frameDecode_eq_bytes (h : frameDecode body = .bytes out) :
    (parseFrame body = .empty ∧ out = []) ∨
    ∃ alpha codes r, parseFrame body = .parts alpha codes ∧ lzwDecode alpha codes = .ok r out := by
  cases hp : parseFrame body with
  | empty =>
    rw [frameDecode_of_empty hp] at h
    exact .inl ⟨rfl, (Coded.bytes.inj h).symm⟩
  | short =>
    rw [frameDecode_of_short hp] at h
    cases h
  | parts alpha codes =>
    rw [frameDecode_of_parts hp] at h
    cases hrun : lzwDecode alpha codes <;> rw [hrun] at h <;> cases h
    exact .inr ⟨alpha, codes, _, rfl, hrun⟩

/-- FrameDecode raises only MALFORMED_FRAME, at a short frame or at a bad code. -/
theorem frameDecode_eq_raised (h : frameDecode body = .raised e out) :
    e = .malformedFrame ∧ ((parseFrame body = .short ∧ out = []) ∨
      ∃ alpha codes r, parseFrame body = .parts alpha codes ∧
        lzwDecode alpha codes = .raised .malformedFrame r out) := by
  cases hp : parseFrame body with
  | empty =>
    rw [frameDecode_of_empty hp] at h
    cases h
  | short =>
    rw [frameDecode_of_short hp] at h
    cases h
    exact ⟨rfl, .inl ⟨rfl, rfl⟩⟩
  | parts alpha codes =>
    rw [frameDecode_of_parts hp] at h
    obtain ⟨r, o, hrun⟩ | ⟨r, o, hrun⟩ := lzwDecode_ends (parseFrame_parts hp) codes <;> rw [hrun] at h <;> cases h
    exact ⟨rfl, .inr ⟨alpha, codes, r, rfl, hrun⟩⟩

/-- FrameDecode never stops in a fault. -/
theorem frameDecode_cases (body : List Byte) :
    (∃ out, frameDecode body = .bytes out) ∨ ∃ out, frameDecode body = .raised .malformedFrame out := by
  cases hp : parseFrame body with
  | empty => exact .inl ⟨_, frameDecode_of_empty hp⟩
  | short => exact .inr ⟨_, frameDecode_of_short hp⟩
  | parts alpha codes =>
    rw [frameDecode_of_parts hp]
    obtain ⟨r, o, hrun⟩ | ⟨r, o, hrun⟩ := lzwDecode_ends (parseFrame_parts hp) codes <;> rw [hrun]
    · exact .inl ⟨_, rfl⟩
    · exact .inr ⟨_, rfl⟩

/-! ### The envelope's frame (43_chunk_streamer.md R228) -/

theorem InBody.step (h : InBody body.length body rest s) : strDecStep s = .went (enterBody s) := by
  rw [strDecStep_awaitBody h.phase h.flushed, bodyStep, if_neg]
  rw [h.held, h.need]
  exact lt_irrefl _

theorem envelopeDone_atHeader (h : Streaming rest s) : AtHeader rest (envelopeDone s) :=
  ⟨h.of_eq rfl rfl h.flushed, rfl, rfl⟩

/-- The entry into DEC for a frame with an alphabet, and STR_DEC's rule from there on. -/
theorem InBody.toDec (h : InBody body.length body rest s) (hp : parseFrame body = .parts alpha codes) :
    ∃ v, strDecStep s = .went v ∧ v.regs = s.regs ∧ v.env = s.env ∧ v.EntersDec alpha codes ∧
      ∀ u p r, u.eng = v.eng.at p r → strDecStep u = decPhase codes envelopeDone (raise .malformedFrame) u := by
  obtain ⟨n, rfl, hlen⟩ := parseFrame_eq_parts hp
  have henter : enterBody s = enterDec alpha (codes = []) s := by simp only [enterBody, h.held, hp]
  have hdec := enterDec_entersDec h.busy h.flushed alpha codes
  refine ⟨_, h.step.trans (by rw [henter]), enterDec_regs _ _, enterDec_env _ _ _, hdec, fun u p r hu => ?_⟩
  have hph : u.eng.ph = .dec := by rw [hu]; exact hdec.phase
  have hsize : u.eng.nCur = n := by
    rw [hu]
    exact hdec.n.trans (ofNat_alphabetSize hlen)
  have hbuf : u.eng.fbuf = n :: (alpha ++ codes) := by
    rw [hu, enterDec_eng]
    exact h.held
  rw [strDecStep_dec hph (by rw [hu]; rfl), hsize, hbuf, frameCodes_append hlen]

theorem parseFrame_codes_le (h : parseFrame body = .parts alpha codes) : codes.length ≤ body.length := by
  obtain ⟨n, rfl, -⟩ := parseFrame_eq_parts h
  rw [List.length_cons, List.length_append]
  omega

/-- An envelope whose frame decodes: its output is sent, and it is counted. -/
theorem InBody.decoded (h : InBody body.length body rest s) (hdec : frameDecode body = .bytes out)
    (hfit : s.env.sink.fits out.length = true) :
    ∃ t, Passes strDecStep (2 * body.length + 3) s t 0 out 1 ∧ AtHeader rest t := by
  obtain ⟨hp, rfl⟩ | ⟨alpha, codes, r, hp, hrun⟩ := frameDecode_eq_bytes hdec
  · have hstep : strDecStep s = .went (envelopeDone s) := by
      rw [h.step]
      simp only [enterBody, h.held, hp]
    exact ⟨_, (Passes.counted (.one h.busy hstep) rfl rfl).mono (by omega), envelopeDone_atHeader h.toStreaming⟩
  · obtain ⟨v, hstep, hregs, henv, henters, hf⟩ := h.toDec hp
    obtain ⟨c, hpass⟩ := dec_passes strDec_flushes henters hf hrun (by rw [henv]; exact hfit)
    set u := { v with eng := v.eng.at codes.length r }.sent out c with hu
    have hstream : Streaming rest u := ⟨henters.busy, rfl, by simp [hu, henv, h.stream], by simp [hu, henv, h.srcEnds],
      by simp [hu, henv, h.sinkEnds]⟩
    have hleave : strDecStep u = .went (envelopeDone u) := by
      rw [hf u _ r rfl, decPhase]
      simp [hu, Engine.at]
    have hall := ((Passes.quiet (.one h.busy hstep) hregs henv).trans hpass).trans
      (.counted (.one hstream.busy hleave) rfl rfl)
    rw [List.nil_append, List.append_nil] at hall
    have hle := parseFrame_codes_le hp
    exact ⟨_, hall.mono (by omega), envelopeDone_atHeader hstream⟩

/-- An envelope whose frame is malformed ends STR_DEC after the bytes decoded before it. -/
theorem InBody.raised (h : InBody body.length body rest s) (hdec : frameDecode body = .raised e out)
    (hfit : s.env.sink.fits out.length = true) : Ends strDecStep (2 * body.length + 2) e s 0 out 0 := by
  obtain ⟨rfl, ⟨hp, rfl⟩ | ⟨alpha, codes, r, hp, hrun⟩⟩ := frameDecode_eq_raised hdec
  · have hstep : strDecStep s = .went (s.endWith .malformedFrame) := by
      rw [h.step]
      simp only [enterBody, h.held, hp, raise_eq]
    exact (h.toStreaming.ends strDec_flushes hstep).mono (by omega)
  · obtain ⟨v, hstep, hregs, henv, henters, hf⟩ := h.toDec hp
    have hends := dec_ends_raised strDec_flushes henters hf hrun (by rw [henv]; exact hfit)
    have hle := parseFrame_codes_le hp
    exact ((Passes.quiet (.one h.busy hstep) hregs henv).ends hends).mono (by omega)

/-- An envelope whose output the sink takes short ends STR_DEC, uncounted. -/
theorem InBody.short (h : InBody body.length body rest s)
    (hdec : frameDecode body = .bytes out ∨ ∃ e, frameDecode body = .raised e out) {a : Nat}
    (ha : s.env.sink.room = some a) (hlt : a < out.length) :
    Ends strDecStep (2 * body.length + 3) .shortWrite s 0 (out.take a) 0 := by
  have hout : out ≠ [] := List.length_pos_iff.mp (by omega)
  obtain ⟨alpha, codes, r, hp, hrun⟩ : ∃ alpha codes r, parseFrame body = .parts alpha codes ∧
      (lzwDecode alpha codes = .ok r out ∨ ∃ x, lzwDecode alpha codes = .raised x r out) := by
    obtain hdec | ⟨e, hdec⟩ := hdec
    · obtain ⟨-, hnil⟩ | ⟨alpha, codes, r, hp, hrun⟩ := frameDecode_eq_bytes hdec
      · exact absurd hnil hout
      · exact ⟨alpha, codes, r, hp, .inl hrun⟩
    · obtain ⟨-, ⟨-, hnil⟩ | ⟨alpha, codes, r, hp, hrun⟩⟩ := frameDecode_eq_raised hdec
      · exact absurd hnil hout
      · exact ⟨alpha, codes, r, hp, .inr ⟨_, hrun⟩⟩
  obtain ⟨v, hstep, hregs, henv, henters, hf⟩ := h.toDec hp
  have hends :=
    dec_ends_short strDec_flushes henters hf hrun (by rw [henv]; exact h.sinkEnds) (by rw [henv]; exact ha) hlt
  have hle := parseFrame_codes_le hp
  exact ((Passes.quiet (.one h.busy hstep) hregs henv).ends hends).mono (by omega)

/-! ### Whole containers -/

/-- How a container begins: too few header bytes (or none), a body cut off, or a whole envelope. -/
theorem container_cases (bs : List Byte) :
    bs.length < 4 ∨
    (∃ h0 h1 h2 h3 rest, bs = h0 :: h1 :: h2 :: h3 :: rest ∧ rest.length < (fromBe16 h2 h3).toNat) ∨
    ∃ h0 h1 h2 h3 body rest, bs = h0 :: h1 :: h2 :: h3 :: (body ++ rest) ∧
      body.length = (fromBe16 h2 h3).toNat := by
  match bs with
  | [] | [_] | [_, _] | [_, _, _] => exact .inl (by simp)
  | h0 :: h1 :: h2 :: h3 :: rest =>
    by_cases hlt : rest.length < (fromBe16 h2 h3).toNat
    · exact .inr (.inl ⟨h0, h1, h2, h3, rest, rfl, hlt⟩)
    · exact .inr (.inr ⟨h0, h1, h2, h3, rest.take (fromBe16 h2 h3).toNat, rest.drop (fromBe16 h2 h3).toNat,
        by rw [List.take_append_drop], List.length_take_of_le (Nat.not_lt.mp hlt)⟩)

/-- With fewer than four bytes left STR_DEC ends, DONE at the end of the container. -/
theorem strDecode_of_lt_four (h : bs.length < 4) :
    strDecode bs = { out := [], err := if bs = [] then .noError else .truncatedEnvelope, chunks := 0
                     consumed := bs.length } := by
  by_cases hne : bs = []
  · rw [hne]
    rfl
  · rw [strDecode_of_short_header hne h, if_neg hne]

/-- STR_DEC of a whole container whose sink takes everything ends as the big-step run does. -/
theorem AtHeader.ends_run (h : AtHeader bs s) (hfit : s.env.sink.fits (strDecode bs).out.length = true) :
    Ends strDecStep (3 * bs.length + 3) (strDecode bs).err s (strDecode bs).consumed (strDecode bs).out
      (strDecode bs).chunks := by
  induction hm : bs.length using Nat.strong_induction_on generalizing bs s with
  | _ m ih =>
    obtain hlt | ⟨h0, h1, h2, h3, rest, rfl, hlt⟩ | ⟨h0, h1, h2, h3, body, rest, rfl, hlen⟩ := container_cases bs
    · rw [strDecode_of_lt_four hlt]
      exact (h.ends hlt).mono (by omega)
    · rw [strDecode_of_short_body hlt]
      obtain ⟨t, hheader, hbody⟩ := h.toBody
      simp only [List.length_cons] at hm
      exact (hheader.ends (hbody.truncated hlt)).mono (by omega)
    · simp only [List.length_cons, List.length_append] at hm
      obtain ⟨t, hread, hbody⟩ := h.read hlen
      obtain ⟨out, hdec⟩ | ⟨out, hdec⟩ := frameDecode_cases body
      · rw [strDecode_of_bytes hlen hdec] at hfit ⊢
        simp only [StreamRun.after, List.length_append] at hfit ⊢
        obtain ⟨u, hsent, hnext⟩ := hbody.decoded hdec
          (fits_mono (hread.advanced.fits (n := _ + _) (by simpa using hfit)) (Nat.le_add_right _ _))
        have hone := hread.trans hsent
        rw [List.nil_append] at hone
        have hends := hone.ends (ih _ (by omega) hnext (hone.advanced.fits hfit) rfl)
        rw [Nat.add_zero, Nat.zero_add, Nat.add_comm 1] at hends
        exact hends.mono (by omega)
      · rw [strDecode_of_raised hlen hdec] at hfit ⊢
        exact (hread.ends (hbody.raised hdec (hread.advanced.fits (by simpa using hfit)))).mono (by omega)

/-- The envelopes `front`, which decode without an error and whose output the sink takes whole, before `rest`. -/
theorem AtHeader.sent (h : AtHeader (front ++ rest) s) (hok : (strDecode front).err = .noError)
    (hfit : s.env.sink.fits (strDecode front).out.length = true) :
    ∃ t, Passes strDecStep (3 * front.length) s t front.length (strDecode front).out (strDecode front).chunks ∧
      AtHeader rest t := by
  induction hm : front.length using Nat.strong_induction_on generalizing front s with
  | _ m ih =>
    obtain hlt | ⟨h0, h1, h2, h3, data, rfl, hlt⟩ | ⟨h0, h1, h2, h3, body, data, rfl, hlen⟩ := container_cases front
    · rw [strDecode_of_lt_four hlt] at hok ⊢
      have hnil : front = [] := by
        by_contra hne
        rw [if_neg hne] at hok
        cases hok
      subst hnil hm
      exact ⟨s, .refl _ s, h⟩
    · rw [strDecode_of_short_body hlt] at hok
      cases hok
    · obtain ⟨out, hdec⟩ | ⟨out, hdec⟩ := frameDecode_cases body
      · rw [strDecode_of_bytes hlen hdec] at hok hfit ⊢
        simp only [StreamRun.after, List.length_append] at hok hfit ⊢
        simp only [List.length_cons, List.length_append] at hm
        simp only [List.cons_append, List.append_assoc] at h
        obtain ⟨t, hread, hbody⟩ := h.read hlen
        obtain ⟨u, hsent, hnext⟩ := hbody.decoded hdec
          (fits_mono (hread.advanced.fits (n := _ + _) (by simpa using hfit)) (Nat.le_add_right _ _))
        have hone := hread.trans hsent
        rw [List.nil_append] at hone
        obtain ⟨w, hpass, hend⟩ := ih _ (by omega) hnext hok (hone.advanced.fits hfit) rfl
        have hall := hone.trans hpass
        rw [Nat.add_zero, Nat.add_comm 1] at hall
        obtain rfl : 4 + body.length + data.length = m := by omega
        exact ⟨w, hall.mono (by omega), hend⟩
      · rw [strDecode_of_raised hlen hdec] at hok
        cases hok

/-- STR_DEC is accepted at the start of the container. -/
theorem strDec_enter (h : s.ready data) : AtHeader data (accept (opOf .strDec) .awaitHeader s) :=
  ⟨.of_accept h _ _, rfl, rfl⟩

/-- Settles O40: the engine goes through the container envelope by envelope, as the big-step run does. -/
theorem strDecResult : Obligations.StrDecResult := by
  intro s container run h hrun hfit
  subst hrun
  exact ((strDec_enter h).ends_run (fits_of_takesAll hfit)).issued h (by omega)

/-- Settles O41: the envelopes before it are sent, the envelope is read, and its output is taken short. -/
theorem strDecShortWrite : Obligations.StrDecShortWrite := by
  intro s front body post out h0 h1 a hbody h hok hdec ha hle hlt
  obtain ⟨h2, h3, hbe, hlen⟩ := exists_be16_eq hbody
  have hstart := strDec_enter h
  simp only [hbe, List.append_assoc, List.cons_append, List.nil_append] at hstart
  obtain ⟨t, hsent, hnext⟩ := hstart.sent hok (by simpa [Sink.fits, ha] using hle)
  obtain ⟨u, hread, hin⟩ := hnext.read hlen.symm
  have hpass := hsent.trans hread
  rw [List.append_nil, Nat.add_zero] at hpass
  have hends := hpass.ends (hin.short hdec (hpass.advanced.room ha) (by rw [List.length_append] at hlt; omega))
  have hgot : (strDecode front).out ++ out.take (a - (strDecode front).out.length) =
      ((strDecode front).out ++ out).take a := by
    rw [List.take_append, List.take_of_length_le hle]
  rw [hgot] at hends
  simp only [Nat.add_zero, ← Nat.add_assoc] at hends
  obtain ⟨w, hexec, hleft, hrest, hregs⟩ := hends.issued h (by
    simp only [List.length_append]
    omega)
  rw [List.length_take_of_le hlt.le] at hregs
  exact ⟨w, hexec, hleft, hrest, hregs⟩

end Sys2Proof.Machine
end

section
/-! PROOF. Command control at the register port (44_control.md R260 to R268): writes without effect (obligation O5), CLR
(O16), register reads (O8), the ends of a command (O53), and that results persist (O54). -/

namespace Sys2Proof.Machine

variable {s t : State} {off : Nat} {v : Word} {r : RegName}

/-! ### Writes while BUSY (44_control.md R262, R263) -/

/-- While BUSY a CMD write is ignored, whatever its word (44_control.md R262). -/
theorem commandWrite_busy (h : s.regs.stat = .busy) : commandWrite v s = .next s := by
  unfold commandWrite
  split
  · exact exec_busy _ h
  · exact congrArg _ (if_pos h)

theorem writeAt_busy (h : s.regs.stat = .busy) : writeAt off v s = .next s := by
  by_cases ho : off = 0
  · rw [ho, writeAt_cmd, commandWrite_busy h]
  · rw [writeAt_other ho, hostWrite_busy h]

/-- Settles O5: no command and no stored write is accepted while BUSY, and a read-only offset is not CMD's. -/
theorem writesWithoutEffect : Obligations.WritesWithoutEffect := by
  rintro s off v (hbusy | hoff)
  · exact writeAt_busy hbusy
  · rw [writeAt_other (by omega), hostWrite_readOnly hoff]

/-! ### CLR (44_control.md R268) -/

theorem exec_clr_not_busy (h : s.regs.stat ≠ .busy) :
    exec .clr s = .next { s with regs := { clearForCommand (opOf .clr) s.regs with stat := .idle } } := if_neg h

/-- Settles O16: bit 4 of 0x10 is in RSVD, and CLR is an acceptance that stops at STATE = IDLE. -/
theorem clearReturnsToIdle : Obligations.ClearReturnsToIdle :=
  ⟨rfl, decode_of_reservedBits (by decide), fun _ => ⟨exec_busy .clr, exec_clr_not_busy⟩⟩

/-! ### Register reads (44_control.md R264) -/

theorem readValue_shown (h : readHidden r s = false) : readValue r s = storedValue r s.regs := by
  simp [readValue, h]

theorem countersHidden_eq_false (h : s.regs.stat ≠ .busy) : countersHidden s = false := decide_eq_false h

theorem alphabetHidden_eq_false_iff : alphabetHidden s = false ↔ s.regs.stat ≠ .busy ∨ s.eng.opCur = opOf .lzwDec := by
  simp only [alphabetHidden, Bool.and_eq_false_iff, decide_eq_false_iff_not, not_not]

/-- Settles O8: a read changes only its record, and a register that is not hidden reads as its stored value. -/
theorem registerReads : Obligations.RegisterReads := by
  intro s
  refine ⟨fun off => ⟨rfl, rfl, rfl⟩, readValue_shown rfl, readValue_shown rfl, readValue_shown rfl, ibufCap_toNat s,
    fun off hlo hhi => ?_, fun hb => ?_, fun ha => ?_⟩
  · rw [regAt_reserved hlo hhi]
    exact readValue_shown rfl
  · have hshown := countersHidden_eq_false hb
    exact ⟨readValue_shown hshown, readValue_shown hshown, readValue_shown hshown, readValue_shown hshown⟩
  · have hshown := alphabetHidden_eq_false_iff.mpr ha
    refine ⟨readValue_shown hshown, fun k hk => ?_⟩
    rw [regAt_alphaWord hk]
    exact readValue_shown hshown

/-! ### How a command ends (44_control.md R260, R266) -/

theorem setOutcome_ends (e : Err) (g : Regs) :
    ((setOutcome e g).stat = .done ∧ (setOutcome e g).err = .noError) ∨
      ((setOutcome e g).stat = .error ∧ (setOutcome e g).err ≠ .noError) := by
  by_cases he : e = .noError <;> simp [he]

/-- Settles O53: an engine step keeps STATE and LAST_OP, or it is a completion, whose outcome decides STATE and ERR. -/
theorem busyEndsInDoneOrError : Obligations.BusyEndsInDoneOrError := by
  intro s t hb ht
  rcases engineStep_frame ht with hkept | ⟨e, u, hkept, rfl⟩
  · exact ⟨hkept.lastOp, .inl (hkept.stat.trans hb)⟩
  · refine ⟨?_, .inr (setOutcome_ends e _)⟩
    rw [complete_regs, setOutcome_lastOp, drawResults_lastOp, hkept.lastOp]

/-! ### Results persist (44_control.md R267) -/

/-- A register write other than CMD's stores into CFG, ALPHA_N or ALPHA and leaves every result register. -/
theorem hostWrite_regs (off : Nat) (v : Word) (s : State) :
    (hostWrite off v s).regs = { s.regs with
      chunkSize := (hostWrite off v s).regs.chunkSize, ovfPolicy := (hostWrite off v s).regs.ovfPolicy
      alphaN := (hostWrite off v s).regs.alphaN, alpha := (hostWrite off v s).regs.alpha } := by
  by_cases hb : s.regs.stat = .busy
  · rw [hostWrite_busy hb]
  rw [hostWrite_idle hb]
  split
  · rfl
  · rfl
  · unfold setAlphaWord; rfl
  all_goals rfl

@[simp] theorem popHost_regs (rest : List HostOp) (s : State) : (popHost rest s).regs = s.regs := rfl

/-- An access that is taken has a resolved offset. -/
theorem atOffset_resolves {n : Nat} {g : Target} {k : Nat → Host.Outcome State Fault Refusal}
    (h : atOffset n g k = .next t) : ∃ off, resolve (Config.regBase n) g = .ok off ∧ k off = .next t := by
  unfold atOffset at h
  split at h
  · exact ⟨_, ‹_›, h⟩
  · cases h

theorem engineTurns_not_busy {n : Nat} (hb : s.regs.stat ≠ .busy) (h : engineTurns n s = .next t) : t = s := by
  rw [engineTurns, runTurns_not_busy hb] at h
  exact (Host.Outcome.next.inj h).symm

/-- Everything a host line can do to the registers outside BUSY: a register write, a reset, or nothing. -/
theorem hostStep_regs {op : HostOp} {rest : List HostOp} (hb : s.regs.stat ≠ .busy)
    (h : hostStep op rest s = .next t) :
    t.regs = s.regs ∨ op = .reset ∨
      ∃ g v off, op = .write g v ∧ resolve (Config.regBase s.inst) g = .ok off ∧
        writeAt off v (popHost rest s) = .next t := by
  cases op with
  | write g v =>
    obtain ⟨off, hres, hw⟩ := atOffset_resolves h
    exact .inr (.inr ⟨g, v, off, rfl, hres, hw⟩)
  | read g =>
    obtain ⟨off, -, hread⟩ := atOffset_resolves h
    cases hread
    exact .inl rfl
  | narrow => cases h
  | wait =>
    simp only [hostStep, waitPoll, if_neg hb] at h
    cases h
    exact .inl rfl
  | engine n =>
    have ht : t = popHost rest s := engineTurns_not_busy hb h
    exact .inl (by rw [ht, popHost_regs])
  | reset => exact .inr (.inl rfl)
  | _ => cases h; exact .inl rfl

/-- Everything a step outside BUSY can do to the registers, with CMD writes and resets left out: a write to another
register, or nothing. -/
theorem step_regs (hb : s.regs.stat ≠ .busy) (h : step s = .next t)
    (hcmd : ∀ g v rest, s.env.host = .write g v :: rest → resolve (Config.regBase s.inst) g ≠ .ok 0x000)
    (hreset : ∀ rest, s.env.host ≠ .reset :: rest) :
    t.regs = s.regs ∨ ∃ g v rest off, s.env.host = .write g v :: rest ∧
      resolve (Config.regBase s.inst) g = .ok off ∧ t = hostWrite off v (popHost rest s) := by
  unfold step at h
  split at h
  · exact .inl (congrArg State.regs (engineTurns_not_busy hb h))
  · rename_i op rest hhost
    rcases hostStep_regs hb h with hsame | rfl | ⟨g, v, off, rfl, hres, hw⟩
    · exact .inl hsame
    · exact absurd hhost (hreset rest)
    · have hoff : off ≠ 0 := fun h0 => hcmd g v rest hhost (h0 ▸ hres)
      rw [writeAt_other hoff] at hw
      cases hw
      exact .inr ⟨g, v, rest, off, hhost, hres, rfl⟩

/-- Settles O54: outside BUSY a step leaves the registers or makes one register write, which leaves the results, and
everything where the register is read-only. -/
theorem resultsPersist : Obligations.ResultsPersist := by
  intro s t hb ht hcmd hreset
  rcases step_regs hb ht hcmd hreset with hsame | ⟨g, v, rest, off, hhost, hres, rfl⟩
  · exact ⟨by rw [hsame], fun _ => hsame⟩
  · refine ⟨hostWrite_regs off v (popHost rest s), fun hro => ?_⟩
    obtain ⟨off', hres', hreadOnly⟩ := hro g v rest hhost
    obtain rfl : off = off' := Except.ok.inj (hres.symm.trans hres')
    rw [hostWrite_readOnly hreadOnly, popHost_regs]

end Sys2Proof.Machine
end

section
/-! PROOF. Where the engine does not go on: an illegal CMD word (60_exceptions.md R287; obligation O4), no command running
(R300; O13), and streams that stall or break their contract (R297, R308(b), (c); O59). -/

namespace Sys2Proof.Machine

variable {s t : State} {v : Word} {n : Nat}

/-! ### ILLEGAL_COMMAND (60_exceptions.md R287) -/

/-- A word with a bit in RSVD or a reserved OP is above 7. -/
theorem le_toNat_of_illegal_fields (h : rsvdField v ≠ 0 ∨ 8 ≤ (opField v).toNat) : 8 ≤ v.toNat := by
  by_contra hlt
  have hr : rsvdField v = 0 := rsvdField_eq_zero_iff.mpr (by omega)
  rcases h with hrsvd | hop
  · exact hrsvd hr
  · rw [opField_toNat hr] at hop
    omega

/-- Settles O4: such a word does not decode, and `acceptIllegal` is the state the rule describes. -/
theorem illegalWordEndsInError : Obligations.IllegalWordEndsInError := by
  intro s v hs hv
  obtain ⟨e, he⟩ := decode_of_illegal (le_toNat_of_illegal_fields hv)
  exact writeAt_cmd_illegal hs he

/-! ### The engine outside BUSY (60_exceptions.md R300) -/

theorem step_of_no_host (h : s.env.host = []) : step s = engineRun s := by
  simp only [step, h]

/-- Settles O13: no turn is taken outside BUSY, and a step with no host line left is only turns of the engine. -/
theorem engineRestsUnlessBusy : Obligations.EngineRestsUnlessBusy := fun _ _ hs =>
  ⟨runTurns_not_busy hs, fun hhost => (step_of_no_host hhost).trans (runTurns_not_busy hs)⟩

/-! ### A run that cannot take its first step (44_control.md R265) -/

/-- The budget of a run allows at least one step. -/
theorem exists_stepBudget_eq_succ (s : State) : ∃ n, stepBudget s = n + 1 :=
  ⟨_, rfl⟩

theorem engineRun_of_waits (hb : s.regs.stat = .busy) (h : engineStep s = .waits) : engineRun s = .next s := by
  obtain ⟨n, hn⟩ := exists_stepBudget_eq_succ s
  simp only [engineRun, engineTurns, hn, runTurns, hb, h, if_true]

theorem engineRun_of_refused {x : Refusal} (hb : s.regs.stat = .busy) (h : engineStep s = .refused x) :
    engineRun s = .refused x := by
  obtain ⟨n, hn⟩ := exists_stepBudget_eq_succ s
  simp only [engineRun, engineTurns, hn, runTurns, hb, h, if_true]

/-! ### The source's end (20_memory.md R68; 93_implementation_defined.md I10, I12) -/

theorem srcRead_silent {src : Source} (hs : src.stream = []) (ht : src.tail = .silent) : srcRead n src = .silent := by
  simp [srcRead, Source.listed, answer, hs, ht]

theorem srcRead_breach {src : Source} (hs : src.stream = []) (ht : src.tail = .breach) : srcRead n src = .breach := by
  simp [srcRead, Source.listed, answer, hs, ht]

/-- In a reading phase with nothing pending the step of the running command is a `SrcRead` (20_memory.md R69). -/
theorem engineStep_reading (h : s.reading) (ho : s.eng.outq = []) :
    ∃ n onEos onData, engineStep s = readStep n onEos onData s := by
  rcases h with ⟨hp, he, i, hi, hop⟩ | ⟨hp, he, hop, hc, hlt⟩ | ⟨hp, hop⟩ | ⟨hp, hop, hlt⟩
  · have hload : ∃ after, engineStep s = loadStep after s := by
      simp only [engineStep, hop, instrOfOp_opOf]
      simp only [List.mem_cons, List.not_mem_nil, or_false] at hi
      rcases hi with rfl | rfl | rfl | rfl | rfl
      · exact ⟨_, scanCmdStep_load s hp ho⟩
      · exact ⟨_, lzwEncStep_load s hp ho⟩
      · exact ⟨_, lzwDecStep_load s hp ho⟩
      · exact ⟨_, frmEncStep_load s hp ho⟩
      · exact ⟨_, frmDecStep_load s hp ho⟩
    obtain ⟨after, hstep⟩ := hload
    exact ⟨_, _, _, hstep.trans (if_neg (by simp [he]))⟩
  · refine ⟨_, _, _, Eq.trans ?_ (chunkReadStep_read hc ⟨hlt, he⟩)⟩
    simp only [engineStep, hop, instrOfOp_opOf, strEncStep_chunkRead hp ho]
  · refine ⟨_, _, _, Eq.trans ?_ (rfl : headerStep s = _)⟩
    simp only [engineStep, hop, instrOfOp_opOf, strDecStep_awaitHeader hp ho]
  · refine ⟨_, _, _, Eq.trans ?_ (bodyStep_read hlt)⟩
    simp only [engineStep, hop, instrOfOp_opOf, strDecStep_awaitBody hp ho]

theorem engineStep_source_silent (h : s.reading) (ho : s.eng.outq = []) (hs : s.env.src.stream = [])
    (ht : s.env.src.tail = .silent) : engineStep s = .waits := by
  obtain ⟨n, onEos, onData, hstep⟩ := engineStep_reading h ho
  rw [hstep, readStep, srcRead_silent hs ht]

theorem engineStep_source_breach (h : s.reading) (ho : s.eng.outq = []) (hs : s.env.src.stream = [])
    (ht : s.env.src.tail = .breach) : engineStep s = .refused .sourceContract := by
  obtain ⟨n, onEos, onData, hstep⟩ := engineStep_reading h ho
  rw [hstep, readStep, srcRead_breach hs ht]

/-! ### The sink's end (20_memory.md R70; 93_implementation_defined.md I11, I12) -/

theorem flushStep_silent (hf : s.env.sink.fits s.offered.length = false) (ht : s.env.sink.tail = .silent) :
    flushStep s = .waits := by
  simp [flushStep, sinkWrite, hf, ht]

theorem flushStep_breach (hf : s.env.sink.fits s.offered.length = false) (ht : s.env.sink.tail = .breach) :
    flushStep s = .refused .sinkContract := by
  simp [flushStep, sinkWrite, hf, ht]

/-- Settles O59: a run's first step is the read or the flush, which answers as the stream's end says. -/
theorem stalledAndBreachingStreams : Obligations.StalledAndBreachingStreams := by
  intro s hb
  refine ⟨engineRun_of_waits hb, fun hread ho hs => ⟨engineStep_source_silent hread ho hs, fun ht => ?_⟩,
    fun ⟨i, hi, hop⟩ ho hf => ?_⟩
  · exact engineRun_of_refused hb (engineStep_source_breach hread ho hs ht)
  · have hflush : engineStep s = flushStep s := engineStep_pending hop hi ho
    exact ⟨fun ht => hflush.trans (flushStep_silent hf ht),
      fun ht => engineRun_of_refused hb (hflush.trans (flushStep_breach hf ht))⟩

end Sys2Proof.Machine
end

section
/-! PROOF. Independence (60_exceptions.md R305): the instances of a platform share nothing (obligation O60), and the chunks
of an input are encoded apart (O47). -/

namespace Sys2Proof.Machine

/-! ### The instances of a platform (60_exceptions.md R305) -/

theorem platformReset_length : platformReset.length = Config.nInstances := by
  simp [platformReset]

/-- A step of the platform is a step of the block that moves, if there is one. -/
theorem platformStep_eq_next {p q : Platform} {k : Nat} (h : platformStep k p = .next q) :
    (p[k]? = none ∧ q = p) ∨ ∃ s t, p[k]? = some s ∧ step s = .next t ∧ q = p.set k t := by
  unfold platformStep at h
  split at h
  · cases h
    exact .inl ⟨‹_›, rfl⟩
  · split at h <;> cases h
    exact .inr ⟨_, _, ‹_›, ‹_›, rfl⟩

/-- Settles O60: a platform step replaces one block by what that block's own step gives, and no step writes the number. -/
theorem instancesShareNothing : Obligations.InstancesShareNothing := by
  refine ⟨?_, platformReset_length, fun k hk => by simp [platformReset, hk], fun p q k h => ?_⟩
  · rw [platformReset_length]
    exact Nat.succ_pos _
  · obtain ⟨hnone, rfl⟩ | ⟨s, t, hs, hstep, rfl⟩ := platformStep_eq_next h
    · exact ⟨rfl, fun _ _ => rfl, fun s hs => by rw [hnone] at hs; cases hs⟩
    · refine ⟨List.length_set, fun j hj => List.getElem?_set_ne hj.symm, fun u hu => ?_⟩
      obtain rfl : s = u := Option.some.inj (hs.symm.trans hu)
      obtain ⟨hlt, -⟩ := List.getElem?_eq_some_iff.mp hs
      exact ⟨t, hstep, List.getElem?_set_self hlt, step_inst hstep⟩

/-! ### The chunks of an input (60_exceptions.md R305; 43_chunk_streamer.md R220, R221) -/

/-- A first part of whole chunks is cut on its own. -/
theorem chunksOf_append {cs k : Nat} (hcs : 1 ≤ cs) {d1 : List Byte} (h : d1.length = k * cs) (d2 : List Byte) :
    chunksOf cs (d1 ++ d2) = chunksOf cs d1 ++ chunksOf cs d2 := by
  induction k generalizing d1 with
  | zero =>
    obtain rfl : d1 = [] := List.length_eq_zero_iff.mp (by rw [h, Nat.zero_mul])
    rfl
  | succ k ih =>
    rw [Nat.succ_mul] at h
    have hle : cs ≤ d1.length := by omega
    have hne : d1 ≠ [] := List.length_pos_iff.mp (by omega)
    rw [chunksOf_of_ne_nil hcs hne, chunksOf_of_ne_nil hcs (List.append_ne_nil_of_left_ne_nil hne d2),
      List.take_append_of_le_length hle, List.drop_append_of_le_length hle,
      ih (by rw [List.length_drop]; omega), List.cons_append]

/-- The envelopes of the first chunks, if none raises, stand before those of the others. -/
theorem encodeChunks_append {pol : Policy} {c1 : List (List Byte)} (h : (encodeChunks pol c1).err = .noError)
    (c2 : List (List Byte)) :
    encodeChunks pol (c1 ++ c2) =
      { out := (encodeChunks pol c1).out ++ (encodeChunks pol c2).out
        err := (encodeChunks pol c2).err
        chunks := (encodeChunks pol c1).chunks + (encodeChunks pol c2).chunks
        consumed := (encodeChunks pol c1).consumed + (encodeChunks pol c2).consumed } := by
  induction c1 with
  | nil => simp [encodeChunks]
  | cons c c1 ih =>
    obtain ⟨fr, hfr, hok⟩ := encodeChunks_cons_eq_ok h
    rw [List.cons_append, encodeChunks_cons_of_bytes hfr, encodeChunks_cons_of_bytes hfr, ih hok]
    simp [StreamRun.after, Nat.add_assoc, Nat.add_comm 1]

/-- Settles O47: the cut falls between two chunks, and the first part's run consumes all of it. -/
theorem chunksEncodeIndependently : Obligations.ChunksEncodeIndependently := by
  intro pol cs k d1 d2 hcs hlen hok
  have hconsumed : (strEncode pol cs d1).consumed = d1.length := by
    rw [strEncode, (encodeChunks_ok_counts hok).1, chunksOf_flatten hcs]
  rw [← hconsumed]
  simp only [strEncode, chunksOf_append hcs hlen]
  exact encodeChunks_append hok _

end Sys2Proof.Machine
end

section
/-! PROOF. The reported errors of whole commands (60_exceptions.md R282, R283, R288, R289): a command that errs before it
emits anything (obligations O20, O21, O37), and DICTIONARY_OVERFLOW, which comes after the codes before it (O24). -/

namespace Sys2Proof.Machine

variable {f : State → Turn} {s t u : State} {alpha data codes : List Byte} {r : Lzw} {e : Err} {i : Instr} {k : Nat}
  {src : Source}

/-! ### A command that errs with nothing emitted -/

/-- A command that completes within the step budget and has touched only its source: its end, and what it leaves of the
environment. -/
theorem issued_silent {op : BitVec 4} {p : Phase} (h : s.ready data)
    (hst : Steps f k (accept op p s) (complete e u)) (hk : k ≤ 16 * data.length + 64)
    (henv : u.env = { (accept op p s).env with src := src }) :
    issue op p f s = .next (complete e u) ∧ leftEnv s (complete e u) [] ∧ (complete e u).atRest := by
  have hend : (complete e u).regs.stat ≠ .busy := by
    rw [complete_regs]
    exact setOutcome_not_busy _ _
  refine ⟨issue_of_steps h.notBusy h.unpaced hst (by rw [h.stream]; omega) hend, ?_, rfl, rfl⟩
  constructor <;> simp [henv]

/-- `f` is the engine rule of the unit command `i`, and `after` what its rule does once the unit is loaded. -/
structure Loads (i : Instr) (f after : State → Turn) : Prop where
  exec : ∀ s, exec i s = issue (opOf i) .load f s
  load : ∀ s, s.eng.ph = .load → s.eng.outq = [] → f s = loadStep after s
  flushes : Flushes f

theorem exists_loads (hi : i = .scan ∨ i = .lzwEnc ∨ i = .lzwDec ∨ i = .frmEnc ∨ i = .frmDec) :
    ∃ f after, Loads i f after := by
  obtain ⟨hscan, hlzwEnc, hlzwDec, hfrmEnc, hfrmDec, -⟩ := engine_flushes
  rcases hi with rfl | rfl | rfl | rfl | rfl
  · exact ⟨_, _, fun _ => rfl, scanCmdStep_load, hscan⟩
  · exact ⟨_, _, fun _ => rfl, lzwEncStep_load, hlzwEnc⟩
  · exact ⟨_, _, fun _ => rfl, lzwDecStep_load, hlzwDec⟩
  · exact ⟨_, _, fun _ => rfl, frmEncStep_load, hfrmEnc⟩
  · exact ⟨_, _, fun _ => rfl, frmDecStep_load, hfrmDec⟩

/-! ### UNIT_TOO_LONG (60_exceptions.md R289; 20_memory.md R66) -/

/-- A unit command at its end point in LOAD: IBUF_SIZE + 1 bytes were delivered, and `src` is what is left of its
source. -/
def State.overlong (op : BitVec 4) (src : Source) (buf : List Byte) (s : State) : State :=
  let a := accept op .load s
  raise .unitTooLong { a with
    regs := { a.regs with inCount := count32 (Config.ibufSize + 1) }
    eng := { a.eng with ibuf := buf }
    env := { a.env with src := src } }

theorem Loads.overlong_steps {after : State → Turn} (hf : Loads i f after) (h : s.ready data)
    (hlen : Config.ibufSize < data.length) :
    ∃ k src buf, k ≤ data.length + 2 ∧ src.stream = data.drop (Config.ibufSize + 1) ∧
      Steps f k (accept (opOf i) .load s) (complete .unitTooLong (s.overlong (opOf i) src buf)) := by
  obtain ⟨k, src, buf, hk, hsrc, hst⟩ := load_too_long hf.load (accept (opOf i) .load s) rfl rfl rfl rfl h.srcEnds
    (Nat.zero_le _) (by simpa [h.stream] using hlen)
  simp only [accept_env, accept_regs, accept_eng, h.stream, clearForCommand_inCount, List.length_nil,
    Nat.sub_zero] at hk hsrc hst
  have hload : Steps f k (accept (opOf i) .load s) (s.overlong (opOf i) src buf) := by
    convert hst using 1
    simp [State.overlong, count32]
  exact ⟨k + 1, src, buf, by omega, hsrc, hload.trans (.one rfl (hf.flushes.finish _ rfl rfl))⟩

/-- Settles O21: LOAD ends at IBUF_SIZE + 1 bytes, and the completion draws nothing. -/
theorem unitTooLongEndsTheUnit : Obligations.UnitTooLongEndsTheUnit := by
  intro s data i h hlen hi
  obtain ⟨f, after, hf⟩ := exists_loads hi
  obtain ⟨k, src, buf, hk, hsrc, hst⟩ := hf.overlong_steps h hlen
  obtain ⟨hrun, hleft, hrest⟩ := issued_silent (src := src) h hst (by omega) rfl
  have hspec : alphabetUnspecified (opOf i) .unitTooLong = false ∧ nextUnspecified (opOf i) .unitTooLong = false := by
    rcases hi with rfl | rfl | rfl | rfl | rfl <;> decide
  refine ⟨_, (hf.exec s).trans hrun, hleft, hrest, ?_, hsrc⟩
  exact congrArg (setOutcome .unitTooLong) (drawResults_specified hspec.1 hspec.2 _ _)

/-! ### ALPHABET_OVERFLOW (60_exceptions.md R282) -/

/-- `f` is the engine rule of the unit command `i`, which scans its unit. -/
structure Scans (i : Instr) (f : State → Turn) : Prop extends Loads i f (fun t => .went (t.toPhase .scan)) where
  overflow : ∀ s, s.eng.ph = .scan → s.eng.outq = [] → scan s.eng.ibuf = none → f s = .went (raise .alphabetOverflow s)

theorem scanPhase_none (f : List Byte → State → State) (h : scan s.eng.ibuf = none) :
    scanPhase f s = .went (raise .alphabetOverflow s) := by
  simp [scanPhase, h]

theorem exists_scans (hi : i = .scan ∨ i = .lzwEnc ∨ i = .frmEnc) : ∃ f, Scans i f := by
  obtain ⟨hscan, hlzwEnc, -, hfrmEnc, -⟩ := engine_flushes
  rcases hi with rfl | rfl | rfl
  · exact ⟨scanCmdStep, ⟨fun _ => rfl, scanCmdStep_load, hscan⟩, fun _ hp ho h =>
      (flushFirst_empty ho).trans (by simp only [hp, scanPhase_none _ h])⟩
  · exact ⟨lzwEncStep, ⟨fun _ => rfl, lzwEncStep_load, hlzwEnc⟩, fun _ hp ho h =>
      (flushFirst_empty ho).trans (by simp only [hp, scanPhase_none _ h])⟩
  · exact ⟨frmEncStep, ⟨fun _ => rfl, frmEncStep_load, hfrmEnc⟩, fun _ hp ho h =>
      (flushFirst_empty ho).trans (by simp only [hp, scanPhase_none _ h])⟩

/-- The path of a unit without an alphabet: LOAD, the step to SCAN, the overflow, the completion. -/
theorem Scans.overflow_steps (hf : Scans i f) (h : s.ready data) (hlen : data.length ≤ Config.ibufSize)
    (hs : scan data = none) :
    ∃ k src, k ≤ data.length + 4 ∧ Steps f k (accept (opOf i) .load s)
      (complete .alphabetOverflow (raise .alphabetOverflow ((s.loaded (opOf i) data src).toPhase .scan))) := by
  obtain ⟨k, src, hk, hst⟩ := accept_load_steps hf.load h hlen (opOf i)
  let u := (s.loaded (opOf i) data src).toPhase .scan
  have toScan : f (s.loaded (opOf i) data src) = .went u := hf.load _ rfl rfl
  have overflows : f u = .went (raise .alphabetOverflow u) := hf.overflow u rfl rfl hs
  exact ⟨k + 3, src, by omega,
    hst.trans (.cons rfl toScan (.cons rfl overflows (.one rfl (hf.flushes.finish _ rfl rfl))))⟩

/-- A completion draws DICT_NEXT only where R293 leaves it unspecified. -/
theorem drawResults_dictNext_specified {op : BitVec 4} (h : nextUnspecified op e = false) (d : Config.Draw) (g : Regs) :
    (drawResults op e d g).dictNext = g.dictNext := by
  simp only [drawResults, h, Bool.false_eq_true, if_false]
  split <;> rfl

/-- Settles O20: the scan raises, and the completion draws what R293 leaves unspecified, in SCAN all but DICT_NEXT. -/
theorem alphabetOverflowEndsTheUnit : Obligations.AlphabetOverflowEndsTheUnit := by
  intro s data i h hlen hs hi
  obtain ⟨f, hf⟩ := exists_scans hi
  obtain ⟨k, src, hk, hst⟩ := hf.overflow_steps h hlen hs
  obtain ⟨hrun, hleft, hrest⟩ := issued_silent (src := src) h hst (by omega) rfl
  refine ⟨_, (hf.exec s).trans hrun, hleft, hrest, ?_, ?_⟩
  · rintro rfl
    exact drawResults_dictNext_specified rfl _ _
  · rw [complete_regs, drawResults_frame]
    rfl

/-! ### BAD_CONFIG (60_exceptions.md R288; 43_chunk_streamer.md R224) -/

theorem badChunkSize_iff {cs : BitVec 16} : badChunkSize cs = true ↔ cs.toNat = 0 ∨ 65279 < cs.toNat := by
  simp [badChunkSize]

/-- STR_ENC's first step, on a chunk size out of range. -/
theorem strEncStep_accept_bad (h : badChunkSize s.regs.chunkSize = true) :
    strEncStep (accept (opOf .strEnc) .chunkRead s) =
      .went (raise .badConfig (accept (opOf .strEnc) .chunkRead s)) := by
  rw [strEncStep_chunkRead rfl rfl, chunkReadStep_check rfl, checkConfig]
  exact congrArg _ (if_pos h)

/-- Settles O37: the check is the first step and raises, and the next step completes. -/
theorem strEncBadConfig : Obligations.StrEncBadConfig := by
  intro s data h hcs
  have hbad : badChunkSize s.regs.chunkSize = true := badChunkSize_iff.mpr hcs
  let a := accept (opOf .strEnc) .chunkRead s
  have hst : Steps strEncStep 2 a (complete .badConfig (raise .badConfig a)) :=
    .cons rfl (strEncStep_accept_bad hbad) (.one rfl (strEnc_flushes.finish _ rfl rfl))
  obtain ⟨hrun, hleft, hrest⟩ := issued_silent (src := s.env.nextSrc) h hst (by omega) rfl
  refine ⟨⟨_, if_neg h.notBusy, strEncStep_accept_bad hbad⟩, _, hrun, hleft, hrest, rfl, ?_⟩
  exact congrArg (setOutcome .badConfig) (drawResults_specified rfl rfl _ _)

/-! ### DICTIONARY_OVERFLOW (60_exceptions.md R283; 41_lzw_codec.md R142, R145) -/

theorem encRun_eq_raised {pol : Policy} {cs : List Byte} {r r' : Lzw} (h : encRun pol cs r = .raised e r' codes) :
    walk (encStep pol) cs r = .raised e r' codes := by
  unfold encRun at h
  cases hw : walk (encStep pol) cs r <;> rw [hw] at h <;> cases h
  rfl

/-- A run that raises has filled the dictionary. -/
theorem encodeUnit_raised_next {pol : Policy} (hs : scan data = some alpha)
    (h : encodeUnit pol alpha data = .raised e r codes) : r.next = 256 := by
  rcases encoderRaisesOnlyUnderErrorPolicy pol data alpha hs with ⟨_, _, hok⟩ | ⟨-, r', _, hraise, hnext⟩
  · rw [hok] at h
    cases h
  · rw [hraise] at h
    cases h
    exact hnext

/-- ENC of a unit whose encoding raises. -/
theorem enc_raised_steps (hfl : Flushes f)
    (hf : ∀ u p r, u.eng = s.eng.at p r →
      f u = encPhase State.emit endRun (fun t => raise .dictionaryOverflow t.latchNext) u)
    (hb : s.regs.stat = .busy) (ho : s.eng.outq = []) (hpos : s.eng.ipos = 0) (hlzw : s.eng.lzw = Lzw.seed alpha)
    (hn : s.eng.nCur.toNat = alpha.length) (hrun : encodeUnit s.eng.polCur alpha s.eng.ibuf = .raised e r codes)
    (hfit : s.env.sink.fits codes.length = true) :
    ∃ k t, k ≤ 2 * s.eng.ibuf.length + s.env.sink.calls.length + 1 ∧ Steps f k s t ∧
      EndsRun .dictionaryOverflow r.next s t codes := by
  have hlen : alpha.length ≠ s.eng.ibuf.length := fun hlen => by
    rw [encodeUnit_of_distinct hlen] at hrun
    cases hrun
  rw [encodeUnit_of_repeated hlen] at hrun
  have hself := s.eng.at_self ho
  exact coding_raised_steps hfl (encPhase_walks hf (by rwa [hn])) hb (by rw [← hpos]; exact hself)
    (by rw [hlzw]; exact encRun_eq_raised hrun) hfit

theorem lzwEnc_dictionaryOverflow (h : s.ready data) (hlen : data.length ≤ Config.ibufSize)
    (hs : scan data = some alpha) (hrun : encodeUnit s.regs.ovfPolicy alpha data = .raised e r codes)
    (hfit : takesAll s.env.nextSink.room codes) :
    ∃ t, exec .lzwEnc s = .next t ∧ leftEnv s t codes ∧ t.atRest ∧
      t.regs = { setAlphabet alpha s.regs with
        stat := .error, err := .dictionaryOverflow, lastOp := 2, inCount := count32 data.length
        outCount := count32 codes.length, chunks := 0, dictNext := r.next } := by
  have hn := alphabetSize_toNat (scan_spec hs).2.1
  obtain ⟨k1, src, hk1, hst1⟩ := lzwEnc_enter_steps h hlen hs
  obtain ⟨k2, t, hk2, hst2, hends⟩ := enc_raised_steps (s := s.encoding alpha data src) engine_flushes.2.1
    (fun u p r hu => lzwEncStep_enc (by rw [hu]; rfl) (by rw [hu]; rfl)) rfl rfl rfl rfl hn hrun (fits_of_takesAll hfit)
  change k2 ≤ 2 * data.length + s.env.nextSink.calls.length + 1 at hk2
  exact ⟨t, hends.issued h (hst1.trans hst2) (by omega) rfl rfl rfl rfl rfl⟩

theorem frmEnc_dictionaryOverflow (h : s.ready data) (hlen : data.length ≤ Config.ibufSize)
    (hs : scan data = some alpha) (hrun : encodeUnit s.regs.ovfPolicy alpha data = .raised e r codes)
    (hfit : takesAll s.env.nextSink.room (frameHeader alpha ++ codes)) :
    ∃ t, exec .frmEnc s = .next t ∧ leftEnv s t (frameHeader alpha ++ codes) ∧ t.atRest ∧
      t.regs = { setAlphabet alpha s.regs with
        stat := .error, err := .dictionaryOverflow, lastOp := 4, inCount := count32 data.length
        outCount := count32 (frameHeader alpha ++ codes).length, chunks := 0, dictNext := r.next } := by
  have hfl : Flushes frmEncStep := engine_flushes.2.2.2.1
  have hn := alphabetSize_toNat (scan_spec hs).2.1
  have hfit := fits_of_takesAll hfit
  rw [List.length_append] at hfit
  have hfitHeader : s.env.nextSink.fits (frameHeader alpha).length = true := fits_mono hfit (Nat.le_add_right _ _)
  obtain ⟨k1, src, hk1, hst1⟩ := frmEnc_enter_steps h hlen hs
  obtain ⟨k2, c, hk2, hst2⟩ :=
    flush_whole hfl ((s.encodingFrame alpha data src).emit (frameHeader alpha)) rfl hfitHeader
  obtain ⟨k3, t, hk3, hst3, hends⟩ := enc_raised_steps (s := (s.encodingFrame alpha data src).sent (frameHeader alpha) c)
    hfl (fun u p r hu => frmEncStep_enc (by rw [hu]; rfl) (by rw [hu]; rfl)) rfl rfl rfl rfl hn hrun
    ((fits_take hfitHeader).trans hfit)
  change k2 + c.length ≤ s.env.nextSink.calls.length + 1 at hk2
  change k3 ≤ 2 * data.length + c.length + 1 at hk3
  have hwhole := EndsRun.after_sent (en := (s.encodingFrame alpha data src).eng) rfl hends
  exact ⟨t, hwhole.issued h ((hst1.trans hst2).trans hst3) (by omega) rfl rfl rfl rfl rfl⟩

/-- Settles O24: ENC raises at the failing miss, with the dictionary full, and each command ends as its ENC does. -/
theorem dictionaryOverflowEndsTheUnit : Obligations.DictionaryOverflowEndsTheUnit := by
  intro s data alpha codes r e h hlen hs hrun
  rw [← encodeUnit_raised_next hs hrun]
  exact ⟨lzwEnc_dictionaryOverflow h hlen hs hrun, frmEnc_dictionaryOverflow h hlen hs hrun⟩

end Sys2Proof.Machine
end

section
/-! PROOF. What a command never changes, at its end, at a pause and at a wait (60_exceptions.md R293; 10_state.md R29, R30;
41_lzw_codec.md R160; obligation O52). -/

namespace Sys2Proof.Machine

variable {s t u : State} {i : Instr} {g : Regs} {e : Err}

/-- What the acceptance of a command establishes and its engine steps keep holds wherever `exec` stops. -/
theorem exec_keeps {P : State → Prop} (hi : i ≠ .clr) (hb : s.regs.stat ≠ .busy)
    (hacc : P (accept (opOf i) (startPhase i) s))
    (hstep : ∀ u v, P u → u.eng.opCur = opOf i → engineStep u = .went v → P v) (h : exec i s = .next t) : P t := by
  obtain ⟨f, hexec, hf⟩ := exec_eq_issue_startPhase hi s
  rw [hexec, issue, if_neg hb] at h
  refine (runTurns_keeps (P := fun u => P u ∧ u.eng.opCur = opOf i) (fun u v hu _ hs => ?_) ⟨hacc, rfl⟩ h).1
  rw [← hf u hu.2] at hs
  exact ⟨hstep u v hu.1 hu.2 hs, (engineStep_opCur hs).trans hu.2⟩

/-! ### CFG and the host's side, in every command -/

/-- CFG, the host program and the reads are as before. -/
structure ConfigKept (s t : State) : Prop where
  chunkSize : t.regs.chunkSize = s.regs.chunkSize
  ovfPolicy : t.regs.ovfPolicy = s.regs.ovfPolicy
  host : t.env.host = s.env.host
  reads : t.env.reads = s.env.reads

theorem ConfigKept.engineStep (h : ConfigKept s t) (ht : engineStep t = .went u) : ConfigKept s u := by
  rcases engineStep_frame ht with hf | ⟨e, v, hf, rfl⟩
  · exact ⟨hf.chunkSize.trans h.chunkSize, hf.ovfPolicy.trans h.ovfPolicy, hf.host.trans h.host, hf.reads.trans h.reads⟩
  · refine ⟨?_, ?_, hf.host.trans h.host, hf.reads.trans h.reads⟩
    · rw [complete_regs, setOutcome_chunkSize, drawResults_chunkSize, hf.chunkSize, h.chunkSize]
    · rw [complete_regs, setOutcome_ovfPolicy, drawResults_ovfPolicy, hf.ovfPolicy, h.ovfPolicy]

theorem exec_configKept (hi : i ≠ .clr) (hb : s.regs.stat ≠ .busy) (h : exec i s = .next t) : ConfigKept s t :=
  exec_keeps hi hb ⟨rfl, rfl, rfl, rfl⟩ (fun _ _ hu _ hs => hu.engineStep hs) h

/-! ### The phases of the unit commands, by what they may update -/

/-- Everything a step of LOAD can do: go on, see EOS, buffer a delivery, or raise UNIT_TOO_LONG at it. -/
theorem loadStep_went {after : State → Turn} (h : loadStep after s = .went t) :
    after s = .went t ∨ t = s.sawEos ∨ (∃ src r, t = ((s.withSrc src).countIn r.length).fillIbuf r) ∨
      ∃ src n, t = raise .unitTooLong ((s.withSrc src).countIn n) := by
  unfold loadStep at h
  split at h
  · exact .inl h
  rcases readStep_went h with ⟨ht, -⟩ | ⟨r, src, ht, -⟩
  · exact .inr (.inl ht)
  · rw [ht]
    split
    · exact .inr (.inr (.inr ⟨src, r.length, rfl⟩))
    · exact .inr (.inr (.inl ⟨src, r, rfl⟩))

/-- Everything a step of SCAN can do. -/
theorem scanPhase_went {f : List Byte → State → State} (h : scanPhase f s = .went t) :
    (∃ alpha, t = f alpha (s.withN alpha.length)) ∨ t = raise .alphabetOverflow s := by
  unfold scanPhase at h
  split at h <;> cases h
  · exact .inl ⟨_, rfl⟩
  · exact .inr rfl

/-- Every update a step of ENC can make, from any engine state. -/
theorem encPhase_updates {emit : List Byte → State → State} {leave overflow : State → State}
    (h : encPhase emit leave overflow s = .went t) :
    t = leave s ∨ t = leave (emit (encEnd s.eng.lzw) s) ∨
      (∃ r p out, t = emit out ((s.withLzw r).seek p)) ∨ ∃ r out, t = overflow (emit out (s.withLzw r)) := by
  unfold encPhase at h
  split at h
  · cases h
    exact .inl rfl
  split at h
  · split at h <;> cases h
    · exact .inr (.inr (.inl ⟨_, _, _, rfl⟩))
    · exact .inr (.inr (.inr ⟨_, _, rfl⟩))
  · cases h
    exact .inr (.inl rfl)

/-- Every update a step of DEC can make, from any engine state. -/
theorem decPhase_updates {codes : List Byte} {leave malformed : State → State}
    (h : decPhase codes leave malformed s = .went t) :
    t = leave s ∨ (∃ r p out, t = ((s.withLzw r).seek p).emit out) ∨
      ∃ r out, t = malformed ((s.withLzw r).emit out) := by
  unfold decPhase at h
  split at h
  · split at h <;> cases h
    · exact .inr (.inl ⟨_, _, _, rfl⟩)
    · exact .inr (.inr ⟨_, _, rfl⟩)
  · cases h
    exact .inl rfl

/-! ### The results that a unit command leaves -/

/-- What the unit command `i`, accepted with the registers `g`, has left of its result registers, and why its completion
will not draw them: LZW_DEC never raises ALPHABET_OVERFLOW, and SCAN emits nothing that could be taken short. -/
structure ResultsKept (i : Instr) (g : Regs) (s : State) : Prop where
  chunks : s.regs.chunks = 0
  alphabet : i = .lzwDec → s.regs.alphaN = g.alphaN ∧ s.regs.alpha = g.alpha ∧ s.eng.outcome ≠ .alphabetOverflow
  next : i = .scan → s.regs.dictNext = g.dictNext ∧ s.eng.outcome ≠ .shortWrite ∧ s.eng.outq = []

/-- In the commands that encode, CHUNKS alone is kept. -/
theorem ResultsKept.of_chunks (hd : i ≠ .lzwDec) (hs : i ≠ .scan) (h : s.regs.chunks = 0) : ResultsKept i g s :=
  ⟨h, fun hi => absurd hi hd, fun hi => absurd hi hs⟩

theorem ResultsKept.endWith (h : ResultsKept i g s) (ha : i = .lzwDec → e ≠ .alphabetOverflow)
    (hn : i = .scan → e ≠ .shortWrite) : ResultsKept i g (s.endWith e) where
  chunks := h.chunks
  alphabet hi := have ⟨h1, h2, _⟩ := h.alphabet hi; ⟨h1, h2, ha hi⟩
  next hi := have ⟨h1, _, h3⟩ := h.next hi; ⟨h1, hn hi, h3⟩

theorem drawResults_alphabet_specified {op : BitVec 4} (h : alphabetUnspecified op e = false) (d : Config.Draw)
    (g : Regs) : (drawResults op e d g).alphaN = g.alphaN ∧ (drawResults op e d g).alpha = g.alpha := by
  simp only [drawResults, h, Bool.false_eq_true, if_false]
  split <;> exact ⟨rfl, rfl⟩

/-- The completion draws none of the results that the command leaves. -/
theorem ResultsKept.finishStep (h : ResultsKept i g s) (ho : s.eng.opCur = opOf i) (ht : finishStep s = .went t) :
    ResultsKept i g t := by
  cases ht
  refine ⟨(drawResults_chunks ..).trans h.chunks, fun hi => ?_, fun hi => ?_⟩
  · obtain ⟨h1, h2, hne⟩ := h.alphabet hi
    have hspec : alphabetUnspecified s.eng.opCur s.eng.outcome = false := by
      subst hi
      simp [alphabetUnspecified, ho, hne, isStreamer, opOf_inj]
    obtain ⟨hn, ha⟩ := drawResults_alphabet_specified hspec s.draw s.regs
    exact ⟨hn.trans h1, ha.trans h2, hne⟩
  · obtain ⟨h1, hne, -⟩ := h.next hi
    have hspec : nextUnspecified s.eng.opCur s.eng.outcome = false := by
      subst hi
      simp [nextUnspecified, ho, hne, isStreamer, opOf_inj]
    exact ⟨(drawResults_dictNext_specified hspec _ _).trans h1, hne, rfl⟩

/-- A flush writes none of these results, and SCAN has none to make. -/
theorem ResultsKept.flushFirst {f : State → Turn} (h : ResultsKept i g s) (hf : f s = .went t → ResultsKept i g t)
    (ht : flushFirst f s = .went t) : ResultsKept i g t := by
  by_cases hout : s.eng.outq = []
  · exact hf ((flushFirst_empty hout).symm.trans ht)
  rw [flushFirst_pending hout] at ht
  have hscan : i ≠ .scan := fun hi => hout (h.next hi).2.2
  obtain ⟨a, -, ⟨-, rfl⟩ | ⟨-, rfl⟩⟩ := flushStep_went ht
  · exact ⟨h.chunks, h.alphabet, fun hi => absurd hi hscan⟩
  · exact ⟨h.chunks, fun hi => have ⟨h1, h2, _⟩ := h.alphabet hi; ⟨h1, h2, by simp⟩, fun hi => absurd hi hscan⟩

theorem ResultsKept.loadStep {after : State → Turn} (h : ResultsKept i g s)
    (ha : ∀ t, after s = .went t → ResultsKept i g t) (ht : loadStep after s = .went t) : ResultsKept i g t := by
  rcases loadStep_went ht with hafter | rfl | ⟨src, r, rfl⟩ | ⟨src, n, rfl⟩
  · exact ha t hafter
  · exact ⟨h.chunks, h.alphabet, h.next⟩
  · exact ⟨h.chunks, h.alphabet, h.next⟩
  · have hcounted : ResultsKept i g ((s.withSrc src).countIn n) := ⟨h.chunks, h.alphabet, h.next⟩
    exact hcounted.endWith (fun _ => by decide) (fun _ => by decide)

theorem ResultsKept.toScan (h : ResultsKept i g s) (t : State) (ht : Turn.went (s.toPhase .scan) = .went t) :
    ResultsKept i g t := by
  cases ht
  exact ⟨h.chunks, h.alphabet, h.next⟩

/-- SCAN of the commands that go on to encode. -/
theorem ResultsKept.scanPhase {f : List Byte → State → State} (h : ResultsKept i g s) (hd : i ≠ .lzwDec)
    (hs : i ≠ .scan) (ht : scanPhase f s = .went t) (hf : ∀ alpha u, (f alpha u).regs.chunks = u.regs.chunks) :
    ResultsKept i g t := by
  refine .of_chunks hd hs ?_
  rcases scanPhase_went ht with ⟨alpha, rfl⟩ | rfl
  · exact (hf alpha _).trans h.chunks
  · exact h.chunks

theorem ResultsKept.enc (h : ResultsKept i g s) (hd : i ≠ .lzwDec) (hs : i ≠ .scan)
    (ht : encPhase State.emit endRun (fun t => raise .dictionaryOverflow t.latchNext) s = .went t) :
    ResultsKept i g t := by
  refine .of_chunks hd hs ?_
  rcases encPhase_updates ht with rfl | rfl | ⟨r, p, out, rfl⟩ | ⟨r, out, rfl⟩ <;> exact h.chunks

theorem ResultsKept.dec {codes : List Byte} (h : ResultsKept i g s) (hi : i ≠ .scan)
    (ht : decPhase codes endRun (fun t => raise .malformedFrame t.latchNext) s = .went t) : ResultsKept i g t := by
  have hnext : ∀ {p : Prop}, i = .scan → p := fun hs => absurd hs hi
  rcases decPhase_updates ht with rfl | ⟨r, p, out, rfl⟩ | ⟨r, out, rfl⟩
  · exact ResultsKept.endWith (s := s.latchNext) ⟨h.chunks, h.alphabet, hnext⟩ (fun _ => by decide) hnext
  · exact ⟨h.chunks, h.alphabet, hnext⟩
  · exact ResultsKept.endWith (s := ((s.withLzw r).emit out).latchNext) ⟨h.chunks, h.alphabet, hnext⟩
      (fun _ => by decide) hnext

/-! ### The unit commands -/

theorem scanCmdStep_results (h : ResultsKept .scan g s) (ho : s.eng.opCur = opOf .scan)
    (ht : scanCmdStep s = .went t) : ResultsKept .scan g t := by
  refine h.flushFirst (fun hg => ?_) ht
  split at hg
  · exact h.loadStep h.toScan hg
  · rcases scanPhase_went hg with ⟨alpha, rfl⟩ | rfl
    · have hpublished : ResultsKept .scan g ((s.withN alpha.length).publishAlphabet alpha) :=
        ⟨h.chunks, nofun, h.next⟩
      exact hpublished.endWith nofun fun _ => by decide
    · exact h.endWith nofun fun _ => by decide
  · exact h.finishStep ho hg
  · cases hg

theorem lzwEncStep_results (h : ResultsKept .lzwEnc g s) (ho : s.eng.opCur = opOf .lzwEnc)
    (ht : lzwEncStep s = .went t) : ResultsKept .lzwEnc g t := by
  refine h.flushFirst (fun hg => ?_) ht
  split at hg
  · exact h.loadStep h.toScan hg
  · exact h.scanPhase nofun nofun hg fun _ _ => rfl
  · exact h.enc nofun nofun hg
  · exact h.finishStep ho hg
  · cases hg

theorem frmEncStep_results (h : ResultsKept .frmEnc g s) (ho : s.eng.opCur = opOf .frmEnc)
    (ht : frmEncStep s = .went t) : ResultsKept .frmEnc g t := by
  refine h.flushFirst (fun hg => ?_) ht
  split at hg
  · exact h.loadStep h.toScan hg
  · exact h.scanPhase nofun nofun hg fun _ _ => rfl
  · exact h.enc nofun nofun hg
  · exact h.finishStep ho hg
  · cases hg

theorem lzwDecStep_results (h : ResultsKept .lzwDec g s) (ho : s.eng.opCur = opOf .lzwDec)
    (ht : lzwDecStep s = .went t) : ResultsKept .lzwDec g t := by
  refine h.flushFirst (fun hg => ?_) ht
  split at hg
  · refine h.loadStep (fun t hafter => ?_) hg
    obtain rfl : enterLzwDec s = t := Turn.went.inj hafter
    refine ⟨?_, fun hi => ?_, nofun⟩
    · rw [enterLzwDec, enterDec_regs, h.chunks]
    · rw [enterLzwDec, enterDec_regs, enterDec_eng]
      exact h.alphabet hi
  · exact h.dec nofun hg
  · exact h.finishStep ho hg
  · cases hg

theorem enterFrmDec_chunks (s : State) : (enterFrmDec s).regs.chunks = s.regs.chunks := by
  cases h : parseFrame s.eng.ibuf with
  | empty => rw [enterFrmDec_of_empty h]; rfl
  | short => rw [enterFrmDec_of_short h]; rfl
  | parts alpha codes => rw [enterFrmDec_of_parts h, enterDec_regs]; rfl

theorem frmDecStep_results (h : ResultsKept .frmDec g s) (ho : s.eng.opCur = opOf .frmDec)
    (ht : frmDecStep s = .went t) : ResultsKept .frmDec g t := by
  refine h.flushFirst (fun hg => ?_) ht
  split at hg
  · refine h.loadStep (fun t hafter => ?_) hg
    obtain rfl : enterFrmDec s = t := Turn.went.inj hafter
    exact .of_chunks nofun nofun ((enterFrmDec_chunks s).trans h.chunks)
  · exact h.dec nofun hg
  · exact h.finishStep ho hg
  · cases hg

theorem engineStep_results (hu : i ≠ .strEnc ∧ i ≠ .strDec) (h : ResultsKept i g s) (ho : s.eng.opCur = opOf i)
    (ht : engineStep s = .went t) : ResultsKept i g t := by
  simp only [engineStep, ho, instrOfOp_opOf] at ht
  cases i with
  | clr => cases ht
  | scan => exact scanCmdStep_results h ho ht
  | lzwEnc => exact lzwEncStep_results h ho ht
  | lzwDec => exact lzwDecStep_results h ho ht
  | frmEnc => exact frmEncStep_results h ho ht
  | frmDec => exact frmDecStep_results h ho ht
  | strEnc => exact absurd rfl hu.1
  | strDec => exact absurd rfl hu.2

theorem exec_results (hi : i ≠ .clr) (hu : i ≠ .strEnc ∧ i ≠ .strDec) (hb : s.regs.stat ≠ .busy)
    (h : exec i s = .next t) : ResultsKept i s.regs t :=
  exec_keeps hi hb ⟨rfl, fun _ => ⟨rfl, rfl, by simp⟩, fun _ => ⟨rfl, by simp, rfl⟩⟩
    (fun _ _ hk ho hs => engineStep_results hu hk ho hs) h

/-- Settles O52: a BUSY block ignores the command, CLR is one acceptance, and the other commands' engine steps keep what
is claimed. -/
theorem commandFrame : Obligations.CommandFrame := by
  intro i s t h
  by_cases hb : s.regs.stat = .busy
  · obtain rfl : s = t := Host.Outcome.next.inj ((exec_busy i hb).symm.trans h)
    exact ⟨rfl, rfl, rfl, rfl, fun _ => ⟨rfl, rfl⟩, fun _ => rfl, fun hn => absurd hb hn⟩
  by_cases hi : i = .clr
  · subst hi
    obtain rfl := Host.Outcome.next.inj ((exec_clr_not_busy hb).symm.trans h)
    exact ⟨rfl, rfl, rfl, rfl, fun _ => ⟨rfl, rfl⟩, fun _ => rfl, fun _ _ _ => rfl⟩
  have hcfg := exec_configKept hi hb h
  refine ⟨hcfg.chunkSize, hcfg.ovfPolicy, hcfg.host, hcfg.reads, fun ha => ?_, fun hn => ?_, fun _ he hd => ?_⟩
  · obtain rfl := ha.resolve_right hi
    obtain ⟨hn, ha, -⟩ := (exec_results hi (by decide) hb h).alphabet rfl
    exact ⟨hn, ha⟩
  · obtain rfl := hn.resolve_right hi
    obtain ⟨hn, -⟩ := (exec_results hi (by decide) hb h).next rfl
    exact hn
  · exact (exec_results hi ⟨he, hd⟩ hb h).chunks

end Sys2Proof.Machine
end

section
/-! PROOF. Reset (70_reset_and_hazards.md R310 to R312): the state after reset has the reset values (obligation O14) and
meets the machine's invariant (O48), and a reset event gives the reset values from every state (O15). -/

namespace Sys2Proof.Machine

variable {s : State}

/-- The registers and the engine hold their reset values, and anything in the elements that R311 leaves unspecified. -/
structure State.ResetBlock (s : State) : Prop where
  regs : ∃ alpha, s.regs = { Regs.reset with alpha := alpha }
  eng : ∃ cs pol n dict w prev, s.eng = { Engine.reset with
    csCur := cs, polCur := pol, nCur := n, lzw := { Lzw.reset with dict := dict, wCode := w, prevCode := prev } }
  slotZero : s.eng.lzw.slot 0 = none

theorem State.ResetBlock.atReset (h : s.ResetBlock) : s.atReset := by
  obtain ⟨⟨alpha, hregs⟩, ⟨cs, pol, n, dict, w, prev, heng⟩, hslot⟩ := h
  constructor
  case slotZero => exact hslot
  case ibufCap => exact ibufCap_toNat s
  case status => rw [hregs]; exact (by decide : statusWord Regs.reset = 0)
  case cfg => rw [hregs]; exact (by decide : cfgWord Regs.reset = 0x7FFF)
  case alphaN | dictNext => rw [hregs]; rfl
  case counters => rw [hregs]; exact ⟨rfl, rfl, rfl⟩
  case next | phase | outq => rw [heng]; rfl
  case valid | context => rw [heng]; exact ⟨rfl, rfl⟩
  case cursors => rw [heng]; exact ⟨rfl, rfl, rfl, rfl, rfl⟩

theorem reset_resetBlock : State.reset.ResetBlock :=
  ⟨⟨_, rfl⟩, ⟨_, _, _, _, _, _, rfl⟩, by simp [State.reset, Engine.reset, Lzw.reset, Lzw.slot]⟩

theorem hostReset_resetBlock (s : State) : (hostReset s).ResetBlock :=
  ⟨⟨_, rfl⟩, ⟨_, _, _, _, _, _, rfl⟩, (hostReset_inv s).slotZero⟩

/-- Settles O14: State.reset has R311's registers and engine. -/
theorem resetValues : Obligations.ResetValues := reset_resetBlock.atReset

/-- Settles O15: a reset line is a reset event, which writes the registers and the engine alone. -/
theorem resetEventFromAnyState : Obligations.ResetEventFromAnyState := by
  intro s rest h
  refine ⟨hostReset (popHost rest s), ?_, (hostReset_resetBlock _).atReset, rfl⟩
  simp only [step, h, hostStep]

/-- Settles O48: after reset the block is at rest, its buffers are empty, and NEXT and DICT_NEXT are 1. -/
theorem resetMeetsInvariant : Obligations.ResetMeetsInvariant := by
  have hone : (1 : BitVec 9).toNat ≤ 256 := by decide
  exact inv_of_rest ⟨by decide, le_rfl, hone⟩ (show Stat.idle ≠ .busy by decide)
    ⟨Nat.zero_le _, Nat.zero_le _, Nat.zero_le _, le_rfl, hone, reset_resetBlock.slotZero⟩ ⟨rfl, rfl⟩

end Sys2Proof.Machine
end

section
/-! SUPPORT. Every engine step of a BUSY command whose streams keep answering goes on, keeps what the next step needs, and
on finite input uses up some of a bounded amount of work (70_reset_and_hazards.md R321): the phases of the commands. -/

namespace Sys2Proof.Machine

variable {s t u : State} {e : Engine} {i : Instr}

/-! ### What a running command needs for its next step -/

/-- The source has bytes or EOS for every read: its input is finite or endless (20_memory.md R68; notes/assumptions/3). -/
def Source.Answers (src : Source) : Prop := src.tail = .ends ∨ ∃ id pos, src.tail = .endless id pos

/-- The part of RunInv that no element left over from before the acceptance can break, and the two bounds that make a read
ask for at least one byte. -/
structure Engine.Sound (i : Instr) (e : Engine) : Prop where
  phase : e.ph ∈ phasesOf i
  enc : e.ph = .enc → EncInv e
  dec : e.ph = .dec → DecInv e
  unitFits : e.ph = .load → e.ibuf.length ≤ Config.ibufSize
  headerOpen : e.ph = .awaitHeader → e.hdr.length < 4

/-- Command `i` runs, and its streams keep answering. -/
structure State.Live (i : Instr) (s : State) : Prop where
  opCur : s.eng.opCur = opOf i
  sound : s.eng.Sound i
  source : s.env.src.Answers
  sink : s.env.sink.tail = .ends

/-! ### The work left -/

/-- The buffer that holds a decoder's codes. -/
def Engine.codeBuffer (i : Instr) (e : Engine) : List Byte :=
  match i with
  | .strDec => e.fbuf
  | _ => e.ibuf

/-- A bound on the engine steps that follow without another byte read, with a step for each emission's flush. A buffered
byte counts for the later phases that work on it, and each phase's constant exceeds that of the phase it leads to. -/
def Engine.work (i : Instr) (e : Engine) : Nat :=
  match e.ph with
  | .idle => 0
  | .finish => 1
  | .load => 2 * e.ibuf.length + 12 + (!e.eosSeen).toNat
  | .scan => 2 * e.ibuf.length + 11
  | .enc => 2 * (e.ibuf.length - e.ipos) + 9
  | .dec => 2 * ((e.codeBuffer i).length - e.ipos) + 3
  | .chunkRead => 12 * e.ibuf.length + 2 + (!e.eosSeen).toNat + (!e.cfgChecked).toNat
  | .envWrite => 5 + 2 * min 1 e.fbuf.length
  | .awaitHeader => 8 * e.hdr.length + 2
  | .awaitBody => 2 * e.fbuf.length + 8

/-- A bound on the engine steps that a command on finite input still takes: a flush of OUTQ uses up a listed call size or
empties it. -/
def State.work (i : Instr) (s : State) : Nat :=
  16 * s.env.src.stream.length + s.env.sink.calls.length + min 1 s.eng.outq.length + s.eng.work i

/-- What an engine step of a running command leads to. -/
structure Advances (i : Instr) (s t : State) : Prop where
  sound : t.eng.Sound i
  source : t.env.src.Answers
  sink : t.env.sink.tail = .ends
  finite : s.env.src.tail = .ends → t.env.src.tail = .ends ∧ t.work i < s.work i

/-- The step `turn` from `s` goes on, and advances the command. -/
def GoesOn (i : Instr) (s : State) (turn : Turn) : Prop := ∃ t, turn = .went t ∧ Advances i s t

/-! ### Updates of the engine -/

theorem finish_mem_phasesOf {p : Phase} (h : p ∈ phasesOf i) : Phase.finish ∈ phasesOf i := by
  cases i with
  | clr => exact absurd h List.not_mem_nil
  | _ => simp [phasesOf]

theorem Engine.Sound.finish (h : e.Sound i) {e' : Engine} (hp : e'.ph = .finish) : e'.Sound i :=
  ⟨hp ▸ finish_mem_phasesOf h.phase, by simp [hp], by simp [hp], by simp [hp], by simp [hp]⟩

theorem Engine.Sound.pending (h : e.Sound i) (b : Bool) (q : List Byte) :
    Engine.Sound i { e with eosSeen := b, outq := q } where
  phase := h.phase
  enc hp := have ⟨h1, h2, h3, h4, h5⟩ := h.enc hp; ⟨h1, h2, h3, h4, h5⟩
  dec hp := have ⟨h1, h2⟩ := h.dec hp; ⟨h1, h2⟩
  unitFits := h.unitFits
  headerOpen := h.headerOpen

/-- The phases that ask nothing of the engine. -/
theorem sound_of_phase {p : Phase} (hp : e.ph = p) (hm : p ∈ phasesOf i)
    (hfree : p ∉ [Phase.enc, .dec, .load, .awaitHeader]) : e.Sound i := by
  subst hp
  simp only [List.mem_cons, List.not_mem_nil, or_false, not_or] at hfree
  obtain ⟨h1, h2, h3, h4⟩ := hfree
  exact ⟨hm, (absurd · h1), (absurd · h2), (absurd · h3), (absurd · h4)⟩

theorem toPhase_sound {p : Phase} (hm : p ∈ phasesOf i) (hfree : p ∉ [Phase.enc, .dec, .load, .awaitHeader]) :
    (s.toPhase p).eng.Sound i :=
  sound_of_phase rfl hm hfree

theorem Engine.Sound.work_pos (h : e.Sound i) : 1 ≤ e.work i := by
  have hidle : e.ph ≠ .idle := fun hi => phasesOf_not_idle i (hi ▸ h.phase)
  unfold Engine.work
  split
  next hi => exact absurd hi hidle
  all_goals omega

theorem Engine.work_of_finish (hp : e.ph = .finish := by rfl) : e.work i = 1 := by
  simp [Engine.work, hp]

/-! ### Steps that leave the streams alone -/

theorem State.Live.advances (h : s.Live i) (ho : s.eng.outq = []) (henv : t.env = s.env) (ht : t.eng.Sound i)
    (hw : min 1 t.eng.outq.length + t.eng.work i < s.eng.work i) : Advances i s t := by
  refine ⟨ht, henv ▸ h.source, henv ▸ h.sink, fun hs => ⟨henv ▸ hs, ?_⟩⟩
  simp only [State.work, henv, ho, List.length_nil]
  omega

/-- An end point, with whatever was emitted at it. -/
theorem State.Live.advances_endWith (h : s.Live i) (ho : s.eng.outq = []) {x : Err} (henv : u.env = s.env)
    (hw : min 1 u.eng.outq.length + 1 < s.eng.work i) : Advances i s (u.endWith x) :=
  h.advances ho henv (h.sound.finish rfl) hw

/-! ### The flush -/

theorem flushStep_goesOn (h : s.Live i) (ho : s.eng.outq ≠ []) : GoesOn i s (flushStep s) := by
  obtain ⟨hpre, hlen, hpos⟩ := offered_spec ho
  have hpend : 1 ≤ s.eng.outq.length := List.length_pos_iff.mpr ho
  by_cases hf : s.env.sink.fits s.offered.length = true
  · refine ⟨_, flushStep_whole hf, h.sound.pending _ _, h.source, h.sink, fun hs => ⟨hs, ?_⟩⟩
    cases hcalls : s.env.sink.calls with
    | nil =>
      rw [callSize_all hcalls] at hlen
      simp [State.work, Engine.work, Engine.codeBuffer, hcalls, hlen]
      omega
    | cons c cs =>
      simp [State.work, Engine.work, Engine.codeBuffer, hcalls]
      omega
  · obtain ⟨r, hr, hlt⟩ := room_lt_of_not_fits (by simpa using hf)
    refine ⟨_, flushStep_short hr hlt h.sink, h.sound.finish rfl, h.source, h.sink, fun hs => ⟨hs, ?_⟩⟩
    have hwork := h.sound.work_pos
    simp only [State.work, cutShort_eng, cutShort_env, take_calls, called_calls, List.length_tail, List.length_nil,
      Engine.work_of_finish]
    omega

/-! ### Reads -/

theorem Source.Answers.read {src : Source} {n : Nat} (h : src.Answers) (hn : 1 ≤ n) :
    srcRead n src = .eos ∨ ∃ r rest, srcRead n src = .data r rest ∧ 1 ≤ r.length ∧ r.length ≤ n ∧ rest.Answers ∧
      (src.tail = .ends → rest.tail = .ends ∧ r.length + rest.stream.length = src.stream.length) := by
  rcases h with ht | ⟨id, pos, ht⟩
  · by_cases hs : src.stream = []
    · exact .inl (srcRead_eos hs ht)
    · obtain ⟨r, rest, hr, happ, h1, h2, hrt⟩ := srcRead_data hn hs ht
      exact .inr ⟨r, rest, hr, h1, h2, .inl hrt, fun _ => ⟨hrt, by rw [← happ, List.length_append]⟩⟩
  · obtain ⟨r, rest, pos', hr, -, h1, h2, hrt⟩ := srcRead_endless hn ht
    exact .inr ⟨r, rest, hr, h1, h2, .inr ⟨id, pos', hrt⟩, fun hf => by simp [ht] at hf⟩

/-- A read that delivers bytes may turn each of them into work of its phase. -/
theorem readStep_goesOn {n : Nat} {onEos : State → State} {onData : List Byte → State → State} (h : s.Live i)
    (ho : s.eng.outq = []) (hn : 1 ≤ n) (heos : Advances i s (onEos s.sawEos))
    (henv : ∀ r u, (onData r u).env = u.env)
    (hdata : ∀ r u, u.eng = s.eng → 1 ≤ r.length → r.length ≤ n → (onData r u).eng.Sound i ∧
      min 1 (onData r u).eng.outq.length + (onData r u).eng.work i < 16 * r.length + s.eng.work i) :
    GoesOn i s (readStep n onEos onData s) := by
  rcases h.source.read hn with hr | ⟨r, rest, hr, h1, h2, hrest, hfin⟩
  · exact ⟨_, by simp only [readStep, hr], heos⟩
  · obtain ⟨hsound, hwork⟩ := hdata r ((s.withSrc rest).countIn r.length) rfl h1 h2
    refine ⟨_, readStep_data hr, hsound, ?_, ?_, fun hs => ⟨?_, ?_⟩⟩
    · rw [henv]; exact hrest
    · rw [henv]; exact h.sink
    · rw [henv]; exact (hfin hs).1
    · have hlen := (hfin hs).2
      simp only [State.work, henv, ho, countIn_env, withSrc_env, List.length_nil]
      omega

/-- LOAD (20_memory.md R66), given what follows its end. -/
theorem loadStep_goesOn {after : State → Turn} (h : s.Live i) (ho : s.eng.outq = []) (hp : s.eng.ph = .load)
    (ha : GoesOn i s (after s)) : GoesOn i s (loadStep after s) := by
  unfold loadStep
  split
  · exact ha
  rename_i heos
  have hfits := h.sound.unitFits hp
  refine readStep_goesOn h ho (by omega) ?_ (fun r u => ?_) (fun r u hu h1 h2 => ?_)
  · exact h.advances ho rfl (h.sound.pending _ _) (by simp [Engine.work, hp, ho, heos])
  · split <;> rfl
  · split
    · exact ⟨h.sound.finish rfl, by simp [Engine.work, hu, hp, ho]; omega⟩
    · rename_i hroom
      rw [hu] at hroom
      refine ⟨⟨by simp [hu, h.sound.phase], ?_, ?_, ?_, ?_⟩, by simp [Engine.work, hu, hp, ho]; omega⟩
      all_goals simp [hu, hp]
      omega

/-! ### The scan and the two coding phases -/

theorem toScan_goesOn (h : s.Live i) (ho : s.eng.outq = []) (hp : s.eng.ph = .load) (hm : Phase.scan ∈ phasesOf i) :
    GoesOn i s (.went (s.toPhase .scan)) :=
  ⟨_, rfl, h.advances ho rfl (toPhase_sound hm (by decide)) (by simp [Engine.work, hp, ho]; omega)⟩

theorem scanPhase_goesOn {f : List Byte → State → State} (h : s.Live i) (ho : s.eng.outq = []) (hp : s.eng.ph = .scan)
    (hf : ∀ alpha, scan s.eng.ibuf = some alpha → Advances i s (f alpha (s.withN alpha.length))) :
    GoesOn i s (scanPhase f s) := by
  unfold scanPhase
  split
  · exact ⟨_, rfl, hf _ ‹_›⟩
  · exact ⟨_, rfl, h.advances_endWith ho rfl (by simp [Engine.work, hp, ho])⟩

/-- The entry into ENC, with a frame's header emitted or put into FBUF, or with none. -/
theorem enterEnc_advances {alpha : List Byte} (h : s.Live i) (ho : s.eng.outq = []) (hp : s.eng.ph = .scan)
    (hm : Phase.enc ∈ phasesOf i) (hs : scan s.eng.ibuf = some alpha) (henv : t.env = s.env) {q fr : List Byte}
    (ht : t.eng = { (enterEnc alpha (s.withN alpha.length)).eng with outq := q, fbuf := fr }) : Advances i s t := by
  have henc := encInv_enter hs .enc
  refine h.advances ho henv ⟨by rw [ht]; exact hm, fun _ => ?_, ?_, ?_, ?_⟩ ?_
  · have ⟨h1, h2, h3, h4, h5⟩ := henc
    rw [ht]
    exact ⟨h1, h2, h3, h4, h5⟩
  all_goals simp [ht, enterEnc]
  simp [Engine.work, hp]
  omega

theorem encPhase_goes {emit : List Byte → State → State} {leave overflow : State → State} (h : EncInv s.eng) :
    ∃ t, encPhase emit leave overflow s = .went t := by
  cases hturn : encPhase emit leave overflow s with
  | went t => exact ⟨t, rfl⟩
  | fault x => exact absurd hturn (encPhase_ne_fault h)
  | _ =>
    unfold encPhase at hturn
    split at hturn
    · cases hturn
    split at hturn
    · split at hturn <;> cases hturn
    · cases hturn

/-- ENC (41_lzw_codec.md R145, R146), whose codes go to OUTQ or to FBUF. -/
theorem encPhase_goesOn {emit : List Byte → State → State} {leave overflow : State → State} (h : s.Live i)
    (ho : s.eng.outq = []) (hp : s.eng.ph = .enc)
    (hemit : ∀ out u, (emit out u).env = u.env ∧ ∃ q fr, (emit out u).eng = { u.eng with outq := q, fbuf := fr })
    (hleave : ∀ u : State, u.env = s.env → Advances i s (leave u))
    (hover : ∀ u : State, u.env = s.env → Advances i s (overflow u)) :
    GoesOn i s (encPhase emit leave overflow s) := by
  have henc := h.sound.enc hp
  obtain ⟨t, ht⟩ := encPhase_goes henc
  refine ⟨t, ht, ?_⟩
  rcases encPhase_went henc ht with rfl | rfl | ⟨r, out, rfl, hlt, henc', -⟩ | ⟨rfl, -⟩
  · exact hleave s rfl
  · exact hleave _ (hemit _ _).1
  · obtain ⟨henv, q, fr, heng⟩ := hemit out ((s.withLzw r).seek (s.eng.ipos + 1))
    refine h.advances ho henv ⟨by rw [heng]; exact h.sound.phase, fun _ => ?_, ?_, ?_, ?_⟩ ?_
    · have ⟨h1, h2, h3, h4, h5⟩ := henc'
      rw [heng]
      exact ⟨h1, h2, h3, h4, h5⟩
    all_goals simp [heng, hp]
    simp [Engine.work, hp]
    omega
  · exact hover _ (hemit _ _).1

theorem enterDec_work (alpha : List Byte) (noCodes : Bool) :
    (enterDec alpha noCodes s).eng.work i = 2 * (s.eng.codeBuffer i).length + 3 := by
  cases i <;> simp [Engine.work, Engine.codeBuffer, enterDec_eng]

/-- The entry into DEC, with or without the alphabet emitted, from a phase with work for each code. -/
theorem enterDec_advances {alpha : List Byte} (h : s.Live i) (ho : s.eng.outq = []) (hm : Phase.dec ∈ phasesOf i)
    (hl : alpha.length ≤ 255) (noCodes : Bool) (hu : u.env = s.env) (he : u.eng = s.eng)
    (hw : 2 * (s.eng.codeBuffer i).length + 4 < s.eng.work i) : Advances i s (enterDec alpha noCodes u) := by
  have hdec := decInv_enterDec (s := u) hl noCodes
  refine h.advances ho ((enterDec_env _ _ _).trans hu) ⟨by simpa [enterDec_eng] using hm, ?_, fun _ => hdec, ?_, ?_⟩ ?_
  · simp [enterDec_eng]
  · simp [enterDec_eng]
  · simp [enterDec_eng]
  · rw [enterDec_work, he]
    omega

theorem decPhase_at_end {codes : List Byte} {leave malformed : State → State} (h : codes.length ≤ s.eng.ipos) :
    decPhase codes leave malformed s = .went (leave s) := by
  simp [decPhase, List.getElem?_eq_none h]

theorem decPhase_goes {codes : List Byte} {leave malformed : State → State} (h : DecInv s.eng) :
    ∃ t, decPhase codes leave malformed s = .went t := by
  cases hturn : decPhase codes leave malformed s with
  | went t => exact ⟨t, rfl⟩
  | fault x => exact absurd hturn (decPhase_ne_fault h)
  | _ =>
    unfold decPhase at hturn
    split at hturn
    · split at hturn <;> cases hturn
    · cases hturn

/-- DEC (41_lzw_codec.md R152, R153), whose codes are in the command's buffer. -/
theorem decPhase_goesOn {codes : List Byte} {leave malformed : State → State} (h : s.Live i)
    (ho : s.eng.outq = []) (hp : s.eng.ph = .dec) (hcodes : codes.length ≤ (s.eng.codeBuffer i).length)
    (hleave : Advances i s (leave s)) (hbad : Advances i s (malformed (s.emit []))) :
    GoesOn i s (decPhase codes leave malformed s) := by
  by_cases hlt : s.eng.ipos < codes.length
  · obtain ⟨t, ht⟩ := decPhase_goes (codes := codes) (leave := leave) (malformed := malformed) (h.sound.dec hp)
    refine ⟨t, ht, ?_⟩
    rcases decPhase_went (h.sound.dec hp) ht with rfl | rfl | ⟨r, out, rfl, hdec⟩
    · exact hleave
    · exact hbad
    · have hsound : (((s.withLzw r).seek (s.eng.ipos + 1)).emit out).eng.Sound i :=
        ⟨h.sound.phase, fun hq => absurd (hp.symm.trans hq) (by decide), fun _ => have ⟨h1, h2⟩ := hdec; ⟨h1, h2⟩,
          h.sound.unitFits, h.sound.headerOpen⟩
      have hwork : (((s.withLzw r).seek (s.eng.ipos + 1)).emit out).eng.work i =
          2 * ((s.eng.codeBuffer i).length - (s.eng.ipos + 1)) + 3 := by
        cases i <;> simp [Engine.work, Engine.codeBuffer, hp]
      have hbefore : s.eng.work i = 2 * ((s.eng.codeBuffer i).length - s.eng.ipos) + 3 := by simp [Engine.work, hp]
      exact h.advances ho rfl hsound (by omega)
  · exact ⟨_, decPhase_at_end (by omega), hleave⟩

/-! ### The streamers' own phases (43_chunk_streamer.md R222, R226, R227) -/

theorem chunkReadStep_goesOn (h : s.Live .strEnc) (ho : s.eng.outq = []) (hp : s.eng.ph = .chunkRead) :
    GoesOn .strEnc s (chunkReadStep s) := by
  have hsound : ∀ en : Engine, en.ph = .chunkRead → en.Sound .strEnc := fun en hen =>
    sound_of_phase hen (by decide) (by decide)
  unfold chunkReadStep
  split
  · rename_i hc
    refine ⟨_, rfl, ?_⟩
    unfold checkConfig
    split
    · exact h.advances_endWith ho rfl (by simp [Engine.work, hp, ho]; omega)
    · exact h.advances ho rfl (hsound _ hp) (by simp [Engine.work, hp, ho, hc])
  split
  · rename_i hread
    obtain ⟨hlt, heos⟩ := hread
    refine readStep_goesOn h ho (by omega) ?_ (fun _ _ => rfl) (fun r u hu h1 _ => ⟨hsound _ (by simp [hu, hp]), ?_⟩)
    · exact h.advances ho rfl (hsound _ hp) (by simp [Engine.work, hp, ho, heos])
    · simp [Engine.work, hu, hp, ho]
      omega
  split
  · exact ⟨_, rfl, h.advances_endWith ho rfl (by simp [Engine.work, hp, ho]; omega)⟩
  · rename_i hne
    have hpos := List.length_pos_iff.mpr hne
    refine ⟨_, rfl, h.advances ho rfl (toPhase_sound (by decide) (by decide)) ?_⟩
    simp [Engine.work, hp, ho]
    omega

theorem envWriteStep_goesOn (h : s.Live .strEnc) (ho : s.eng.outq = []) (hp : s.eng.ph = .envWrite) :
    GoesOn .strEnc s (envWriteStep s) := by
  unfold envWriteStep
  split
  · rename_i hne
    have hpos := List.length_pos_iff.mpr hne
    refine ⟨_, rfl, h.advances ho rfl (sound_of_phase hp (by decide) (by decide)) ?_⟩
    simp [Engine.work, hp, ho]
    omega
  split
  · exact ⟨_, rfl, h.advances_endWith ho rfl (by simp [Engine.work, hp, ho]; omega)⟩
  · rename_i heos
    refine ⟨_, rfl, h.advances ho rfl (toPhase_sound (by decide) (by decide)) ?_⟩
    have := Bool.toNat_le (!s.eng.cfgChecked)
    simp [Engine.work, hp, ho, heos]
    omega

theorem awaitHeader_advances (h : s.Live .strDec) (ho : s.eng.outq = []) (hu : u.env = s.env) (hq : u.eng.outq = [])
    (hw : 2 < s.eng.work .strDec) : Advances .strDec s (awaitHeader u) :=
  h.advances ho hu ⟨by simp [awaitHeader, phasesOf], by simp [awaitHeader], by simp [awaitHeader], by simp [awaitHeader],
    by simp [awaitHeader]⟩ (by simpa [Engine.work, awaitHeader, hq] using hw)

theorem headerStep_goesOn (h : s.Live .strDec) (ho : s.eng.outq = []) (hp : s.eng.ph = .awaitHeader) :
    GoesOn .strDec s (headerStep s) := by
  have hopen := h.sound.headerOpen hp
  refine readStep_goesOn h ho (by omega) ?_ (fun r u => ?_) (fun r u hu h1 h2 => ?_)
  · split <;> exact h.advances_endWith ho rfl (by simp [Engine.work, hp, ho])
  · unfold headerDone
    split <;> rfl
  · unfold headerDone
    split
    · rename_i hfull
      refine ⟨toPhase_sound (by decide) (by decide), ?_⟩
      simp [hu] at hfull
      simp [Engine.work, hu, hp, ho]
      omega
    · rename_i hpart
      simp [hu] at hpart
      refine ⟨⟨by simp [hu, h.sound.phase], by simp [hu, hp], by simp [hu, hp], by simp [hu, hp], fun _ => ?_⟩, ?_⟩
      · simp [hu]; omega
      · simp [Engine.work, hu, hp, ho]; omega

theorem enterBody_advances (h : s.Live .strDec) (ho : s.eng.outq = []) (hp : s.eng.ph = .awaitBody) :
    Advances .strDec s (enterBody s) := by
  unfold enterBody
  split
  · exact awaitHeader_advances h ho rfl ho (by simp [Engine.work, hp])
  · exact h.advances_endWith ho rfl (by simp [Engine.work, hp, ho])
  · rename_i hfr
    exact enterDec_advances h ho (by decide) (parseFrame_parts hfr) _ rfl rfl
      (by simp [Engine.work, Engine.codeBuffer, hp])

theorem bodyStep_goesOn (h : s.Live .strDec) (ho : s.eng.outq = []) (hp : s.eng.ph = .awaitBody) :
    GoesOn .strDec s (bodyStep s) := by
  unfold bodyStep
  split
  · refine readStep_goesOn h ho (by omega) ?_ (fun _ _ => rfl) (fun r u hu h1 _ => ?_)
    · exact h.advances_endWith ho rfl (by simp [Engine.work, hp, ho])
    · refine ⟨sound_of_phase (p := .awaitBody) (by simp [hu, hp]) (by decide) (by decide), ?_⟩
      simp [Engine.work, hu, hp, ho]
      omega
  · exact ⟨_, rfl, enterBody_advances h ho hp⟩

end Sys2Proof.Machine
end

section
/-! PROOF. A command on finite input runs to its end (70_reset_and_hazards.md R321), and a pause does not change that end
(R322; obligation O58): the engine's step in every command, and runs by the work left. -/

namespace Sys2Proof.Machine

variable {s t u : State} {i : Instr}

/-! ### The commands' rules, with nothing pending and before FINISH -/

theorem scanCmdStep_goesOn (h : s.Live .scan) (ho : s.eng.outq = []) (hnf : s.eng.ph ≠ .finish) :
    GoesOn .scan s (scanCmdStep s) := by
  rw [scanCmdStep, flushFirst_empty ho]
  have hm := h.sound.phase
  simp only [phasesOf, List.mem_cons, List.not_mem_nil, or_false, hnf] at hm
  rcases hm with hp | hp <;> simp only [hp]
  · exact loadStep_goesOn h ho hp (toScan_goesOn h ho hp (by decide))
  · exact scanPhase_goesOn h ho hp fun _ _ => h.advances_endWith ho rfl (by simp [Engine.work, hp, ho])

/-- ENC of the unit commands: the run ends, or is cut by DICTIONARY_OVERFLOW. -/
theorem encPhase_unit_goesOn (h : s.Live i) (ho : s.eng.outq = []) (hp : s.eng.ph = .enc) :
    GoesOn i s (encPhase State.emit endRun (fun t => raise .dictionaryOverflow t.latchNext) s) := by
  have hend : ∀ (u : State) x, u.env = s.env → Advances i s (u.latchNext.endWith x) := fun u x hu =>
    h.advances_endWith ho hu (by simp [Engine.work, hp])
  exact encPhase_goesOn h ho hp (fun _ _ => ⟨rfl, _, _, rfl⟩) (fun u => hend u _) fun u => hend u _

theorem lzwEncStep_goesOn (h : s.Live .lzwEnc) (ho : s.eng.outq = []) (hnf : s.eng.ph ≠ .finish) :
    GoesOn .lzwEnc s (lzwEncStep s) := by
  rw [lzwEncStep, flushFirst_empty ho]
  have hm := h.sound.phase
  simp only [phasesOf, List.mem_cons, List.not_mem_nil, or_false, hnf] at hm
  rcases hm with hp | hp | hp <;> simp only [hp]
  · exact loadStep_goesOn h ho hp (toScan_goesOn h ho hp (by decide))
  · exact scanPhase_goesOn h ho hp fun _ hs => enterEnc_advances h ho hp (by decide) hs rfl rfl
  · exact encPhase_unit_goesOn h ho hp

theorem frmEncStep_goesOn (h : s.Live .frmEnc) (ho : s.eng.outq = []) (hnf : s.eng.ph ≠ .finish) :
    GoesOn .frmEnc s (frmEncStep s) := by
  rw [frmEncStep, flushFirst_empty ho]
  have hm := h.sound.phase
  simp only [phasesOf, List.mem_cons, List.not_mem_nil, or_false, hnf] at hm
  rcases hm with hp | hp | hp <;> simp only [hp]
  · exact loadStep_goesOn h ho hp (toScan_goesOn h ho hp (by decide))
  · exact scanPhase_goesOn h ho hp fun _ hs => enterEnc_advances h ho hp (by decide) hs rfl rfl
  · exact encPhase_unit_goesOn h ho hp

/-- DEC of the unit commands: the run ends, or is cut by MALFORMED_FRAME. -/
theorem decPhase_unit_goesOn {codes : List Byte} (h : s.Live i) (ho : s.eng.outq = []) (hp : s.eng.ph = .dec)
    (hcodes : codes.length ≤ (s.eng.codeBuffer i).length) :
    GoesOn i s (decPhase codes endRun (fun t => raise .malformedFrame t.latchNext) s) := by
  have hend : ∀ (u : State) x, u.env = s.env → u.eng.outq = [] → Advances i s (u.latchNext.endWith x) :=
    fun u x hu hq => h.advances_endWith ho hu (by simp [Engine.work, hp, hq])
  exact decPhase_goesOn h ho hp hcodes (hend s _ rfl ho) (hend _ _ rfl (by simpa using ho))

theorem lzwDecStep_goesOn (h : s.Live .lzwDec) (ho : s.eng.outq = []) (hnf : s.eng.ph ≠ .finish) :
    GoesOn .lzwDec s (lzwDecStep s) := by
  rw [lzwDecStep, flushFirst_empty ho]
  have hm := h.sound.phase
  simp only [phasesOf, List.mem_cons, List.not_mem_nil, or_false, hnf] at hm
  rcases hm with hp | hp <;> simp only [hp]
  · refine loadStep_goesOn h ho hp ⟨_, rfl, ?_⟩
    exact enterDec_advances h ho (by decide) (alphabetOperand_length _ _) _ rfl rfl
      (by simp [Engine.work, Engine.codeBuffer, hp]; omega)
  · exact decPhase_unit_goesOn h ho hp le_rfl

theorem enterFrmDec_advances (h : s.Live .frmDec) (ho : s.eng.outq = []) (hp : s.eng.ph = .load) :
    Advances .frmDec s (enterFrmDec s) := by
  cases hfr : parseFrame s.eng.ibuf with
  | empty => rw [enterFrmDec_of_empty hfr]; exact h.advances_endWith ho rfl (by simp [Engine.work, hp, ho]; omega)
  | short => rw [enterFrmDec_of_short hfr]; exact h.advances_endWith ho rfl (by simp [Engine.work, hp, ho]; omega)
  | parts alpha codes =>
    rw [enterFrmDec_of_parts hfr]
    exact enterDec_advances h ho (by decide) (parseFrame_parts hfr) _ rfl rfl
      (by simp [Engine.work, Engine.codeBuffer, hp]; omega)

theorem frameCodes_length_le (n : Byte) (buf : List Byte) : (frameCodes n buf).length ≤ buf.length := by
  simp [frameCodes]

theorem frmDecStep_goesOn (h : s.Live .frmDec) (ho : s.eng.outq = []) (hnf : s.eng.ph ≠ .finish) :
    GoesOn .frmDec s (frmDecStep s) := by
  rw [frmDecStep, flushFirst_empty ho]
  have hm := h.sound.phase
  simp only [phasesOf, List.mem_cons, List.not_mem_nil, or_false, hnf] at hm
  rcases hm with hp | hp <;> simp only [hp]
  · exact loadStep_goesOn h ho hp ⟨_, rfl, enterFrmDec_advances h ho hp⟩
  · exact decPhase_unit_goesOn h ho hp (frameCodes_length_le _ _)

theorem strEncStep_goesOn (h : s.Live .strEnc) (ho : s.eng.outq = []) (hnf : s.eng.ph ≠ .finish) :
    GoesOn .strEnc s (strEncStep s) := by
  rw [strEncStep, flushFirst_empty ho]
  have hm := h.sound.phase
  simp only [phasesOf, List.mem_cons, List.not_mem_nil, or_false, hnf] at hm
  rcases hm with hp | hp | hp | hp <;> simp only [hp]
  · exact chunkReadStep_goesOn h ho hp
  · exact scanPhase_goesOn h ho hp fun _ hs => enterEnc_advances h ho hp (by decide) hs rfl rfl
  · refine encPhase_goesOn h ho hp (fun _ _ => ⟨rfl, _, _, rfl⟩) (fun u hu => ?_) (fun u hu => ?_)
    · exact h.advances ho hu (toPhase_sound (by decide) (by decide)) (by simp [Engine.work, hp]; omega)
    · exact h.advances_endWith ho hu (by simp [Engine.work, hp])
  · exact envWriteStep_goesOn h ho hp

theorem strDecStep_goesOn (h : s.Live .strDec) (ho : s.eng.outq = []) (hnf : s.eng.ph ≠ .finish) :
    GoesOn .strDec s (strDecStep s) := by
  rw [strDecStep, flushFirst_empty ho]
  have hm := h.sound.phase
  simp only [phasesOf, List.mem_cons, List.not_mem_nil, or_false, hnf] at hm
  rcases hm with hp | hp | hp <;> simp only [hp]
  · exact headerStep_goesOn h ho hp
  · exact bodyStep_goesOn h ho hp
  · refine decPhase_goesOn h ho hp (frameCodes_length_le _ _) ?_ ?_
    · exact awaitHeader_advances h ho rfl ho (by simp [Engine.work, hp])
    · exact h.advances_endWith ho rfl (by simp [Engine.work, hp, ho])

/-! ### The engine's step -/

theorem State.Live.ne_clr (h : s.Live i) : i ≠ .clr := by
  rintro rfl
  exact absurd h.sound.phase List.not_mem_nil

/-- A running command's step advances it, or is its completion. -/
theorem State.Live.engineStep (h : s.Live i) :
    GoesOn i s (engineStep s) ∨ engineStep s = .went (complete s.eng.outcome s) := by
  have hop : instrOfOp s.eng.opCur = some i := by rw [h.opCur, instrOfOp_opOf]
  by_cases ho : s.eng.outq = []
  · by_cases hp : s.eng.ph = .finish
    · exact .inr (engineStep_finish hop h.ne_clr hp ho)
    left
    simp only [Machine.engineStep, hop]
    cases i with
    | clr => exact absurd rfl h.ne_clr
    | scan => exact scanCmdStep_goesOn h ho hp
    | lzwEnc => exact lzwEncStep_goesOn h ho hp
    | lzwDec => exact lzwDecStep_goesOn h ho hp
    | frmEnc => exact frmEncStep_goesOn h ho hp
    | frmDec => exact frmDecStep_goesOn h ho hp
    | strEnc => exact strEncStep_goesOn h ho hp
    | strDec => exact strDecStep_goesOn h ho hp
  · left
    rw [engineStep_pending hop h.ne_clr ho]
    exact flushStep_goesOn h ho

/-- A step that advances a command is not its completion, so it keeps the frame. -/
theorem Advances.frame (ha : Advances i s t) (ht : engineStep s = .went t) : SameFrame s t := by
  rcases engineStep_frame ht with hf | ⟨e, u, -, rfl⟩
  · exact hf
  · exact absurd ha.sound.phase (phasesOf_not_idle i)

theorem Advances.live (ha : Advances i s t) (h : s.Live i) (ht : engineStep s = .went t) : t.Live i :=
  ⟨(engineStep_opCur ht).trans h.opCur, ha.sound, ha.source, ha.sink⟩

/-! ### Runs -/

/-- A command on finite input ends within the work left to it. -/
theorem State.Live.steps_to_end (h : s.Live i) (hb : s.regs.stat = .busy) (hsrc : s.env.src.tail = .ends) :
    ∃ k e u, k ≤ s.work i ∧ Steps Machine.engineStep k s (complete e u) ∧ SameFrame s u := by
  generalize hw : s.work i = w
  induction w using Nat.strong_induction_on generalizing s with
  | _ w ih =>
    rcases h.engineStep with ⟨t, ht, ha⟩ | ht
    · obtain ⟨hsrc', hlt⟩ := ha.finite hsrc
      have hframe := ha.frame ht
      obtain ⟨k, e, u, hk, hst, hu⟩ := ih (t.work i) (hw ▸ hlt) (ha.live h ht) (hframe.stat.trans hb) hsrc' rfl
      exact ⟨k + 1, e, u, by omega, .cons hb ht hst, hframe.trans hu⟩
    · have hpos := h.sound.work_pos
      exact ⟨1, _, s, by simp only [State.work] at hw; omega, .one hb ht, .rfl' s⟩

/-- The step budget covers the work left (notes/assumptions/1). -/
theorem work_le_stepBudget (i : Instr) (s : State) : s.work i ≤ stepBudget s := by
  have hcodes : (s.eng.codeBuffer i).length ≤ s.eng.ibuf.length + s.eng.fbuf.length := by
    cases i <;> simp [Engine.codeBuffer]
  have heos := Bool.toNat_le (!s.eng.eosSeen)
  have hcfg := Bool.toNat_le (!s.eng.cfgChecked)
  have hwork : s.eng.work i ≤ 16 * (s.eng.ibuf.length + s.eng.fbuf.length + s.eng.hdr.length) + 13 := by
    unfold Engine.work
    split <;> omega
  simp only [State.work, stepBudget]
  omega

/-- So does the engine's run from any point of the command. -/
theorem State.Live.engineRun (h : s.Live i) (hb : s.regs.stat = .busy) (hsrc : s.env.src.tail = .ends) :
    ∃ e u, engineRun s = .next (complete e u) ∧ SameFrame s u := by
  obtain ⟨k, e, u, hk, hst, hu⟩ := h.steps_to_end hb hsrc
  exact ⟨e, u, runTurns_to_end hst (hk.trans (work_le_stepBudget i s)) (setOutcome_not_busy _ _), hu⟩

/-! ### Commands -/

theorem accept_live (hi : i ≠ .clr) (hsrc : s.env.nextSrc.Answers) (hsink : s.env.nextSink.tail = .ends) :
    (accept (opOf i) (startPhase i) s).Live i := by
  have hearly := startPhase_early i
  simp only [List.mem_cons, List.not_mem_nil, or_false, not_or] at hearly
  obtain ⟨-, henc, -, hdec, -⟩ := hearly
  exact ⟨rfl, ⟨startPhase_mem hi, fun hq => absurd hq henc, fun hq => absurd hq hdec, fun _ => Nat.zero_le _,
    fun _ => Nat.zero_lt_succ 3⟩, hsrc, hsink⟩

/-- A command is its acceptance and the engine's turns, as many as the scheduler lets it have. -/
theorem exec_eq_engineTurns (hi : i ≠ .clr) (hb : s.regs.stat ≠ .busy) :
    exec i s = engineTurns (s.env.quota.getD (stepBudget (accept (opOf i) (startPhase i) s)))
      (accept (opOf i) (startPhase i) s) := by
  obtain ⟨f, hexec, hf⟩ := exec_eq_issue_startPhase hi s
  rw [hexec, issue, if_neg hb, engineTurns]
  exact runTurns_congr (fun u => u.eng.opCur = opOf i) (fun u hu _ => (hf u hu).symm)
    (fun u v hu _ hs => (engineStep_opCur ((hf u hu).trans hs)).trans hu) rfl

/-- A command at once is the engine's run from its acceptance. -/
theorem exec_eq_engineRun (hi : i ≠ .clr) (hb : s.regs.stat ≠ .busy) (hq : s.env.quota = none) :
    exec i s = engineRun (accept (opOf i) (startPhase i) s) := by
  rw [exec_eq_engineTurns hi hb, hq, Option.getD_none, engineRun]

/-- Two runs of one command that reach its end reach the same. -/
theorem engineTurns_end_unique {m n : Nat} (hm : engineTurns m s = .next t) (ht : t.regs.stat ≠ .busy)
    (hn : engineTurns n s = .next u) (hu : u.regs.stat ≠ .busy) : t = u := by
  have longer : ∀ {v : State} {k l : Nat}, engineTurns k s = .next v → v.regs.stat ≠ .busy → k ≤ l →
      engineTurns l s = .next v := by
    intro v k l hk hv hkl
    obtain ⟨d, rfl⟩ := Nat.exists_eq_add_of_le hkl
    rw [engineTurns, runTurns_add, ← engineTurns, hk]
    exact runTurns_not_busy hv
  have h1 := longer hm ht (Nat.le_max_left m n)
  have h2 := longer hn hu (Nat.le_max_right m n)
  exact Host.Outcome.next.inj (h1.symm.trans h2)

/-- Where a command on finite input stands after any number of steps, it is over or the engine's run ends it. -/
theorem engineRun_of_engineTurns {n : Nat} (h : s.Live i) (hsrc : s.env.src.tail = .ends)
    (hp : engineTurns n s = .next t) : ∃ v, engineRun t = .next v ∧ v.regs.stat ≠ .busy := by
  by_cases hb : t.regs.stat = .busy
  · have hkeep : t.regs.stat = .busy → t.Live i ∧ t.env.src.tail = .ends :=
      runTurns_keeps (P := fun u => u.regs.stat = .busy → u.Live i ∧ u.env.src.tail = .ends)
        (fun u v hu hub hs hvb => by
          obtain ⟨hlive, htail⟩ := hu hub
          rcases hlive.engineStep with ⟨w, hw, ha⟩ | hw
          · obtain rfl := Turn.went.inj (hw.symm.trans hs)
            exact ⟨ha.live hlive hw, (ha.finite htail).1⟩
          · obtain rfl := Turn.went.inj (hw.symm.trans hs)
            exact absurd hvb (setOutcome_not_busy _ _))
        (fun _ => ⟨h, hsrc⟩) hp
    obtain ⟨hlive, htail⟩ := hkeep hb
    obtain ⟨e, u, hrun, -⟩ := hlive.engineRun hb htail
    exact ⟨_, hrun, setOutcome_not_busy _ _⟩
  · exact ⟨t, runTurns_not_busy hb, hb⟩

/-- Settles O58: the paused run and the run at once both reach the command's end, which is one. -/
theorem pausingDoesNotMatter : Obligations.PausingDoesNotMatter := by
  intro i s p data n hi hready hpause
  set a := accept (opOf i) (startPhase i) s
  have hlive : a.Live i := accept_live hi (.inl hready.srcEnds) hready.sinkEnds
  have hp : engineTurns n a = .next p :=
    (exec_eq_engineTurns (s := { s with env.quota := some n }) hi hready.notBusy).symm.trans hpause
  obtain ⟨v, hrun, hv⟩ := engineRun_of_engineTurns hlive hready.srcEnds hp
  obtain ⟨e, u, hend, -⟩ := hlive.engineRun rfl hready.srcEnds
  have hsum : engineTurns (n + stepBudget p) a = .next v := by
    rw [engineTurns, runTurns_add, ← engineTurns, hp]
    exact hrun
  rw [hrun, exec_eq_engineRun hi hready.notBusy hready.unpaced, hend,
    engineTurns_end_unique hsum hv hend (setOutcome_not_busy _ _)]

end Sys2Proof.Machine
end

section
/-! PROOF. R321 (70_reset_and_hazards.md; obligation O51): every command on finite input reaches its end, and on endless
input the streamers never see EOS, so they end only in an error other than TRUNCATED_ENVELOPE. -/

namespace Sys2Proof.Machine

variable {s t u : State} {e : Err} {i : Instr}

/-- What a streamer on endless input keeps: EOS is not seen, STR_ENC has no empty chunks, and an end point is one of an
error, though not of the input's end. -/
structure State.Unending (s : State) : Prop where
  notEos : s.eng.eosSeen = false
  endless : ∃ id pos, s.env.src.tail = .endless id pos
  chunk : s.eng.cfgChecked = true → s.eng.csCur.toNat ≠ 0
  outcome : s.eng.ph = .finish → s.eng.outcome ≠ .noError ∧ s.eng.outcome ≠ .truncatedEnvelope
  status : s.regs.stat = .busy ∨ (s.regs.stat = .error ∧ s.regs.err ≠ .truncatedEnvelope)

/-- A step to a phase other than FINISH that leaves the source and the streamer's context alone. -/
theorem State.Unending.step (h : s.Unending) (hb : s.regs.stat = .busy) (hr : t.regs.stat = s.regs.stat := by rfl)
    (hs : t.env.src = s.env.src := by rfl) (he : t.eng.eosSeen = s.eng.eosSeen := by rfl)
    (hk : t.eng.cfgChecked = s.eng.cfgChecked := by rfl) (hc : t.eng.csCur = s.eng.csCur := by rfl)
    (hp : t.eng.ph ≠ .finish) : t.Unending :=
  ⟨he.trans h.notEos, hs ▸ h.endless, by rw [hk, hc]; exact h.chunk, (absurd · hp), .inl (hr.trans hb)⟩

/-- An error raised with whatever was emitted before it. -/
theorem State.Unending.endWith (h : s.Unending) (he : e ≠ .noError ∧ e ≠ .truncatedEnvelope) : (s.endWith e).Unending :=
  ⟨h.notEos, h.endless, h.chunk, fun _ => he, h.status⟩

theorem State.Unending.flush (h : s.Unending) (hb : s.regs.stat = .busy) (ht : flushStep s = .went t) : t.Unending := by
  obtain ⟨a, -, ⟨-, rfl⟩ | ⟨-, rfl⟩⟩ := flushStep_went ht
  · exact ⟨h.notEos, h.endless, h.chunk, h.outcome, .inl hb⟩
  · exact ⟨h.notEos, h.endless, h.chunk, fun _ => by simp, .inl hb⟩

/-- A read of endless input delivers bytes. -/
theorem State.Unending.read {n : Nat} {onEos : State → State} {onData : List Byte → State → State} (h : s.Unending)
    (hd : ∀ r u, u.Unending → u.eng = s.eng → u.regs.stat = s.regs.stat → (onData r u).Unending)
    (ht : readStep n onEos onData s = .went t) : t.Unending := by
  obtain ⟨id, pos, hend⟩ := h.endless
  rcases readStep_went ht with ⟨-, -, heos⟩ | ⟨r, rest, rfl, -, hrest, -, -⟩
  · rw [hend] at heos
    cases heos
  · obtain ⟨-, -, -, pos', hlisted⟩ := listed_endless (n := n) hend
    exact hd r _ ⟨h.notEos, ⟨id, pos', hrest.trans hlisted⟩, h.chunk, h.outcome, h.status⟩ rfl rfl

theorem State.Unending.complete (h : s.Unending) (hp : s.eng.ph = .finish) :
    (complete s.eng.outcome s).Unending := by
  obtain ⟨hne, htr⟩ := h.outcome hp
  exact ⟨h.notEos, h.endless, h.chunk, nofun, .inr ⟨by simp [hne], by simpa using htr⟩⟩

/-! ### STR_ENC (43_chunk_streamer.md R222) -/

theorem chunkReadStep_unending (h : s.Unending) (hb : s.regs.stat = .busy) (hp : s.eng.ph = .chunkRead)
    (ht : chunkReadStep s = .went t) : t.Unending := by
  unfold chunkReadStep at ht
  split at ht
  · cases ht
    unfold checkConfig
    split
    · exact h.endWith (by decide)
    · rename_i hgood
      have hlegal := badChunkSize_eq_false (by simpa using hgood)
      exact ⟨h.notEos, h.endless, fun _ => Nat.ne_of_gt hlegal.1, by simp [hp], h.status⟩
  rename_i hchecked
  have hsize := h.chunk (by simpa using hchecked)
  split at ht
  · exact h.read (fun r u hu he hst => hu.step (hst.trans hb) (hp := by simp [he, hp])) ht
  rename_i hfull
  have hne : s.eng.ibuf ≠ [] := by
    rintro hempty
    exact hfull ⟨by rw [hempty]; exact Nat.pos_of_ne_zero hsize, h.notEos⟩
  rw [if_neg hne] at ht
  cases ht
  exact h.step hb (hp := by simp)

theorem envWriteStep_unending (h : s.Unending) (hb : s.regs.stat = .busy) (hp : s.eng.ph = .envWrite)
    (ht : envWriteStep s = .went t) : t.Unending := by
  unfold envWriteStep at ht
  split at ht
  · cases ht
    exact h.step hb (hp := by simp [hp])
  · rw [if_neg (by simp [h.notEos])] at ht
    cases ht
    exact h.step hb (hp := by simp)

theorem strEncStep_unending (h : s.Unending) (hb : s.regs.stat = .busy) (ho : s.eng.outq = [])
    (hs : strEncStep s = .went t) (hnf : s.eng.ph ≠ .finish) : t.Unending := by
  rw [strEncStep, flushFirst_empty ho] at hs
  split at hs
  · exact chunkReadStep_unending h hb ‹_› hs
  · rcases scanPhase_went hs with ⟨alpha, rfl⟩ | rfl
    · exact h.step hb (hp := by simp [startFrame, enterEnc])
    · exact h.endWith (by decide)
  · rename_i hp
    rcases encPhase_updates hs with rfl | rfl | ⟨r, p, out, rfl⟩ | ⟨r, out, rfl⟩
    · exact h.step hb (hp := by simp)
    · exact h.step hb (hp := by simp)
    · exact h.step hb (hp := by simp [hp])
    · exact State.Unending.endWith (h.step hb (hp := by simp [hp])) (by decide)
  · exact envWriteStep_unending h hb ‹_› hs
  · exact absurd ‹_› hnf
  · cases hs

/-! ### STR_DEC (43_chunk_streamer.md R226 to R228) -/

theorem headerStep_unending (h : s.Unending) (hb : s.regs.stat = .busy) (hp : s.eng.ph = .awaitHeader)
    (ht : headerStep s = .went t) : t.Unending := by
  refine h.read (fun r u hu he hst => ?_) ht
  have hbu := hst.trans hb
  unfold headerDone
  split
  · exact hu.step hbu (hp := by simp)
  · exact hu.step hbu (hp := by simp [he, hp])

theorem enterDec_unending (h : s.Unending) (hb : s.regs.stat = .busy) (alpha : List Byte) (noCodes : Bool) :
    (enterDec alpha noCodes s).Unending :=
  h.step hb (by rw [enterDec_regs]) (by rw [enterDec_env]) (by rw [enterDec_eng]) (by rw [enterDec_eng])
    (by rw [enterDec_eng]) (by simp [enterDec_eng])

theorem bodyStep_unending (h : s.Unending) (hb : s.regs.stat = .busy) (hp : s.eng.ph = .awaitBody)
    (ht : bodyStep s = .went t) : t.Unending := by
  unfold bodyStep at ht
  split at ht
  · exact h.read (fun r u hu he hst => hu.step (hst.trans hb) (hp := by simp [he, hp])) ht
  · cases ht
    unfold enterBody
    split
    · exact h.step hb (hp := by simp [envelopeDone, awaitHeader])
    · exact h.endWith (by decide)
    · exact enterDec_unending h hb _ _

theorem strDecStep_unending (h : s.Unending) (hb : s.regs.stat = .busy) (ho : s.eng.outq = [])
    (hs : strDecStep s = .went t) (hnf : s.eng.ph ≠ .finish) : t.Unending := by
  rw [strDecStep, flushFirst_empty ho] at hs
  split at hs
  · exact headerStep_unending h hb ‹_› hs
  · exact bodyStep_unending h hb ‹_› hs
  · rename_i hp
    rcases decPhase_updates hs with rfl | ⟨r, p, out, rfl⟩ | ⟨r, out, rfl⟩
    · exact h.step hb (hp := by simp [envelopeDone, awaitHeader])
    · exact h.step hb (hp := by simp [hp])
    · exact State.Unending.endWith (h.step hb (hp := by simp [hp])) (by decide)
  · exact absurd ‹_› hnf
  · cases hs

/-! ### Runs and the obligation -/

theorem engineStep_unending (hi : i = .strEnc ∨ i = .strDec) (h : s.Unending) (hop : s.eng.opCur = opOf i)
    (hb : s.regs.stat = .busy) (ht : engineStep s = .went t) : t.Unending := by
  have hop' : instrOfOp s.eng.opCur = some i := by rw [hop, instrOfOp_opOf]
  have hclr : i ≠ .clr := by rcases hi with rfl | rfl <;> decide
  by_cases ho : s.eng.outq = []
  · by_cases hp : s.eng.ph = .finish
    · rw [engineStep_finish hop' hclr hp ho] at ht
      cases ht
      exact h.complete hp
    simp only [engineStep, hop'] at ht
    rcases hi with rfl | rfl
    · exact strEncStep_unending h hb ho ht hp
    · exact strDecStep_unending h hb ho ht hp
  · rw [engineStep_pending hop' hclr ho] at ht
    exact h.flush hb ht

/-- A command whose streams keep answering takes any number of steps without a stop. -/
theorem State.Live.engineTurns (h : s.Live i) (n : Nat) : ∃ t, engineTurns n s = .next t := by
  induction n generalizing s with
  | zero => exact ⟨s, rfl⟩
  | succ n ih =>
    by_cases hb : s.regs.stat = .busy
    · rcases h.engineStep with ⟨t, ht, ha⟩ | ht
      · obtain ⟨u, hu⟩ := ih (ha.live h ht)
        exact ⟨u, (runTurns_succ_busy hb ht).trans hu⟩
      · exact ⟨_, (runTurns_succ_busy hb ht).trans (runTurns_not_busy (setOutcome_not_busy _ _))⟩
    · exact ⟨s, runTurns_not_busy hb⟩

theorem accept_unending {op : BitVec 4} {p : Phase} {id pos : Nat} (hsrc : s.env.nextSrc.tail = .endless id pos)
    (hp : p ≠ .finish) : (accept op p s).Unending :=
  ⟨rfl, ⟨id, pos, hsrc⟩, nofun, (absurd · hp), .inl rfl⟩

/-- A streamer on endless input, paused after any number of steps. -/
theorem streamer_on_endless {n id pos : Nat} (hi : i = .strEnc ∨ i = .strDec) (hb : s.regs.stat ≠ .busy)
    (hsrc : s.env.nextSrc.tail = .endless id pos) (hsink : s.env.nextSink.tail = .ends) :
    ∃ t, exec i { s with env.quota := some n } = .next t ∧ t.Unending := by
  have hclr : i ≠ .clr := by rcases hi with rfl | rfl <;> decide
  have hstart : startPhase i ≠ .finish := by rcases hi with rfl | rfl <;> decide
  obtain ⟨t, ht⟩ := (accept_live hclr (.inr ⟨id, pos, hsrc⟩) hsink).engineTurns n
  refine ⟨t, (exec_eq_engineTurns (s := { s with env.quota := some n }) hclr hb).trans ht, ?_⟩
  exact (runTurns_keeps (P := fun u => u.Unending ∧ u.eng.opCur = opOf i)
    (fun u v hu hub hs => ⟨engineStep_unending hi hu.1 hu.2 hub hs, (engineStep_opCur hs).trans hu.2⟩)
    ⟨accept_unending hsrc hstart, rfl⟩ ht).1

/-- A command's completion: STATE and ERR agree, LAST_OP is the command's, and the engine is at rest. -/
theorem complete_ends (h : SameFrame s u) (e : Err) :
    (complete e u).regs.stat ≠ .busy ∧ (complete e u).regs.lastOp = s.regs.lastOp ∧ (complete e u).atRest ∧
      ((complete e u).regs.stat = .done ↔ (complete e u).regs.err = .noError) ∧ (complete e u).regs.stat ≠ .idle := by
  refine ⟨setOutcome_not_busy _ _, by simp [h.lastOp], ⟨rfl, rfl⟩, ?_⟩
  by_cases he : e = .noError <;> simp [he]

/-- Settles O51: CLR ends at once; any other command runs out of work, on endless input without an end of the input. -/
theorem everyCommandReachesItsEnd : Obligations.EveryCommandReachesItsEnd := by
  refine ⟨fun i s data hready => ?_, fun i s n id pos hi hb hsrc hsink => ?_⟩
  · by_cases hi : i = .clr
    · subst hi
      exact ⟨_, exec_clr_not_busy hready.notBusy, by simp, rfl, fun h => absurd rfl h⟩
    have hlive := accept_live hi (.inl hready.srcEnds) hready.sinkEnds
    obtain ⟨e, u, hrun, hframe⟩ := hlive.engineRun rfl hready.srcEnds
    obtain ⟨hbusy, hop, hend⟩ := complete_ends hframe e
    exact ⟨_, (exec_eq_engineRun hi hready.notBusy hready.unpaced).trans hrun, hbusy, hop, fun _ => hend⟩
  · obtain ⟨t, ht, hun⟩ := streamer_on_endless (n := n) hi hb hsrc hsink
    exact ⟨t, ht, hun.notEos, hun.status⟩

end Sys2Proof.Machine
end

section
/-! PROOF. Register accesses at the host's side: those outside the contract are refused (60_exceptions.md R308(a);
obligation O10), and a platform address is REG_BASE plus the offset (20_memory.md R60, R305; O11). -/

namespace Sys2Proof.Machine

variable {s : State} {rest : List HostOp} {off base a : Nat} {v : Word} {g : Target} {x : Refusal}

/-! ### What an access resolves to (20_memory.md R60, R61) -/

theorem offsetOf_base_add (base off : Nat) : offsetOf base (.address (base + off)) = some off := by
  simp [offsetOf]

/-- The address at distance `off` above REG_BASE and the offset `off` are one access. -/
theorem resolve_base_add (base off : Nat) : resolve base (.address (base + off)) = resolve base (.offset off) := by
  rw [resolve, offsetOf_base_add]
  rfl

theorem resolve_below_base (h : a < base) : resolve base (.address a) = .error .outsideRegisterSpace := by
  have hoff : offsetOf base (.address a) = none := if_neg (Nat.not_le.mpr h)
  simp only [resolve, hoff]

theorem resolve_outside (base : Nat) (h : 512 ≤ off) : resolve base (.offset off) = .error .outsideRegisterSpace :=
  if_pos (decide_eq_false (Nat.not_lt.mpr h))

theorem resolve_misaligned (base : Nat) (h : off < 512) (ha : off % 4 ≠ 0) :
    resolve base (.offset off) = .error .misalignedAccess := by
  have hspace : ¬spaceWf off = false := by simp [spaceWf, h]
  have halign : alignWf off = false := by simp [alignWf, ha]
  exact (if_neg hspace).trans (if_pos halign)

/-! ### The host line of an access -/

theorem atOffset_refused {k : Nat → Host.Outcome State Fault Refusal} {inst : Nat}
    (h : resolve (Config.regBase inst) g = .error x) : atOffset inst g k = .refused x := by
  simp only [atOffset, h]

/-- A write or a read that does not resolve stops the run with the reason. -/
theorem step_access_refused (h : resolve (Config.regBase s.inst) g = .error x) :
    (s.env.host = .write g v :: rest → step s = .refused x) ∧ (s.env.host = .read g :: rest → step s = .refused x) := by
  constructor <;> intro hhost <;> simp only [step, hhost, hostStep, atOffset_refused h]

theorem step_narrow {n : Nat} (h : s.env.host = .narrow g n :: rest) : step s = .refused .narrowAccess := by
  simp only [step, h, hostStep]

/-- Settles O10: a narrow access is refused as such, and the two others do not resolve. -/
theorem badAccessesAreRefused : Obligations.BadAccessesAreRefused := fun _ _ _ _ =>
  ⟨fun _ _ => step_narrow, fun hlt ha => step_access_refused (resolve_misaligned _ hlt ha),
    fun hout => step_access_refused (resolve_outside _ hout)⟩

/-- Settles O11: the address and the offset resolve alike, whatever then happens at the offset. -/
theorem addressIsBasePlusOffset : Obligations.AddressIsBasePlusOffset := by
  intro s rest off v
  refine ⟨?_, ?_, fun _ _ => resolve_below_base⟩ <;> simp only [hostStep, atOffset, resolve_base_add]

end Sys2Proof.Machine
end

section
/-! PROOF. Pending output is offered before anything else (20_memory.md R71; 44_control.md R265, R266; obligation
O55). -/

namespace Sys2Proof.Machine

variable {s t : State}

/-- The completion after a short answer: SHORT_WRITE, with the streams and OUT_COUNT as they are. -/
theorem engineStep_cutShort {i : Instr} (hi : instrOfOp s.eng.opCur = some i) (hc : i ≠ .clr) :
    ∃ u, engineStep s.cutShort = .went u ∧ u.regs.stat = .error ∧ u.regs.err = .shortWrite ∧
      u.regs.outCount = s.regs.outCount ∧ u.env = s.env :=
  ⟨_, engineStep_finish (s := s.cutShort) hi hc rfl rfl, rfl, rfl, by simp, rfl⟩

/-- Settles O55: such a step is a flush, which is taken whole or short. -/
theorem outputIsOfferedFirst : Obligations.OutputIsOfferedFirst := by
  intro s t hstep _ ho
  obtain ⟨i, hc, hi⟩ := engineStep_runs hstep
  rw [engineStep_pending hi hc ho] at hstep
  obtain ⟨hpre, -, hpos⟩ := offered_spec ho
  have hne : s.offered ≠ [] := List.length_pos_iff.mp hpos
  obtain ⟨a, hle, ⟨rfl, rfl⟩ | ⟨hlt, rfl⟩⟩ := flushStep_went hstep
  · exact ⟨rfl, rfl, hpre, hne, _, hle, rfl, rfl, .inl ⟨rfl, rfl, offered_append s⟩⟩
  · exact ⟨rfl, rfl, hpre, hne, a, hle, rfl, rfl, .inr ⟨hlt, rfl, engineStep_cutShort hi hc⟩⟩

end Sys2Proof.Machine
end

section
/-! PROOF. SHORT_WRITE in the four coding commands (20_memory.md R72; 60_exceptions.md R286, R293; obligations O25,
O35): wherever in its output the sink answers short, the command holds the alphabet already and has read its whole unit. -/

namespace Sys2Proof.Machine

variable {f : State → Turn} {s s0 t : State} {alpha data codes out got : List Byte} {r : Lzw} {op : BitVec 4}
  {src : Source} {a k : Nat} {n : Byte}

/-! ### The end of a unit command that was taken short -/

/-- After SHORT_WRITE only DICT_NEXT is unspecified, but in the streamers (60_exceptions.md R293). -/
theorem drawResults_shortWrite (hop : isStreamer op = false) (d : Config.Draw) (g : Regs) :
    drawResults op .shortWrite d g = drawNext d g := by
  simp [drawResults, alphabetUnspecified, nextUnspecified, hop]

/-- A unit command that ends so within the step budget: its whole result. -/
theorem EndsShort.issued (h : EndsShort s0 t got) (hready : s.ready data) (hst : Steps f k (accept op .load s) t)
    (hk : k ≤ 16 * data.length + s.env.nextSink.calls.length + 64) (henv : s0.env = (s.loaded op data src).env)
    (hop : s0.eng.opCur = op) (hcount : s0.regs.outCount = 0) (hunit : isStreamer op = false) :
    issue op .load f s = .next t ∧ leftEnv s t got ∧ t.atRest ∧
      t.regs = setOutcome .shortWrite { s0.regs with
        outCount := count32 got.length, dictNext := t.regs.dictNext } := by
  obtain ⟨u, d, c, rfl, hregs, huenv, huop, -⟩ := h
  refine ⟨issue_of_steps hready.notBusy hready.unpaced hst (by rwa [hready.stream]) (setOutcome_not_busy _ _), ?_,
    ⟨rfl, rfl⟩, ?_⟩
  · constructor <;> simp [huenv, henv, State.loaded]
  · rw [complete_regs, huop, hop, drawResults_shortWrite hunit, hregs, hcount]
    simp [count32, drawNext, setOutcome]

/-! ### The phase ENC taken short -/

theorem badUpdate_raise_latchNext (e : Err) : BadUpdate fun t => raise e t.latchNext :=
  ⟨fun _ => rfl, fun _ => rfl, fun _ => rfl, fun u => ⟨u.eng.lzw.next, rfl⟩, fun _ => rfl, fun _ => rfl,
    fun _ _ _ => rfl⟩

/-- The step that leaves a coding phase emits `out`, which is taken short. -/
theorem endRun_short_steps (hfl : Flushes f) (hb : s.regs.stat = .busy) (ho : s.eng.outq = [])
    (hend : f s = .went (endRun (s.emit out))) (ht : s.env.sink.tail = .ends) (ha : s.env.sink.room = some a)
    (hlt : a < out.length) :
    ∃ k t, k ≤ s.env.sink.calls.length + 3 ∧ Steps f k s t ∧ EndsShort s t (out.take a) := by
  have hout : (endRun (s.emit out)).eng.outq = out := by simp [endRun_eq, ho]
  obtain ⟨k, c, hk, hst⟩ := flush_short hfl (endRun (s.emit out)) hb ht ha (by rwa [hout])
  rw [hout] at hst
  exact ⟨k + 1, _, Nat.add_le_add_right hk 1, .cons hb hend hst,
    endsShort_of_flush (d := s.eng.lzw.next) rfl rfl rfl rfl⟩

/-- ENC of a unit whose codes the sink takes short, whether its encoding returns or raises. -/
theorem enc_short_steps (hfl : Flushes f)
    (hf : ∀ u p r, u.eng = s.eng.at p r →
      f u = encPhase State.emit endRun (fun t => raise .dictionaryOverflow t.latchNext) u)
    (hb : s.regs.stat = .busy) (ho : s.eng.outq = []) (hpos : s.eng.ipos = 0) (hlzw : s.eng.lzw = Lzw.seed alpha)
    (hn : s.eng.nCur.toNat = alpha.length)
    (hrun : encodeUnit s.eng.polCur alpha s.eng.ibuf = .ok r codes ∨
      ∃ e, encodeUnit s.eng.polCur alpha s.eng.ibuf = .raised e r codes)
    (ht : s.env.sink.tail = .ends) (ha : s.env.sink.room = some a) (hlt : a < codes.length) :
    ∃ k t, k ≤ 2 * s.eng.ibuf.length + s.env.sink.calls.length + 3 ∧ Steps f k s t ∧
      EndsShort s t (codes.take a) := by
  have hlen : alpha.length ≠ s.eng.ibuf.length := fun hlen => by
    rw [encodeUnit_of_distinct hlen] at hrun
    obtain hok | ⟨_, hraise⟩ := hrun
    · rw [← (LzwResult.ok.inj hok).2] at hlt
      exact Nat.not_lt_zero a hlt
    · cases hraise
  rw [encodeUnit_of_repeated hlen] at hrun
  have hself := s.eng.at_self ho
  rw [hpos, hlzw] at hself
  have hne : s.eng.nCur.toNat ≠ s.eng.ibuf.length := by rwa [hn]
  have hw := encPhase_walks hf hne
  have cut (hnf : ∀ x, walk (encStep s.eng.polCur) s.eng.ibuf (Lzw.seed alpha) ≠ .fault x) :=
    walk_short hfl (badUpdate_raise_latchNext _) hw s 0 _ a hb hself (Nat.zero_le _) hnf ha ht
  rcases hrun with hok | ⟨e, hraise⟩
  · obtain ⟨out, hwalk, rfl⟩ := encRun_eq_ok hok
    by_cases hin : a < out.length
    · obtain ⟨k, t, hk, hst, hends⟩ := cut (by simp [hwalk]) (by rwa [List.drop_zero, hwalk])
      rw [List.drop_zero, hwalk] at hends
      exact ⟨k, t, by omega, hst, by rwa [List.take_append_of_le_length hin.le]⟩
    · have hfit : s.env.sink.fits out.length = true := by simpa [Sink.fits, ha] using hin
      obtain ⟨k1, c, hk1, hst1⟩ := walk_ok hfl hw s 0 _ r out hb hself (Nat.zero_le _) hwalk hfit
      set u := { s with eng := s.eng.at s.eng.ibuf.length r }.sent out c with hu
      have hend : f u = .went (endRun (u.emit (encEnd r))) := by
        rw [hf u _ _ rfl, encPhase]
        simp [hu, Engine.at, hne]
      rw [List.length_append] at hlt
      obtain ⟨k2, t, hk2, hst2, hends⟩ := endRun_short_steps (s := u) (a := a - out.length) hfl hb rfl hend ht
        (by simp [hu, Sink.take, ha]) (by omega)
      change k2 ≤ c.length + 3 at hk2
      refine ⟨k1 + k2, t, by omega, hst1.trans hst2, ?_⟩
      rw [List.take_append, List.take_of_length_le (Nat.not_lt.mp hin)]
      exact hends.after (d := s.regs.dictNext) (c := c) rfl rfl rfl rfl
  · have hwalk := encRun_eq_raised hraise
    obtain ⟨k, t, hk, hst, hends⟩ := cut (by simp [hwalk]) (by rwa [List.drop_zero, hwalk])
    rw [List.drop_zero, hwalk] at hends
    exact ⟨k, t, by omega, hst, hends⟩

/-! ### LZW_ENC and FRM_ENC -/

theorem lzwEnc_shortWrite (h : s.ready data) (hlen : data.length ≤ Config.ibufSize) (hs : scan data = some alpha)
    (hrun : encodeUnit s.regs.ovfPolicy alpha data = .ok r codes ∨
      ∃ e, encodeUnit s.regs.ovfPolicy alpha data = .raised e r codes)
    (ha : s.env.nextSink.room = some a) (hlt : a < codes.length) :
    ∃ t, exec .lzwEnc s = .next t ∧ leftEnv s t (codes.take a) ∧ t.atRest ∧
      t.regs = setOutcome .shortWrite { setAlphabet alpha s.regs with
        lastOp := 2, inCount := count32 data.length, outCount := count32 (codes.take a).length
        chunks := 0, dictNext := t.regs.dictNext } := by
  have hn := alphabetSize_toNat (scan_spec hs).2.1
  obtain ⟨k1, src, hk1, hst1⟩ := lzwEnc_enter_steps h hlen hs
  obtain ⟨k2, t, hk2, hst2, hends⟩ := enc_short_steps (s := s.encoding alpha data src) engine_flushes.2.1
    (fun u p r hu => lzwEncStep_enc (by rw [hu]; rfl) (by rw [hu]; rfl)) rfl rfl rfl rfl hn hrun h.sinkEnds ha hlt
  change k2 ≤ 2 * data.length + s.env.nextSink.calls.length + 3 at hk2
  exact ⟨t, hends.issued h (hst1.trans hst2) (by omega) rfl rfl rfl rfl⟩

/-- FRM_ENC from its entry into ENC on: the sink answers short in the header part or in the codes. -/
theorem encodingFrame_short_steps (h : s.ready data) (hs : scan data = some alpha)
    (hrun : encodeUnit s.regs.ovfPolicy alpha data = .ok r codes ∨
      ∃ e, encodeUnit s.regs.ovfPolicy alpha data = .raised e r codes)
    (ha : s.env.nextSink.room = some a) (hlt : a < (frameHeader alpha ++ codes).length) (src : Source) :
    ∃ k t, k ≤ 2 * data.length + s.env.nextSink.calls.length + 4 ∧
      Steps frmEncStep k ((s.encodingFrame alpha data src).emit (frameHeader alpha)) t ∧
      EndsShort (s.encodingFrame alpha data src) t ((frameHeader alpha ++ codes).take a) := by
  have hfl : Flushes frmEncStep := engine_flushes.2.2.2.1
  have hn := alphabetSize_toNat (scan_spec hs).2.1
  set u := (s.encodingFrame alpha data src).emit (frameHeader alpha) with hu
  by_cases hin : a < (frameHeader alpha).length
  · obtain ⟨k, c, hk, hst⟩ := flush_short hfl u rfl h.sinkEnds ha hin
    change k ≤ s.env.nextSink.calls.length + 2 at hk
    rw [List.take_append_of_le_length hin.le]
    exact ⟨k, _, by omega, hst, endsShort_of_flush (d := s.regs.dictNext) rfl rfl rfl rfl⟩
  · have hfit : s.env.nextSink.fits (frameHeader alpha).length = true := by simpa [Sink.fits, ha] using hin
    obtain ⟨k1, c, hk1, hst1⟩ := flush_whole hfl u rfl hfit
    rw [List.length_append] at hlt
    obtain ⟨k2, t, hk2, hst2, hends⟩ := enc_short_steps (a := a - (frameHeader alpha).length)
      (s := (s.encodingFrame alpha data src).sent (frameHeader alpha) c) hfl (fun u p r hu => frmEncStep_enc (by rw [hu]; rfl) (by rw [hu]; rfl))
      rfl rfl rfl rfl hn hrun h.sinkEnds
      (show (s.env.nextSink.take (frameHeader alpha)).room = _ by simp [Sink.take, ha]) (by omega)
    change k1 + c.length ≤ s.env.nextSink.calls.length + 1 at hk1
    change k2 ≤ 2 * data.length + c.length + 3 at hk2
    refine ⟨k1 + k2, t, by omega, hst1.trans hst2, ?_⟩
    rw [List.take_append, List.take_of_length_le (Nat.not_lt.mp hin)]
    exact hends.after (d := s.regs.dictNext) (c := c) rfl rfl rfl rfl

theorem frmEnc_shortWrite (h : s.ready data) (hlen : data.length ≤ Config.ibufSize) (hs : scan data = some alpha)
    (hrun : encodeUnit s.regs.ovfPolicy alpha data = .ok r codes ∨
      ∃ e, encodeUnit s.regs.ovfPolicy alpha data = .raised e r codes)
    (ha : s.env.nextSink.room = some a) (hlt : a < (frameHeader alpha ++ codes).length) :
    ∃ t, exec .frmEnc s = .next t ∧ leftEnv s t ((frameHeader alpha ++ codes).take a) ∧ t.atRest ∧
      t.regs = setOutcome .shortWrite { setAlphabet alpha s.regs with
        lastOp := 4, inCount := count32 data.length, outCount := count32 ((frameHeader alpha ++ codes).take a).length
        chunks := 0, dictNext := t.regs.dictNext } := by
  obtain ⟨k1, src, hk1, hst1⟩ := frmEnc_enter_steps h hlen hs
  obtain ⟨k2, t, hk2, hst2, hends⟩ := encodingFrame_short_steps h hs hrun ha hlt src
  exact ⟨t, hends.issued h (hst1.trans hst2) (by omega) rfl rfl rfl rfl⟩

/-- Settles O25: in each command the sink answers short after the alphabet was published, and ENC ends there. -/
theorem encodersShortWrite : Obligations.EncodersShortWrite := by
  intro s data alpha codes r a h hlen hs hrun ha
  refine ⟨fun hlt => ?_, fun hlt => ?_⟩
  · obtain ⟨t, hexec, hleft, hrest, hregs⟩ := lzwEnc_shortWrite h hlen hs hrun ha hlt
    rw [List.length_take_of_le hlt.le] at hregs
    exact ⟨t, hexec, hleft, hrest, hregs⟩
  · obtain ⟨t, hexec, hleft, hrest, hregs⟩ := frmEnc_shortWrite h hlen hs hrun ha hlt
    rw [List.length_take_of_le hlt.le] at hregs
    exact ⟨t, hexec, hleft, hrest, hregs⟩

/-! ### The phase DEC taken short -/

/-- DEC whose output the sink takes short, whether the decode returns or raises; without codes the output is the
alphabet, which is pending at the entry (41_lzw_codec.md R151). -/
theorem dec_short_steps {leave : State → State} (hfl : Flushes f) (h : s.EntersDec alpha codes)
    (hf : ∀ u p r, u.eng = s.eng.at p r →
      f u = decPhase codes leave (fun t => raise .malformedFrame t.latchNext) u)
    (hrun : lzwDecode alpha codes = .ok r out ∨ ∃ e, lzwDecode alpha codes = .raised e r out)
    (ht : s.env.sink.tail = .ends) (ha : s.env.sink.room = some a) (hlt : a < out.length) :
    ∃ k t, k ≤ 2 * codes.length + s.env.sink.calls.length + 2 ∧ Steps f k s t ∧ EndsShort s t (out.take a) := by
  by_cases hcodes : codes = []
  · have hpend := h.pending.trans (if_pos hcodes)
    rw [hcodes, lzwDecode_nil] at hrun
    obtain rfl : alpha = out := by
      obtain hok | ⟨_, hraise⟩ := hrun
      · exact (LzwResult.ok.inj hok).2
      · cases hraise
    obtain ⟨k, c, hk, hst⟩ := flush_short hfl s h.busy ht ha (by rwa [hpend])
    rw [hpend] at hst
    exact ⟨k, _, by omega, hst, endsShort_of_flush (d := s.regs.dictNext) rfl rfl rfl rfl⟩
  · obtain ⟨hself, hwalk⟩ := h.walk hcodes
    rw [hwalk] at hrun
    have hout : (walk (decCode s.eng.nCur) codes s.eng.lzw).out = out := by
      obtain hok | ⟨_, hraise⟩ := hrun
      · rw [hok, LzwResult.out]
      · rw [hraise, LzwResult.out]
    have hnf : ∀ x, walk (decCode s.eng.nCur) codes s.eng.lzw ≠ .fault x := by
      obtain hok | ⟨_, hraise⟩ := hrun
      · simp [hok]
      · simp [hraise]
    obtain ⟨k, t, hk, hst, hends⟩ := walk_short hfl (badUpdate_raise_latchNext _) (decPhase_walks hf) s 0 _ a h.busy
      hself (Nat.zero_le _) hnf ha ht (by rwa [List.drop_zero, hout])
    rw [List.drop_zero, hout] at hends
    exact ⟨k, t, by omega, hst, hends⟩

/-! ### LZW_DEC and FRM_DEC -/

theorem lzwDec_shortWrite (h : s.ready codes) (hlen : codes.length ≤ Config.ibufSize)
    (hrun : lzwDecode (alphabetOperand s.regs.alphaN s.regs) codes = .ok r out ∨
      ∃ e, lzwDecode (alphabetOperand s.regs.alphaN s.regs) codes = .raised e r out)
    (ha : s.env.nextSink.room = some a) (hlt : a < out.length) :
    ∃ t, exec .lzwDec s = .next t ∧ leftEnv s t (out.take a) ∧ t.atRest ∧
      t.regs = setOutcome .shortWrite { s.regs with
        lastOp := 3, inCount := count32 codes.length, outCount := count32 (out.take a).length, chunks := 0
        dictNext := t.regs.dictNext } := by
  obtain ⟨k1, src, hk1, hst1⟩ := lzwDec_enter_steps h hlen
  have hsink := decoding_sink codes src s
  obtain ⟨k2, t, hk2, hst2, hends⟩ := dec_short_steps engine_flushes.2.2.1 (decoding_entersDec codes src s)
    (fun _ _ _ => lzwDecStep_decoding) hrun (by rw [hsink, h.sinkEnds]) (by rw [hsink, ha]) hlt
  rw [hsink] at hk2
  have hregs : (s.decoding codes src).regs = (s.loaded (opOf .lzwDec) codes src).regs := enterDec_regs ..
  have hop : (s.decoding codes src).eng.opCur = opOf .lzwDec := (enterDec_frame _ _ _).opCur
  obtain ⟨hexec, hleft, hrest, hend⟩ := hends.issued h (hst1.trans hst2) (by omega) (enterDec_env ..) hop
    (by rw [hregs]; rfl) rfl
  exact ⟨t, hexec, hleft, hrest, by rw [hend, hregs]; rfl⟩

theorem frmDec_shortWrite (h : s.ready (n :: (alpha ++ codes)))
    (hlen : (n :: (alpha ++ codes)).length ≤ Config.ibufSize) (hn : n ≠ 0) (halpha : alpha.length = n.toNat)
    (hrun : lzwDecode alpha codes = .ok r out ∨ ∃ e, lzwDecode alpha codes = .raised e r out)
    (ha : s.env.nextSink.room = some a) (hlt : a < out.length) :
    ∃ t, exec .frmDec s = .next t ∧ leftEnv s t (out.take a) ∧ t.atRest ∧
      t.regs = setOutcome .shortWrite { setAlphabet alpha s.regs with
        lastOp := 5, inCount := count32 (1 + alpha.length + codes.length), outCount := count32 (out.take a).length
        chunks := 0, alphaN := n, dictNext := t.regs.dictNext } := by
  have hparse := parseFrame_append hn halpha codes
  have hcount : (n :: (alpha ++ codes)).length = 1 + alpha.length + codes.length := by
    rw [List.length_cons, List.length_append]
    omega
  obtain ⟨k1, src, hk1, hst1⟩ := frmDec_enter_steps h hlen
  obtain ⟨henv, hzero⟩ := enterFrmDec_env_outCount (s.loaded (opOf .frmDec) (n :: (alpha ++ codes)) src)
  have hsink : (s.decodingFrame (n :: (alpha ++ codes)) src).env.sink = s.env.nextSink := congrArg Env.sink henv
  obtain ⟨k2, t, hk2, hst2, hends⟩ := dec_short_steps engine_flushes.2.2.2.2.1 (decodingFrame_entersDec hparse src s)
    (fun _ _ _ => frmDecStep_decodingFrame hn halpha) hrun (by rw [hsink, h.sinkEnds]) (by rw [hsink, ha]) hlt
  rw [hsink] at hk2
  obtain ⟨hexec, hleft, hrest, hend⟩ := hends.issued h (hst1.trans hst2) (by omega) henv enterFrmDec_frame.opCur hzero
    rfl
  refine ⟨t, hexec, hleft, hrest, ?_⟩
  rw [hend, decodingFrame_of_parts hparse, enterDec_regs, ← hcount, ← ofNat_alphabetSize halpha]
  rfl

/-- Settles O35: in each command the sink answers short in DEC, which LZW_DEC enters with ALPHA_N and ALPHA as they were
and FRM_DEC with the frame's alphabet there. -/
theorem decodersShortWrite : Obligations.DecodersShortWrite := by
  intro s codes out r a ha hlt
  refine ⟨fun h hlen hrun => ?_, fun n alpha h hlen hn halpha hrun => ?_⟩
  · obtain ⟨t, hexec, hleft, hrest, hregs⟩ := lzwDec_shortWrite h hlen hrun ha hlt
    rw [List.length_take_of_le hlt.le] at hregs
    exact ⟨t, hexec, hleft, hrest, hregs⟩
  · obtain ⟨t, hexec, hleft, hrest, hregs⟩ := frmDec_shortWrite h hlen hn halpha hrun ha hlt
    rw [List.length_take_of_le hlt.le] at hregs
    exact ⟨t, hexec, hleft, hrest, hregs⟩

end Sys2Proof.Machine
end

section
/-! SUPPORT. Two states of one command that differ only in what does not decide its results (20_memory.md R81;
70_reset_and_hazards.md R315): each phase's updates keep them so. -/

namespace Sys2Proof.Machine

variable {s s' : State} {d d' : BitVec 9} {p : Phase} {F G : State → State}

/-! ### Alike states -/

/-- `g'` is `g` but for DICT_NEXT, which is the same or in both what it was at first, `d` and `d'`. -/
def RegsAlike (d d' : BitVec 9) (g g' : Regs) : Prop :=
  ∃ x, g' = { g with dictNext := x } ∧ (x = g.dictNext ∨ (x = d' ∧ g.dictNext = d))

/-- The state with other values in the parts that an alike state may differ in. -/
def State.vary (x : BitVec 9) (l : Lzw) (b : List Byte) (E : Env) (s : State) : State :=
  { s with regs.dictNext := x, eng.lzw := l, eng.ibuf := b, env := E }

@[simp] theorem vary_eng (x : BitVec 9) (l : Lzw) (b : List Byte) (E : Env) (s : State) :
    (s.vary x l b E).eng = { s.eng with lzw := l, ibuf := b } := rfl

/-- `s'` is `s` but for the environment, DICT_NEXT (as in RegsAlike), LZW registers outside ENC and DEC, which seed them
before use, and an IBUF that FINISH no longer reads. -/
def Alike (d d' : BitVec 9) (s s' : State) : Prop :=
  ∃ x l b E, s' = s.vary x l b E ∧
    (x = s.regs.dictNext ∨ (x = d' ∧ s.regs.dictNext = d)) ∧
    (s.eng.ph = .enc ∨ s.eng.ph = .dec → l = s.eng.lzw) ∧ (s.eng.ph ≠ .finish → b = s.eng.ibuf)

theorem Alike.refl (d d' : BitVec 9) (s : State) : Alike d d' s s :=
  ⟨_, _, _, _, rfl, .inl rfl, fun _ => rfl, fun _ => rfl⟩

theorem Alike.stat (h : Alike d d' s s') : s'.regs.stat = s.regs.stat := by
  obtain ⟨x, l, b, E, rfl, -⟩ := h
  rfl

theorem Alike.inCount (h : Alike d d' s s') : s'.regs.inCount = s.regs.inCount := by
  obtain ⟨x, l, b, E, rfl, -⟩ := h
  rfl

theorem Alike.outCount (h : Alike d d' s s') : s'.regs.outCount = s.regs.outCount := by
  obtain ⟨x, l, b, E, rfl, -⟩ := h
  rfl

theorem Alike.ph (h : Alike d d' s s') : s'.eng.ph = s.eng.ph := by
  obtain ⟨x, l, b, E, rfl, -⟩ := h
  rfl

theorem Alike.outq (h : Alike d d' s s') : s'.eng.outq = s.eng.outq := by
  obtain ⟨x, l, b, E, rfl, -⟩ := h
  rfl

theorem Alike.ibuf (h : Alike d d' s s') (hp : s.eng.ph ≠ .finish) : s'.eng.ibuf = s.eng.ibuf := by
  obtain ⟨x, l, b, E, rfl, -, -, hb⟩ := h
  exact hb hp

/-- Before FINISH the engines agree but for the LZW registers. -/
theorem Alike.eng (h : Alike d d' s s') (hp : s.eng.ph ≠ .finish) : s'.eng = { s.eng with lzw := s'.eng.lzw } := by
  obtain ⟨x, l, b, E, rfl, -, -, hb⟩ := h
  obtain rfl := hb hp
  rfl

/-- In a coding phase the engines agree. -/
theorem Alike.coding (h : Alike d d' s s') (hp : s.eng.ph = .enc ∨ s.eng.ph = .dec) :
    ∃ E x, s' = s.vary x s.eng.lzw s.eng.ibuf E := by
  obtain ⟨x, l, b, E, rfl, -, hl, hb⟩ := h
  obtain rfl := hl hp
  obtain rfl := hb (by rcases hp with hp | hp <;> rw [hp] <;> decide)
  exact ⟨E, x, rfl⟩

/-- DICT_NEXT where a completion does not draw it comes from the registers before. -/
theorem drawResults_withDictNext (op : BitVec 4) (e : Err) (dr : Config.Draw) (g : Regs) (x : BitVec 9) :
    drawResults op e dr { g with dictNext := x } = { drawResults op e dr g with
      dictNext := if nextUnspecified op e then (drawResults op e dr g).dictNext else x } := by
  unfold drawResults
  cases alphabetUnspecified op e <;> cases nextUnspecified op e <;> rfl

/-- Alike states complete alike, for equal draws (notes/assumptions/7). -/
theorem Alike.complete (h : Alike d d' s s') (e : Err) : RegsAlike d d' (complete e s).regs (complete e s').regs := by
  obtain ⟨x, l, b, E, rfl, hx, -⟩ := h
  refine ⟨if nextUnspecified s.eng.opCur e then (drawResults s.eng.opCur e s.draw s.regs).dictNext else x,
    congrArg (setOutcome e) (drawResults_withDictNext s.eng.opCur e s.draw s.regs x), ?_⟩
  rw [complete_regs, setOutcome_dictNext]
  split
  · exact .inl rfl
  · rename_i hn
    rwa [drawResults_dictNext_specified (Bool.eq_false_iff.mpr hn)]

/-- Two commands accepted with the same operands and draw (44_control.md R261). -/
theorem accept_alike (hdraw : s'.draw = s.draw) (hcs : s'.regs.chunkSize = s.regs.chunkSize)
    (hpol : s'.regs.ovfPolicy = s.regs.ovfPolicy) (hn : s'.regs.alphaN = s.regs.alphaN)
    (ha : s'.regs.alpha = s.regs.alpha) (i : Instr) :
    Alike s.regs.dictNext s'.regs.dictNext (accept (opOf i) (startPhase i) s) (accept (opOf i) (startPhase i) s') := by
  obtain ⟨hinst, hdraws⟩ := Config.Draw.mk.inj hdraw
  have hearly := startPhase_early i
  simp only [List.mem_cons, List.not_mem_nil, or_false, not_or] at hearly
  obtain ⟨-, henc, -, hdec, -⟩ := hearly
  refine ⟨s'.regs.dictNext, s'.eng.lzw, [], (accept (opOf i) (startPhase i) s').env, ?_, .inr ⟨rfl, rfl⟩,
    fun hp => absurd hp (not_or.mpr ⟨henc, hdec⟩), fun _ => rfl⟩
  simp [State.vary, accept, clearForCommand, hinst, hdraws, hcs, hpol, hn, ha]

/-! ### Updates -/

/-- In phase `p` the update `F` takes alike states to alike states; it leaves STATE, OUT_COUNT and the environment. -/
structure Respects (p : Phase) (F : State → State) : Prop where
  alike : ∀ {d d' u u'}, u.eng.ph = p → Alike d d' u u' → Alike d d' (F u) (F u')
  stat : ∀ u, (F u).regs.stat = u.regs.stat
  outCount : ∀ u, (F u).regs.outCount = u.regs.outCount
  env : ∀ u, (F u).env = u.env

theorem Respects.comp {q : Phase} (hG : Respects q G) (hF : Respects p F)
    (hq : ∀ u, u.eng.ph = p → (F u).eng.ph = q := by exact fun _ h => h) : Respects p fun u => G (F u) :=
  ⟨fun hu h => hG.alike (hq _ hu) (hF.alike hu h), fun u => (hG.stat _).trans (hF.stat u),
    fun u => (hG.outCount _).trans (hF.outCount u), fun u => (hG.env _).trans (hF.env u)⟩

/-- An update that neither reads nor writes what alike states differ in. -/
theorem respects_of_vary (hF : ∀ u x l b E, F (State.vary x l b E u) = (F u).vary x l b E := by intros; rfl)
    (hph : ∀ u, (F u).eng.ph = u.eng.ph := by intros; rfl)
    (hstat : ∀ u, (F u).regs.stat = u.regs.stat := by intros; rfl)
    (hcount : ∀ u, (F u).regs.outCount = u.regs.outCount := by intros; rfl) : Respects p F := by
  have keeps : ∀ u, F u = (F u).vary u.regs.dictNext u.eng.lzw u.eng.ibuf u.env := fun u =>
    hF u u.regs.dictNext u.eng.lzw u.eng.ibuf u.env
  refine ⟨?_, hstat, hcount, fun u => by rw [keeps u]; rfl⟩
  rintro _ _ u _ _ ⟨x, l, b, E, rfl, hx, hl, hb⟩
  refine ⟨x, l, b, E, hF .., ?_⟩
  rw [hph, keeps u]
  exact ⟨hx, hl, hb⟩

theorem respects_emit (p : Phase) (out : List Byte) : Respects p (State.emit out) := respects_of_vary
theorem respects_fillFbuf (p : Phase) (bs : List Byte) : Respects p (State.fillFbuf bs) := respects_of_vary
theorem respects_setFbuf (p : Phase) (bs : List Byte) : Respects p fun u => { u with eng.fbuf := bs } :=
  respects_of_vary
theorem respects_sawEos (p : Phase) : Respects p State.sawEos := respects_of_vary
theorem respects_countChunk (p : Phase) : Respects p State.countChunk := respects_of_vary
theorem respects_withN (p : Phase) (n : Nat) : Respects p (State.withN n) := respects_of_vary
theorem respects_seek (p : Phase) (n : Nat) : Respects p (State.seek n) := respects_of_vary
theorem respects_publishAlphabet (p : Phase) (alpha : List Byte) : Respects p (State.publishAlphabet alpha) :=
  respects_of_vary

theorem respects_withLzw (p : Phase) (r : Lzw) : Respects p (State.withLzw r) := by
  refine ⟨?_, fun _ => rfl, fun _ => rfl, fun _ => rfl⟩
  rintro _ _ u _ _ ⟨x, l, b, E, rfl, hx, -, hb⟩
  exact ⟨x, r, b, E, rfl, hx, fun _ => rfl, hb⟩

theorem respects_endWith (p : Phase) (e : Err) : Respects p (State.endWith e) := by
  refine ⟨?_, fun _ => rfl, fun _ => rfl, fun _ => rfl⟩
  rintro _ _ u _ _ ⟨x, l, b, E, rfl, hx, -⟩
  exact ⟨x, l, b, E, rfl, hx, nofun, fun hp => absurd rfl hp⟩

/-- One byte or code further in a coding phase. -/
theorem respects_advance (p : Phase) (r : Lzw) (n : Nat) : Respects p fun u => (u.withLzw r).seek n :=
  (respects_seek p n).comp (respects_withLzw p r)

/-- To a phase that does not use the LZW registers. -/
theorem respects_toPhase {q : Phase} (hp : p ≠ .finish) (hq : q ≠ .enc ∧ q ≠ .dec) : Respects p (State.toPhase q) := by
  refine ⟨?_, fun _ => rfl, fun _ => rfl, fun _ => rfl⟩
  rintro _ _ u _ rfl ⟨x, l, b, E, rfl, hx, -, hb⟩
  exact ⟨x, l, b, E, rfl, hx, fun h => absurd h (not_or.mpr hq), fun _ => hb hp⟩

/-- Where the LZW registers are alike, so is the DICT_NEXT taken from them. -/
theorem respects_latchNext (hp : p = .enc ∨ p = .dec) : Respects p State.latchNext := by
  refine ⟨?_, fun _ => rfl, fun _ => rfl, fun _ => rfl⟩
  rintro _ _ u _ rfl ⟨x, l, b, E, rfl, -, hl, hb⟩
  obtain rfl := hl hp
  exact ⟨_, _, b, E, rfl, .inl rfl, fun _ => rfl, hb⟩

/-- The end of a run that publishes NEXT, with or without an error. -/
theorem respects_endRun (hp : p = .enc ∨ p = .dec) (e : Err) : Respects p fun u => u.latchNext.endWith e :=
  (respects_endWith p e).comp (respects_latchNext hp)

/-- To a coding phase, with LZW registers of its own. -/
theorem respects_startCoding (hp : p ≠ .finish) (r : Lzw) (q : Phase) :
    Respects p fun u => ((u.withLzw r).seek 0).toPhase q := by
  refine ⟨?_, fun _ => rfl, fun _ => rfl, fun _ => rfl⟩
  rintro _ _ u _ rfl ⟨x, l, b, E, rfl, hx, -, hb⟩
  exact ⟨x, r, b, E, rfl, hx, fun _ => rfl, fun _ => hb hp⟩

theorem respects_enterEnc (hp : p ≠ .finish) (alpha : List Byte) : Respects p (enterEnc alpha) :=
  respects_startCoding hp (Lzw.seed alpha) .enc

theorem respects_enterDec (hp : p ≠ .finish) (alpha : List Byte) (noCodes : Bool) :
    Respects p (enterDec alpha noCodes) := by
  have hseeded : Respects p fun u => (((u.withN alpha.length).withLzw (Lzw.seed alpha)).seek 0).toPhase .dec :=
    (respects_startCoding hp (Lzw.seed alpha) .dec).comp (respects_withN p alpha.length)
  cases noCodes with
  | false => exact hseeded
  | true => exact (respects_emit .dec alpha).comp hseeded fun _ _ => rfl

theorem respects_enterLzwDec : Respects .load enterLzwDec := by
  refine ⟨fun {_ _ u _} hp h => ?_, fun u => by rw [enterLzwDec, enterDec_regs],
    fun u => by rw [enterLzwDec, enterDec_regs], fun u => enterDec_env ..⟩
  have henter := respects_enterDec (p := .load) (by decide) (alphabetOperand u.eng.nCur u.regs) (u.eng.ibuf = [])
  have hin := henter.alike hp h
  obtain ⟨x, l, b, E, rfl, -, -, hb⟩ := h
  obtain rfl := hb (by rw [hp]; decide)
  exact hin

theorem respects_enterFrmDec : Respects .load enterFrmDec := by
  refine ⟨?_, fun u => enterFrmDec_frame.stat, fun u => (enterFrmDec_env_outCount u).2,
    fun u => (enterFrmDec_env_outCount u).1⟩
  rintro d d' u u' hp h
  have hbuf := h.ibuf (by rw [hp]; decide)
  cases hparse : parseFrame u.eng.ibuf with
  | empty =>
    rw [enterFrmDec_of_empty hparse, enterFrmDec_of_empty (hbuf ▸ hparse)]
    obtain ⟨x, l, b, E, rfl, -⟩ := h
    exact ⟨1, l, b, E, rfl, .inl rfl, nofun, fun hq => absurd rfl hq⟩
  | short =>
    rw [enterFrmDec_of_short hparse, enterFrmDec_of_short (hbuf ▸ hparse)]
    exact (respects_endWith .load _).alike hp h
  | parts alpha codes =>
    rw [enterFrmDec_of_parts hparse, enterFrmDec_of_parts (hbuf ▸ hparse)]
    exact ((respects_enterDec (p := .load) (by decide) alpha _).comp (respects_publishAlphabet .load alpha)).alike hp h

end Sys2Proof.Machine
end

section
/-! SUPPORT. Alike states of one running command, whatever their streams' splits and call sizes, go on to alike states:
one step where the phase leaves the streams alone, and all that a phase reads where it reads (20_memory.md R68, R81). -/

namespace Sys2Proof.Machine

variable {s s' t t' u : State} {d d' : BitVec 9} {p : Phase} {F : State → State} {f : State → Turn} {i : Instr}
  {k n : Nat}

/-! ### Steps that leave the streams alone -/

/-- Where the turn `x` of `s` goes on, so does the turn `x'` of `s'`, to alike states; STATE, OUT_COUNT and the
environments stay. -/
def InStep (d d' : BitVec 9) (s s' : State) (x x' : Turn) : Prop :=
  ∀ t, x = .went t → ∃ t', x' = .went t' ∧ Alike d d' t t' ∧ t.regs.stat = s.regs.stat ∧
    t.regs.outCount = s.regs.outCount ∧ t.env = s.env ∧ t'.env = s'.env

theorem Respects.inStep (hF : Respects p F) (hp : s.eng.ph = p) (h : Alike d d' s s') :
    InStep d d' s s' (.went (F s)) (.went (F s')) := by
  rintro _ ⟨⟩
  exact ⟨_, rfl, hF.alike hp h, hF.stat s, hF.outCount s, hF.env s, hF.env s'⟩

theorem scanPhase_inStep {F : List Byte → State → State} (hF : ∀ alpha, Respects .scan (F alpha))
    (hp : s.eng.ph = .scan) (h : Alike d d' s s') : InStep d d' s s' (scanPhase F s) (scanPhase F s') := by
  have hbuf := h.ibuf (by rw [hp]; decide)
  cases hs : scan s.eng.ibuf with
  | none =>
    rw [scanPhase_none F hs, scanPhase_none F (hbuf ▸ hs)]
    exact (respects_endWith .scan _).inStep hp h
  | some alpha =>
    rw [scanPhase_some F hs, scanPhase_some F (hbuf ▸ hs)]
    exact ((hF alpha).comp (respects_withN .scan _)).inStep hp h

/-- ENC: the engines agree on all that the step reads. -/
theorem encPhase_inStep {emit : List Byte → State → State} {leave overflow : State → State}
    (he : ∀ out, Respects .enc (emit out)) (hph : ∀ out u, (emit out u).eng.ph = u.eng.ph)
    (hl : Respects .enc leave) (ho : Respects .enc overflow) (hp : s.eng.ph = .enc) (h : Alike d d' s s') :
    InStep d d' s s' (encPhase emit leave overflow s) (encPhase emit leave overflow s') := by
  obtain ⟨E, x, rfl⟩ := h.coding (.inl hp)
  by_cases hn : s.eng.nCur.toNat = s.eng.ibuf.length
  · simp only [encPhase, vary_eng, hn, if_true]
    exact hl.inStep hp h
  simp only [encPhase, vary_eng, hn, if_false]
  cases s.eng.ibuf[s.eng.ipos]? with
  | none => exact (hl.comp (he _) fun _ h => (hph _ _).trans h).inStep hp h
  | some c =>
    dsimp only
    cases encStep s.eng.polCur c s.eng.lzw with
    | ok r out => exact ((he out).comp (respects_advance .enc r _)).inStep hp h
    | raised _ r out =>
      exact (ho.comp ((he out).comp (respects_withLzw .enc r)) fun _ h => (hph _ _).trans h).inStep hp h
    | fault x => rintro _ ⟨⟩

theorem decPhase_inStep {codes : List Byte} {leave malformed : State → State} (hl : Respects .dec leave)
    (hm : Respects .dec malformed) (hp : s.eng.ph = .dec) (h : Alike d d' s s') :
    InStep d d' s s' (decPhase codes leave malformed s) (decPhase codes leave malformed s') := by
  obtain ⟨E, x, rfl⟩ := h.coding (.inr hp)
  simp only [decPhase, vary_eng]
  cases codes[s.eng.ipos]? with
  | none => exact hl.inStep hp h
  | some c =>
    dsimp only
    cases decCode s.eng.nCur c s.eng.lzw with
    | ok r out => exact ((respects_emit .dec out).comp (respects_advance .dec r _)).inStep hp h
    | raised _ r out =>
      exact (hm.comp ((respects_emit .dec out).comp (respects_withLzw .dec r))).inStep hp h
    | fault x => rintro _ ⟨⟩

/-! ### Two runs of one command -/

/-- Command `i` runs on finite input, into a sink that may answer short. -/
structure State.Running (i : Instr) (s : State) : Prop extends s.Live i where
  busy : s.regs.stat = .busy
  finite : s.env.src.tail = .ends

/-- `f` is the engine rule of command `i`. -/
structure Rule (i : Instr) (f : State → Turn) : Prop extends Flushes f where
  step : ∀ u, u.eng.opCur = opOf i → engineStep u = f u

theorem rule_scan : Rule .scan scanCmdStep :=
  ⟨engine_flushes.1, fun u hu => by simp only [engineStep, hu, instrOfOp_opOf]⟩
theorem rule_lzwEnc : Rule .lzwEnc lzwEncStep :=
  ⟨engine_flushes.2.1, fun u hu => by simp only [engineStep, hu, instrOfOp_opOf]⟩
theorem rule_lzwDec : Rule .lzwDec lzwDecStep :=
  ⟨engine_flushes.2.2.1, fun u hu => by simp only [engineStep, hu, instrOfOp_opOf]⟩
theorem rule_frmEnc : Rule .frmEnc frmEncStep :=
  ⟨engine_flushes.2.2.2.1, fun u hu => by simp only [engineStep, hu, instrOfOp_opOf]⟩
theorem rule_frmDec : Rule .frmDec frmDecStep :=
  ⟨engine_flushes.2.2.2.2.1, fun u hu => by simp only [engineStep, hu, instrOfOp_opOf]⟩
theorem rule_strEnc : Rule .strEnc strEncStep :=
  ⟨strEnc_flushes, fun u hu => by simp only [engineStep, hu, instrOfOp_opOf]⟩
theorem rule_strDec : Rule .strDec strDecStep :=
  ⟨strDec_flushes, fun u hu => by simp only [engineStep, hu, instrOfOp_opOf]⟩

theorem exists_rule (hi : i ≠ .clr) : ∃ f, Rule i f := by
  cases i with
  | clr => exact absurd rfl hi
  | scan => exact ⟨_, rule_scan⟩
  | lzwEnc => exact ⟨_, rule_lzwEnc⟩
  | lzwDec => exact ⟨_, rule_lzwDec⟩
  | frmEnc => exact ⟨_, rule_frmEnc⟩
  | frmDec => exact ⟨_, rule_frmDec⟩
  | strEnc => exact ⟨_, rule_strEnc⟩
  | strDec => exact ⟨_, rule_strDec⟩

/-- A path of a command's rule is one of the engine's. -/
theorem Rule.steps (hf : Rule i f) (hop : s.eng.opCur = opOf i) (h : Steps f k s t) : Steps engineStep k s t := by
  induction h with
  | refl => exact .refl _
  | cons hb hs _ ih =>
    have hs' := (hf.step _ hop).trans hs
    exact .cons hb hs' (ih ((engineStep_opCur hs').trans hop))

theorem Steps.pos (h : Steps f k s t) (hne : s ≠ t) : 1 ≤ k := by
  cases h with
  | refl => exact absurd rfl hne
  | cons => exact Nat.le_add_left 1 _

/-- Two alike states of command `i` with the same input still to come. -/
structure Pair (i : Instr) (d d' : BitVec 9) (s s' : State) : Prop where
  run : s.Running i
  run' : s'.Running i
  alike : Alike d d' s s'
  stream : s'.env.src.stream = s.env.src.stream

/-- Both go on, `s` by a step at least, to alike BUSY states with the same input still to come, and offer nothing. -/
def Paces (d d' : BitVec 9) (s s' : State) : Prop :=
  ∃ j j' t t', 1 ≤ j ∧ Steps engineStep j s t ∧ Steps engineStep j' s' t' ∧ Alike d d' t t' ∧ t.regs.stat = .busy ∧
    t.regs.outCount = s.regs.outCount ∧ t'.env.src.stream = t.env.src.stream ∧ t.env.sink = s.env.sink ∧
    t'.env.sink = s'.env.sink

theorem Pair.paces_of_inStep (h : Pair i d d' s s') (hf : Rule i f) (hin : InStep d d' s s' (f s) (f s')) :
    Paces d d' s s' := by
  have hs := hf.step s h.run.opCur
  have hs' := hf.step s' h.run'.opCur
  obtain ⟨t, ht⟩ : ∃ t, engineStep s = .went t := by
    rcases h.run.engineStep with ⟨t, ht, -⟩ | ht
    · exact ⟨t, ht⟩
    · exact ⟨_, ht⟩
  obtain ⟨t', ht', ha, hb, hc, he, he'⟩ := hin t (hs.symm.trans ht)
  exact ⟨1, 1, t, t', le_rfl, .one h.run.busy ht, .one h.run'.busy (hs'.trans ht'), ha, hb.trans h.run.busy, hc,
    by rw [he, he', h.stream], by rw [he], by rw [he']⟩

theorem State.Running.streaming (h : s.Running i) (ho : s.eng.outq = []) : Streaming s.env.src.stream s :=
  ⟨h.busy, ho, rfl, h.finite, h.sink⟩

/-! ### Reading, however the sources split (20_memory.md R68) -/

/-- LOAD reads the whole unit, or finds it too long, in both runs. -/
theorem Pair.paces_load (h : Pair i d d' s s') (hf : Rule i f)
    (hload : ∀ u, u.eng.ph = .load → u.eng.outq = [] → f u = loadStep (fun t => .went (F t)) u)
    (hF : Respects .load F) (hp : s.eng.ph = .load) (ho : s.eng.outq = []) : Paces d d' s s' := by
  by_cases heos : s.eng.eosSeen = true
  · have heos' : s'.eng.eosSeen = true := by
      obtain ⟨x, l, b, E, rfl, -⟩ := h.alike
      exact heos
    refine h.paces_of_inStep hf ?_
    rw [hload s hp ho, hload s' (h.alike.ph.trans hp) (h.alike.outq.trans ho), loadStep, loadStep, if_pos heos,
      if_pos heos']
    exact hF.inStep hp h.alike
  obtain ⟨hrun, hrun', halike, hstream⟩ := h
  obtain ⟨x, l, b, E, rfl, hx, -, hb⟩ := halike
  obtain rfl := hb (by rw [hp]; decide)
  change E.src.stream = s.env.src.stream at hstream
  have hopen : s.eng.eosSeen = false := by simpa using heos
  by_cases hlen : s.eng.ibuf.length + s.env.src.stream.length ≤ Config.ibufSize
  · obtain ⟨k, src, -, hend, hst⟩ := load_steps hload s hrun.busy hp ho hopen hrun.finite hlen
    obtain ⟨k', src', -, hend', hst'⟩ := load_steps hload (s.vary x l s.eng.ibuf E) hrun'.busy hp ho hopen hrun'.finite
      (by simpa [State.vary, hstream] using hlen)
    refine ⟨k, k', _, _, hst.pos ?_, hf.steps hrun.opCur hst, hf.steps hrun'.opCur hst', ?_, hrun.busy, rfl,
      hend'.trans hend.symm, rfl, rfl⟩
    · intro hne
      rw [hne] at hopen
      cases hopen
    · refine ⟨x, l, s.eng.ibuf ++ s.env.src.stream, { E with src := src' }, ?_, hx, ?_, fun _ => rfl⟩
      · simp [State.vary, hstream]
      · simp [hp]
  · obtain ⟨k, src, buf, -, hend, hst⟩ := load_too_long hload s hrun.busy hp ho hopen hrun.finite
      (hrun.sound.unitFits hp) (by omega)
    obtain ⟨k', src', buf', -, hend', hst'⟩ := load_too_long hload (s.vary x l s.eng.ibuf E) hrun'.busy hp ho hopen
      hrun'.finite (hrun.sound.unitFits hp) (by simpa [State.vary, hstream] using hlen)
    simp only [vary_eng] at hend' hst'
    generalize Config.ibufSize + 1 - s.eng.ibuf.length = m at hend hst hend' hst'
    refine ⟨k, k', _, _, hst.pos ?_, hf.steps hrun.opCur hst, hf.steps hrun'.opCur hst', ?_,
      hrun.busy, rfl, ?_, rfl, rfl⟩
    · intro hne
      rw [hne] at hp
      cases hp
    · exact ⟨x, l, buf', { E with src := src' }, rfl, hx, nofun, fun hq => absurd rfl hq⟩
    · refine hend'.trans (Eq.trans ?_ hend.symm)
      simp [State.vary, hstream]

/-- A phase that fills a buffer up to `n` bytes takes them all, or all that are left. -/
theorem fill_steps {en : List Byte → Engine} {g : List Byte} {m : Nat} (hf : Fills f n en) (hb : s.regs.stat = .busy)
    (hs : s.eng = en g) (ht : s.env.src.tail = .ends) (hm : n - g.length = m) :
    ∃ k src, src.stream = s.env.src.stream.drop m ∧ Steps f k s { s with
      regs.inCount := s.regs.inCount + count32 (s.env.src.stream.take m).length
      env.src := src
      eng := en (g ++ s.env.src.stream.take m) } := by
  induction m using Nat.strong_induction_on generalizing s g with
  | _ m ih =>
    by_cases hstop : m = 0 ∨ s.env.src.stream = []
    · obtain ⟨htake, hdrop⟩ : s.env.src.stream.take m = [] ∧ s.env.src.stream.drop m = s.env.src.stream := by
        rcases hstop with rfl | h <;> simp [*]
      refine ⟨0, s.env.src, hdrop.symm, ?_⟩
      rw [htake, List.append_nil, ← hs]
      simpa [count32] using Steps.refl s
    · obtain ⟨hpos, hne⟩ := not_or.mp hstop
      obtain ⟨r, src, hr, happ, hr1, hrm, htl⟩ := srcRead_data (n := m) (src := s.env.src) (by omega) hne ht
      have hstep := hf.step s g r src hs (by omega) (by rwa [hm])
      obtain ⟨k, src', hend, hst⟩ := ih (m - r.length) (by omega)
        (s := { (s.withSrc src).countIn r.length with eng := en (g ++ r) }) hb rfl htl
        (by rw [List.length_append]; omega)
      have htake : s.env.src.stream.take m = r ++ src.stream.take (m - r.length) := by
        rw [← happ, List.take_append, List.take_of_length_le hrm]
      have hdrop : s.env.src.stream.drop m = src.stream.drop (m - r.length) := by
        rw [← happ, List.drop_append, List.drop_of_length_le hrm, List.nil_append]
      refine ⟨k + 1, src', hend.trans hdrop.symm, .cons hb hstep ?_⟩
      convert hst using 1
      simp [htake, State.withSrc, State.countIn, count32, BitVec.add_assoc, BitVec.ofNat_add]

/-- While input is left, both runs fill their buffer alike. -/
theorem Pair.paces_fill (h : Pair i d d' s s') (hf : Rule i f) {en en' : List Byte → Engine} {g : List Byte}
    (hfills : Fills f n en) (hfills' : Fills f n en') (hs : s.eng = en g) (hs' : s'.eng = en' g) (hlt : g.length < n)
    (hne : s.env.src.stream ≠ []) (hen : ∀ b, (en b).ph ≠ .enc ∧ (en b).ph ≠ .dec ∧
      en' b = { en b with lzw := s'.eng.lzw }) : Paces d d' s s' := by
  obtain ⟨hrun, hrun', halike, hstream⟩ := h
  obtain ⟨k, src, hend, hst⟩ := fill_steps hfills hrun.busy hs hrun.finite rfl
  obtain ⟨k', src', hend', hst'⟩ := fill_steps hfills' hrun'.busy hs' hrun'.finite rfl
  rw [hstream] at hend' hst'
  refine ⟨k, k', _, _, hst.pos ?_, hf.steps hrun.opCur hst, hf.steps hrun'.opCur hst', ?_, hrun.busy, rfl,
    hend'.trans hend.symm, rfl, rfl⟩
  · intro hsame
    have hsrc : s.env.src.stream = src.stream := by
      conv_lhs => rw [hsame]
    rw [hend] at hsrc
    have hlen := congrArg List.length hsrc
    have hpos := List.length_pos_iff.mpr hne
    rw [List.length_drop] at hlen
    omega
  · obtain ⟨henc, hdec, heq⟩ := hen (g ++ s.env.src.stream.take (n - g.length))
    rw [heq]
    obtain ⟨x, l, b, E, rfl, hx, -⟩ := halike
    exact ⟨x, l, _, { E with src := src' }, rfl, hx, fun hq => absurd hq (not_or.mpr ⟨henc, hdec⟩), fun _ => rfl⟩

/-- At EOS both runs see it. -/
theorem Pair.paces_eos (h : Pair i d d' s s') (hf : Rule i f) {n n' : Nat} {onData onData' : List Byte → State → State}
    (hs : f s = readStep n F onData s) (hs' : f s' = readStep n' F onData' s') (hnil : s.env.src.stream = [])
    (hp : s.eng.ph = p) (hF : Respects p fun u => F u.sawEos) : Paces d d' s s' := by
  refine h.paces_of_inStep hf ?_
  rw [hs, hs', readStep_eos hnil h.run.finite, readStep_eos (h.stream.trans hnil) h.run'.finite]
  exact hF.inStep hp h.alike

/-! ### STR_ENC (43_chunk_streamer.md R222) -/

/-- CHUNK_READ past the check fills IBUF up to the chunk size. -/
theorem State.Running.chunkRead_fills (h : s.Running i) (hp : s.eng.ph = .chunkRead) (ho : s.eng.outq = [])
    (hc : s.eng.cfgChecked = true) (he : s.eng.eosSeen = false) :
    Fills strEncStep s.eng.csCur.toNat fun g => { s.eng with ibuf := g } := by
  have hat : AtChunk s.eng.polCur s.eng.csCur.toNat s.env.src.stream { s with eng.ibuf := [] } :=
    ⟨⟨(h.streaming ho).of_eq rfl rfl ho, hc, rfl, rfl, rfl, fun hx => absurd hx (by simp [he])⟩, hp, he⟩
  exact hat.fills

theorem respects_checkConfig : Respects .chunkRead checkConfig := by
  refine ⟨?_, fun u => ?_, fun u => ?_, fun u => ?_⟩
  · rintro d d' u u' hp h
    have hcs : u'.eng.csCur = u.eng.csCur := by
      obtain ⟨x, l, b, E, rfl, -⟩ := h
      rfl
    unfold checkConfig
    rw [hcs]
    split
    · exact (respects_endWith .chunkRead _).alike hp h
    · obtain ⟨x, l, b, E, rfl, h⟩ := h
      exact ⟨x, l, b, E, rfl, h⟩
  all_goals
    unfold checkConfig
    split <;> rfl

theorem Pair.paces_chunkRead (h : Pair .strEnc d d' s s') (hp : s.eng.ph = .chunkRead) (ho : s.eng.outq = []) :
    Paces d d' s s' := by
  have hf := rule_strEnc
  have hstep := strEncStep_chunkRead hp ho
  have hstep' := strEncStep_chunkRead (h.alike.ph.trans hp) (h.alike.outq.trans ho)
  have hbuf := h.alike.ibuf (by rw [hp]; decide)
  have heng := h.alike.eng (by rw [hp]; decide)
  by_cases hc : s.eng.cfgChecked = false
  · have hc' : s'.eng.cfgChecked = false := by rwa [heng]
    refine h.paces_of_inStep hf ?_
    rw [hstep, hstep', chunkReadStep_check hc, chunkReadStep_check hc']
    exact respects_checkConfig.inStep hp h.alike
  have hc : s.eng.cfgChecked = true := by simpa using hc
  have hc' : s'.eng.cfgChecked = true := by rwa [heng]
  by_cases hread : s.eng.ibuf.length < s.eng.csCur.toNat ∧ s.eng.eosSeen = false
  · have hread' : s'.eng.ibuf.length < s'.eng.csCur.toNat ∧ s'.eng.eosSeen = false := by rwa [heng]
    by_cases hnil : s.env.src.stream = []
    · exact h.paces_eos hf (hstep.trans (chunkReadStep_read hc hread)) (hstep'.trans (chunkReadStep_read hc' hread'))
        hnil hp (respects_sawEos .chunkRead)
    · have hfills' := h.run'.chunkRead_fills (by rwa [heng]) (by rwa [heng]) hc' hread'.2
      have hcs : s'.eng.csCur = s.eng.csCur := by rw [heng]
      rw [hcs] at hfills'
      refine h.paces_fill hf (h.run.chunkRead_fills hp ho hc hread.2) hfills' rfl (by rw [← hbuf]) hread.1 hnil
        fun b => ?_
      refine ⟨by simp [hp], by simp [hp], ?_⟩
      conv_lhs => rw [heng]
  · have hread' : ¬(s'.eng.ibuf.length < s'.eng.csCur.toNat ∧ s'.eng.eosSeen = false) := by rwa [heng]
    refine h.paces_of_inStep hf ?_
    rw [hstep, hstep', chunkReadStep_done hc hread, chunkReadStep_done hc' hread', hbuf]
    split
    · exact (respects_endWith .chunkRead .noError).inStep hp h.alike
    · exact (respects_toPhase (q := .scan) (by decide) (by decide)).inStep hp h.alike

/-- ENV_WRITE (43_chunk_streamer.md R222): the engines hold the same chunk and frame. -/
theorem envWriteStep_inStep (hp : s.eng.ph = .envWrite) (h : Alike d d' s s') :
    InStep d d' s s' (envWriteStep s) (envWriteStep s') := by
  have heng := h.eng (by rw [hp]; decide)
  have hchunk : s'.eng.ibuf = s.eng.ibuf := by rw [heng]
  have hframe : s'.eng.fbuf = s.eng.fbuf := by rw [heng]
  have heos : s'.eng.eosSeen = s.eng.eosSeen := by rw [heng]
  have hnext : Respects .envWrite fun u => ({ u.countChunk with eng.ibuf := [] } : State).toPhase .chunkRead := by
    refine ⟨?_, fun _ => rfl, fun _ => rfl, fun _ => rfl⟩
    rintro _ _ u _ _ ⟨x, l, b, E, rfl, hx, -⟩
    exact ⟨x, l, [], E, rfl, hx, nofun, fun _ => rfl⟩
  unfold envWriteStep
  rw [hchunk, hframe, heos]
  split
  · exact ((respects_emit .envWrite _).comp (respects_setFbuf .envWrite [])).inStep hp h
  split
  · exact ((respects_endWith .envWrite .noError).comp (respects_countChunk _)).inStep hp h
  · exact hnext.inStep hp h

/-! ### STR_DEC (43_chunk_streamer.md R226 to R228) -/

theorem respects_awaitHeader (hp : p ≠ .finish) : Respects p awaitHeader := by
  have hclear : Respects p fun u => { u with eng.hdr := [] } := respects_of_vary
  exact (respects_toPhase (q := .awaitHeader) hp (by decide)).comp hclear

theorem respects_envelopeDone (hp : p ≠ .finish) : Respects p envelopeDone :=
  (respects_awaitHeader hp).comp (respects_countChunk p)

/-- EOS in AWAIT_HEADER: the runs hold the same header bytes. -/
theorem respects_headerEos : Respects .awaitHeader fun u =>
    if u.sawEos.eng.hdr = [] then finishDone u.sawEos else raise .truncatedEnvelope u.sawEos := by
  have hend (e : Err) : Respects .awaitHeader fun u => u.sawEos.endWith e :=
    (respects_endWith .awaitHeader e).comp (respects_sawEos _)
  refine ⟨?_, fun u => ?_, fun u => ?_, fun u => ?_⟩
  · rintro d d' u u' hp h
    have hhdr : u'.sawEos.eng.hdr = u.sawEos.eng.hdr := by rw [sawEos_eng, sawEos_eng, h.eng (by rw [hp]; decide)]
    rw [hhdr]
    split
    · exact (hend .noError).alike hp h
    · exact (hend .truncatedEnvelope).alike hp h
  all_goals split <;> rfl

theorem withHeader_lzw (en : Engine) (l : Lzw) (b : List Byte) :
    { en with lzw := l }.withHeader b = { en.withHeader b with lzw := l } := by
  unfold Engine.withHeader
  split <;> rfl

theorem withHeader_not_coding {en : Engine} (hp : en.ph = .awaitHeader) (b : List Byte) :
    (en.withHeader b).ph ≠ .enc ∧ (en.withHeader b).ph ≠ .dec := by
  unfold Engine.withHeader
  split <;> simp [hp]

/-- AWAIT_HEADER fills HDR up to four bytes. -/
theorem State.Running.header_fills (h : s.Running i) (hp : s.eng.ph = .awaitHeader) (ho : s.eng.outq = []) :
    Fills strDecStep 4 s.eng.withHeader := by
  have hat : AtHeader s.env.src.stream { s with eng.hdr := [] } := ⟨(h.streaming ho).of_eq rfl rfl ho, hp, rfl⟩
  exact hat.fills

theorem eq_withHeader {en : Engine} (h : en.hdr.length < 4) : en = en.withHeader en.hdr := by
  rw [Engine.withHeader, if_neg (by omega)]

theorem Pair.paces_awaitHeader (h : Pair .strDec d d' s s') (hp : s.eng.ph = .awaitHeader) (ho : s.eng.outq = []) :
    Paces d d' s s' := by
  have heng := h.alike.eng (by rw [hp]; decide)
  have hp' := h.alike.ph.trans hp
  have ho' := h.alike.outq.trans ho
  have hopen := h.run.sound.headerOpen hp
  have hopen' := h.run'.sound.headerOpen hp'
  have hhdr : s'.eng.hdr = s.eng.hdr := by rw [heng]
  by_cases hnil : s.env.src.stream = []
  · exact h.paces_eos rule_strDec (strDecStep_awaitHeader hp ho) (strDecStep_awaitHeader hp' ho') hnil hp
      respects_headerEos
  · refine h.paces_fill rule_strDec (h.run.header_fills hp ho) (h.run'.header_fills hp' ho') (eq_withHeader hopen)
      (by rw [← hhdr]; exact eq_withHeader hopen') hopen hnil fun b => ?_
    obtain ⟨henc, hdec⟩ := withHeader_not_coding hp b
    refine ⟨henc, hdec, ?_⟩
    conv_lhs => rw [heng]
    exact withHeader_lzw _ _ _

/-- AWAIT_BODY fills FBUF up to FRAME_LEN. -/
theorem State.Running.body_fills (h : s.Running i) (hp : s.eng.ph = .awaitBody) (ho : s.eng.outq = []) :
    Fills strDecStep s.eng.fneed.toNat fun g => { s.eng with fbuf := g } := by
  have hin : InBody s.eng.fneed.toNat [] s.env.src.stream { s with eng.fbuf := [] } :=
    ⟨(h.streaming ho).of_eq rfl rfl ho, hp, rfl, rfl⟩
  exact hin.fills

theorem respects_enterBody : Respects .awaitBody enterBody := by
  have hcases (fr : List Byte) : Respects .awaitBody fun u =>
      match parseFrame fr with
      | .empty => envelopeDone u
      | .short => raise .malformedFrame u
      | .parts alpha codes => enterDec alpha (codes = []) u := by
    cases parseFrame fr with
    | empty => exact respects_envelopeDone (by decide)
    | short => exact respects_endWith .awaitBody _
    | parts alpha codes => exact respects_enterDec (by decide) alpha _
  refine ⟨?_, fun u => (hcases u.eng.fbuf).stat u, fun u => (hcases u.eng.fbuf).outCount u,
    fun u => (hcases u.eng.fbuf).env u⟩
  rintro d d' u u' hp h
  have hbuf : u'.eng.fbuf = u.eng.fbuf := by rw [h.eng (by rw [hp]; decide)]
  have hin := (hcases u.eng.fbuf).alike hp h
  rw [enterBody, enterBody, hbuf]
  exact hin

theorem Pair.paces_awaitBody (h : Pair .strDec d d' s s') (hp : s.eng.ph = .awaitBody) (ho : s.eng.outq = []) :
    Paces d d' s s' := by
  have heng := h.alike.eng (by rw [hp]; decide)
  have hp' := h.alike.ph.trans hp
  have ho' := h.alike.outq.trans ho
  have hstep := strDecStep_awaitBody hp ho
  have hstep' := strDecStep_awaitBody hp' ho'
  have hbuf : s'.eng.fbuf = s.eng.fbuf := by rw [heng]
  have hneed : s'.eng.fneed = s.eng.fneed := by rw [heng]
  by_cases hlt : s.eng.fbuf.length < s.eng.fneed.toNat
  · have hlt' : s'.eng.fbuf.length < s'.eng.fneed.toNat := by rwa [hbuf, hneed]
    by_cases hnil : s.env.src.stream = []
    · exact h.paces_eos rule_strDec (hstep.trans (bodyStep_read hlt)) (hstep'.trans (bodyStep_read hlt')) hnil hp
        ((respects_endWith .awaitBody _).comp (respects_sawEos _))
    · have hfills' := h.run'.body_fills hp' ho'
      rw [hneed] at hfills'
      refine h.paces_fill rule_strDec (h.run.body_fills hp ho) hfills' rfl (by rw [← hbuf]) hlt hnil fun b => ?_
      refine ⟨by simp [hp], by simp [hp], ?_⟩
      conv_lhs => rw [heng]
  · have hlt' : ¬s'.eng.fbuf.length < s'.eng.fneed.toNat := by rwa [hbuf, hneed]
    refine h.paces_of_inStep rule_strDec ?_
    rw [hstep, hstep', bodyStep, bodyStep, if_neg hlt, if_neg hlt']
    exact respects_enterBody.inStep hp h.alike

/-! ### The unit commands -/

/-- From LOAD to SCAN. -/
theorem respects_toScan : Respects .load (State.toPhase .scan) := respects_toPhase (by decide) (by decide)

/-- ENC of the unit commands. -/
theorem encUnit_inStep (hp : s.eng.ph = .enc) (h : Alike d d' s s') :
    InStep d d' s s' (encPhase State.emit endRun (fun t => raise .dictionaryOverflow t.latchNext) s)
      (encPhase State.emit endRun (fun t => raise .dictionaryOverflow t.latchNext) s') :=
  encPhase_inStep (respects_emit .enc) (fun _ _ => rfl) (respects_endRun (.inl rfl) _) (respects_endRun (.inl rfl) _)
    hp h

/-- DEC of the unit commands. -/
theorem decUnit_inStep (hp : s.eng.ph = .dec) (h : Alike d d' s s') (codes : List Byte) :
    InStep d d' s s' (decPhase codes endRun (fun t => raise .malformedFrame t.latchNext) s)
      (decPhase codes endRun (fun t => raise .malformedFrame t.latchNext) s') :=
  decPhase_inStep (respects_endRun (.inr rfl) _) (respects_endRun (.inr rfl) _) hp h

theorem Pair.paces_scan (h : Pair .scan d d' s s') (ho : s.eng.outq = []) (hnf : s.eng.ph ≠ .finish) :
    Paces d d' s s' := by
  have hm := h.run.sound.phase
  simp only [phasesOf, List.mem_cons, List.not_mem_nil, or_false, hnf] at hm
  rcases hm with hp | hp
  · exact h.paces_load rule_scan scanCmdStep_load respects_toScan hp ho
  · refine h.paces_of_inStep rule_scan ?_
    rw [scanCmdStep, flushFirst_empty ho, flushFirst_empty (h.alike.outq.trans ho)]
    simp only [h.alike.ph, hp]
    exact scanPhase_inStep
      (fun alpha => (respects_endWith .scan _).comp (respects_publishAlphabet .scan alpha)) hp h.alike

theorem Pair.paces_lzwEnc (h : Pair .lzwEnc d d' s s') (ho : s.eng.outq = []) (hnf : s.eng.ph ≠ .finish) :
    Paces d d' s s' := by
  have hm := h.run.sound.phase
  have ho' := h.alike.outq.trans ho
  simp only [phasesOf, List.mem_cons, List.not_mem_nil, or_false, hnf] at hm
  rcases hm with hp | hp | hp
  · exact h.paces_load rule_lzwEnc lzwEncStep_load respects_toScan hp ho
  · refine h.paces_of_inStep rule_lzwEnc ?_
    rw [lzwEncStep, flushFirst_empty ho, flushFirst_empty ho']
    simp only [h.alike.ph, hp]
    exact scanPhase_inStep
      (fun alpha => (respects_enterEnc (p := .scan) (by decide) alpha).comp (respects_publishAlphabet .scan alpha))
      hp h.alike
  · refine h.paces_of_inStep rule_lzwEnc ?_
    rw [lzwEncStep_enc hp ho, lzwEncStep_enc (h.alike.ph.trans hp) ho']
    exact encUnit_inStep hp h.alike

theorem Pair.paces_frmEnc (h : Pair .frmEnc d d' s s') (ho : s.eng.outq = []) (hnf : s.eng.ph ≠ .finish) :
    Paces d d' s s' := by
  have hm := h.run.sound.phase
  have ho' := h.alike.outq.trans ho
  simp only [phasesOf, List.mem_cons, List.not_mem_nil, or_false, hnf] at hm
  rcases hm with hp | hp | hp
  · exact h.paces_load rule_frmEnc frmEncStep_load respects_toScan hp ho
  · refine h.paces_of_inStep rule_frmEnc ?_
    rw [frmEncStep, flushFirst_empty ho, flushFirst_empty ho']
    simp only [h.alike.ph, hp]
    refine scanPhase_inStep (fun alpha => ?_) hp h.alike
    have henter := (respects_enterEnc (p := .scan) (by decide) alpha).comp (respects_publishAlphabet .scan alpha)
    exact (respects_emit .enc (frameHeader alpha)).comp henter fun _ _ => rfl
  · refine h.paces_of_inStep rule_frmEnc ?_
    rw [frmEncStep_enc hp ho, frmEncStep_enc (h.alike.ph.trans hp) ho']
    exact encUnit_inStep hp h.alike

theorem Pair.paces_lzwDec (h : Pair .lzwDec d d' s s') (ho : s.eng.outq = []) (hnf : s.eng.ph ≠ .finish) :
    Paces d d' s s' := by
  have hm := h.run.sound.phase
  simp only [phasesOf, List.mem_cons, List.not_mem_nil, or_false, hnf] at hm
  rcases hm with hp | hp
  · exact h.paces_load rule_lzwDec lzwDecStep_load respects_enterLzwDec hp ho
  · refine h.paces_of_inStep rule_lzwDec ?_
    rw [lzwDecStep_dec hp ho, lzwDecStep_dec (h.alike.ph.trans hp) (h.alike.outq.trans ho), h.alike.ibuf hnf]
    exact decUnit_inStep hp h.alike _

theorem Pair.paces_frmDec (h : Pair .frmDec d d' s s') (ho : s.eng.outq = []) (hnf : s.eng.ph ≠ .finish) :
    Paces d d' s s' := by
  have hm := h.run.sound.phase
  simp only [phasesOf, List.mem_cons, List.not_mem_nil, or_false, hnf] at hm
  rcases hm with hp | hp
  · exact h.paces_load rule_frmDec frmDecStep_load respects_enterFrmDec hp ho
  · refine h.paces_of_inStep rule_frmDec ?_
    have hn : s'.eng.nCur = s.eng.nCur := by rw [h.alike.eng hnf]
    rw [frmDecStep_dec hp ho, frmDecStep_dec (h.alike.ph.trans hp) (h.alike.outq.trans ho), hn, h.alike.ibuf hnf]
    exact decUnit_inStep hp h.alike _

/-! ### Every command -/

theorem Pair.paces_strEnc (h : Pair .strEnc d d' s s') (ho : s.eng.outq = []) (hnf : s.eng.ph ≠ .finish) :
    Paces d d' s s' := by
  have hm := h.run.sound.phase
  have hph := h.alike.ph
  have ho' := h.alike.outq.trans ho
  simp only [phasesOf, List.mem_cons, List.not_mem_nil, or_false, hnf] at hm
  rcases hm with hp | hp | hp | hp
  · exact h.paces_chunkRead hp ho
  · refine h.paces_of_inStep rule_strEnc ?_
    rw [strEncStep_scan hp ho, strEncStep_scan (hph.trans hp) ho']
    exact scanPhase_inStep (fun alpha => (respects_setFbuf .enc (frameHeader alpha)).comp
      (respects_enterEnc (by decide) alpha) fun _ _ => rfl) hp h.alike
  · refine h.paces_of_inStep rule_strEnc ?_
    rw [strEncStep_enc hp ho, strEncStep_enc (hph.trans hp) ho']
    exact encPhase_inStep (respects_fillFbuf .enc) (fun _ _ => rfl) (respects_toPhase (by decide) (by decide))
      (respects_endWith .enc _) hp h.alike
  · refine h.paces_of_inStep rule_strEnc ?_
    rw [strEncStep_envWrite hp ho, strEncStep_envWrite (hph.trans hp) ho']
    exact envWriteStep_inStep hp h.alike

theorem Pair.paces_strDec (h : Pair .strDec d d' s s') (ho : s.eng.outq = []) (hnf : s.eng.ph ≠ .finish) :
    Paces d d' s s' := by
  have hm := h.run.sound.phase
  simp only [phasesOf, List.mem_cons, List.not_mem_nil, or_false, hnf] at hm
  rcases hm with hp | hp | hp
  · exact h.paces_awaitHeader hp ho
  · exact h.paces_awaitBody hp ho
  · refine h.paces_of_inStep rule_strDec ?_
    have hn : s'.eng.nCur = s.eng.nCur := by rw [h.alike.eng hnf]
    have hbuf : s'.eng.fbuf = s.eng.fbuf := by rw [h.alike.eng hnf]
    rw [strDecStep_dec hp ho, strDecStep_dec (h.alike.ph.trans hp) (h.alike.outq.trans ho), hn, hbuf]
    exact decPhase_inStep (respects_envelopeDone (by decide)) (respects_endWith .dec _) hp h.alike

/-- With nothing pending and before FINISH, two alike states of a command go on alike. -/
theorem Pair.paces (h : Pair i d d' s s') (ho : s.eng.outq = []) (hnf : s.eng.ph ≠ .finish) : Paces d d' s s' := by
  cases i with
  | clr => exact absurd rfl h.run.ne_clr
  | scan => exact h.paces_scan ho hnf
  | lzwEnc => exact h.paces_lzwEnc ho hnf
  | lzwDec => exact h.paces_lzwDec ho hnf
  | frmEnc => exact h.paces_frmEnc ho hnf
  | frmDec => exact h.paces_frmDec ho hnf
  | strEnc => exact h.paces_strEnc ho hnf
  | strDec => exact h.paces_strDec ho hnf

end Sys2Proof.Machine
end

section
/-! PROOF. What decides a command's results (20_memory.md R72, R81; 70_reset_and_hazards.md R315): two alike runs into
sinks with equal room end alike (obligation O56), and a sink's room cuts the output of the unlimited run (O57). -/

namespace Sys2Proof.Machine

variable {s s' t t' u : State} {d d' : BitVec 9} {i : Instr} {k j j' : Nat} {data out out' : List Byte}

/-! ### Runs to the end -/

theorem Steps.eq_of_not_busy {f : State → Turn} (h : Steps f k s t) (hs : s.regs.stat ≠ .busy) : t = s := by
  cases h with
  | refl => rfl
  | cons hb => exact absurd hb hs

theorem complete_not_busy (e : Err) (s : State) : (complete e s).regs.stat ≠ .busy := setOutcome_not_busy _ _

/-- A running command still runs where it is BUSY, with less work left by each step. -/
theorem State.Running.of_steps (h : s.Running i) (hst : Steps engineStep k s t) (hb : t.regs.stat = .busy) :
    t.Running i ∧ t.work i + k ≤ s.work i := by
  induction hst with
  | refl => exact ⟨h, le_rfl⟩
  | cons _ hs hst ih =>
    rcases h.engineStep with ⟨v, hv, ha⟩ | hv
    · obtain rfl := Turn.went.inj (hv.symm.trans hs)
      obtain ⟨hfin, hlt⟩ := ha.finite h.finite
      obtain ⟨hrun, hle⟩ := ih ⟨ha.live h.toLive hv, (ha.frame hv).stat.trans h.busy, hfin⟩ hb
      exact ⟨hrun, by omega⟩
    · obtain rfl := Turn.went.inj (hv.symm.trans hs)
      rw [hst.eq_of_not_busy (complete_not_busy _ _)] at hb
      exact absurd hb (complete_not_busy _ _)

/-- The command ends from `s` in `t`. -/
def Reaches (s t : State) : Prop := t.regs.stat ≠ .busy ∧ ∃ k, Steps engineStep k s t

theorem Reaches.after (h : Reaches u t) (hst : Steps engineStep k s u) : Reaches s t := by
  obtain ⟨hend, k', hst'⟩ := h
  exact ⟨hend, k + k', hst.trans hst'⟩

theorem reaches_complete {e : Err} (h : Steps engineStep k s (complete e u)) : Reaches s (complete e u) :=
  ⟨complete_not_busy e u, k, h⟩

/-- From `s` to `t` the sink has accepted `out`, and OUT_COUNT has counted it. -/
structure Sends (s t : State) (out : List Byte) : Prop where
  held : t.env.sink.held = s.env.sink.held ++ out
  outCount : t.regs.outCount = s.regs.outCount + count32 out.length

theorem Sends.nothing (hk : t.env.sink = s.env.sink) (hc : t.regs.outCount = s.regs.outCount) : Sends s t [] :=
  ⟨by simp [hk], by simp [hc, count32]⟩

theorem Sends.trans (h : Sends s u out) (h' : Sends u t out') : Sends s t (out ++ out') :=
  ⟨by rw [h'.held, h.held, List.append_assoc],
    by rw [h'.outCount, h.outCount, List.length_append, count32_add, BitVec.add_assoc]⟩

/-! ### Flushing -/

/-- All that is pending has been accepted, and `calls` is left of the sink's call sizes. -/
def State.flushed (calls : List Nat) (s : State) : State := { s with eng.outq := [] }.sent s.eng.outq calls

theorem sends_flushed (calls : List Nat) (s : State) : Sends s (s.flushed calls) s.eng.outq := ⟨rfl, rfl⟩

theorem State.Running.flush (h : s.Running i) (hfit : s.env.sink.fits s.eng.outq.length = true) :
    ∃ k c, Steps engineStep k s (s.flushed c) := by
  obtain ⟨f, hf⟩ := exists_rule h.ne_clr
  obtain ⟨k, c, -, hst⟩ := flush_whole hf.toFlushes s h.busy hfit
  exact ⟨k, c, hf.steps h.opCur hst⟩

theorem State.Running.flush_short (h : s.Running i) {r : Nat} (hr : s.env.sink.room = some r)
    (hlt : r < s.eng.outq.length) :
    ∃ k c, Steps engineStep k s (complete .shortWrite (s.sent (s.eng.outq.take r) c).cutShort) := by
  obtain ⟨f, hf⟩ := exists_rule h.ne_clr
  obtain ⟨k, c, -, hst⟩ := Machine.flush_short hf.toFlushes s h.busy h.sink hr hlt
  exact ⟨k, c, hf.steps h.opCur hst⟩

theorem sends_cutShort (e : Err) (c : List Nat) (s : State) : Sends s (complete e (s.sent out c).cutShort) out :=
  ⟨rfl, by simp [count32]⟩

/-- With nothing pending in FINISH the command completes. -/
theorem State.Running.finish (h : s.Running i) (ho : s.eng.outq = []) (hp : s.eng.ph = .finish) :
    Steps engineStep 1 s (complete s.eng.outcome s) :=
  .one h.busy (engineStep_finish (by rw [h.opCur, instrOfOp_opOf]) h.ne_clr hp ho)

theorem fits_of_room {n m : Nat} {k : Sink} (hr : k.room = some n) (hle : m ≤ n) : k.fits m = true := by
  simp [Sink.fits, hr, hle]

theorem Alike.flushed (h : Alike d d' s s') (c c' : List Nat) : Alike d d' (s.flushed c) (s'.flushed c') := by
  obtain ⟨x, l, b, E, rfl, hx, hl, hb⟩ := h
  exact ⟨x, l, b, _, rfl, hx, hl, hb⟩

theorem Alike.cutShort (h : Alike d d' s s') (c c' : List Nat) :
    Alike d d' (s.sent out c).cutShort (s'.sent out c').cutShort := by
  obtain ⟨x, l, b, E, rfl, hx, -⟩ := h
  exact ⟨x, l, b, _, rfl, hx, nofun, fun hp => absurd rfl hp⟩

/-! ### Induction on two alike runs -/

theorem Pair.refl (h : s.Running i) : Pair i d d' s s := ⟨h, h, .refl .., rfl⟩

theorem Pair.of_steps (h : Pair i d d' s s') (hst : Steps engineStep j s t) (hst' : Steps engineStep j' s' t')
    (ha : Alike d d' t t') (hb : t.regs.stat = .busy) (hstream : t'.env.src.stream = t.env.src.stream) :
    Pair i d d' t t' :=
  ⟨(h.run.of_steps hst hb).1, (h.run'.of_steps hst' (ha.stat.trans hb)).1, ha, hstream⟩

/-- A property of two alike runs by the work left: it holds in FINISH with nothing pending, it holds where output is
pending if it holds once that is flushed, and it passes back over a pace of both. -/
theorem Pair.induction {P : State → State → Prop}
    (finish : ∀ {s s'}, Pair i d d' s s' → s.eng.outq = [] → s.eng.ph = .finish → P s s')
    (pending : ∀ {s s'}, Pair i d d' s s' → (∀ {j j' c c'}, Steps engineStep j s (s.flushed c) →
      Steps engineStep j' s' (s'.flushed c') →
      Pair i d d' (s.flushed c) (s'.flushed c') ∧ P (s.flushed c) (s'.flushed c')) → P s s')
    (pace : ∀ {s s' t t' j j'}, Steps engineStep j s t → Steps engineStep j' s' t' → t.env.sink = s.env.sink →
      t'.env.sink = s'.env.sink → Sends s t [] → Sends s' t' [] → P t t' → P s s')
    (h : Pair i d d' s s') : P s s' := by
  generalize hw : s.work i = w
  induction w using Nat.strong_induction_on generalizing s s' with
  | _ w ih =>
    by_cases ho : s.eng.outq = []
    · by_cases hp : s.eng.ph = .finish
      · exact finish h ho hp
      · obtain ⟨j, j', t, t', hj, hst, hst', ha, hb, hc, hstream, hk, hk'⟩ := h.paces ho hp
        have hle := (h.run.of_steps hst hb).2
        have hc' : t'.regs.outCount = s'.regs.outCount := by rw [ha.outCount, hc, h.alike.outCount]
        exact pace hst hst' hk hk' (.nothing hk hc) (.nothing hk' hc')
          (ih (t.work i) (by omega) (h.of_steps hst hst' ha hb hstream) rfl)
    · refine pending h fun {j j' c c'} hst hst' => ?_
      have hpos : 1 ≤ j := hst.pos fun hsame => ho (by rw [hsame]; rfl)
      have hle := (h.run.of_steps hst h.run.busy).2
      have hpair := h.of_steps hst hst' (h.alike.flushed c c') h.run.busy h.stream
      exact ⟨hpair, ih _ (by omega) hpair rfl⟩

/-! ### Equal room -/

/-- `t` and `t'`, where the runs from `s` and `s'` end, show the same: the registers, the output, what is left of the
input. -/
structure EndAlike (d d' : BitVec 9) (s s' t t' : State) (out : List Byte) : Prop where
  reaches : Reaches s t
  reaches' : Reaches s' t'
  sends : Sends s t out
  sends' : Sends s' t' out
  regs : RegsAlike d d' t.regs t'.regs
  stream : t'.env.src.stream = t.env.src.stream

theorem EndAlike.after {u u' : State} (h : EndAlike d d' u u' t t' out') (hst : Steps engineStep j s u)
    (hst' : Steps engineStep j' s' u') (hs : Sends s u out) (hs' : Sends s' u' out) :
    EndAlike d d' s s' t t' (out ++ out') :=
  ⟨h.reaches.after hst, h.reaches'.after hst', hs.trans h.sends, hs'.trans h.sends', h.regs, h.stream⟩

theorem Pair.end_finish (h : Pair i d d' s s') (ho : s.eng.outq = []) (hp : s.eng.ph = .finish) :
    ∃ t t', EndAlike d d' s s' t t' [] := by
  have houtcome : s'.eng.outcome = s.eng.outcome := by
    obtain ⟨x, l, b, E, hs, -⟩ := h.alike
    rw [hs, vary_eng]
  have hfin := h.run.finish ho hp
  have hfin' := h.run'.finish (h.alike.outq.trans ho) (h.alike.ph.trans hp)
  rw [houtcome] at hfin'
  exact ⟨_, _, reaches_complete hfin, reaches_complete hfin', .nothing rfl (by simp), .nothing rfl (by simp),
    h.alike.complete _, h.stream⟩

/-- Alike runs into sinks with equal room, whatever their calls, end alike (20_memory.md R71, R72). -/
theorem Pair.end_alike (h : Pair i d d' s s') (hroom : s'.env.sink.room = s.env.sink.room) :
    ∃ t t' out, EndAlike d d' s s' t t' out := by
  refine Pair.induction (P := fun s s' => s'.env.sink.room = s.env.sink.room →
    ∃ t t' out, EndAlike d d' s s' t t' out) ?_ ?_ ?_ h hroom
  · intro s s' h ho hp _
    obtain ⟨t, t', hend⟩ := h.end_finish ho hp
    exact ⟨t, t', [], hend⟩
  · intro s s' h ih hroom
    have hq := h.alike.outq
    by_cases hfit : s.env.sink.fits s.eng.outq.length = true
    · have hfit' : s'.env.sink.fits s'.eng.outq.length = true := by rwa [Sink.fits, hroom, hq]
      obtain ⟨k, c, hst⟩ := h.run.flush hfit
      obtain ⟨k', c', hst'⟩ := h.run'.flush hfit'
      obtain ⟨t, t', out, hend⟩ := (ih hst hst').2 (by simp [State.flushed, Sink.take, hroom, hq])
      have hs' := sends_flushed c' s'
      rw [hq] at hs'
      exact ⟨t, t', _, hend.after hst hst' (sends_flushed c s) hs'⟩
    · obtain ⟨r, hr, hlt⟩ := room_lt_of_not_fits (by simpa using hfit)
      obtain ⟨k, c, hst⟩ := h.run.flush_short hr hlt
      obtain ⟨k', c', hst'⟩ := h.run'.flush_short (hroom.trans hr) (by rwa [hq])
      rw [hq] at hst'
      exact ⟨_, _, _, reaches_complete hst, reaches_complete hst', sends_cutShort .., sends_cutShort ..,
        (h.alike.cutShort c c').complete _, h.stream⟩
  · intro s s' t t' j j' hst hst' hk hk' hs hs' ih hroom
    obtain ⟨v, v', out, hend⟩ := ih (by rw [hk, hk', hroom])
    exact ⟨v, v', out, hend.after hst hst' hs hs'⟩

/-! ### Commands -/

theorem accept_running (hi : i ≠ .clr) (h : s.ready data) : (accept (opOf i) (startPhase i) s).Running i :=
  ⟨accept_live hi (.inl h.srcEnds) h.sinkEnds, rfl, h.srcEnds⟩

theorem engineTurns_of_steps (h : Steps engineStep k s t) : engineTurns k s = .next t :=
  runTurns_of_steps (n := 0) h

/-- A command ends where its engine's steps from the acceptance do. -/
theorem exec_of_reaches (hi : i ≠ .clr) (h : s.ready data) (ht : Reaches (accept (opOf i) (startPhase i) s) t) :
    exec i s = .next t := by
  obtain ⟨hend, k, hst⟩ := ht
  obtain ⟨e, u, hrun, -⟩ := (accept_running hi h).engineRun rfl h.srcEnds
  rw [exec_eq_engineRun hi h.notBusy h.unpaced, hrun]
  exact congrArg _ (engineTurns_end_unique hrun (complete_not_busy e u) (engineTurns_of_steps hst) hend)

/-- Settles O56: the two acceptances are alike, and so are the ends. -/
theorem resultsDependOnOperandsOnly : Obligations.ResultsDependOnOperandsOnly := by
  intro i s s' data hi h h' hroom hcs hpol hn ha hdraw
  have hpair : Pair i s.regs.dictNext s'.regs.dictNext (accept (opOf i) (startPhase i) s)
      (accept (opOf i) (startPhase i) s') :=
    ⟨accept_running hi h, accept_running hi h', accept_alike hdraw hcs hpol hn ha i, h'.stream.trans h.stream.symm⟩
  obtain ⟨t, t', out, hend⟩ := hpair.end_alike hroom
  obtain ⟨x, hx, hnext⟩ := hend.regs
  refine ⟨t, t', out, exec_of_reaches hi h hend.reaches, exec_of_reaches hi h' hend.reaches', hend.sends.held,
    hend.sends'.held, hend.stream, ?_, ?_⟩
  · rw [hx]
  · rwa [hx]

/-! ### A sink with room against one that never answers short -/

/-- `t'` is the end of a run from `s'` whose sink had room for `r` bytes of the output `out` and no more: at a moment of
the run from `s` where the byte `out[r]` had been emitted and not yet accepted. -/
structure CutAt (r : Nat) (s s' t' : State) (out : List Byte) : Prop where
  reaches : Reaches s' t'
  sends : Sends s' t' (out.take r)
  stat : t'.regs.stat = .error
  err : t'.regs.err = .shortWrite
  moment : ∃ k p, Steps engineStep k s p ∧ p.env.sink.held.length ≤ s.env.sink.held.length + r ∧
    s.env.sink.held.length + r < (p.env.sink.held ++ p.eng.outq).length ∧ t'.regs.inCount = p.regs.inCount

theorem CutAt.after {u u' : State} {r : Nat} (h : CutAt (r - out.length) u u' t' out') (hle : out.length ≤ r)
    (hst : Steps engineStep j s u) (hst' : Steps engineStep j' s' u') (hs : Sends s u out) (hs' : Sends s' u' out) :
    CutAt r s s' t' (out ++ out') := by
  obtain ⟨k, p, hp, hheld, hmore, hcount⟩ := h.moment
  rw [hs.held, List.length_append] at hheld hmore
  refine ⟨h.reaches.after hst', ?_, h.stat, h.err, j + k, p, hst.trans hp, by omega, by omega, hcount⟩
  rw [List.take_append, List.take_of_length_le hle]
  exact hs'.trans h.sends

/-- The run from `s` is not cut, and the one from `s'`, with room for `r` bytes, ends as it does or is cut there. -/
structure Decided (d d' : BitVec 9) (r : Nat) (s s' t t' : State) (out : List Byte) : Prop where
  reaches : Reaches s t
  sends : Sends s t out
  whole : out.length ≤ r → EndAlike d d' s s' t t' out
  cut : r < out.length → CutAt r s s' t' out

theorem Decided.after {u u' : State} {r : Nat} (h : Decided d d' (r - out.length) u u' t t' out') (hle : out.length ≤ r)
    (hst : Steps engineStep j s u) (hst' : Steps engineStep j' s' u') (hs : Sends s u out) (hs' : Sends s' u' out) :
    Decided d d' r s s' t t' (out ++ out') := by
  refine ⟨h.reaches.after hst, hs.trans h.sends, fun hl => ?_, fun hl => ?_⟩ <;> rw [List.length_append] at hl
  · exact (h.whole (by omega)).after hst hst' hs hs'
  · exact (h.cut (by omega)).after hle hst hst' hs hs'

/-- The sink answers short in what is pending at `s'`; the run from `s` goes on past it. -/
theorem Pair.cut_pending (h : Pair i d d' s s') (hroom : s.env.sink.room = none) {r : Nat}
    (hr : s'.env.sink.room = some r) (hlt : r < s.eng.outq.length) : ∃ t t' out, Decided d d' r s s' t t' out := by
  obtain ⟨k, c, hst⟩ := h.run.flush (by simp [Sink.fits, hroom])
  obtain ⟨t, _, out, hend⟩ := (Pair.refl (d := d) (d' := d') (h.run.of_steps hst h.run.busy).1).end_alike rfl
  obtain ⟨k', c', hst'⟩ := h.run'.flush_short hr (by rwa [h.alike.outq])
  rw [h.alike.outq] at hst'
  have hlen : r < (s.eng.outq ++ out).length := by rw [List.length_append]; omega
  refine ⟨t, _, s.eng.outq ++ out, hend.reaches.after hst, (sends_flushed c s).trans hend.sends,
    fun hl => absurd hl (Nat.not_le.mpr hlen), fun _ => ⟨reaches_complete hst', ?_, rfl, rfl, 0, s, .refl s,
      Nat.le_add_right _ _, ?_, ?_⟩⟩
  · rw [List.take_append_of_le_length hlt.le]
    exact sends_cutShort ..
  · rw [List.length_append]
    omega
  · simpa using h.alike.inCount

theorem Pair.decided (h : Pair i d d' s s') (hroom : s.env.sink.room = none) {r : Nat}
    (hr : s'.env.sink.room = some r) : ∃ t t' out, Decided d d' r s s' t t' out := by
  refine Pair.induction (P := fun s s' => ∀ r, s.env.sink.room = none → s'.env.sink.room = some r →
    ∃ t t' out, Decided d d' r s s' t t' out) ?_ ?_ ?_ h r hroom hr
  · intro s s' h ho hp r _ _
    obtain ⟨t, t', hend⟩ := h.end_finish ho hp
    exact ⟨t, t', [], hend.reaches, hend.sends, fun _ => hend, fun hlt => absurd hlt (Nat.not_lt_zero r)⟩
  · intro s s' h ih r hroom hr
    have hq := h.alike.outq
    by_cases hlt : r < s.eng.outq.length
    · exact h.cut_pending hroom hr hlt
    · have hle : s.eng.outq.length ≤ r := Nat.not_lt.mp hlt
      obtain ⟨k, c, hst⟩ := h.run.flush (by simp [Sink.fits, hroom])
      obtain ⟨k', c', hst'⟩ := h.run'.flush (fits_of_room hr (by rwa [hq]))
      obtain ⟨t, t', out, hdec⟩ := (ih hst hst').2 (r - s.eng.outq.length) (by simp [State.flushed, Sink.take, hroom])
        (by simp [State.flushed, Sink.take, hr, hq])
      have hs' := sends_flushed c' s'
      rw [hq] at hs'
      exact ⟨t, t', _, hdec.after hle hst hst' (sends_flushed c s) hs'⟩
  · intro s s' t t' j j' hst hst' hk hk' hs hs' ih r hroom hr
    obtain ⟨v, v', out, hdec⟩ := ih r (by rw [hk, hroom]) (by rw [hk', hr])
    exact ⟨v, v', out, hdec.after (out := []) (Nat.zero_le r) hst hst' hs hs'⟩

/-- Settles O57: the acceptances with and without a limit are alike, and the run without one decides the other's end. -/
theorem sinkDrawDecidesTheEnd : Obligations.SinkDrawDecidesTheEnd := by
  intro i s data a hi h hroom
  set s' : State := { s with env.nextSink.room := some a }
  have h' : s'.ready data := ⟨h.notBusy, h.stream, h.srcEnds, h.sinkEnds, h.unpaced⟩
  have hpair : Pair i s.regs.dictNext s.regs.dictNext (accept (opOf i) (startPhase i) s)
      (accept (opOf i) (startPhase i) s') :=
    ⟨accept_running hi h, accept_running hi h', accept_alike rfl rfl rfl rfl rfl i, rfl⟩
  obtain ⟨t, u, out, hdec⟩ := hpair.decided hroom (r := a) rfl
  have hcount : t.regs.outCount = count32 out.length := hdec.sends.outCount.trans (BitVec.zero_add _)
  have hu : Reaches (accept (opOf i) (startPhase i) s') u := by
    by_cases hlt : a < out.length
    · exact (hdec.cut hlt).reaches
    · exact (hdec.whole (Nat.not_lt.mp hlt)).reaches'
  refine ⟨t, u, out, exec_of_reaches hi h hdec.reaches, exec_of_reaches hi h' hu, hdec.sends.held, hcount,
    fun hle => ?_, fun hlt => ?_⟩
  · have hend := hdec.whole hle
    obtain ⟨x, hx, hnext⟩ := hend.regs
    refine ⟨?_, hend.sends'.held.trans hend.sends.held.symm⟩
    obtain rfl : x = t.regs.dictNext := by
      rcases hnext with hsame | ⟨hx0, ht0⟩
      · exact hsame
      · exact hx0.trans ht0.symm
    exact hx
  · obtain ⟨-, hsends, hstat, herr, n, p, hp, hheld, hmore, hin⟩ := hdec.cut hlt
    have hout := hsends.outCount
    rw [List.length_take_of_le hlt.le] at hout
    have hpause : exec i { s with env.quota := some n } = .next p :=
      (exec_eq_engineTurns (s := { s with env.quota := some n }) hi h.notBusy).trans (engineTurns_of_steps hp)
    exact ⟨hstat, herr, hout.trans (BitVec.zero_add _), hsends.held, n, p, hpause, hheld, hmore, hin⟩

end Sys2Proof.Machine
end
